-- ==== Sys2Proof/Word.lean ====
section
/-!
DEFINITION. The word types of the VideoFrameDecoder block (VFD-1).
Every register is 32 bits wide (spec/10_state.md R20) and the buffers are made of bytes (spec/20_memory.md R70).
-/

namespace Sys2Proof

/-- A register word (R20). -/
abbrev Word := BitVec 32

/-- One byte of `VIN` or `NIN` (R70). -/
abbrev Byte := BitVec 8

end Sys2Proof
end

