-- ==== Sys2Proof/Config.lean ====
section
/-!
DEFINITION. What an implementation fixes (the OPEN parameters of spec/00_scope.md R8 and spec/92_eei_decisions.md
section 2) and the free values (spec/93_implementation_defined.md part 1, treatment `any value`).

The parameters are plain data: a `Config` is a field of the machine's state that no step changes, so a statement about
every state is a statement about every choice of parameters (assumption 1).  The free values are constants without a
body: nothing can be proved about which value they take (assumptions 2, 3 and 4).
-/

namespace Sys2Proof

/-- Which inverse transform the block is built with (R290): the reference instance of R294 to R300, or another one,
named by a number, of which only the form R292 and the property R291 are known. -/
inductive IdctChoice where
  | reference
  | other (k : Nat)
deriving DecidableEq, Repr

/-- The OPEN parameters of R8 (and `VFD_BASE` of R71). -/
structure Config where
  /-- `VFD_BASE`, the block's base address on the platform bus (R71). -/
  vfdBase : Nat
  /-- `VIN_BYTES`. -/
  vinBytes : Nat
  /-- `NIN_BYTES`. -/
  ninBytes : Nat
  /-- `PIX_ENTRIES`. -/
  pixEntries : Nat
  /-- `GRID_MAX_MBS`. -/
  gridMaxMbs : Nat
  /-- `COEF_BITS`. -/
  coefBits : Nat
  /-- `SAMPLE_BITS`. -/
  sampleBits : Nat
  /-- `IDCT`. -/
  idct : IdctChoice
  /-- `CC`: the constant `K_RV`. -/
  kRV : Int
  /-- `CC`: the constant `K_GU`. -/
  kGU : Int
  /-- `CC`: the constant `K_GV`. -/
  kGV : Int
  /-- `CC`: the constant `K_BU`. -/
  kBU : Int
deriving DecidableEq, Repr

/-- The reference values of R8.  `VFD_BASE` has no reference value; 0 is the model's (assumption 1). -/
def Config.reference : Config where
  vfdBase := 0
  vinBytes := 65536
  ninBytes := 4096
  pixEntries := 307200
  gridMaxMbs := 40
  coefBits := 16
  sampleBits := 16
  idct := .reference
  kRV := 359
  kGU := 88
  kGV := 183
  kBU := 454

/-- The constraints the spec puts on the parameters (spec/92_eei_decisions.md section 2, R8, R71).  The constraint on `IDCT`,
R291 and R292, needs no check: every `IdctChoice` is a transform of that form (`idctApply`). -/
def Config.valid (c : Config) : Bool :=
  c.vinBytes % 4 == 0 && decide (c.vinBytes ≤ 0x100000) && decide (c.ninBytes ≤ 0x100000) &&
  decide (6336 ≤ c.pixEntries) && decide (c.pixEntries ≤ 0x100000) && decide (5 ≤ c.gridMaxMbs) &&
  decide (16 ≤ c.coefBits) && decide (c.coefBits ≤ 32) && decide (16 ≤ c.sampleBits) && decide (c.sampleBits ≤ 32)

/-- The two byte buffers of R70. -/
inductive Buffer where
  | vin
  | nin
deriving DecidableEq, Repr

/-- FREE VALUE (assumption 2).  The byte a unit reads at an address of a buffer that nothing has written since power-on
(R413, U4: the bytes are an argument of the model). -/
opaque Config.powerOnByte : Buffer → Nat → Byte

/-- FREE VALUE (assumption 3).  The word the host gets on its `k`-th read where the spec says `any value`: a register or
pixel read while its unit is busy (R433, U6), a byte or pixel that nothing has written (R413, U4). -/
opaque Config.anyWord : Nat → Word

/-- The form R292 asks of a transform: fixed point, separable, two passes of one 1-D kernel of 8 points with integer
constants scaled by `2^13`, and `PASS1_BITS` more fraction bits between the passes.  What R292 leaves open is a part of this
record: the constants, the bits, the order of the passes, the rounding, the widths (assumption 4).  It is no part of the
machine's state. -/
structure TransformForm where
  /-- `PASS1_BITS`: pass 1 drops `13 - PASS1_BITS` bits, pass 2 `13 + PASS1_BITS + normBits`. -/
  pass1Bits : Fin 14
  /-- The bits of the 2-D transform's normalisation, dropped by pass 2 (3 in R298). -/
  normBits : Nat
  /-- Pass 1 runs over the rows and pass 2 over the columns, the source's order (R296); else the other way round. -/
  rowsFirst : Bool
  /-- The constant of input 0, the same for every output, as the DC-only property needs (R291). -/
  dc : Int
  /-- The constant of output `i` for input `j`, `j` from 1 to 7. -/
  ac : Nat → Nat → Int
  /-- Whether pass `p` rounds the exact sum `x` up when the bits it drops are not all zero. -/
  roundsUp : Nat → Int → Bool
  /-- The signed bits pass `p` keeps of a result; a vector with nothing but input 0 may have a width of its own (the fast
  paths of R297 and R298). -/
  width : Nat → Bool → Nat
deriving Inhabited

/-- FREE VALUE (assumption 4).  Transform `k`: some transform of the form of R292 (R290). -/
opaque Config.transformForm : Nat → TransformForm

end Sys2Proof
end

