-- ==== Sys2Proof/Syntax.lean ====
section
/-!
DEFINITION. The block's instructions: one constructor per row of spec/opcode_table.json, in the table's order.
The rows are of four kinds (R2, R104): command words, register writes that act as operations, the syntax elements of
the video stream, and the forms of a NavData datagram.
-/

namespace Sys2Proof

/-- The instructions.  An operand is a field of the row's encoding that the row does not fix. -/
inductive Instr where
  /-- `V.NOP` (R141). -/
  | vNop
  /-- `V.DECODE` (R210). -/
  | vDecode
  /-- `BR.INIT` (R142). -/
  | brInit
  /-- `BR.READ n` (R143). -/
  | brRead (n : BitVec 6)
  /-- `BR.PEEK n` (R144). -/
  | brPeek (n : BitVec 6)
  /-- `BR.ALIGN` (R145). -/
  | brAlign
  /-- `BR.HASREM` (R146). -/
  | brHasrem
  /-- `BR.RLDEC` (R258). -/
  | brRldec
  /-- `N.NOP` (R170). -/
  | nNop
  /-- `N.DECODE` (R171). -/
  | nDecode
  /-- The `SOFT_RESET` write (R350): bit 1 resets the NDU, bit 0 the VDU. -/
  | softReset (n : Bool) (v : Bool)
  /-- The `IRQ_STATUS` write, write one to clear (R351). -/
  | irqStatusW1c (m : BitVec 5)
  /-- The `IRQ_ENABLE` write (R352). -/
  | irqEnable (e : BitVec 5)
  /-- The `V_LEN` write (R353). -/
  | vLen (l : BitVec 32)
  /-- The `N_LEN` write (R354). -/
  | nLen (l : BitVec 32)
  /-- `SC`: a start code that is not the end of the picture, slice number `s` (R111). -/
  | sc (s : BitVec 5)
  /-- `EOP`: the end-of-picture start code (R114). -/
  | eop
  /-- `PICTURE_HEADER`: `PFORMAT`, `PRES`, `PTYPE`, `PQUANT`, `PFRAME` (R112). -/
  | pictureHeader (f : BitVec 2) (r : BitVec 3) (t : BitVec 3) (q : BitVec 5) (i : BitVec 32)
  /-- `SQUANT` (R113). -/
  | squant (q : BitVec 5)
  /-- `MBC` = 1, an empty macroblock (R116). -/
  | mbcEmpty
  /-- `MBC` = 0, a coded macroblock (R116). -/
  | mbcCoded
  /-- `MBDES` (R117). -/
  | mbdes (d : BitVec 8)
  /-- `MBDIFF` (R118). -/
  | mbdiff (d : BitVec 2)
  /-- `DC` (R119). -/
  | dc (d : BitVec 10)
  /-- `RUN_Z0` (R120). -/
  | runZ0
  /-- `RUN_Z1` (R120). -/
  | runZ1
  /-- `RUN_Z2`: 2 zeros, a one, then `t` (R120). -/
  | runZ2 (t : BitVec 1)
  /-- `RUN_Z3`: 3 zeros, a one, then `t` (R120). -/
  | runZ3 (t : BitVec 2)
  /-- `RUN_Z4`: 4 zeros, a one, then `t` (R120). -/
  | runZ4 (t : BitVec 3)
  /-- `RUN_Z5`: 5 zeros, a one, then `t` (R120). -/
  | runZ5 (t : BitVec 4)
  /-- `RUN_Z6`: 6 zeros, a one, then `t` (R120). -/
  | runZ6 (t : BitVec 5)
  /-- `RUN_Z7`: 7 zeros, a one, then `t` (R120). -/
  | runZ7 (t : BitVec 6)
  /-- `RUN_Z8`: 8 zeros, a one, then `t` (R120). -/
  | runZ8 (t : BitVec 7)
  /-- `RUN_Z9`: 9 zeros, a one, then `t` (R120). -/
  | runZ9 (t : BitVec 8)
  /-- `RUN_Z10`: 10 zeros, a one, then `t` (R120). -/
  | runZ10 (t : BitVec 9)
  /-- `RUN_Z11`: 11 zeros, a one, then `t` (R120). -/
  | runZ11 (t : BitVec 10)
  /-- `RUN_Z12`: 12 zeros, a one, then `t` (R120). -/
  | runZ12 (t : BitVec 11)
  /-- `RUN_Z13`: 13 zeros, a one, then `t` (R120). -/
  | runZ13 (t : BitVec 12)
  /-- `RUN_Z14`: 14 zeros, a one, then `t` (R120). -/
  | runZ14 (t : BitVec 13)
  /-- `RUN_Z15`: 15 zeros, a one, then `t` (R120). -/
  | runZ15 (t : BitVec 14)
  /-- `RUN_OVF`: a run prefix of 16 or more zeros (R124). -/
  | runOvf
  /-- `LEVEL_Z0`: a one, the sign `s` (R121). -/
  | levelZ0 (s : Bool)
  /-- `EOB`: the level code of end of block (R122). -/
  | eob
  /-- `LEVEL_Z2`: 2 zeros, a one, the magnitude bits `m`, the sign `s` (R121). -/
  | levelZ2 (m : BitVec 1) (s : Bool)
  /-- `LEVEL_Z3`: 3 zeros, a one, the magnitude bits `m`, the sign `s` (R121). -/
  | levelZ3 (m : BitVec 2) (s : Bool)
  /-- `LEVEL_Z4`: 4 zeros, a one, the magnitude bits `m`, the sign `s` (R121). -/
  | levelZ4 (m : BitVec 3) (s : Bool)
  /-- `LEVEL_Z5`: 5 zeros, a one, the magnitude bits `m`, the sign `s` (R121). -/
  | levelZ5 (m : BitVec 4) (s : Bool)
  /-- `LEVEL_Z6`: 6 zeros, a one, the magnitude bits `m`, the sign `s` (R121). -/
  | levelZ6 (m : BitVec 5) (s : Bool)
  /-- `LEVEL_Z7`: 7 zeros, a one, the magnitude bits `m`, the sign `s` (R121). -/
  | levelZ7 (m : BitVec 6) (s : Bool)
  /-- `LEVEL_Z8`: 8 zeros, a one, the magnitude bits `m`, the sign `s` (R121). -/
  | levelZ8 (m : BitVec 7) (s : Bool)
  /-- `LEVEL_Z9`: 9 zeros, a one, the magnitude bits `m`, the sign `s` (R121). -/
  | levelZ9 (m : BitVec 8) (s : Bool)
  /-- `LEVEL_Z10`: 10 zeros, a one, the magnitude bits `m`, the sign `s` (R121). -/
  | levelZ10 (m : BitVec 9) (s : Bool)
  /-- `LEVEL_Z11`: 11 zeros, a one, the magnitude bits `m`, the sign `s` (R121). -/
  | levelZ11 (m : BitVec 10) (s : Bool)
  /-- `LEVEL_Z12`: 12 zeros, a one, the magnitude bits `m`, the sign `s` (R121). -/
  | levelZ12 (m : BitVec 11) (s : Bool)
  /-- `LEVEL_Z13`: 13 zeros, a one, the magnitude bits `m`, the sign `s` (R121). -/
  | levelZ13 (m : BitVec 12) (s : Bool)
  /-- `LEVEL_Z14`: 14 zeros, a one, the magnitude bits `m`, the sign `s` (R121). -/
  | levelZ14 (m : BitVec 13) (s : Bool)
  /-- `LEVEL_Z15`: 15 zeros, a one, the magnitude bits `m`, the sign `s` (R121). -/
  | levelZ15 (m : BitVec 14) (s : Bool)
  /-- `NAV_HEADER`: the 16-byte datagram header (R128). -/
  | navHeader (magic status sequence visionDefined : BitVec 32)
  /-- `NAV_RECORD_HEADER`: the 4-byte record header (R129). -/
  | navRecordHeader (tag size : BitVec 16)
  /-- `NAV_DEMO`: the tag of a demo record (R130); its fields are read from `NIN`. -/
  | navDemo
  /-- `NAV_VISION`: the tag of a vision-detect record (R131). -/
  | navVision
  /-- `NAV_CHECKSUM`: the tag of a checksum record (R132). -/
  | navChecksum
  /-- `NAV_UNKNOWN`: a tag that is skipped by size (R133, R182). -/
  | navUnknown (tag : BitVec 16)
deriving DecidableEq, Repr

end Sys2Proof
end

