-- ==== Sys2Proof/WellFormed.lean ====
section
/-!
DEFINITION. Which instructions have an encoding: the operand values that spec/30_encoding.md forbids.
-/

namespace Sys2Proof

/-- A bit count of `BR.READ` and `BR.PEEK` is 1 to 32 (R101, R103). -/
def bitCountOk (n : BitVec 6) : Bool := decide (1 ≤ n.toNat) && decide (n.toNat ≤ 32)

/-- The slice number `0x1F` is the end-of-picture marker, so no `SC` carries it (R111). -/
def sliceNumberOk (s : BitVec 5) : Bool := s != 0x1F#5

/-- The instructions whose operands are values the encoding admits.  Every other operand may take any value: a
`PFORMAT`, `PRES` or `MBDES[7]` the spec calls illegal or reserved is read first and judged by the meaning (R215, R127). -/
def Instr.wellFormed : Instr → Bool
  | .brRead n => bitCountOk n
  | .brPeek n => bitCountOk n
  | .sc s => sliceNumberOk s
  | .vNop | .vDecode | .brInit | .brAlign | .brHasrem | .brRldec | .nNop | .nDecode | .softReset _ _
  | .irqStatusW1c _ | .irqEnable _ | .vLen _ | .nLen _ | .eop | .pictureHeader _ _ _ _ _ | .squant _
  | .mbcEmpty | .mbcCoded | .mbdes _ | .mbdiff _ | .dc _ | .runZ0 | .runZ1 | .runZ2 _ | .runZ3 _ | .runZ4 _
  | .runZ5 _ | .runZ6 _ | .runZ7 _ | .runZ8 _ | .runZ9 _ | .runZ10 _ | .runZ11 _ | .runZ12 _ | .runZ13 _
  | .runZ14 _ | .runZ15 _ | .runOvf | .levelZ0 _ | .eob | .levelZ2 _ _ | .levelZ3 _ _ | .levelZ4 _ _
  | .levelZ5 _ _ | .levelZ6 _ _ | .levelZ7 _ _ | .levelZ8 _ _ | .levelZ9 _ _ | .levelZ10 _ _ | .levelZ11 _ _
  | .levelZ12 _ _ | .levelZ13 _ _ | .levelZ14 _ _ | .levelZ15 _ _ | .navHeader _ _ _ _ | .navRecordHeader _ _
  | .navDemo | .navVision | .navChecksum | .navUnknown _ => true

end Sys2Proof
end

