-- ==== Sys2Proof/Decode.lean ====
section
/-!
DEFINITION. The decoder and the encoder of spec/30_encoding.md.

The block has no single instruction stream: which row of the table a group of bits can be depends on where it stands (a
word written to `V_CMD`, the value of a register write, the next element the video unit expects, the next form the
NavData unit expects).  `DecCtx` is that place, `decode` reads the bits found there.  The bits come as one number: for a
command word or a register write the 32-bit word; for a video element the bits of the stream from the cursor on, first
bit most significant (R77); for a NavData form its bytes, little-endian (R78).
-/

namespace Sys2Proof

/-- Where the bits to decode stand. -/
inductive DecCtx where
  /-- A word written to `V_CMD` (R100, R101). -/
  | vCmd
  /-- A word written to `N_CMD` (R100, R102). -/
  | nCmd
  /-- A word written to `SOFT_RESET` (R350). -/
  | softReset
  /-- A word written to `IRQ_STATUS` (R351). -/
  | irqStatus
  /-- A word written to `IRQ_ENABLE` (R352). -/
  | irqEnable
  /-- A word written to `V_LEN` (R353). -/
  | vLen
  /-- A word written to `N_LEN` (R354). -/
  | nLen
  /-- The stream, at a header: a start code (R111, R114). -/
  | startCode
  /-- The stream, after the first start code of a picture (R112). -/
  | pictureHeader
  /-- The stream, after the start code of a later slice (R113). -/
  | sliceQuant
  /-- The stream, at the empty flag of a macroblock (R116). -/
  | mbc
  /-- The stream, at the coefficient-presence bitmap (R117). -/
  | mbdes
  /-- The stream, at the quantizer delta (R118). -/
  | mbdiff
  /-- The stream, at the DC of a block (R119). -/
  | dc
  /-- The 32-bit window, at a run code (R120). -/
  | run
  /-- What is left of the window after a run code, left-justified, at a level code (R121). -/
  | level
  /-- The first 16 bytes of a datagram (R128). -/
  | navHeader
  /-- The 4 bytes of a record header (R129). -/
  | navRecordHeader
  /-- The tag of a record whose header gave this `size` (R178). -/
  | navRecord (size : BitVec 16)
deriving DecidableEq, Repr

/-- How many bits the decoder looks at. -/
def DecCtx.width : DecCtx → Nat
  | .vCmd | .nCmd | .softReset | .irqStatus | .irqEnable | .vLen | .nLen => 32
  | .startCode => 22
  | .pictureHeader => 45
  | .sliceQuant => 5
  | .mbc => 1
  | .mbdes => 8
  | .mbdiff => 2
  | .dc => 10
  | .run | .level => 32
  | .navHeader => 128
  | .navRecordHeader => 32
  | .navRecord _ => 16

/-- Why no instruction is read. -/
inductive Reject where
  /-- `OP` is not assigned for this register (R103). -/
  | illegalOp
  /-- `N` is outside the range its operation allows (R103). -/
  | badCount
  /-- `RSV` is not 0 (R103). -/
  | reservedBits
  /-- `SC[21:5]` is not 1 (R111, R213). -/
  | badStartCode
  /-- The level prefix leaves no room for its code in any window (R123, R259). -/
  | levelOverflow
deriving DecidableEq, Repr

/-- `w[lo + n - 1 : lo]` (R10). -/
def bitField (w lo n : Nat) : Nat := w / 2 ^ lo % 2 ^ n

/-- `clz32` (R11): the leading zero bits of a 32-bit value. -/
def clz32 (w : Nat) : Nat := if w = 0 then 32 else 31 - Nat.log2 w

/-- A VDU command word (R100, R101, R103). -/
def decodeVCmd (w : Nat) : Except Reject Instr :=
  let n := bitField w 8 6
  let plain (i : Instr) : Except Reject Instr := if n = 0 then .ok i else .error .badCount
  let counted (i : Instr) : Except Reject Instr := if 1 ≤ n ∧ n ≤ 32 then .ok i else .error .badCount
  if bitField w 14 18 ≠ 0 then .error .reservedBits
  else match bitField w 0 8 with
    | 0x00 => plain .vNop
    | 0x01 => plain .vDecode
    | 0x10 => plain .brInit
    | 0x11 => counted (.brRead (BitVec.ofNat 6 n))
    | 0x12 => counted (.brPeek (BitVec.ofNat 6 n))
    | 0x13 => plain .brAlign
    | 0x14 => plain .brHasrem
    | 0x15 => plain .brRldec
    | _ => .error .illegalOp

/-- An NDU command word (R100, R102, R103). -/
def decodeNCmd (w : Nat) : Except Reject Instr :=
  let plain (i : Instr) : Except Reject Instr := if bitField w 8 6 = 0 then .ok i else .error .badCount
  if bitField w 14 18 ≠ 0 then .error .reservedBits
  else match bitField w 0 8 with
    | 0x00 => plain .nNop
    | 0x01 => plain .nDecode
    | _ => .error .illegalOp

/-- A 22-bit start code (R111, R114, R213). -/
def decodeStartCode (w : Nat) : Except Reject Instr :=
  if bitField w 5 17 ≠ 1 then .error .badStartCode
  else if bitField w 0 5 = 0x1F then .ok .eop
  else .ok (.sc (BitVec.ofNat 5 (bitField w 0 5)))

/-- The 45 bits of a picture header, in the order of R112. -/
def decodePictureHeader (w : Nat) : Instr :=
  .pictureHeader (BitVec.ofNat 2 (bitField w 43 2)) (BitVec.ofNat 3 (bitField w 40 3))
    (BitVec.ofNat 3 (bitField w 37 3)) (BitVec.ofNat 5 (bitField w 32 5)) (BitVec.ofNat 32 (bitField w 0 32))

/-- The `z - 1` bits `t` after the prefix of `z` zeros and its one, in a 32-bit window (R120). -/
def runTail (w z : Nat) : BitVec (z - 1) := BitVec.ofNat (z - 1) (w / 2 ^ (32 - 2 * z))

/-- The `z - 1` magnitude bits of a level code with a prefix of `z` zeros (R121). -/
def levelTail (w z : Nat) : BitVec (z - 1) := BitVec.ofNat (z - 1) (w / 2 ^ (32 - 2 * z))

/-- The sign bit of a level code with a prefix of `z` zeros: its last bit (R121). -/
def levelSign (w z : Nat) : Bool := w.testBit (32 - (2 * z + 1))

/-- A run code at the head of a 32-bit window (R120, R124). -/
def decodeRun (w : Nat) : Instr :=
  match clz32 w with
  | 0 => .runZ0
  | 1 => .runZ1
  | 2 => .runZ2 (runTail w 2)
  | 3 => .runZ3 (runTail w 3)
  | 4 => .runZ4 (runTail w 4)
  | 5 => .runZ5 (runTail w 5)
  | 6 => .runZ6 (runTail w 6)
  | 7 => .runZ7 (runTail w 7)
  | 8 => .runZ8 (runTail w 8)
  | 9 => .runZ9 (runTail w 9)
  | 10 => .runZ10 (runTail w 10)
  | 11 => .runZ11 (runTail w 11)
  | 12 => .runZ12 (runTail w 12)
  | 13 => .runZ13 (runTail w 13)
  | 14 => .runZ14 (runTail w 14)
  | 15 => .runZ15 (runTail w 15)
  | _ => .runOvf

/-- A level code at the head of what is left of the window (R121, R122).  A prefix of 16 or more zeros never fits. -/
def decodeLevel (w : Nat) : Except Reject Instr :=
  match clz32 w with
  | 0 => .ok (.levelZ0 (w.testBit 30))
  | 1 => .ok .eob
  | 2 => .ok (.levelZ2 (levelTail w 2) (levelSign w 2))
  | 3 => .ok (.levelZ3 (levelTail w 3) (levelSign w 3))
  | 4 => .ok (.levelZ4 (levelTail w 4) (levelSign w 4))
  | 5 => .ok (.levelZ5 (levelTail w 5) (levelSign w 5))
  | 6 => .ok (.levelZ6 (levelTail w 6) (levelSign w 6))
  | 7 => .ok (.levelZ7 (levelTail w 7) (levelSign w 7))
  | 8 => .ok (.levelZ8 (levelTail w 8) (levelSign w 8))
  | 9 => .ok (.levelZ9 (levelTail w 9) (levelSign w 9))
  | 10 => .ok (.levelZ10 (levelTail w 10) (levelSign w 10))
  | 11 => .ok (.levelZ11 (levelTail w 11) (levelSign w 11))
  | 12 => .ok (.levelZ12 (levelTail w 12) (levelSign w 12))
  | 13 => .ok (.levelZ13 (levelTail w 13) (levelSign w 13))
  | 14 => .ok (.levelZ14 (levelTail w 14) (levelSign w 14))
  | 15 => .ok (.levelZ15 (levelTail w 15) (levelSign w 15))
  | _ => .error .levelOverflow

/-- The 16 bytes of a NavData header as one little-endian number (R128). -/
def decodeNavHeader (w : Nat) : Instr :=
  .navHeader (BitVec.ofNat 32 (bitField w 0 32)) (BitVec.ofNat 32 (bitField w 32 32))
    (BitVec.ofNat 32 (bitField w 64 32)) (BitVec.ofNat 32 (bitField w 96 32))

/-- A record is selected by its tag; a recognised tag whose record is shorter than its layout is skipped like an unknown
one (R130 to R133, R178, R182). -/
def decodeNavRecord (size : BitVec 16) (w : Nat) : Instr :=
  let tag := bitField w 0 16
  if tag = 0x0000 ∧ 40 ≤ size.toNat then .navDemo
  else if tag = 0x0010 ∧ 120 ≤ size.toNat then .navVision
  else if tag = 0xFFFF ∧ 8 ≤ size.toNat then .navChecksum
  else .navUnknown (BitVec.ofNat 16 tag)

/-- The decoder: total on any bits, and a refusal has a name. -/
def decode (c : DecCtx) (w : Nat) : Except Reject Instr :=
  match c with
  | .vCmd => decodeVCmd w
  | .nCmd => decodeNCmd w
  | .softReset => .ok (.softReset (w.testBit 1) (w.testBit 0))
  | .irqStatus => .ok (.irqStatusW1c (BitVec.ofNat 5 w))
  | .irqEnable => .ok (.irqEnable (BitVec.ofNat 5 w))
  | .vLen => .ok (.vLen (BitVec.ofNat 32 w))
  | .nLen => .ok (.nLen (BitVec.ofNat 32 w))
  | .startCode => decodeStartCode w
  | .pictureHeader => .ok (decodePictureHeader w)
  | .sliceQuant => .ok (.squant (BitVec.ofNat 5 w))
  | .mbc => .ok (if w % 2 = 1 then .mbcEmpty else .mbcCoded)
  | .mbdes => .ok (.mbdes (BitVec.ofNat 8 w))
  | .mbdiff => .ok (.mbdiff (BitVec.ofNat 2 w))
  | .dc => .ok (.dc (BitVec.ofNat 10 w))
  | .run => .ok (decodeRun (w % 2 ^ 32))
  | .level => decodeLevel (w % 2 ^ 32)
  | .navHeader => .ok (decodeNavHeader w)
  | .navRecordHeader => .ok (.navRecordHeader (BitVec.ofNat 16 w) (BitVec.ofNat 16 (w / 2 ^ 16)))
  | .navRecord size => .ok (decodeNavRecord size w)

/-! ## The encoder -/

/-- A code: how many bits, and their value with the first (or most significant) bit at the top. -/
structure Code where
  len : Nat
  val : Nat
deriving DecidableEq, Repr

/-- A command word: `OP` in bits 7:0, `N` in bits 13:8, `RSV` = 0 (R100). -/
def commandCode (op n : Nat) : Code := ⟨32, n * 2 ^ 8 + op⟩

/-- A run code with a prefix of `z ≥ 2` zeros: `z` zeros, a one, the `z - 1` bits of `t` (R120). -/
def runCode (z t : Nat) : Code := ⟨2 * z, 2 ^ (z - 1) + t⟩

/-- A level code with a prefix of `z ≥ 2` zeros: `z` zeros, a one, the `z - 1` bits of `m`, the sign (R121). -/
def levelCode (z m : Nat) (s : Bool) : Code := ⟨2 * z + 1, (2 ^ (z - 1) + m) * 2 + s.toNat⟩

/-- The bits of an instruction (spec/30_encoding.md). -/
def encode : Instr → Code
  | .vNop => commandCode 0x00 0
  | .vDecode => commandCode 0x01 0
  | .brInit => commandCode 0x10 0
  | .brRead n => commandCode 0x11 n.toNat
  | .brPeek n => commandCode 0x12 n.toNat
  | .brAlign => commandCode 0x13 0
  | .brHasrem => commandCode 0x14 0
  | .brRldec => commandCode 0x15 0
  | .nNop => commandCode 0x00 0
  | .nDecode => commandCode 0x01 0
  | .softReset n v => ⟨32, n.toNat * 2 + v.toNat⟩
  | .irqStatusW1c m => ⟨32, m.toNat⟩
  | .irqEnable e => ⟨32, e.toNat⟩
  | .vLen l => ⟨32, l.toNat⟩
  | .nLen l => ⟨32, l.toNat⟩
  | .sc s => ⟨22, 2 ^ 5 + s.toNat⟩
  | .eop => ⟨22, 2 ^ 5 + 0x1F⟩
  | .pictureHeader f r t q i =>
    ⟨45, f.toNat * 2 ^ 43 + r.toNat * 2 ^ 40 + t.toNat * 2 ^ 37 + q.toNat * 2 ^ 32 + i.toNat⟩
  | .squant q => ⟨5, q.toNat⟩
  | .mbcEmpty => ⟨1, 1⟩
  | .mbcCoded => ⟨1, 0⟩
  | .mbdes d => ⟨8, d.toNat⟩
  | .mbdiff d => ⟨2, d.toNat⟩
  | .dc d => ⟨10, d.toNat⟩
  | .runZ0 => ⟨1, 1⟩
  | .runZ1 => ⟨2, 1⟩
  | .runZ2 t => runCode 2 t.toNat
  | .runZ3 t => runCode 3 t.toNat
  | .runZ4 t => runCode 4 t.toNat
  | .runZ5 t => runCode 5 t.toNat
  | .runZ6 t => runCode 6 t.toNat
  | .runZ7 t => runCode 7 t.toNat
  | .runZ8 t => runCode 8 t.toNat
  | .runZ9 t => runCode 9 t.toNat
  | .runZ10 t => runCode 10 t.toNat
  | .runZ11 t => runCode 11 t.toNat
  | .runZ12 t => runCode 12 t.toNat
  | .runZ13 t => runCode 13 t.toNat
  | .runZ14 t => runCode 14 t.toNat
  | .runZ15 t => runCode 15 t.toNat
  | .runOvf => ⟨16, 0⟩
  | .levelZ0 s => ⟨2, 2 + s.toNat⟩
  | .eob => ⟨2, 1⟩
  | .levelZ2 m s => levelCode 2 m.toNat s
  | .levelZ3 m s => levelCode 3 m.toNat s
  | .levelZ4 m s => levelCode 4 m.toNat s
  | .levelZ5 m s => levelCode 5 m.toNat s
  | .levelZ6 m s => levelCode 6 m.toNat s
  | .levelZ7 m s => levelCode 7 m.toNat s
  | .levelZ8 m s => levelCode 8 m.toNat s
  | .levelZ9 m s => levelCode 9 m.toNat s
  | .levelZ10 m s => levelCode 10 m.toNat s
  | .levelZ11 m s => levelCode 11 m.toNat s
  | .levelZ12 m s => levelCode 12 m.toNat s
  | .levelZ13 m s => levelCode 13 m.toNat s
  | .levelZ14 m s => levelCode 14 m.toNat s
  | .levelZ15 m s => levelCode 15 m.toNat s
  | .navHeader a b c d => ⟨128, a.toNat + b.toNat * 2 ^ 32 + c.toNat * 2 ^ 64 + d.toNat * 2 ^ 96⟩
  | .navRecordHeader tag size => ⟨32, tag.toNat + size.toNat * 2 ^ 16⟩
  | .navDemo => ⟨16, 0x0000⟩
  | .navVision => ⟨16, 0x0010⟩
  | .navChecksum => ⟨16, 0xFFFF⟩
  | .navUnknown tag => ⟨16, tag.toNat⟩

/-- Where an instruction's code is decoded.  The three recognised records stand after a record header whose `size` is
their own layout's (R130 to R132); a skipped one after a header whose `size`, 4, is below every layout (R178). -/
def Instr.ctx : Instr → DecCtx
  | .vNop | .vDecode | .brInit | .brRead _ | .brPeek _ | .brAlign | .brHasrem | .brRldec => .vCmd
  | .nNop | .nDecode => .nCmd
  | .softReset _ _ => .softReset
  | .irqStatusW1c _ => .irqStatus
  | .irqEnable _ => .irqEnable
  | .vLen _ => .vLen
  | .nLen _ => .nLen
  | .sc _ | .eop => .startCode
  | .pictureHeader _ _ _ _ _ => .pictureHeader
  | .squant _ => .sliceQuant
  | .mbcEmpty | .mbcCoded => .mbc
  | .mbdes _ => .mbdes
  | .mbdiff _ => .mbdiff
  | .dc _ => .dc
  | .runZ0 | .runZ1 | .runZ2 _ | .runZ3 _ | .runZ4 _ | .runZ5 _ | .runZ6 _ | .runZ7 _ | .runZ8 _
  | .runZ9 _ | .runZ10 _ | .runZ11 _ | .runZ12 _ | .runZ13 _ | .runZ14 _ | .runZ15 _ | .runOvf => .run
  | .levelZ0 _ | .eob | .levelZ2 _ _ | .levelZ3 _ _ | .levelZ4 _ _ | .levelZ5 _ _ | .levelZ6 _ _ | .levelZ7 _ _ | .levelZ8 _ _
  | .levelZ9 _ _ | .levelZ10 _ _ | .levelZ11 _ _ | .levelZ12 _ _ | .levelZ13 _ _ | .levelZ14 _ _ | .levelZ15 _ _ => .level
  | .navHeader _ _ _ _ => .navHeader
  | .navRecordHeader _ _ => .navRecordHeader
  | .navDemo => .navRecord 40#16
  | .navVision => .navRecord 120#16
  | .navChecksum => .navRecord 8#16
  | .navUnknown _ => .navRecord 4#16

/-- The number `decode` is given when the code stands at the head of its place and the bits `rest` follow it. -/
def codeWindow (i : Instr) (rest : Nat) : Nat :=
  (encode i).val * 2 ^ (i.ctx.width - (encode i).len) + rest

/-! ## One word of the opcode table -/

/-- A word that is a legal word of `V_CMD` (R101, R103). -/
def legalCommand (w : Nat) : Bool :=
  match decodeVCmd w with
  | .ok _ => true
  | .error _ => false

/-- The place where a row of the opcode table whose code has `nbits` bits (in whole bytes) and value `w` stands, and how
many bits the code has.  Several rows share their width, so a width names a place by this rule, the same in every file
(assumption 20): 32 bits are a legal word of `V_CMD`, else a register write, a long run code or the longest level code, as
the value allows; 8, 16 and 24 bits are a run code, an `MBC`, an `MBDES`, a start code or a record tag; 48 bits are a
picture header and 128 bits a NavData header. -/
def tableCtx (nbits w : Nat) : Option (DecCtx × Nat) :=
  let runLen := 2 * (Nat.log2 w + 1)
  match nbits with
  | 8 =>
    if w < 2 then some (.mbc, 1)
    else if w < 16 then some (.run, runLen)
    else if w < 256 then some (.mbdes, 8)
    else none
  | 16 =>
    if w = 0 then some (.run, 16)
    else if w = 0x0010 then some (.navRecord 120#16, 16)
    else if 16 ≤ w ∧ w < 256 then some (.run, runLen)
    else if w < 65536 then some (.navRecord 120#16, 16)
    else none
  | 24 =>
    if 0x20 ≤ w ∧ w < 0x40 then some (.startCode, 22)
    else if 0x100 ≤ w ∧ w < 0x1000 then some (.run, runLen)
    else none
  | 32 =>
    if legalCommand w then some (.vCmd, 32)
    else if w < 4 then some (.softReset, 32)
    else if w < 32 then some (.irqStatus, 32)
    else if 0x1000 ≤ w ∧ w < 0x8000 then some (.run, runLen)
    else if 0x8000 ≤ w ∧ w < 0x10000 then some (.level, 31)
    else if w < 2 ^ 32 then some (.vLen, 32)
    else none
  | 48 => if w < 2 ^ 45 then some (.pictureHeader, 45) else none
  | 128 => if w < 2 ^ 128 then some (.navHeader, 128) else none
  | _ => none

/-- The instruction the decoder reads from one word of the opcode table, every bit after the code being 0. -/
def decodeTableWord (nbits w : Nat) : Option Instr :=
  match tableCtx nbits w with
  | none => none
  | some (c, len) => (decode c (w * 2 ^ (c.width - len))).toOption

end Sys2Proof
end

