-- ==== Sys2Proof/Machine/State.lean ====
section
/-!
DEFINITION. The state of the block (spec/10_state.md, spec/20_memory.md) as plain data, the reasons a step stops, and the
machine right after power-on reset (spec/70_reset_and_hazards.md R411).

A register that software only ever reads whole and whose other bits are reserved is held as its fields; the word the host
reads is put together in Machine/Flags.lean and Machine/HostPort.lean.  The fields the MODEL adds (no rule names them)
are: `Config` as data, the place inside a command (`VideoCtx`, `NavCtx`), and the host port (`HostPort`).
-/

namespace Sys2Proof.Machine

/-- Why the machine stops with a fault.  No behaviour of the block is `stuck` (spec/93_implementation_defined.md
part 1), so the only fault is the model's own bound. -/
inductive Fault where
  /-- Raised by the loops of `V.DECODE` and `N.DECODE` when more syntax elements were performed than the readable input
  has room for.  Safe: no claim about a next state follows from it; with valid parameters it is never reached. -/
  | decodeBound
deriving DecidableEq, Repr

/-- Why the machine gives no meaning.  R75: "Refused means the model gives the access no meaning and marks the run as
refused." -/
inductive Refusal where
  /-- An instruction of the table without a meaning.  Raised by `exec` only; safe. -/
  | notModelled (mnemonic : String)
  /-- A host access to an unmapped offset (R71, R75).  Raised by the host port; safe. -/
  | unmappedOffset
  /-- A host access whose width its space does not allow (R75).  Raised by the host port; safe. -/
  | badWidth
  /-- A host access at an address that is not a multiple of its width (R75).  Raised by the host port; safe. -/
  | misaligned
  /-- A host access that crosses the end of its space (R75).  Raised by the host port; safe. -/
  | crossesEnd
  /-- A host write to `VIN` or `NIN` while the unit that reads it is busy (R75, R431).  Raised by the host port; safe. -/
  | bufferBusy
  /-- A host write to `V_LEN` or `N_LEN` while its unit is busy (R353, R354, R432).  Raised by these two writes; safe. -/
  | lengthBusy
deriving DecidableEq, Repr

/-- What one step of this machine answers. -/
abbrev StepOutcome (σ : Type) := Host.Outcome σ Fault Refusal

/-- The error codes of R384; the codes `0x0C` to `0xFF` are never reported. -/
inductive Err where
  | none
  | badCommand
  | lenRange
  | readPastEnd
  | badStartCode
  | badFormat
  | badResolution
  | capacity
  | vlcOverflow
  | zigzagOverflow
  | sliceOverflow
  | tooShort
deriving DecidableEq, Repr

/-- `V_STATUS` (R26) by its fields. -/
structure VStatus where
  busy : Bool
  done : Bool
  picComplete : Bool
  frameValid : Bool
  rejected : Bool
  err : Err
deriving DecidableEq, Repr

/-- `N_STATUS` (R49) by its fields. -/
structure NStatus where
  busy : Bool
  done : Bool
  valid : Bool
  trunc : Bool
  demoSeen : Bool
  cksSeen : Bool
  visSeen : Bool
  rejected : Bool
  err : Err
deriving DecidableEq, Repr

/-- 64 signed coefficients or samples in raster order (R46, R47). -/
abbrev Block := List Int

/-- One entry of the macroblock grid: the blocks 0 to 5 (R46). -/
abbrev Macroblock := List Block

/-- Which element of the stream the VDU expects; `idle` between commands (the model's, assumption 5). -/
inductive VideoPhase where
  | idle
  | startCode
  | pictureHeader
  | sliceQuant
  | mbc
  | mbdes
  | mbdiff
  | dc
  | run
  | level
deriving DecidableEq, Repr

/-- The place inside a `V.DECODE`: the loop variables of the pseudocode of R210, R224, R250 and R254 (the model's,
assumption 5). -/
structure VideoCtx where
  phase : VideoPhase
  /-- The macroblock `j` of R224. -/
  mb : Nat
  /-- The block `k` of R224. -/
  blk : Nat
  /-- `MBDES`, the `d` of R224. -/
  des : BitVec 8
  /-- `COEF` (R47). -/
  coef : Block
  /-- The scan position `pos` of R250. -/
  scan : Nat
  /-- The `run` of R254, of a run code inspected and not yet consumed. -/
  run : Nat
  /-- The `len` of R254 after the run code. -/
  runLen : Nat
deriving DecidableEq, Repr

/-- The place between commands. -/
def VideoCtx.idle : VideoCtx where
  phase := .idle
  mb := 0
  blk := 0
  des := 0
  coef := []
  scan := 0
  run := 0
  runLen := 0

/-- The VDU: its registers (R26 to R45), its pending command word (R62, R358), the grid (R46), its place in a decode. -/
structure Vdu where
  status : VStatus
  pending : Option Word
  len : Word
  result : Word
  brWord : Word
  brPos : Word
  /-- `BR_STATE.BITIDX`. -/
  brBitIdx : BitVec 6
  /-- `BR_STATE.CHUNK`. -/
  brChunk : BitVec 22
  brLen : Word
  format : BitVec 2
  res : BitVec 3
  ptype : BitVec 3
  quant : Word
  frameIndex : Word
  width : Word
  height : Word
  sliceCount : Word
  mbPerRow : Word
  sliceIndex : Word
  gridMbs : Word
  errPos : Word
  rlRun : Word
  rlLevel : Word
  /-- `V_RL_INFO.LEN`. -/
  rlLen : BitVec 6
  /-- `V_RL_INFO.LAST`. -/
  rlLast : Bool
  /-- `GRID[0 .. V_GRID_MBS - 1]`. -/
  grid : List Macroblock
  ctx : VideoCtx
deriving DecidableEq, Repr

/-- The VDU after reset (R411): `BR_STATE` is `0x20`, every other register 0, no pending word, no grid. -/
def Vdu.reset : Vdu where
  status := ⟨false, false, false, false, false, .none⟩
  pending := none
  len := 0
  result := 0
  brWord := 0
  brPos := 0
  brBitIdx := 32
  brChunk := 0
  brLen := 0
  format := 0
  res := 0
  ptype := 0
  quant := 0
  frameIndex := 0
  width := 0
  height := 0
  sliceCount := 0
  mbPerRow := 0
  sliceIndex := 0
  gridMbs := 0
  errPos := 0
  rlRun := 0
  rlLevel := 0
  rlLen := 0
  rlLast := false
  grid := []
  ctx := VideoCtx.idle

/-- The nine demo registers (R58). -/
structure Demo where
  ctrlState : Word
  battery : Word
  theta : Word
  phi : Word
  psi : Word
  altitude : Word
  vx : Word
  vy : Word
  vz : Word
deriving DecidableEq, Repr

/-- The demo registers cleared. -/
def Demo.zero : Demo := ⟨0, 0, 0, 0, 0, 0, 0, 0, 0⟩

/-- One vision slot (R59), the fields in the order of `f`. -/
structure VisionSlot where
  type : Word
  xc : Word
  yc : Word
  width : Word
  height : Word
  dist : Word
  orient : Word
deriving DecidableEq, Repr

/-- A vision slot cleared. -/
def VisionSlot.zero : VisionSlot := ⟨0, 0, 0, 0, 0, 0, 0⟩

/-- Which form of the datagram the NDU expects; `idle` between commands (the model's, assumption 5). -/
inductive NavPhase where
  | idle
  | header
  | recordHeader
  | record
deriving DecidableEq, Repr

/-- The place inside an `N.DECODE`: `pos`, `tag` and `size` of R171 (the model's, assumption 5). -/
structure NavCtx where
  phase : NavPhase
  pos : Nat
  tag : BitVec 16
  size : BitVec 16
deriving DecidableEq, Repr

/-- The place between commands. -/
def NavCtx.idle : NavCtx := ⟨.idle, 0, 0, 0⟩

/-- The NDU: its registers (R49 to R59), its pending command word (R62, R358), its place in a decode. -/
structure Ndu where
  status : NStatus
  pending : Option Word
  len : Word
  magic : Word
  state : Word
  seq : Word
  visionDef : Word
  cksCalc : Word
  cksRx : Word
  endPos : Word
  demo : Demo
  visCount : Word
  slot0 : VisionSlot
  slot1 : VisionSlot
  slot2 : VisionSlot
  slot3 : VisionSlot
  ctx : NavCtx
deriving DecidableEq, Repr

/-- The NDU after reset (R411): every register 0, no pending word. -/
def Ndu.reset : Ndu where
  status := ⟨false, false, false, false, false, false, false, false, .none⟩
  pending := none
  len := 0
  magic := 0
  state := 0
  seq := 0
  visionDef := 0
  cksCalc := 0
  cksRx := 0
  endPos := 0
  demo := Demo.zero
  visCount := 0
  slot0 := VisionSlot.zero
  slot1 := VisionSlot.zero
  slot2 := VisionSlot.zero
  slot3 := VisionSlot.zero
  ctx := NavCtx.idle

/-- A byte buffer: the bytes written since power-on, addresses strictly rising.  An address that is not listed holds a
byte nothing has written (R413), which no stored byte stands for (assumption 2). -/
abbrev Memory := List Host.Cell

/-- The pixel buffer `PIX` (R70, R74, R79): pixel index and pixel word, indices strictly rising.  Once a reallocation has
cleared the buffer an unlisted pixel is 0 and no entry is 0; before that an unlisted pixel is unspecified (R80, R413). -/
structure PixelBuffer where
  cleared : Bool
  cells : List (Nat × Word)
deriving DecidableEq, Repr

/-- The agents of R6. -/
inductive Agent where
  | host
  | vdu
  | ndu
deriving DecidableEq, Repr

/-- One host access (R72 to R75): a platform address, a width in bytes, the data of a write. -/
inductive HostAccess where
  | read (addr width : Nat)
  | write (addr width : Nat) (data : Word)
deriving DecidableEq, Repr

/-- The host's side (the model's, assumption 6): the accesses it will make, in its order (R83); which agent moves next,
one entry a step, as the run's oracle of the unspecified interleaving and latency (R438); the data of its last read; how
many reads it has made, which numbers the free values (assumption 3). -/
structure HostPort where
  queue : List HostAccess
  sched : List Agent
  data : Word
  reads : Nat
deriving DecidableEq, Repr

/-- The host's side with nothing to do. -/
def HostPort.idle : HostPort := ⟨[], [], 0, 0⟩

/-- The state of the block and of its host port. -/
structure State where
  /-- The OPEN parameters (R8); no step changes them. -/
  cfg : Config
  /-- `IRQ_STATUS[4:0]` (R22). -/
  irqStatus : BitVec 5
  /-- `IRQ_ENABLE[4:0]` (R23). -/
  irqEnable : BitVec 5
  v : Vdu
  n : Ndu
  vin : Memory
  nin : Memory
  pix : PixelBuffer
  host : HostPort
deriving DecidableEq, Repr

/-- The machine right after power-on reset (R410, R411, R413, R414) with the reference parameters of R8. -/
def State.reset : State where
  cfg := Config.reference
  irqStatus := 0
  irqEnable := 0
  v := Vdu.reset
  n := Ndu.reset
  vin := []
  nin := []
  pix := ⟨false, []⟩
  host := HostPort.idle

end Sys2Proof.Machine
end

