-- ==== Sys2Proof/Machine/Ops.lean ====
section
/-!
DEFINITION. The named operations every instruction is written over: sparse storage, the buffers, the BitReader
primitives (spec/40_bitreader.md), the two halves of the command step (spec/46_control.md R358) with the recording of an
error (spec/60_exceptions.md R388), and the resets (spec/70_reset_and_hazards.md R412).
-/

namespace Sys2Proof.Machine

/-! ## Sparse storage: a list of (key, value) pairs, keys strictly rising -/

/-- The value listed at a key. -/
def cellFind {α : Type} : List (Nat × α) → Nat → Option α
  | [], _ => none
  | (b, x) :: rest, a => if a = b then some x else cellFind rest a

/-- List a value at a key, in place. -/
def cellInsert {α : Type} : List (Nat × α) → Nat → α → List (Nat × α)
  | [], a, x => [(a, x)]
  | (b, y) :: rest, a, x =>
    if a < b then (a, x) :: (b, y) :: rest
    else if a = b then (a, x) :: rest
    else (b, y) :: cellInsert rest a x

/-- Take a key off the list. -/
def cellErase {α : Type} : List (Nat × α) → Nat → List (Nat × α)
  | [], _ => []
  | (b, y) :: rest, a => if a = b then rest else (b, y) :: cellErase rest a

/-- The keys strictly rise. -/
def cellsRising {α : Type} : List (Nat × α) → Bool
  | [] => true
  | [_] => true
  | (a, _) :: (b, y) :: rest => decide (a < b) && cellsRising ((b, y) :: rest)

/-- The canonical form of a byte buffer. -/
def Memory.wf (m : Memory) : Bool := cellsRising m

/-- The canonical form of the pixel buffer: indices strictly rising; no 0 listed once cleared, nothing listed before. -/
def PixelBuffer.wf (p : PixelBuffer) : Bool :=
  cellsRising p.cells && (if p.cleared then p.cells.all (fun c => c.2 != 0) else p.cells.isEmpty)

/-! ## Little-endian reads (R13, R76, R78) -/

/-- `MemRead(S, a, n)` over a byte view of the space. -/
def leRead (byteAt : Nat → Byte) (a : Nat) : Nat → Nat
  | 0 => 0
  | n + 1 => (byteAt a).toNat + 256 * leRead byteAt (a + 1) n

/-- Byte `k` of a word, 0 the least significant (R76). -/
def wordByte (w : Word) (k : Nat) : Byte := BitVec.ofNat 8 (w.toNat / 2 ^ (8 * k))

/-- `MemWrite` of the `n` low bytes of a word, least significant first (R13, R73). -/
def memWrite (m : Memory) (a : Nat) (w : Word) : Nat → Memory
  | 0 => m
  | n + 1 => cellInsert (memWrite m a w n) (a + n) (wordByte w n)

/-- The byte of `VIN` a unit reads (R77, R413). -/
def State.vinByte (s : State) (a : Nat) : Byte := (cellFind s.vin a).getD (Config.powerOnByte .vin a)

/-- The byte of `NIN` a unit reads (R78, R413). -/
def State.ninByte (s : State) (a : Nat) : Byte := (cellFind s.nin a).getD (Config.powerOnByte .nin a)

/-- `LE32(NIN, a)` (R13). -/
def State.ninWord (s : State) (a : Nat) : Word := BitVec.ofNat 32 (leRead s.ninByte a 4)

/-! ## The pixel buffer (R74, R79, R80) -/

/-- The word stored at a pixel; `none` where it is unspecified. -/
def PixelBuffer.get (p : PixelBuffer) (i : Nat) : Option Word :=
  match cellFind p.cells i with
  | some w => some w
  | none => if p.cleared then some 0 else none

/-- Write one pixel, keeping the canonical form of a cleared buffer. -/
def PixelBuffer.set (p : PixelBuffer) (i : Nat) (w : Word) : PixelBuffer :=
  if p.cleared && w == 0 then { p with cells := cellErase p.cells i }
  else { p with cells := cellInsert p.cells i w }

/-- Write a list of pixels, in its order. -/
def PixelBuffer.setAll (p : PixelBuffer) : List (Nat × Word) → PixelBuffer
  | [] => p
  | (i, w) :: rest => (p.set i w).setAll rest

/-! ## The BitReader (R140 to R147) -/

/-- Chunk `c` of `VIN`: the bytes `4c` to `4c + 3` as a little-endian word (R77). -/
def State.vinChunk (s : State) (c : Nat) : Nat := leRead s.vinByte (4 * c) 4

/-- `StreamBit(k)` (R77). -/
def State.streamBit (s : State) (k : Nat) : Bool := (s.vinChunk (k / 32)).testBit (31 - k % 32)

/-- The `n` bits at cursor `p`, the first most significant (R77). -/
def bitsFrom (bitAt : Nat → Bool) (p : Nat) : Nat → Nat
  | 0 => 0
  | n + 1 => 2 * bitsFrom bitAt p n + (bitAt (p + n)).toNat

/-- `BR_POS` as a number. -/
def State.brAt (s : State) : Nat := s.v.brPos.toNat

/-- `EXT`, the readable extent in bits (R81, R140). -/
def State.brExt (s : State) : Nat := 32 * (s.v.brLen.toNat / 4)

/-- Set `BR_POS` and recompute the lookahead registers: `BR_Sync()` (R147). -/
def State.brMoveTo (s : State) (p : Nat) : State :=
  if p = 0 then
    { s with v := { s.v with brPos := 0, brChunk := 0, brBitIdx := 32, brWord := 0 } }
  else
    let c := (p - 1) / 32 + 1
    let b := p - 32 * (c - 1)
    { s with v := { s.v with
        brPos := BitVec.ofNat 32 p
        brChunk := BitVec.ofNat 22 c
        brBitIdx := BitVec.ofNat 6 b
        brWord := if b = 32 then 0 else BitVec.ofNat 32 (s.vinChunk (c - 1) * 2 ^ b) } }

/-- The bits `BR_Read(n)` returns (R143). -/
def State.brValue (s : State) (n : Nat) : Nat := bitsFrom s.streamBit s.brAt n

/-- The cursor's move of `BR_Read(n)`; `none` is `READ_PAST_END`, with nothing consumed (R143). -/
def State.brConsume (s : State) (n : Nat) : Option State :=
  if s.brAt + n > s.brExt then none else some (s.brMoveTo (s.brAt + n))

/-- `BR_Peek(n)`: bits at or beyond the extent read as 0 (R144). -/
def State.brPeek (s : State) (n : Nat) : Nat :=
  bitsFrom (fun k => decide (k < s.brExt) && s.streamBit k) s.brAt n

/-- `BR_Align()` (R145). -/
def State.brAlign (s : State) : State := s.brMoveTo ((s.brAt + 7) / 8 * 8)

/-- `BR_HasRemaining()` (R146). -/
def State.brHasRemaining (s : State) : Bool := decide ((s.brAt + 7) / 8 < 4 * (s.v.brLen.toNat / 4))

/-- Start a cursor over `VIN[0 .. V_LEN - 1]` (R142, R210). -/
def State.brStart (s : State) : State :=
  State.brMoveTo { s with v := { s.v with brLen := s.v.len } } 0

/-! ## The command step (R358) -/

/-- The two decode units. -/
inductive DecodeUnit where
  | vdu
  | ndu
deriving DecidableEq, Repr

/-- `IRQ_STATUS.VID_DONE`, bit 0 (R22). -/
def irqVidDone : BitVec 5 := 0b00001#5

/-- `IRQ_STATUS.VID_ERR`, bit 1 (R22). -/
def irqVidErr : BitVec 5 := 0b00010#5

/-- `IRQ_STATUS.FRAME`, bit 2 (R22). -/
def irqFrame : BitVec 5 := 0b00100#5

/-- `IRQ_STATUS.NAV_DONE`, bit 3 (R22). -/
def irqNavDone : BitVec 5 := 0b01000#5

/-- `IRQ_STATUS.NAV_ERR`, bit 4 (R22). -/
def irqNavErr : BitVec 5 := 0b10000#5

/-- Set bits of `IRQ_STATUS`. -/
def State.raiseIrq (s : State) (bits : BitVec 5) : State := { s with irqStatus := s.irqStatus ||| bits }

/-- THE END OF A COMMAND, which is also what an error does (R358, R370, R388): the code is recorded, `BUSY` drops, `DONE`
rises, the unit's interrupt bits are set; an error of the VDU records the cursor in `V_ERR_POS`.  The pending word is
gone and no place in a decode is kept (assumption 5). -/
def State.complete (s : State) (u : DecodeUnit) (e : Err) : State :=
  match u with
  | .vdu =>
    State.raiseIrq { s with v := { s.v with
        status := { s.v.status with err := e, busy := false, done := true }
        errPos := if e = .none then s.v.errPos else s.v.brPos
        pending := none
        ctx := VideoCtx.idle } }
      (if e = .none then irqVidDone else irqVidDone ||| irqVidErr)
  | .ndu =>
    State.raiseIrq { s with n := { s.n with
        status := { s.n.status with err := e, busy := false, done := true }
        pending := none
        ctx := NavCtx.idle } }
      (if e = .none then irqNavDone else irqNavDone ||| irqNavErr)

/-- A host write of a word to `V_CMD` or `N_CMD`: rejection while busy (R383), else acceptance (R358).  The block has no
return from an error: acceptance is what clears `ERR`, `DONE` and `REJECTED` (R389). -/
def State.accept (s : State) (u : DecodeUnit) (w : Word) : State :=
  match u with
  | .vdu =>
    if s.v.status.busy then { s with v := { s.v with status := { s.v.status with rejected := true } } }
    else { s with v := { s.v with
        status := { s.v.status with busy := true, done := false, rejected := false, err := .none }
        pending := some w } }
  | .ndu =>
    if s.n.status.busy then { s with n := { s.n with status := { s.n.status with rejected := true } } }
    else { s with n := { s.n with
        status := { s.n.status with busy := true, done := false, rejected := false, err := .none }
        pending := some w } }

/-! ## Resets (R412) -/

/-- Soft reset of one unit: its registers, pending command, grid and interrupt bits; the buffers are kept. -/
def State.resetUnit (s : State) (u : DecodeUnit) : State :=
  match u with
  | .vdu => { s with v := Vdu.reset, irqStatus := s.irqStatus &&& ~~~(irqVidDone ||| irqVidErr ||| irqFrame) }
  | .ndu => { s with n := Ndu.reset, irqStatus := s.irqStatus &&& ~~~(irqNavDone ||| irqNavErr) }

end Sys2Proof.Machine
end

