-- ==== Sys2Proof/Machine/Operands.lean ====
section
/-!
DEFINITION. What the operands of the stream elements stand for: run and level values and lengths (spec/30_encoding.md
R120 to R122, spec/43_video_block.md R254 to R257), the quantizer delta (R118, R227), picture dimensions (R217, R218), and
the wrap to a signed width (spec/00_scope.md R11).
-/

namespace Sys2Proof.Machine

/-- `wrapN(v)` (R11). -/
def wrapTo (bits : Nat) (v : Int) : Int := v.bmod (2 ^ bits)

/-- The run of a run code with a prefix of `z` zeros and escape bits `t` (R120, R255). -/
def runValue (z t : Nat) : Nat := if z ≤ 1 then z else 2 ^ (z - 1) + t

/-- The length of a run code with a prefix of `z` zeros (R120). -/
def runLength (z : Nat) : Nat := if z ≤ 1 then z + 1 else 2 * z

/-- The level of a level code with a prefix of `z` zeros, magnitude bits `m` and sign `s` (R121, R256). -/
def levelValue (z m : Nat) (s : Bool) : Int :=
  let magnitude : Int := if z = 0 then 1 else 2 ^ (z - 1) + (m : Int)
  if s then -magnitude else magnitude

/-- The length of a level code with a prefix of `z` zeros, not end of block (R121). -/
def levelLength (z : Nat) : Nat := if z = 0 then 2 else 2 * z + 1

/-- The change of the running quantizer for `MBDIFF = d`: -1, -2, +2, +3 (R118, R227). -/
def quantDelta (d : BitVec 2) : Word :=
  if d.toNat < 2 then ~~~(d.zeroExtend 32) else d.zeroExtend 32

/-- The base dimensions of a picture format; `none` for the values the spec calls illegal (R217). -/
def baseDimensions (format : BitVec 2) : Option (Nat × Nat) :=
  match format.toNat with
  | 1 => some (88, 72)
  | 2 => some (160, 120)
  | _ => none

/-- The effective quantizer (R261). -/
def effectiveQuant (quant : Word) : Int := if quant = 31#32 then 2 else quant.toInt

/-- What `RunLevelDecode` returns (R254). -/
structure RunLevel where
  run : Nat
  level : Int
  last : Bool
  len : Nat
deriving DecidableEq, Repr

/-- `RunLevelDecode` on the 32-bit window `W`, up to the final `BR_Read(len)` (R254): `none` is `VLC_OVERFLOW`.  One row of R265
prints a window that R254 reads otherwise (assumption 26). -/
def runLevelOf (w : Nat) : Option RunLevel :=
  let z := clz32 w
  let len := if z > 1 then z + 1 + (z - 1) else z + 1
  if z = 32 ∨ len > 32 then none
  else
    let run := if z > 1 then w / 2 ^ (32 - len) % 2 ^ (z - 1) + 2 ^ (z - 1) else z
    let z2 := clz32 (w * 2 ^ len % 2 ^ 32)
    let len2 := len + z2 + 1
    if len2 > 32 then none
    else if z2 = 1 then some ⟨0, 0, true, len2⟩
    else
      let m := if z2 = 0 then 1 else z2
      if len2 + m > 32 then none
      else
        let b := w / 2 ^ (32 - len2 - m) % 2 ^ m
        let mag : Int := ((b / 2 + 2 ^ (m - 1) : Nat) : Int)
        some ⟨run, if b % 2 = 1 then -mag else mag, false, len2 + m⟩

end Sys2Proof.Machine
end

