-- ==== Sys2Proof/Machine/Compose.lean ====
section
/-!
DEFINITION. Slice composition: luma mapping, 4:2:0 chroma upsampling, YCbCr to RGB with saturation, and the pixel writes
(spec/45_video_compose.md).
-/

namespace Sys2Proof.Machine

/-- `sat8` (R326). -/
def sat8 (t : Int) : Nat := if t < 0 then 0 else if 255 < t then 255 else t.toNat

/-- `YCbCrToRGB` as the pixel word of R327 (R325). -/
def rgbWord (cfg : Config) (yv cb cr : Int) : Word :=
  let u := cb - 128
  let v := cr - 128
  let l := yv * 256
  let r := sat8 ((l + cfg.kRV * v) / 256)
  let g := sat8 ((l - cfg.kGU * u - cfg.kGV * v) / 256)
  let b := sat8 ((l + cfg.kBU * u) / 256)
  BitVec.ofNat 32 (r * 2 ^ 16 + g * 2 ^ 8 + b)

/-- `GRID[j].BLK[k][i]` (R12, R46). -/
def State.gridSample (s : State) (j k i : Nat) : Int := ((s.v.grid.getD j []).getD k []).getD i 0

/-- The word of pixel `(y, x)` of macroblock `j` (R323, R324, R325). -/
def State.macroblockPixel (s : State) (j y x : Nat) : Word :=
  let ci := 8 * (y / 2) + x / 2
  rgbWord s.cfg (s.gridSample j (2 * (y / 8) + x / 8) (8 * (y % 8) + x % 8)) (s.gridSample j 4 ci) (s.gridSample j 5 ci)

/-- The index in `PIX` of pixel `(y, x)` of macroblock `j` of slice `sl` (R321, R322, R327). -/
def State.slicePixelIndex (s : State) (sl j y x : Nat) : Nat := (16 * sl + y) * s.v.width.toNat + 16 * j + x

/-- The pixels of macroblock `j` of slice `sl`, row by row. -/
def State.macroblockPixels (s : State) (sl j : Nat) : List (Nat × Word) :=
  (List.range 16).flatMap fun y =>
    (List.range 16).map fun x => (s.slicePixelIndex sl j y x, s.macroblockPixel j y x)

/-- The pixels of slice `sl` (R320). -/
def State.slicePixels (s : State) (sl : Nat) : List (Nat × Word) :=
  (List.range s.v.mbPerRow.toNat).flatMap (s.macroblockPixels sl)

/-- The pixel writes of `ComposeSlice(sl)` (R320, R327). -/
def State.composeSlice (s : State) (sl : Nat) : State := { s with pix := s.pix.setAll (s.slicePixels sl) }

end Sys2Proof.Machine
end

