-- ==== Sys2Proof/Machine/Idct.lean ====
section
/-!
DEFINITION. The inverse DCT engine (spec/44_video_idct.md): the reference instance of R294 to R300 and the configured
transform of R290.
-/

namespace Sys2Proof.Machine

/-- `D(x, n)`: round, wrap to 32 signed bits, shift (R299, R300). -/
def descale (x : Int) (n : Nat) : Int := wrapTo 32 (x + 2 ^ (n - 1)) / 2 ^ n

/-- The 1-D kernel `K(v, n)` with the constants of R294 (R295).  All arithmetic before `descale` is exact. -/
def idctKernel (v0 v1 v2 v3 v4 v5 v6 v7 : Int) (n : Nat) : List Int :=
  let ze := (v2 + v6) * 4433
  let tmp2 := ze - v6 * 15137
  let tmp3 := ze + v2 * 6270
  let tmp0 := (v0 + v4) * 2 ^ 13
  let tmp1 := (v0 - v4) * 2 ^ 13
  let tmp10 := tmp0 + tmp3
  let tmp13 := tmp0 - tmp3
  let tmp11 := tmp1 + tmp2
  let tmp12 := tmp1 - tmp2
  let z5 := ((v7 + v3) + (v5 + v1)) * 9633
  let z1 := (v7 + v1) * (-7373)
  let z2 := (v5 + v3) * (-20995)
  let z3 := (v7 + v3) * (-16069) + z5
  let z4 := (v5 + v1) * (-3196) + z5
  let t0 := v7 * 2446 + z1 + z3
  let t1 := v5 * 16819 + z2 + z4
  let t2 := v3 * 25172 + z2 + z3
  let t3 := v1 * 12299 + z1 + z4
  [descale (tmp10 + t3) n, descale (tmp11 + t2) n, descale (tmp12 + t1) n, descale (tmp13 + t0) n,
   descale (tmp13 - t0) n, descale (tmp12 - t1) n, descale (tmp11 - t2) n, descale (tmp10 - t3) n]

/-- Pass 1 on column `c`: the fast path for a column whose rows 1 to 7 are zero, else the kernel with descale 11
(R296, R297). -/
def idctColumn (coef : Block) (c : Nat) : List Int :=
  let v (r : Nat) : Int := coef.getD (8 * r + c) 0
  if v 1 = 0 ∧ v 2 = 0 ∧ v 3 = 0 ∧ v 4 = 0 ∧ v 5 = 0 ∧ v 6 = 0 ∧ v 7 = 0 then
    List.replicate 8 (wrapTo 32 (v 0 * 4))
  else idctKernel (v 0) (v 1) (v 2) (v 3) (v 4) (v 5) (v 6) (v 7) 11

/-- Pass 2 on row `r` of the workspace, given by its columns, with descale 18 (R296, R298). -/
def idctRow (columns : List (List Int)) (r : Nat) : List Int :=
  let v (c : Nat) : Int := (columns.getD c []).getD r 0
  idctKernel (v 0) (v 1) (v 2) (v 3) (v 4) (v 5) (v 6) (v 7) 18

/-- The reference instance (R296). -/
def idctReference (coef : Block) : Block :=
  let columns := (List.range 8).map (idctColumn coef)
  (List.range 8).flatMap (idctRow columns)

/-- The exact sum `x` of a pass without its low `n` bits, rounded and wrapped as the form says (R292). -/
def formDescale (f : TransformForm) (pass n : Nat) (dcOnly : Bool) (x : Int) : Int :=
  wrapTo (f.width pass dcOnly) (x / 2 ^ n + if x % 2 ^ n ≠ 0 ∧ f.roundsUp pass x = true then 1 else 0)

/-- The 1-D kernel of a form on the vector `v`: eight sums of products with its constants, each descaled by `n` bits. -/
def formKernel (f : TransformForm) (pass n : Nat) (v : Nat → Int) : List Int :=
  let dcOnly := (List.range 7).all fun j => v (j + 1) == 0
  (List.range 8).map fun i =>
    formDescale f pass n dcOnly (f.dc * v 0 + ((List.range 7).map fun j => f.ac i (j + 1) * v (j + 1)).sum)

/-- Entry `a` of line `b`, with lines and entries exchanged where the first pass runs over the rows. -/
def formIndex (f : TransformForm) (a b : Nat) : Nat := if f.rowsFirst then 8 * b + a else 8 * a + b

/-- The transform of a form: pass 1 over the lines of the block, pass 2 over the lines of the workspace that cross them
(R292, R296). -/
def formApply (f : TransformForm) (coef : Block) : Block :=
  let first := (List.range 8).map fun c =>
    formKernel f 1 (13 - f.pass1Bits) fun r => coef.getD (formIndex f r c) 0
  let second := (List.range 8).map fun r =>
    formKernel f 2 (13 + f.pass1Bits + f.normBits) fun c => (first.getD c []).getD r 0
  (List.range 64).map fun i =>
    if f.rowsFirst then (second.getD (i % 8) []).getD (i / 8) 0 else (second.getD (i / 8) []).getD (i % 8) 0

/-- The constants of the reference kernel with the products of R295 multiplied out: row `i` holds output `i`, entry `j - 1`
its constant for input `j`. -/
def referenceConstants : List (List Int) :=
  [[11363, 10703, 9633, 8192, 6437, 4433, 2260],
   [9633, 4433, -2259, -8192, -11362, -10704, -6436],
   [6437, -4433, -11362, -8192, 2261, 10704, 9633],
   [2260, -10703, -6436, 8192, 9633, -4433, -11363],
   [-2260, -10703, 6436, 8192, -9633, -4433, 11363],
   [-6437, -4433, 11362, -8192, -2261, 10704, -9633],
   [-9633, 4433, 2259, -8192, 11362, -10704, 6436],
   [-11363, 10703, -9633, 8192, -6437, 4433, -2260]]

/-- The reference instance in the form of R292: 2 extra bits, columns first, round half up, 32-bit arithmetic before each
shift, the shift of the fast path wrapped at 32 bits (R294 to R300). -/
def transformReference : TransformForm where
  pass1Bits := 2
  normBits := 3
  rowsFirst := false
  dc := 8192
  ac i j := (referenceConstants.getD i []).getD (j - 1) 0
  roundsUp pass x := if pass = 1 then decide (2 ^ 10 ≤ x % 2 ^ 11) else decide (2 ^ 17 ≤ x % 2 ^ 18)
  width pass dcOnly := if pass = 1 then (if dcOnly then 32 else 21) else 14

/-- The configured transform (R290): the reference instance, or another one of the form of R292, which has the DC-only
property R291 whatever its constants are (assumption 4). -/
def idctApply (choice : IdctChoice) (coef : Block) : Block :=
  match choice with
  | .reference => idctReference coef
  | .other k => formApply (Config.transformForm k) coef

/-- `IDCT_Store(C)`: every output wrapped to `SAMPLE_BITS` (R293). -/
def idctStore (cfg : Config) (coef : Block) : Block := (idctApply cfg.idct coef).map (wrapTo cfg.sampleBits)

end Sys2Proof.Machine
end

