-- ==== Sys2Proof/Machine/Picture.lean ====
section
/-!
DEFINITION. The picture and macroblock layers of `V.DECODE` (spec/42_video_picture.md): what the elements `SC`, `EOP`,
`PICTURE_HEADER`, `SQUANT`, `MBC`, `MBDES` and `MBDIFF` do, and the control between elements that the pseudocode of R210 to
R224 fixes.  Each element first consumes its bits: `READ_PAST_END` is raised before it changes anything (R143).
-/

namespace Sys2Proof.Machine

/-! ## Control between elements -/

/-- Expect an element of this kind next. -/
def State.expect (s : State) (p : VideoPhase) : State := { s with v := { s.v with ctx := { s.v.ctx with phase := p } } }

/-- End the VDU's command with an error, or without one (R358). -/
def videoEnd (s : State) (e : Err) : StepOutcome State := .next (s.complete .vdu e)

/-- Consume `n` bits and go on; `READ_PAST_END` where they do not all lie inside the extent (R143, R373). -/
def videoTake (s : State) (n : Nat) (k : State → StepOutcome State) : StepOutcome State :=
  match s.brConsume n with
  | none => videoEnd s .readPastEnd
  | some t => k t

/-- The loop test of R210 at a header boundary: another header, or the input is exhausted and the command ends without a
frame (R211, R231). -/
def videoAtHeader (s : State) : StepOutcome State :=
  if s.brHasRemaining then .next (s.expect .startCode) else videoEnd s .none

/-- All macroblocks of the slice are decoded: compose it (R320), or `SLICE_OVERFLOW` before any pixel is written (R328). -/
def videoEndSlice (s : State) : StepOutcome State :=
  let sl := s.v.sliceIndex.toNat - 1
  if s.v.sliceCount.toNat ≤ sl then videoEnd s .sliceOverflow else videoAtHeader (s.composeSlice sl)

/-- Go to macroblock `j` of the slice, or end the slice (R210, R224). -/
def videoMacroblock (s : State) (j : Nat) : StepOutcome State :=
  if j < s.v.mbPerRow.toNat then
    .next { s with v := { s.v with ctx := { s.v.ctx with phase := .mbc, mb := j } } }
  else videoEndSlice s

/-- Go to block `k` of the macroblock, or to the next macroblock (R224, R228). -/
def videoBlock (s : State) (k : Nat) : StepOutcome State :=
  if k < 6 then .next { s with v := { s.v with ctx := { s.v.ctx with phase := .dc, blk := k } } }
  else videoMacroblock s (s.v.ctx.mb + 1)

/-- A slice header has been read: count it (R223) and start its macroblocks (R210). -/
def videoSlice (s : State) : StepOutcome State :=
  videoMacroblock { s with v := { s.v with sliceIndex := s.v.sliceIndex + 1 } } 0

/-! ## Headers -/

/-- A start code: align, then consume its 22 bits (R212). -/
def videoStartCode (s : State) (k : State → StepOutcome State) : StepOutcome State := videoTake s.brAlign 22 k

/-- `SC`: the header of the first slice carries a picture header, a later one a quantizer (R212). -/
def startSlice (s : State) : StepOutcome State :=
  videoStartCode s fun t => .next (t.expect (if t.v.sliceIndex = 0 then .pictureHeader else .sliceQuant))

/-- `EmitFrame()` (R230). -/
def State.emitFrame (s : State) : State :=
  State.raiseIrq { s with v := { s.v with status := { s.v.status with frameValid := true } } } irqFrame

/-- `EOP`: the picture is complete, a frame is emitted, the command ends (R214, R210, R230). -/
def endPicture (s : State) : StepOutcome State :=
  videoStartCode s fun t =>
    videoEnd (State.emitFrame { t with v := { t.v with status := { t.v.status with picComplete := true } } }) .none

/-- A start code whose upper 17 bits are wrong: `BAD_START_CODE` just after its 22 bits (R213). -/
def wrongStartCode (s : State) : StepOutcome State := videoStartCode s fun t => videoEnd t .badStartCode

/-- `Realloc()`: the grid is allocated anew with zero samples, and every pixel is cleared (R221). -/
def State.realloc (s : State) : State :=
  { s with
    v := { s.v with
      gridMbs := s.v.mbPerRow
      grid := List.replicate s.v.mbPerRow.toNat (List.replicate 6 (List.replicate 64 0)) }
    pix := ⟨true, []⟩ }

/-- The end of `PictureHeader()`: the dimensions are legal and fit; store them and reallocate if the macroblock count
changed (R218, R220, R221). -/
def State.setDimensions (s : State) (w h : Nat) : State :=
  let t : State := { s with v := { s.v with
    width := BitVec.ofNat 32 w
    height := BitVec.ofNat 32 h
    sliceCount := BitVec.ofNat 32 (h / 16)
    mbPerRow := BitVec.ofNat 32 (w / 16) } }
  if t.v.mbPerRow = t.v.gridMbs then t else t.realloc

/-- The checks of `PictureHeader()`, after its five fields are read and stored: `BAD_FORMAT`, then `BAD_RESOLUTION`, then
`CAPACITY` (R215, R217, R219, R387). -/
def pictureDimensions (s : State) (f : BitVec 2) (r : BitVec 3) : StepOutcome State :=
  match baseDimensions f with
  | none => videoEnd s .badFormat
  | some (bw, bh) =>
    if r = 0 then videoEnd s .badResolution
    else
      let w := bw * 2 ^ (r.toNat - 1)
      let h := bh * 2 ^ (r.toNat - 1)
      if s.cfg.pixEntries < w * h ∨ s.cfg.gridMaxMbs < w / 16 then videoEnd s .capacity
      else videoSlice (s.setDimensions w h)

/-- `PICTURE_HEADER`: each field is stored as soon as it is read (R215). -/
def readPictureHeader (f : BitVec 2) (r : BitVec 3) (t : BitVec 3) (q : BitVec 5) (i : BitVec 32) (s : State) :
    StepOutcome State :=
  videoTake s 2 fun s1 => videoTake { s1 with v := { s1.v with format := f } } 3 fun s2 =>
  videoTake { s2 with v := { s2.v with res := r } } 3 fun s3 =>
  videoTake { s3 with v := { s3.v with ptype := t } } 5 fun s4 =>
  videoTake { s4 with v := { s4.v with quant := q.zeroExtend 32 } } 32 fun s5 =>
  pictureDimensions { s5 with v := { s5.v with frameIndex := i } } f r

/-- `SQUANT` (R222). -/
def readSliceQuant (q : BitVec 5) (s : State) : StepOutcome State :=
  videoTake s 5 fun t => videoSlice { t with v := { t.v with quant := q.zeroExtend 32 } }

/-! ## Macroblocks -/

/-- `MBC` = 1: the grid entry is left as it was (R225, R229). -/
def emptyMacroblock (s : State) : StepOutcome State := videoTake s 1 fun t => videoMacroblock t (t.v.ctx.mb + 1)

/-- `MBC` = 0: the coefficient-presence bitmap follows (R224). -/
def codedMacroblock (s : State) : StepOutcome State := videoTake s 1 fun t => .next (t.expect .mbdes)

/-- `MBDES`: bit 6 tells whether a quantizer delta follows, bit 7 is ignored (R226). -/
def readPresence (d : BitVec 8) (s : State) : StepOutcome State :=
  videoTake s 8 fun t =>
    let t' : State := { t with v := { t.v with ctx := { t.v.ctx with des := d } } }
    if d.getLsbD 6 then .next (t'.expect .mbdiff) else videoBlock t' 0

/-- `MBDIFF`: the running quantizer changes, wrapping at 32 bits (R227). -/
def readQuantDelta (d : BitVec 2) (s : State) : StepOutcome State :=
  videoTake s 2 fun t => videoBlock { t with v := { t.v with quant := t.v.quant + quantDelta d } } 0

/-! ## The meanings -/

/-- `SC` (R111, R212). -/
def execSc (_s : BitVec 5) (s : State) : StepOutcome State := startSlice s

/-- `EOP` (R114, R214). -/
def execEop (s : State) : StepOutcome State := endPicture s

/-- `PICTURE_HEADER` (R112, R215). -/
def execPictureHeader (f : BitVec 2) (r : BitVec 3) (t : BitVec 3) (q : BitVec 5) (i : BitVec 32) (s : State) :
    StepOutcome State := readPictureHeader f r t q i s

/-- `SQUANT` (R113, R222). -/
def execSquant (q : BitVec 5) (s : State) : StepOutcome State := readSliceQuant q s

/-- `MBC` = 1 (R116, R229). -/
def execMbcEmpty (s : State) : StepOutcome State := emptyMacroblock s

/-- `MBC` = 0 (R116, R224). -/
def execMbcCoded (s : State) : StepOutcome State := codedMacroblock s

/-- `MBDES` (R117, R226). -/
def execMbdes (d : BitVec 8) (s : State) : StepOutcome State := readPresence d s

/-- `MBDIFF` (R118, R227). -/
def execMbdiff (d : BitVec 2) (s : State) : StepOutcome State := readQuantDelta d s

end Sys2Proof.Machine
end

