-- ==== Sys2Proof/Machine/BitReader.lean ====
section
/-!
DEFINITION. The commands on the host's bit cursor (spec/40_bitreader.md section 3, spec/43_video_block.md R258) and
`V.NOP`.  Each is the body of a command step with its completion (R358).
-/

namespace Sys2Proof.Machine

/-- Set `V_RESULT` (R28). -/
def State.setResult (s : State) (r : Word) : State := { s with v := { s.v with result := r } }

/-- `V.NOP` (R141). -/
def execVNop (s : State) : StepOutcome State := videoEnd s .none

/-- `BR.INIT` (R142). -/
def execBrInit (s : State) : StepOutcome State :=
  if s.cfg.vinBytes < s.v.len.toNat then videoEnd s .lenRange else videoEnd (s.brStart.setResult 0) .none

/-- `BR.READ n` (R143). -/
def execBrRead (n : BitVec 6) (s : State) : StepOutcome State :=
  videoTake s n.toNat fun t => videoEnd (t.setResult (BitVec.ofNat 32 (s.brValue n.toNat))) .none

/-- `BR.PEEK n` (R144). -/
def execBrPeek (n : BitVec 6) (s : State) : StepOutcome State :=
  videoEnd (s.setResult (BitVec.ofNat 32 (s.brPeek n.toNat))) .none

/-- `BR.ALIGN` (R145). -/
def execBrAlign (s : State) : StepOutcome State := videoEnd s.brAlign .none

/-- `BR.HASREM` (R146). -/
def execBrHasrem (s : State) : StepOutcome State :=
  videoEnd (s.setResult (if s.brHasRemaining then 1 else 0)) .none

/-- Record a decoded triple and its length in `V_RL_*` (R45, R258). -/
def State.setRunLevel (s : State) (r : RunLevel) : State :=
  { s with v := { s.v with
    rlRun := BitVec.ofNat 32 r.run
    rlLevel := BitVec.ofInt 32 r.level
    rlLen := BitVec.ofNat 6 r.len
    rlLast := r.last } }

/-- `BR.RLDEC` (R254, R258). -/
def execBrRldec (s : State) : StepOutcome State :=
  match runLevelOf (s.brPeek 32) with
  | none => videoEnd s .vlcOverflow
  | some r => videoTake s r.len fun t => videoEnd (t.setRunLevel r) .none

end Sys2Proof.Machine
end

