-- ==== Sys2Proof/Machine/Control.lean ====
section
/-!
DEFINITION. The register writes that act at once (spec/46_control.md section 2).
-/

namespace Sys2Proof.Machine

/-- Reset a unit if its bit is set (R350). -/
def State.resetIf (s : State) (b : Bool) (u : DecodeUnit) : State := if b then s.resetUnit u else s

/-- The `SOFT_RESET` write (R350, R412). -/
def execSoftReset (n v : Bool) (s : State) : StepOutcome State := .next ((s.resetIf v .vdu).resetIf n .ndu)

/-- The `IRQ_STATUS` write: a bit written 1 is cleared (R351). -/
def execIrqStatusW1c (m : BitVec 5) (s : State) : StepOutcome State :=
  .next { s with irqStatus := s.irqStatus &&& ~~~m }

/-- The `IRQ_ENABLE` write (R352). -/
def execIrqEnable (e : BitVec 5) (s : State) : StepOutcome State := .next { s with irqEnable := e }

/-- The `V_LEN` write, refused while the VDU is busy (R353, R432). -/
def execVLen (l : BitVec 32) (s : State) : StepOutcome State :=
  if s.v.status.busy then .refused .lengthBusy else .next { s with v := { s.v with len := l } }

/-- The `N_LEN` write, refused while the NDU is busy (R354, R432). -/
def execNLen (l : BitVec 32) (s : State) : StepOutcome State :=
  if s.n.status.busy then .refused .lengthBusy else .next { s with n := { s.n with len := l } }

end Sys2Proof.Machine
end

