-- ==== Sys2Proof/Machine/Flags.lean ====
section
/-!
DEFINITION. The status words and the interrupt output (spec/10_state.md R22, R26, R31, R45, R49; spec/60_exceptions.md
R384, R386): every flag the block has, at its bit (R61).
-/

namespace Sys2Proof.Machine

/-- The codes of R384. -/
def Err.code : Err → Nat
  | .none => 0x00
  | .badCommand => 0x01
  | .lenRange => 0x02
  | .readPastEnd => 0x03
  | .badStartCode => 0x04
  | .badFormat => 0x05
  | .badResolution => 0x06
  | .capacity => 0x07
  | .vlcOverflow => 0x08
  | .zigzagOverflow => 0x09
  | .sliceOverflow => 0x0A
  | .tooShort => 0x0B

/-- `V_STATUS` as the host reads it (R26). -/
def VStatus.word (t : VStatus) : Word :=
  BitVec.ofNat 32 (t.busy.toNat + 2 * t.done.toNat + 4 * t.picComplete.toNat + 8 * t.frameValid.toNat
    + 16 * t.rejected.toNat + 256 * t.err.code)

/-- `N_STATUS` as the host reads it (R49). -/
def NStatus.word (t : NStatus) : Word :=
  BitVec.ofNat 32 (t.busy.toNat + 2 * t.done.toNat + 4 * t.valid.toNat + 8 * t.trunc.toNat + 16 * t.demoSeen.toNat
    + 32 * t.cksSeen.toNat + 64 * t.visSeen.toNat + 128 * t.rejected.toNat + 256 * t.err.code)

/-- `BR_STATE` as the host reads it (R31). -/
def Vdu.brStateWord (v : Vdu) : Word := BitVec.ofNat 32 (v.brBitIdx.toNat + 256 * v.brChunk.toNat)

/-- `V_RL_INFO` as the host reads it (R45). -/
def Vdu.rlInfoWord (v : Vdu) : Word := BitVec.ofNat 32 (v.rlLen.toNat + 256 * v.rlLast.toNat)

/-- The interrupt output `IRQ` (R386). -/
def State.irqOutput (s : State) : Bool := s.irqStatus &&& s.irqEnable != 0

/-- `V_STATUS` while the VDU is busy: `BUSY` and `REJECTED` are exact, every other bit any value (R433). -/
def VStatus.busyWord (t : VStatus) (any : Word) : Word :=
  (any &&& ~~~0x11#32) ||| BitVec.ofNat 32 (t.busy.toNat + 16 * t.rejected.toNat)

/-- `N_STATUS` while the NDU is busy: `BUSY` and `REJECTED` are exact, every other bit any value (R433). -/
def NStatus.busyWord (t : NStatus) (any : Word) : Word :=
  (any &&& ~~~0x81#32) ||| BitVec.ofNat 32 (t.busy.toNat + 128 * t.rejected.toNat)

end Sys2Proof.Machine
end

