-- ==== Sys2Proof/Machine/HostPort.lean ====
section
/-!
DEFINITION. The host's accesses (spec/20_memory.md sections 1 and 2, spec/10_state.md, spec/46_control.md section 3): the
address map, the register map, reads, writes, and the accesses R75 refuses.
-/

namespace Sys2Proof.Machine

/-- The registers, named by the rules of spec/10_state.md.  A vision slot word is named by its slot and its field (R59). -/
inductive Reg where
  | id | irqStatus | irqEnable | softReset
  | vCmd | vStatus | vLen | vResult | brWord | brPos | brState | brLen
  | vFormat | vRes | vPtype | vQuant | vFrameIndex | vWidth | vHeight | vSliceCount | vMbPerRow | vSliceIndex | vGridMbs
  | vErrPos | vRlRun | vRlLevel | vRlInfo
  | nCmd | nStatus | nLen | nMagic | nState | nSeq | nVisionDef | nCksCalc | nCksRx | nEndPos
  | nDemoCtrlState | nDemoBattery | nDemoTheta | nDemoPhi | nDemoPsi | nDemoAltitude | nDemoVx | nDemoVy | nDemoVz
  | nVisCount
  | nVis (slot field : Nat)
deriving DecidableEq, Repr

/-- The global registers (R21 to R24). -/
def globalRegs : List (Nat × Reg) := [(0x000, .id), (0x004, .irqStatus), (0x008, .irqEnable), (0x00C, .softReset)]

/-- The VDU's command and BitReader registers (R25 to R32). -/
def readerRegs : List (Nat × Reg) :=
  [(0x100, .vCmd), (0x104, .vStatus), (0x108, .vLen), (0x10C, .vResult), (0x110, .brWord), (0x114, .brPos),
   (0x118, .brState), (0x11C, .brLen)]

/-- The VDU's picture and result registers (R33 to R45). -/
def pictureRegs : List (Nat × Reg) :=
  [(0x120, .vFormat), (0x124, .vRes), (0x128, .vPtype), (0x12C, .vQuant), (0x130, .vFrameIndex), (0x134, .vWidth),
   (0x138, .vHeight), (0x13C, .vSliceCount), (0x140, .vMbPerRow), (0x144, .vSliceIndex), (0x148, .vGridMbs),
   (0x14C, .vErrPos), (0x150, .vRlRun), (0x154, .vRlLevel), (0x158, .vRlInfo)]

/-- The NDU's registers, the vision slots apart (R48 to R59). -/
def navRegs : List (Nat × Reg) :=
  [(0x200, .nCmd), (0x204, .nStatus), (0x208, .nLen), (0x20C, .nMagic), (0x210, .nState), (0x214, .nSeq),
   (0x218, .nVisionDef), (0x21C, .nCksCalc), (0x220, .nCksRx), (0x224, .nEndPos), (0x230, .nDemoCtrlState),
   (0x234, .nDemoBattery), (0x238, .nDemoTheta), (0x23C, .nDemoPhi), (0x240, .nDemoPsi), (0x244, .nDemoAltitude),
   (0x248, .nDemoVx), (0x24C, .nDemoVy), (0x250, .nDemoVz), (0x260, .nVisCount)]

/-- The offsets of R21 to R59, the vision slots apart. -/
def regTable : List (Nat × Reg) := globalRegs ++ readerRegs ++ pictureRegs ++ navRegs

/-- The register at an offset of the `REG` space; `none` is a reserved offset (R59, R60). -/
def regAt (off : Nat) : Option Reg :=
  if 0x280 ≤ off ∧ off < 0x300 ∧ off % 4 = 0 ∧ off % 0x20 < 0x1C then
    some (.nVis ((off - 0x280) / 0x20) (off % 0x20 / 4))
  else cellFind regTable off

/-- The four vision slots in order. -/
def Ndu.slot (n : Ndu) (t : Nat) : VisionSlot :=
  match t with
  | 0 => n.slot0
  | 1 => n.slot1
  | 2 => n.slot2
  | _ => n.slot3

/-- The words of a vision slot in the order of `f` (R59). -/
def VisionSlot.field (v : VisionSlot) (f : Nat) : Word :=
  match f with
  | 0 => v.type
  | 1 => v.xc
  | 2 => v.yc
  | 3 => v.width
  | 4 => v.height
  | 5 => v.dist
  | _ => v.orient

/-- The value of a register (R20 to R59): reserved bits are 0, a write-only register reads as 0 (R355). -/
def State.readReg (s : State) : Reg → Word
  | .id => 0x56464401
  | .irqStatus => s.irqStatus.zeroExtend 32
  | .irqEnable => s.irqEnable.zeroExtend 32
  | .softReset | .vCmd | .nCmd => 0
  | .vStatus => s.v.status.word
  | .vLen => s.v.len
  | .vResult => s.v.result
  | .brWord => s.v.brWord
  | .brPos => s.v.brPos
  | .brState => s.v.brStateWord
  | .brLen => s.v.brLen
  | .vFormat => s.v.format.zeroExtend 32
  | .vRes => s.v.res.zeroExtend 32
  | .vPtype => s.v.ptype.zeroExtend 32
  | .vQuant => s.v.quant
  | .vFrameIndex => s.v.frameIndex
  | .vWidth => s.v.width
  | .vHeight => s.v.height
  | .vSliceCount => s.v.sliceCount
  | .vMbPerRow => s.v.mbPerRow
  | .vSliceIndex => s.v.sliceIndex
  | .vGridMbs => s.v.gridMbs
  | .vErrPos => s.v.errPos
  | .vRlRun => s.v.rlRun
  | .vRlLevel => s.v.rlLevel
  | .vRlInfo => s.v.rlInfoWord
  | .nStatus => s.n.status.word
  | .nLen => s.n.len
  | .nMagic => s.n.magic
  | .nState => s.n.state
  | .nSeq => s.n.seq
  | .nVisionDef => s.n.visionDef
  | .nCksCalc => s.n.cksCalc
  | .nCksRx => s.n.cksRx
  | .nEndPos => s.n.endPos
  | .nDemoCtrlState => s.n.demo.ctrlState
  | .nDemoBattery => s.n.demo.battery
  | .nDemoTheta => s.n.demo.theta
  | .nDemoPhi => s.n.demo.phi
  | .nDemoPsi => s.n.demo.psi
  | .nDemoAltitude => s.n.demo.altitude
  | .nDemoVx => s.n.demo.vx
  | .nDemoVy => s.n.demo.vy
  | .nDemoVz => s.n.demo.vz
  | .nVisCount => s.n.visCount
  | .nVis t f => (s.n.slot t).field f

/-- The unit whose pending command may write a register; the host has no defined view of it while that unit is busy
(R433).  `V_STATUS` and `N_STATUS` are apart: two of their bits are exact. -/
def Reg.writer : Reg → Option DecodeUnit
  | .vResult | .brWord | .brPos | .brState | .brLen | .vFormat | .vRes | .vPtype | .vQuant | .vFrameIndex | .vWidth
  | .vHeight | .vSliceCount | .vMbPerRow | .vSliceIndex | .vGridMbs | .vErrPos | .vRlRun | .vRlLevel | .vRlInfo => some .vdu
  | .nMagic | .nState | .nSeq | .nVisionDef | .nCksCalc | .nCksRx | .nEndPos | .nDemoCtrlState | .nDemoBattery
  | .nDemoTheta | .nDemoPhi | .nDemoPsi | .nDemoAltitude | .nDemoVx | .nDemoVy | .nDemoVz | .nVisCount
  | .nVis _ _ => some .ndu
  | .id | .irqStatus | .irqEnable | .softReset | .vCmd | .vStatus | .vLen | .nCmd | .nStatus | .nLen => none

/-- `X_STATUS.BUSY`. -/
def State.busy (s : State) : DecodeUnit → Bool
  | .vdu => s.v.status.busy
  | .ndu => s.n.status.busy

/-- What the host reads from a register, `any` being the free value of this read (R355, R433). -/
def State.hostReadReg (s : State) (r : Reg) (any : Word) : Word :=
  match r with
  | .vStatus => if s.v.status.busy then s.v.status.busyWord any else s.v.status.word
  | .nStatus => if s.n.status.busy then s.n.status.busyWord any else s.n.status.word
  | r =>
    match r.writer with
    | some u => if s.busy u then any else s.readReg r
    | none => s.readReg r

/-! ## The address map -/

/-- The address spaces (R70). -/
inductive Space where
  | reg
  | vin
  | nin
  | pix
deriving DecidableEq, Repr

/-- Where a platform address falls: a space and the byte offset in it; `none` is unmapped (R71).  The block decodes 24
address bits from `VFD_BASE` on. -/
def spaceAt (cfg : Config) (addr : Nat) : Option (Space × Nat) :=
  let off := addr - cfg.vfdBase
  if addr < cfg.vfdBase ∨ 0x1000000 ≤ off then none
  else if off < 0x1000 then some (.reg, off)
  else if 0x100000 ≤ off ∧ off < 0x100000 + cfg.vinBytes then some (.vin, off - 0x100000)
  else if 0x200000 ≤ off ∧ off < 0x200000 + cfg.ninBytes then some (.nin, off - 0x200000)
  else if 0x400000 ≤ off ∧ off < 0x400000 + 4 * cfg.pixEntries then some (.pix, off - 0x400000)
  else none

/-- The size of a space in bytes (R70). -/
def Space.bytes (cfg : Config) : Space → Nat
  | .reg => 0x1000
  | .vin => cfg.vinBytes
  | .nin => cfg.ninBytes
  | .pix => 4 * cfg.pixEntries

/-- The widths a space allows (R72, R73, R74). -/
def Space.allows : Space → Nat → Bool
  | .reg, w | .pix, w => w == 4
  | .vin, w | .nin, w => w == 1 || w == 2 || w == 4

/-- The checks of R75 that do not depend on the state of a unit: the place of the access, or why it is refused. -/
def resolveAccess (cfg : Config) (addr width : Nat) : Except Refusal (Space × Nat) :=
  match spaceAt cfg addr with
  | none => .error .unmappedOffset
  | some (sp, a) =>
    if !sp.allows width then .error .badWidth
    else if a % width ≠ 0 then .error .misaligned
    else if sp.bytes cfg < a + width then .error .crossesEnd
    else .ok (sp, a)

/-! ## Reads -/

/-- The host's view of a buffer byte: `any` where nothing has been written (R413). -/
def hostByte (m : Memory) (any : Byte) (a : Nat) : Byte := (cellFind m a).getD any

/-- `width` bytes of a buffer as the host reads them, little-endian (R73, R76). -/
def hostReadBytes (m : Memory) (any : Word) (a : Nat) (width : Nat) : Word :=
  BitVec.ofNat 32 (leRead (fun b => hostByte m (wordByte any (b - a)) b) a width)

/-- The data of a host read; `any` is the free value of this read. -/
def State.hostRead (s : State) (sp : Space) (a width : Nat) (any : Word) : Word :=
  match sp with
  | .reg => match regAt a with
    | some r => s.hostReadReg r any
    | none => 0
  | .vin => hostReadBytes s.vin any a width
  | .nin => hostReadBytes s.nin any a width
  | .pix => if s.v.status.busy then any else (s.pix.get (a / 4)).getD any

/-! ## Writes -/

/-- A host write to `REG` that is none of the operations of R104: a command word is accepted or rejected (R25, R48, R358);
a read-only register or a reserved offset is left as it is (R60, R357). -/
def State.hostWriteReg (s : State) (a : Nat) (w : Word) : State :=
  match regAt a with
  | some .vCmd => s.accept .vdu w
  | some .nCmd => s.accept .ndu w
  | _ => s

/-- A host write outside the operations of R104.  A buffer is not written while its unit is busy (R75, R431); a write to
`PIX` has no effect (R74). -/
def State.hostWrite (s : State) (sp : Space) (a width : Nat) (w : Word) : StepOutcome State :=
  match sp with
  | .reg => .next (s.hostWriteReg a w)
  | .vin => if s.v.status.busy then .refused .bufferBusy else .next { s with vin := memWrite s.vin a w width }
  | .nin => if s.n.status.busy then .refused .bufferBusy else .next { s with nin := memWrite s.nin a w width }
  | .pix => .next s

/-- One host access that is no instruction of the table. -/
def hostAccess (acc : HostAccess) (s : State) : StepOutcome State :=
  match acc with
  | .read addr width =>
    match resolveAccess s.cfg addr width with
    | .error r => .refused r
    | .ok (sp, a) =>
      .next { s with host := { s.host with
        data := s.hostRead sp a width (Config.anyWord s.host.reads)
        reads := s.host.reads + 1 } }
  | .write addr width w =>
    match resolveAccess s.cfg addr width with
    | .error r => .refused r
    | .ok (sp, a) => s.hostWrite sp a width w

/-- The place of the decoder for a host write that acts as an operation (R104). -/
def Reg.operation : Reg → Option DecCtx
  | .softReset => some .softReset
  | .irqStatus => some .irqStatus
  | .irqEnable => some .irqEnable
  | .vLen => some .vLen
  | .nLen => some .nLen
  | _ => none

/-- The instruction a host access is, if it is one: an allowed write to a register of R104. -/
def hostInstr (cfg : Config) (acc : HostAccess) : Option Instr :=
  match acc with
  | .read _ _ => none
  | .write addr width w =>
    match resolveAccess cfg addr width with
    | .ok (.reg, a) =>
      match (regAt a).bind Reg.operation with
      | some c => (decode c w.toNat).toOption
      | none => none
    | _ => none

end Sys2Proof.Machine
end

