-- ==== Sys2Proof/Machine/Nav.lean ====
section
/-!
DEFINITION. The NavData decode unit (spec/41_navdata.md): `N.NOP`, `N.DECODE`, and what the forms of a datagram do: the
header, the record header, the demo, vision and checksum records, and a record that is skipped.
-/

namespace Sys2Proof.Machine

/-- End the NDU's command with an error, or without one (R358). -/
def navEnd (s : State) (e : Err) : StepOutcome State := .next (s.complete .ndu e)

/-- `ClearResults()` (R172). -/
def State.clearResults (s : State) : State :=
  { s with n := { s.n with
    status := { s.n.status with valid := false, trunc := false, demoSeen := false, cksSeen := false, visSeen := false }
    magic := 0
    state := 0
    seq := 0
    visionDef := 0
    cksCalc := 0
    cksRx := 0
    endPos := 0
    demo := Demo.zero
    visCount := 0
    slot0 := VisionSlot.zero
    slot1 := VisionSlot.zero
    slot2 := VisionSlot.zero
    slot3 := VisionSlot.zero } }

/-- The sum of the `n` bytes of a byte view from address 0 on. -/
def byteSum (byteAt : Nat → Byte) : Nat → Nat
  | 0 => 0
  | n + 1 => byteSum byteAt n + (byteAt n).toNat

/-- The computed checksum of a datagram of `len` bytes: all but the final 8, modulo 2^32 (R175). -/
def State.navChecksum (s : State) (len : Nat) : Word := BitVec.ofNat 32 (byteSum s.ninByte (len - 8))

/-- The walk stops at `pos`: `N_END_POS`, `VALID`, completion (R171, R177, R183). -/
def navFinish (s : State) (pos : Nat) (trunc : Bool) : StepOutcome State :=
  navEnd { s with n := { s.n with
    endPos := BitVec.ofNat 32 pos
    status := { s.n.status with
      trunc := trunc
      valid := s.n.status.cksSeen && (s.n.cksRx == s.n.cksCalc) } } } .none

/-- The walk is at `pos`: a record header, or fewer than 4 bytes remain (R176, R177 (a)). -/
def navAt (s : State) (pos : Nat) : StepOutcome State :=
  if s.n.len.toNat < pos + 4 then navFinish s pos (pos != s.n.len.toNat)
  else .next { s with n := { s.n with ctx := { s.n.ctx with phase := .recordHeader, pos := pos } } }

/-- The record at hand is done: go on at `pos + size` (R171). -/
def navNext (s : State) : StepOutcome State := navAt s (s.n.ctx.pos + s.n.ctx.size.toNat)

/-- `N.DECODE` up to the header: results cleared, then `LEN_RANGE`, then `TOO_SHORT` (R171, R172, R173). -/
def navBegin (s : State) : StepOutcome State :=
  let t := s.clearResults
  if s.cfg.ninBytes < s.n.len.toNat then navEnd t .lenRange
  else if s.n.len.toNat < 16 then navEnd t .tooShort
  else .next { t with n := { t.n with ctx := ⟨.header, 0, 0, 0⟩ } }

/-- The header's four words and the computed checksum; the walk starts at 16 (R174, R175, R176). -/
def readNavHeader (magic status sequence visionDefined : Word) (s : State) : StepOutcome State :=
  navAt { s with n := { s.n with
    magic := magic
    state := status
    seq := sequence
    visionDef := visionDefined
    cksCalc := s.navChecksum s.n.len.toNat } } 16

/-- A record header: a size of 0, or one past the datagram's end, ends the walk with `TRUNC`; else the record is
dispatched (R176, R177 (b)). -/
def readRecordHeader (tag size : BitVec 16) (s : State) : StepOutcome State :=
  let pos := s.n.ctx.pos
  if size = 0 ∨ s.n.len.toNat < pos + size.toNat then navFinish s pos true
  else .next { s with n := { s.n with ctx := ⟨.record, pos, tag, size⟩ } }

/-- The demo registers of the record at `pos` (R130, R179). -/
def State.demoAt (s : State) (pos : Nat) : Demo where
  ctrlState := s.ninWord (pos + 4)
  battery := s.ninWord (pos + 8)
  theta := s.ninWord (pos + 12)
  phi := s.ninWord (pos + 16)
  psi := s.ninWord (pos + 20)
  altitude := s.ninWord (pos + 24)
  vx := s.ninWord (pos + 28)
  vy := s.ninWord (pos + 32)
  vz := s.ninWord (pos + 36)

/-- `DemoRecord(pos)` (R179). -/
def demoRecord (s : State) : StepOutcome State :=
  navNext { s with n := { s.n with
    status := { s.n.status with demoSeen := true }
    demo := s.demoAt s.n.ctx.pos } }

/-- Slot `t` of the vision record at `pos`: field `f` is at `pos + 8 + 16 f + 4 t` (R131, R180). -/
def State.visionAt (s : State) (pos t : Nat) : VisionSlot where
  type := s.ninWord (pos + 8 + 4 * t)
  xc := s.ninWord (pos + 24 + 4 * t)
  yc := s.ninWord (pos + 40 + 4 * t)
  width := s.ninWord (pos + 56 + 4 * t)
  height := s.ninWord (pos + 72 + 4 * t)
  dist := s.ninWord (pos + 88 + 4 * t)
  orient := s.ninWord (pos + 104 + 4 * t)

/-- `VisionRecord(pos)`: all four slots, whatever the count (R180). -/
def visionRecord (s : State) : StepOutcome State :=
  let pos := s.n.ctx.pos
  navNext { s with n := { s.n with
    status := { s.n.status with visSeen := true }
    visCount := s.ninWord (pos + 4)
    slot0 := s.visionAt pos 0
    slot1 := s.visionAt pos 1
    slot2 := s.visionAt pos 2
    slot3 := s.visionAt pos 3 } }

/-- `ChecksumRecord(pos)` (R181). -/
def checksumRecord (s : State) : StepOutcome State :=
  navNext { s with n := { s.n with
    status := { s.n.status with cksSeen := true }
    cksRx := s.ninWord (s.n.ctx.pos + 4) } }

/-! ## The meanings of the forms -/

/-- `NAV_HEADER` (R128, R174). -/
def execNavHeader (magic status sequence visionDefined : BitVec 32) (s : State) : StepOutcome State :=
  readNavHeader magic status sequence visionDefined s

/-- `NAV_RECORD_HEADER` (R129, R176). -/
def execNavRecordHeader (tag size : BitVec 16) (s : State) : StepOutcome State := readRecordHeader tag size s

/-- `NAV_DEMO` (R130, R179). -/
def execNavDemo (s : State) : StepOutcome State := demoRecord s

/-- `NAV_VISION` (R131, R180). -/
def execNavVision (s : State) : StepOutcome State := visionRecord s

/-- `NAV_CHECKSUM` (R132, R181). -/
def execNavChecksum (s : State) : StepOutcome State := checksumRecord s

/-- `NAV_UNKNOWN`: nothing is written, the walk goes on (R133, R182). -/
def execNavUnknown (_tag : BitVec 16) (s : State) : StepOutcome State := navNext s

/-! ## The walk -/

/-- The decoder's place and the bytes it is given for the form expected (R78). -/
def navWindow (s : State) : Option (DecCtx × Nat) :=
  match s.n.ctx.phase with
  | .idle => none
  | .header => some (.navHeader, leRead s.ninByte 0 16)
  | .recordHeader => some (.navRecordHeader, leRead s.ninByte s.n.ctx.pos 4)
  | .record => some (.navRecord s.n.ctx.size, s.n.ctx.tag.toNat)

/-- Perform one form of the datagram.  No other instruction is decoded at a place of the datagram. -/
def performForm (i : Instr) (s : State) : StepOutcome State :=
  match i with
  | .navHeader a b c d => execNavHeader a b c d s
  | .navRecordHeader a b => execNavRecordHeader a b s
  | .navDemo => execNavDemo s
  | .navVision => execNavVision s
  | .navChecksum => execNavChecksum s
  | .navUnknown a => execNavUnknown a s
  | .vNop | .vDecode | .brInit | .brRead _ | .brPeek _ | .brAlign
  | .brHasrem | .brRldec | .nNop | .nDecode | .softReset _ _ | .irqStatusW1c _
  | .irqEnable _ | .vLen _ | .nLen _ | .sc _ | .eop | .pictureHeader _ _ _ _ _
  | .squant _ | .mbcEmpty | .mbcCoded | .mbdes _ | .mbdiff _ | .dc _
  | .runZ0 | .runZ1 | .runZ2 _ | .runZ3 _ | .runZ4 _ | .runZ5 _
  | .runZ6 _ | .runZ7 _ | .runZ8 _ | .runZ9 _ | .runZ10 _ | .runZ11 _
  | .runZ12 _ | .runZ13 _ | .runZ14 _ | .runZ15 _ | .runOvf | .levelZ0 _
  | .eob | .levelZ2 _ _ | .levelZ3 _ _ | .levelZ4 _ _ | .levelZ5 _ _ | .levelZ6 _ _
  | .levelZ7 _ _ | .levelZ8 _ _ | .levelZ9 _ _ | .levelZ10 _ _ | .levelZ11 _ _ | .levelZ12 _ _
  | .levelZ13 _ _ | .levelZ14 _ _ | .levelZ15 _ _ => .next s

/-- Read and perform the form expected next.  Every datagram's bytes are some form, so the decoder never rejects them. -/
def navForm (s : State) : StepOutcome State :=
  match navWindow s with
  | none => .next s
  | some (c, w) =>
    match decode c w with
    | .ok i => performForm i s
    | .error _ => navEnd s .badCommand

/-- Perform forms until the command has ended, at most `n` of them. -/
def navLoop : Nat → State → StepOutcome State
  | 0, s => if s.n.ctx.phase = .idle then .next s else .fault .decodeBound
  | n + 1, s =>
    if s.n.ctx.phase = .idle then .next s
    else match navForm s with
      | .next t => navLoop n t
      | o => o

/-- More forms than a datagram of `len` bytes has: a record is two of them and at least one byte long (R176). -/
def navBound (len : Nat) : Nat := 2 * len + 2

/-! ## The meanings of the commands -/

/-- `N.NOP` (R170). -/
def execNNop (s : State) : StepOutcome State := navEnd s .none

/-- `N.DECODE` (R171). -/
def execNDecode (s : State) : StepOutcome State :=
  match navBegin s with
  | .next t => navLoop (navBound s.n.len.toNat) t
  | o => o

end Sys2Proof.Machine
end

