-- ==== Sys2Proof/Machine/Block.lean ====
section
/-!
DEFINITION. The block layer of `V.DECODE` (spec/43_video_block.md): `DC`, the run and level codes, the zig-zag scatter,
dequantization and the store of the transformed block.

A run code and the level code after it are decoded from one window and consumed together (R123, R254): a run code only
notes its run and its length, the level code or `EOB` consumes both.
-/

namespace Sys2Proof.Machine

/-- `ZZ` (R262), in rows of 16 scan positions. -/
def zigzag : List Nat :=
  [0, 1, 8, 16, 9, 2, 3, 10, 17, 24, 32, 25, 18, 11, 4, 5] ++
  [12, 19, 26, 33, 40, 48, 41, 34, 27, 20, 13, 6, 7, 14, 21, 28] ++
  [35, 42, 49, 56, 57, 50, 43, 36, 29, 22, 15, 23, 30, 37, 44, 51] ++
  [58, 59, 52, 45, 38, 31, 39, 46, 53, 60, 61, 54, 47, 55, 62, 63]

/-- The factor of raster index `i` (R260). -/
def dequantFactor (qe : Int) (i : Nat) : Int := 1 + (1 + (i / 8 : Nat) + (i % 8 : Nat)) * qe

/-- Every coefficient scaled by its raster position and wrapped to `COEF_BITS` (R260, R263). -/
def dequantize (cfg : Config) (quant : Word) (coef : Block) : Block :=
  (List.range 64).map fun i => wrapTo cfg.coefBits (coef.getD i 0 * dequantFactor (effectiveQuant quant) i)

/-- The block is read: dequantize, transform, store it in the grid (R250, R228, R293), and go to the next block. -/
def videoEndBlock (s : State) : StepOutcome State :=
  let c := s.v.ctx
  let samples := idctStore s.cfg (dequantize s.cfg s.v.quant c.coef)
  let mb := (s.v.grid.getD c.mb []).set c.blk samples
  videoBlock { s with v := { s.v with grid := s.v.grid.set c.mb mb } } (c.blk + 1)

/-- `DC`: coefficient 0; AC codes follow if the block's bit of `MBDES` is set (R250, R251). -/
def readDc (d : BitVec 10) (s : State) : StepOutcome State :=
  videoTake s 10 fun t =>
    let c := { t.v.ctx with coef := (d.toNat : Int) :: List.replicate 63 0, scan := 0, phase := .run }
    let t' : State := { t with v := { t.v with ctx := c } }
    if c.des.getLsbD c.blk then .next t' else videoEndBlock t'

/-- A run code: its run and length are noted, nothing is consumed (R254, R255). -/
def inspectRun (z t : Nat) (s : State) : StepOutcome State :=
  .next { s with v := { s.v with ctx := { s.v.ctx with phase := .level, run := runValue z t, runLen := runLength z } } }

/-- A code that does not fit the window: `VLC_OVERFLOW` before anything is consumed (R259). -/
def windowOverflow (s : State) : StepOutcome State := videoEnd s .vlcOverflow

/-- Consume a run code with the level code of `n` bits after it, if both fit the window (R254, R259). -/
def takePair (n : Nat) (s : State) (k : State → StepOutcome State) : StepOutcome State :=
  let len := s.v.ctx.runLen + n
  if 32 < len then windowOverflow s else videoTake s len k

/-- A level code: skip the run and store the level, or `ZIGZAG_OVERFLOW` after the code is consumed (R253, R254). -/
def storeLevel (z m : Nat) (negative : Bool) (s : State) : StepOutcome State :=
  takePair (levelLength z) s fun t =>
    let c := t.v.ctx
    let pos := c.scan + c.run + 1
    if 63 < pos then videoEnd t .zigzagOverflow
    else .next { t with v := { t.v with ctx := { c with
      phase := .run, scan := pos, coef := c.coef.set (zigzag.getD pos 0) (levelValue z m negative) } } }

/-- `EOB`: consumed with the run code before it, whose value is dropped (R257). -/
def endOfBlock (s : State) : StepOutcome State := takePair 2 s videoEndBlock

/-! ## The meanings -/

/-- `DC` (R119, R251). -/
def execDc (d : BitVec 10) (s : State) : StepOutcome State := readDc d s

/-- `RUN_Z0` (R120). -/
def execRunZ0 (s : State) : StepOutcome State := inspectRun 0 0 s

/-- `RUN_Z1` (R120). -/
def execRunZ1 (s : State) : StepOutcome State := inspectRun 1 0 s

/-- `RUN_Z2` (R120, R255). -/
def execRunZ2 (t : BitVec 1) (s : State) : StepOutcome State := inspectRun 2 t.toNat s

/-- `RUN_Z3` (R120, R255). -/
def execRunZ3 (t : BitVec 2) (s : State) : StepOutcome State := inspectRun 3 t.toNat s

/-- `RUN_Z4` (R120, R255). -/
def execRunZ4 (t : BitVec 3) (s : State) : StepOutcome State := inspectRun 4 t.toNat s

/-- `RUN_Z5` (R120, R255). -/
def execRunZ5 (t : BitVec 4) (s : State) : StepOutcome State := inspectRun 5 t.toNat s

/-- `RUN_Z6` (R120, R255). -/
def execRunZ6 (t : BitVec 5) (s : State) : StepOutcome State := inspectRun 6 t.toNat s

/-- `RUN_Z7` (R120, R255). -/
def execRunZ7 (t : BitVec 6) (s : State) : StepOutcome State := inspectRun 7 t.toNat s

/-- `RUN_Z8` (R120, R255). -/
def execRunZ8 (t : BitVec 7) (s : State) : StepOutcome State := inspectRun 8 t.toNat s

/-- `RUN_Z9` (R120, R255). -/
def execRunZ9 (t : BitVec 8) (s : State) : StepOutcome State := inspectRun 9 t.toNat s

/-- `RUN_Z10` (R120, R255). -/
def execRunZ10 (t : BitVec 9) (s : State) : StepOutcome State := inspectRun 10 t.toNat s

/-- `RUN_Z11` (R120, R255). -/
def execRunZ11 (t : BitVec 10) (s : State) : StepOutcome State := inspectRun 11 t.toNat s

/-- `RUN_Z12` (R120, R255). -/
def execRunZ12 (t : BitVec 11) (s : State) : StepOutcome State := inspectRun 12 t.toNat s

/-- `RUN_Z13` (R120, R255). -/
def execRunZ13 (t : BitVec 12) (s : State) : StepOutcome State := inspectRun 13 t.toNat s

/-- `RUN_Z14` (R120, R255). -/
def execRunZ14 (t : BitVec 13) (s : State) : StepOutcome State := inspectRun 14 t.toNat s

/-- `RUN_Z15` (R120, R255). -/
def execRunZ15 (t : BitVec 14) (s : State) : StepOutcome State := inspectRun 15 t.toNat s

/-- `RUN_OVF` (R124, R259). -/
def execRunOvf (s : State) : StepOutcome State := windowOverflow s

/-- `LEVEL_Z0` (R121, R256). -/
def execLevelZ0 (n : Bool) (s : State) : StepOutcome State := storeLevel 0 0 n s

/-- `EOB` (R122, R257). -/
def execEob (s : State) : StepOutcome State := endOfBlock s

/-- `LEVEL_Z2` (R121, R256). -/
def execLevelZ2 (m : BitVec 1) (n : Bool) (s : State) : StepOutcome State := storeLevel 2 m.toNat n s

/-- `LEVEL_Z3` (R121, R256). -/
def execLevelZ3 (m : BitVec 2) (n : Bool) (s : State) : StepOutcome State := storeLevel 3 m.toNat n s

/-- `LEVEL_Z4` (R121, R256). -/
def execLevelZ4 (m : BitVec 3) (n : Bool) (s : State) : StepOutcome State := storeLevel 4 m.toNat n s

/-- `LEVEL_Z5` (R121, R256). -/
def execLevelZ5 (m : BitVec 4) (n : Bool) (s : State) : StepOutcome State := storeLevel 5 m.toNat n s

/-- `LEVEL_Z6` (R121, R256). -/
def execLevelZ6 (m : BitVec 5) (n : Bool) (s : State) : StepOutcome State := storeLevel 6 m.toNat n s

/-- `LEVEL_Z7` (R121, R256). -/
def execLevelZ7 (m : BitVec 6) (n : Bool) (s : State) : StepOutcome State := storeLevel 7 m.toNat n s

/-- `LEVEL_Z8` (R121, R256). -/
def execLevelZ8 (m : BitVec 7) (n : Bool) (s : State) : StepOutcome State := storeLevel 8 m.toNat n s

/-- `LEVEL_Z9` (R121, R256). -/
def execLevelZ9 (m : BitVec 8) (n : Bool) (s : State) : StepOutcome State := storeLevel 9 m.toNat n s

/-- `LEVEL_Z10` (R121, R256). -/
def execLevelZ10 (m : BitVec 9) (n : Bool) (s : State) : StepOutcome State := storeLevel 10 m.toNat n s

/-- `LEVEL_Z11` (R121, R256). -/
def execLevelZ11 (m : BitVec 10) (n : Bool) (s : State) : StepOutcome State := storeLevel 11 m.toNat n s

/-- `LEVEL_Z12` (R121, R256). -/
def execLevelZ12 (m : BitVec 11) (n : Bool) (s : State) : StepOutcome State := storeLevel 12 m.toNat n s

/-- `LEVEL_Z13` (R121, R256). -/
def execLevelZ13 (m : BitVec 12) (n : Bool) (s : State) : StepOutcome State := storeLevel 13 m.toNat n s

/-- `LEVEL_Z14` (R121, R256). -/
def execLevelZ14 (m : BitVec 13) (n : Bool) (s : State) : StepOutcome State := storeLevel 14 m.toNat n s

/-- `LEVEL_Z15` (R121, R256). -/
def execLevelZ15 (m : BitVec 14) (n : Bool) (s : State) : StepOutcome State := storeLevel 15 m.toNat n s

end Sys2Proof.Machine
end

