-- ==== Sys2Proof/Machine/VideoDecode.lean ====
section
/-!
DEFINITION. `V.DECODE` (spec/42_video_picture.md R210): the elements of the stream, read and performed one after the other
until the command ends.  The whole of it is ONE step of the VDU (spec/00_scope.md R7): nothing between two elements is
seen from outside.
-/

namespace Sys2Proof.Machine

/-- The decoder's place and the bits it is given for the element expected (R77, R144): the 22 bits of a start code come
after the alignment (R212); a level code is read from what the run code left of the 32-bit window (R254). -/
def videoWindow (s : State) : Option (DecCtx × Nat) :=
  match s.v.ctx.phase with
  | .idle => none
  | .startCode => some (.startCode, s.brAlign.brPeek 22)
  | .pictureHeader => some (.pictureHeader, s.brPeek 45)
  | .sliceQuant => some (.sliceQuant, s.brPeek 5)
  | .mbc => some (.mbc, s.brPeek 1)
  | .mbdes => some (.mbdes, s.brPeek 8)
  | .mbdiff => some (.mbdiff, s.brPeek 2)
  | .dc => some (.dc, s.brPeek 10)
  | .run => some (.run, s.brPeek 32)
  | .level => some (.level, s.brPeek 32 * 2 ^ s.v.ctx.runLen % 2 ^ 32)

/-- What bits that are no element do: a wrong start code and a level prefix that fits no window each have their error
(R213, R259).  The other rejections belong to command words (R371). -/
def videoReject (r : Reject) (s : State) : StepOutcome State :=
  match r with
  | .badStartCode => wrongStartCode s
  | .levelOverflow => windowOverflow s
  | .illegalOp | .badCount | .reservedBits => videoEnd s .badCommand

/-- Perform one element of the stream.  No other instruction is decoded at a place of the stream. -/
def performElement (i : Instr) (s : State) : StepOutcome State :=
  match i with
  | .sc a => execSc a s
  | .eop => execEop s
  | .pictureHeader a b c d e => execPictureHeader a b c d e s
  | .squant a => execSquant a s
  | .mbcEmpty => execMbcEmpty s
  | .mbcCoded => execMbcCoded s
  | .mbdes a => execMbdes a s
  | .mbdiff a => execMbdiff a s
  | .dc a => execDc a s
  | .runZ0 => execRunZ0 s
  | .runZ1 => execRunZ1 s
  | .runZ2 a => execRunZ2 a s
  | .runZ3 a => execRunZ3 a s
  | .runZ4 a => execRunZ4 a s
  | .runZ5 a => execRunZ5 a s
  | .runZ6 a => execRunZ6 a s
  | .runZ7 a => execRunZ7 a s
  | .runZ8 a => execRunZ8 a s
  | .runZ9 a => execRunZ9 a s
  | .runZ10 a => execRunZ10 a s
  | .runZ11 a => execRunZ11 a s
  | .runZ12 a => execRunZ12 a s
  | .runZ13 a => execRunZ13 a s
  | .runZ14 a => execRunZ14 a s
  | .runZ15 a => execRunZ15 a s
  | .runOvf => execRunOvf s
  | .levelZ0 a => execLevelZ0 a s
  | .eob => execEob s
  | .levelZ2 a b => execLevelZ2 a b s
  | .levelZ3 a b => execLevelZ3 a b s
  | .levelZ4 a b => execLevelZ4 a b s
  | .levelZ5 a b => execLevelZ5 a b s
  | .levelZ6 a b => execLevelZ6 a b s
  | .levelZ7 a b => execLevelZ7 a b s
  | .levelZ8 a b => execLevelZ8 a b s
  | .levelZ9 a b => execLevelZ9 a b s
  | .levelZ10 a b => execLevelZ10 a b s
  | .levelZ11 a b => execLevelZ11 a b s
  | .levelZ12 a b => execLevelZ12 a b s
  | .levelZ13 a b => execLevelZ13 a b s
  | .levelZ14 a b => execLevelZ14 a b s
  | .levelZ15 a b => execLevelZ15 a b s
  | .vNop | .vDecode | .brInit | .brRead _ | .brPeek _
  | .brAlign | .brHasrem | .brRldec | .nNop | .nDecode
  | .softReset _ _ | .irqStatusW1c _ | .irqEnable _ | .vLen _ | .nLen _
  | .navHeader _ _ _ _ | .navRecordHeader _ _ | .navDemo | .navVision | .navChecksum
  | .navUnknown _ => .next s

/-- Read and perform the element expected next. -/
def videoElement (s : State) : StepOutcome State :=
  match videoWindow s with
  | none => .next s
  | some (c, w) =>
    match decode c w with
    | .ok i => performElement i s
    | .error r => videoReject r s

/-- Perform elements until the command has ended, at most `n` of them. -/
def videoLoop : Nat → State → StepOutcome State
  | 0, s => if s.v.ctx.phase = .idle then .next s else .fault .decodeBound
  | n + 1, s =>
    if s.v.ctx.phase = .idle then .next s
    else match videoElement s with
      | .next t => videoLoop n t
      | o => o

/-- More elements than a stream of `ext` bits has: every element but a run code consumes a bit or ends the command, and a
run code is followed by an element that does. -/
def videoBound (ext : Nat) : Nat := 2 * ext + 2

/-- The start of `V.DECODE`, up to the first loop test (R210, R232). -/
def videoBegin (s : State) : StepOutcome State :=
  let t : State := { s with v := { s.v with status := { s.v.status with picComplete := false, frameValid := false } } }
  if s.cfg.vinBytes < s.v.len.toNat then videoEnd t .lenRange
  else
    let u := t.brStart
    videoAtHeader { u with v := { u.v with sliceIndex := 0 } }

/-- `V.DECODE` (R210). -/
def execVDecode (s : State) : StepOutcome State :=
  match videoBegin s with
  | .next t => videoLoop (videoBound t.brExt) t
  | o => o

end Sys2Proof.Machine
end

