-- ==== Sys2Proof/Machine/Fetch.lean ====
section
/-!
DEFINITION. What the next step performs: which agent moves (spec/00_scope.md R6), and the instruction it finds.  The host
takes its next access (R83); a busy unit takes its pending command word (R358), or, at a place inside a decode, the next
element of its input (assumption 5).
-/

namespace Sys2Proof.Machine

/-- The agent that moves next: the one the schedule names; where it names none, a busy unit before the host, so that an
accepted command is always performed (R438, assumption 6). -/
def State.nextAgent (s : State) : Agent :=
  match s.host.sched with
  | a :: _ => a
  | [] => if s.v.status.busy then .vdu else if s.n.status.busy then .ndu else .host

/-- The state with this entry of the schedule used up. -/
def State.advanceSched (s : State) : State := { s with host := { s.host with sched := s.host.sched.tail } }

/-- What a step does: perform an instruction of the table, or something that is none. -/
inductive Fetched where
  | instr (i : Instr) (s : State)
  | other (o : StepOutcome State)

/-- The host's move: its next access. -/
def fetchHost (s : State) : Fetched :=
  match s.host.queue with
  | [] => .other (.next s)
  | acc :: rest =>
    let t : State := { s with host := { s.host with queue := rest } }
    match hostInstr s.cfg acc with
    | some i => .instr i t
    | none => .other (hostAccess acc t)

/-- The VDU's move.  It is enabled while `BUSY = 1`; an illegal pending word completes with `BAD_COMMAND` (R358, R371). -/
def fetchVdu (s : State) : Fetched :=
  if s.v.status.busy then
    match videoWindow s with
    | some (c, w) =>
      match decode c w with
      | .ok i => .instr i s
      | .error r => .other (videoReject r s)
    | none =>
      match s.v.pending with
      | none => .other (.next s)
      | some w =>
        match decode .vCmd w.toNat with
        | .ok i => .instr i s
        | .error _ => .other (videoEnd s .badCommand)
  else .other (.next s)

/-- The NDU's move (R358, R371). -/
def fetchNdu (s : State) : Fetched :=
  if s.n.status.busy then
    match navWindow s with
    | some (c, w) =>
      match decode c w with
      | .ok i => .instr i s
      | .error _ => .other (navEnd s .badCommand)
    | none =>
      match s.n.pending with
      | none => .other (.next s)
      | some w =>
        match decode .nCmd w.toNat with
        | .ok i => .instr i s
        | .error _ => .other (navEnd s .badCommand)
  else .other (.next s)

/-- What the next step does. -/
def fetch (s : State) : Fetched :=
  match s.nextAgent with
  | .host => fetchHost s.advanceSched
  | .vdu => fetchVdu s.advanceSched
  | .ndu => fetchNdu s.advanceSched

/-! ## Placing one instruction where the next step finds it -/

/-- Let this agent move next. -/
def State.scheduleNext (s : State) (a : Agent) : State := { s with host := { s.host with sched := a :: s.host.sched } }

/-- The `len` low bits of `w`, most significant first, then zeros, as the first two chunks of the stream (R150). -/
def State.placeStream (s : State) (len w : Nat) : State :=
  let bits := w * 2 ^ (64 - len)
  { s with vin := memWrite (memWrite s.vin 0 (BitVec.ofNat 32 (bits / 2 ^ 32)) 4) 4 (BitVec.ofNat 32 bits) 4 }

/-- The VDU busy with a decode of the two chunks of `VIN`, at this place. -/
def State.placeVideo (s : State) (p : VideoPhase) : State :=
  State.brMoveTo { s with v := { s.v with
    status := { s.v.status with busy := true }
    brLen := 8
    ctx := { VideoCtx.idle with phase := p, coef := List.replicate 64 0 } } } 0

/-- The host about to write a word to a register. -/
def State.placeWrite (s : State) (off w : Nat) : State :=
  { s.scheduleNext .host with host := { (s.scheduleNext .host).host with
    queue := .write (s.cfg.vfdBase + off) 4 (BitVec.ofNat 32 w) :: s.host.queue } }

/-- The bytes of `w`, `4 k` of them from address `a` on, in `NIN` (R78). -/
def placeBytes (m : Memory) (a : Nat) (w : Nat) : Nat → Memory
  | 0 => m
  | k + 1 => memWrite (placeBytes m a w k) (a + 4 * k) (BitVec.ofNat 32 (w / 2 ^ (32 * k))) 4

/-- The instruction of one word of the opcode table, stored where the next step finds it (see `tableCtx`). -/
def State.placeTableWord (s : State) (nbits w : Nat) : State :=
  match tableCtx nbits w with
  | some (.vCmd, _) =>
    { s.scheduleNext .vdu with v := { s.v with
      status := { s.v.status with busy := true }
      pending := some (BitVec.ofNat 32 w)
      ctx := VideoCtx.idle } }
  | some (.navHeader, _) =>
    { s.scheduleNext .ndu with
      nin := placeBytes s.nin 0 w 4
      n := { s.n with status := { s.n.status with busy := true }, len := 16, ctx := ⟨.header, 0, 0, 0⟩ } }
  | some (.navRecord size, _) =>
    { s.scheduleNext .ndu with
      nin := memWrite s.nin 16 (BitVec.ofNat 32 (w + size.toNat * 2 ^ 16)) 4
      n := { s.n with
        status := { s.n.status with busy := true }
        len := BitVec.ofNat 32 (16 + size.toNat)
        ctx := ⟨.record, 16, BitVec.ofNat 16 w, size⟩ } }
  | some (.startCode, len) => ((s.scheduleNext .vdu).placeStream len w).placeVideo .startCode
  | some (.pictureHeader, len) => ((s.scheduleNext .vdu).placeStream len w).placeVideo .pictureHeader
  | some (.mbc, len) => ((s.scheduleNext .vdu).placeStream len w).placeVideo .mbc
  | some (.mbdes, len) => ((s.scheduleNext .vdu).placeStream len w).placeVideo .mbdes
  | some (.run, len) => ((s.scheduleNext .vdu).placeStream len w).placeVideo .run
  | some (.level, len) =>
    let t := ((s.scheduleNext .vdu).placeStream (len + 1) (2 ^ len + w)).placeVideo .level
    { t with v := { t.v with ctx := { t.v.ctx with runLen := 1 } } }
  | some (.softReset, _) => s.placeWrite 0x00C w
  | some (.irqStatus, _) => s.placeWrite 0x004 w
  | some (.vLen, _) => s.placeWrite 0x108 w
  | _ => s

end Sys2Proof.Machine
end

