-- ==== Sys2Proof/Machine/Dispatch.lean ====
section
/-!
DEFINITION. The meaning of every instruction of spec/opcode_table.json: one arm per constructor of `Instr`, in the table's
order.
-/

namespace Sys2Proof.Machine

/-- The meaning of an instruction. -/
def exec (i : Instr) (s : State) : Host.Outcome State Fault Refusal :=
  match i with
  | .vNop => Sys2Proof.Machine.execVNop s
  | .vDecode => Sys2Proof.Machine.execVDecode s
  | .brInit => Sys2Proof.Machine.execBrInit s
  | .brRead k => Sys2Proof.Machine.execBrRead k s
  | .brPeek k => Sys2Proof.Machine.execBrPeek k s
  | .brAlign => Sys2Proof.Machine.execBrAlign s
  | .brHasrem => Sys2Proof.Machine.execBrHasrem s
  | .brRldec => Sys2Proof.Machine.execBrRldec s
  | .nNop => Sys2Proof.Machine.execNNop s
  | .nDecode => Sys2Proof.Machine.execNDecode s
  | .softReset n v => Sys2Proof.Machine.execSoftReset n v s
  | .irqStatusW1c m => Sys2Proof.Machine.execIrqStatusW1c m s
  | .irqEnable e => Sys2Proof.Machine.execIrqEnable e s
  | .vLen l => Sys2Proof.Machine.execVLen l s
  | .nLen l => Sys2Proof.Machine.execNLen l s
  | .sc k => Sys2Proof.Machine.execSc k s
  | .eop => Sys2Proof.Machine.execEop s
  | .pictureHeader f r t q x => Sys2Proof.Machine.execPictureHeader f r t q x s
  | .squant q => Sys2Proof.Machine.execSquant q s
  | .mbcEmpty => Sys2Proof.Machine.execMbcEmpty s
  | .mbcCoded => Sys2Proof.Machine.execMbcCoded s
  | .mbdes d => Sys2Proof.Machine.execMbdes d s
  | .mbdiff d => Sys2Proof.Machine.execMbdiff d s
  | .dc d => Sys2Proof.Machine.execDc d s
  | .runZ0 => Sys2Proof.Machine.execRunZ0 s
  | .runZ1 => Sys2Proof.Machine.execRunZ1 s
  | .runZ2 t => Sys2Proof.Machine.execRunZ2 t s
  | .runZ3 t => Sys2Proof.Machine.execRunZ3 t s
  | .runZ4 t => Sys2Proof.Machine.execRunZ4 t s
  | .runZ5 t => Sys2Proof.Machine.execRunZ5 t s
  | .runZ6 t => Sys2Proof.Machine.execRunZ6 t s
  | .runZ7 t => Sys2Proof.Machine.execRunZ7 t s
  | .runZ8 t => Sys2Proof.Machine.execRunZ8 t s
  | .runZ9 t => Sys2Proof.Machine.execRunZ9 t s
  | .runZ10 t => Sys2Proof.Machine.execRunZ10 t s
  | .runZ11 t => Sys2Proof.Machine.execRunZ11 t s
  | .runZ12 t => Sys2Proof.Machine.execRunZ12 t s
  | .runZ13 t => Sys2Proof.Machine.execRunZ13 t s
  | .runZ14 t => Sys2Proof.Machine.execRunZ14 t s
  | .runZ15 t => Sys2Proof.Machine.execRunZ15 t s
  | .runOvf => Sys2Proof.Machine.execRunOvf s
  | .levelZ0 n => Sys2Proof.Machine.execLevelZ0 n s
  | .eob => Sys2Proof.Machine.execEob s
  | .levelZ2 m n => Sys2Proof.Machine.execLevelZ2 m n s
  | .levelZ3 m n => Sys2Proof.Machine.execLevelZ3 m n s
  | .levelZ4 m n => Sys2Proof.Machine.execLevelZ4 m n s
  | .levelZ5 m n => Sys2Proof.Machine.execLevelZ5 m n s
  | .levelZ6 m n => Sys2Proof.Machine.execLevelZ6 m n s
  | .levelZ7 m n => Sys2Proof.Machine.execLevelZ7 m n s
  | .levelZ8 m n => Sys2Proof.Machine.execLevelZ8 m n s
  | .levelZ9 m n => Sys2Proof.Machine.execLevelZ9 m n s
  | .levelZ10 m n => Sys2Proof.Machine.execLevelZ10 m n s
  | .levelZ11 m n => Sys2Proof.Machine.execLevelZ11 m n s
  | .levelZ12 m n => Sys2Proof.Machine.execLevelZ12 m n s
  | .levelZ13 m n => Sys2Proof.Machine.execLevelZ13 m n s
  | .levelZ14 m n => Sys2Proof.Machine.execLevelZ14 m n s
  | .levelZ15 m n => Sys2Proof.Machine.execLevelZ15 m n s
  | .navHeader a b c d => Sys2Proof.Machine.execNavHeader a b c d s
  | .navRecordHeader t z => Sys2Proof.Machine.execNavRecordHeader t z s
  | .navDemo => Sys2Proof.Machine.execNavDemo s
  | .navVision => Sys2Proof.Machine.execNavVision s
  | .navChecksum => Sys2Proof.Machine.execNavChecksum s
  | .navUnknown t => Sys2Proof.Machine.execNavUnknown t s

end Sys2Proof.Machine
end

