-- ==== Sys2Proof/Machine/HostAsm.lean ====
section
/-!
DEFINITION. The host's assembly statements and pseudo-instructions as the bus accesses they make (spec/30_encoding.md R105,
R106).  A host program is the list of its accesses, put into the queue of the host port.
-/

namespace Sys2Proof.Machine

/-- The offset of a register (R21 to R59). -/
def regOffset : Reg → Nat
  | .nVis t f => 0x280 + 0x20 * t + 4 * f
  | r => (regTable.find? (fun e => e.2 == r)).elim 0 Prod.fst

/-- Where a buffer begins (R71). -/
def bufferOffset : Buffer → Nat
  | .vin => 0x100000
  | .nin => 0x200000

/-- The statements of R105 and R106.  `poll` is one turn of its loop: how often the host turns is the host's own program. -/
inductive HostStmt where
  | wr (r : Reg) (v : Word)
  | rd (r : Reg)
  | wrb (b : Buffer) (a : Nat) (v : Word)
  | wrh (b : Buffer) (a : Nat) (v : Word)
  | wrw (b : Buffer) (a : Nat) (v : Word)
  | rdw (p : Nat)
  | poll (r : Reg)
  | command (i : Instr)
  | load (b : Buffer) (bytes : List Nat)
  | waitV
  | waitN
  | video (len : Word)
  | navdata (len : Word)
  | ack (m : Word)
deriving DecidableEq, Repr

/-- `wr REG, v`. -/
def writeReg (cfg : Config) (r : Reg) (v : Word) : HostAccess := .write (cfg.vfdBase + regOffset r) 4 v

/-- `rd REG`. -/
def readRegAt (cfg : Config) (r : Reg) : HostAccess := .read (cfg.vfdBase + regOffset r) 4

/-- The command register an instruction's word is written to. -/
def commandReg (i : Instr) : Reg := if i.ctx = .nCmd then .nCmd else .vCmd

/-- The write of a command word (R105). -/
def writeCommand (cfg : Config) (i : Instr) : HostAccess :=
  writeReg cfg (commandReg i) (BitVec.ofNat 32 (encode i).val)

/-- The write of `width` bytes to a buffer (R105). -/
def writeBuffer (cfg : Config) (b : Buffer) (a width : Nat) (v : Word) : HostAccess :=
  .write (cfg.vfdBase + bufferOffset b + a) width v

/-- `load SPACE, b0 b1 ...` from address `a` on (R106). -/
def loadBytes (cfg : Config) (b : Buffer) (a : Nat) : List Nat → List HostAccess
  | [] => []
  | x :: rest => writeBuffer cfg b a 1 (BitVec.ofNat 32 x) :: loadBytes cfg b (a + 1) rest

/-- The accesses of a statement (R105, R106). -/
def HostStmt.accesses (cfg : Config) : HostStmt → List HostAccess
  | .wr r v => [writeReg cfg r v]
  | .rd r => [readRegAt cfg r]
  | .wrb b a v => [writeBuffer cfg b a 1 v]
  | .wrh b a v => [writeBuffer cfg b a 2 v]
  | .wrw b a v => [writeBuffer cfg b a 4 v]
  | .rdw p => [.read (cfg.vfdBase + 0x400000 + 4 * p) 4]
  | .poll r => [readRegAt cfg r]
  | .command i => [writeCommand cfg i]
  | .load b bytes => loadBytes cfg b 0 bytes
  | .waitV => [readRegAt cfg .vStatus]
  | .waitN => [readRegAt cfg .nStatus]
  | .video len => [writeReg cfg .vLen len, writeCommand cfg .vDecode, readRegAt cfg .vStatus]
  | .navdata len => [writeReg cfg .nLen len, writeCommand cfg .nDecode, readRegAt cfg .nStatus]
  | .ack m => [writeReg cfg .irqStatus m]

/-- The state with a host program to run. -/
def State.withProgram (s : State) (program : List HostStmt) : State :=
  { s with host := { s.host with queue := s.host.queue ++ program.flatMap (HostStmt.accesses s.cfg) } }

end Sys2Proof.Machine
end

