-- ==== Sys2Proof/Safety.lean ====
section
/-!
DEFINITION. What counts as a safe run, and the words the statements of Certificates/ are written in: the invariant of the
machine, what a primitive consumes, how a command ends, what the loops of the spec's pseudocode do next, and the record
walk of the NavData unit as spec/41_navdata.md R171 writes it.  Nothing here is used by the machine itself.
-/

namespace Sys2Proof.Machine

/-! ## What an instruction leaves alone -/

/-- Every byte of `VIN` and `NIN` reads as before, and the lists of bytes written are as before. -/
def KeepsBuffers (s t : State) : Prop :=
  (∀ a, t.vinByte a = s.vinByte a) ∧ (∀ a, t.ninByte a = s.ninByte a) ∧ t.vin = s.vin ∧ t.nin = s.nin

/-- Every byte of `VIN` and `NIN` and every pixel of `PIX` reads as before. -/
def KeepsMemory (s t : State) : Prop := KeepsBuffers s t ∧ ∀ p, t.pix.get p = s.pix.get p

/-- All that is not the VDU's reads as before: R89 gives the VDU the `V_*` and `BR_*` registers, the grid, `PIX` and its
three bits of `IRQ_STATUS`.  (The schedule of the host port moves on with every step.) -/
structure KeepsOutsideVdu (s t : State) : Prop where
  cfg : t.cfg = s.cfg
  irqEnable : t.irqEnable = s.irqEnable
  navBits : t.irqStatus &&& 0b11000#5 = s.irqStatus &&& 0b11000#5
  ndu : t.n = s.n
  buffers : KeepsBuffers s t
  queue : t.host.queue = s.host.queue
  data : t.host.data = s.host.data
  reads : t.host.reads = s.host.reads

/-- All that is not the NDU's reads as before: R89 gives the NDU the `N_*` registers and its two bits of `IRQ_STATUS`. -/
structure KeepsOutsideNdu (s t : State) : Prop where
  cfg : t.cfg = s.cfg
  irqEnable : t.irqEnable = s.irqEnable
  videoBits : t.irqStatus &&& 0b00111#5 = s.irqStatus &&& 0b00111#5
  vdu : t.v = s.v
  memory : KeepsMemory s t
  queue : t.host.queue = s.host.queue
  data : t.host.data = s.host.data
  reads : t.host.reads = s.host.reads

/-! ## The bit cursor -/

/-- `v` is the number made of the `n` bits `bit p`, `bit (p + 1)`, …, the first of them most significant (R77). -/
def BitsAt (bit : Nat → Bool) (p n v : Nat) : Prop :=
  v < 2 ^ n ∧ ∀ j < n, v.testBit (n - 1 - j) = bit (p + j)

/-- The bit a peek sees: a bit at or beyond the readable extent is 0 (R144). -/
def State.peekBit (s : State) (k : Nat) : Bool := if k < s.brExt then s.streamBit k else false

/-- The lookahead registers are what `BR_Sync` computes from `BR_POS` (R147). -/
def Synced (s : State) : Prop :=
  (s.brAt = 0 → s.v.brChunk.toNat = 0 ∧ s.v.brBitIdx.toNat = 32 ∧ s.v.brWord = 0) ∧
  (s.brAt ≠ 0 →
    s.v.brChunk.toNat = (s.brAt - 1) / 32 + 1 ∧
    s.v.brBitIdx.toNat = s.brAt - 32 * (s.v.brChunk.toNat - 1) ∧
    s.v.brWord.toNat =
      if s.v.brBitIdx.toNat = 32 then 0
      else leRead s.vinByte (4 * (s.v.brChunk.toNat - 1)) 4 * 2 ^ s.v.brBitIdx.toNat % 2 ^ 32)

/-- The parameters are legal, `BR_LEN` fits the buffer and the cursor lies inside the readable extent (R140). -/
structure CursorOk (s : State) : Prop where
  valid : s.cfg.valid = true
  len : s.v.brLen.toNat ≤ s.cfg.vinBytes
  pos : s.brAt ≤ s.brExt

/-- `u` is `s` with the cursor at `p`, the lookahead registers recomputed, and nothing else changed. -/
def MovedTo (s : State) (p : Nat) (u : State) : Prop :=
  u = { s with v := { s.v with
        brPos := u.v.brPos, brChunk := u.v.brChunk, brBitIdx := u.v.brBitIdx, brWord := u.v.brWord } } ∧
  u.brAt = p ∧ Synced u

/-- `u` is `s` with `n` bits consumed (R143). -/
def Took (s : State) (n : Nat) (u : State) : Prop := MovedTo s (s.brAt + n) u

/-- The next byte boundary at or after the cursor (R145). -/
def State.alignedAt (s : State) : Nat := if s.brAt % 8 = 0 then s.brAt else s.brAt + (8 - s.brAt % 8)

/-- Unread bytes remain: the bytes touched are fewer than the bytes of whole chunks (R146). -/
def BytesRemain (s : State) : Prop := s.alignedAt / 8 < s.v.brLen.toNat / 4 * 4

/-! ## How a command ends -/

/-- `t` is `u` with the VDU's command ended with code `e` and these interrupt bits set (R358, R388): only `ERR`, `BUSY`,
`DONE`, `V_ERR_POS` (on an error) and `IRQ_STATUS` change; no pending word (R62: it is a command not yet performed) and
no place in a decode is left (the model's, log entry 5). -/
def VduEnded (u : State) (e : Err) (bits : BitVec 5) (t : State) : Prop :=
  t = { u with
    irqStatus := u.irqStatus ||| bits
    v := { u.v with
      status := { u.v.status with busy := false, done := true, err := e }
      errPos := match e with
        | .none => u.v.errPos
        | _ => u.v.brPos
      pending := none
      ctx := ⟨.idle, 0, 0, 0, [], 0, 0, 0⟩ } }

/-- The VDU's command ends without an error: `VID_DONE` (R22). -/
def VduDone (u t : State) : Prop := VduEnded u .none 0b00001#5 t

/-- The VDU's command ends with error `e`: `VID_DONE` and `VID_ERR` (R22, R370). -/
def VduFailed (u : State) (e : Err) (t : State) : Prop := e ≠ .none ∧ VduEnded u e 0b00011#5 t

/-- `t` is `u` with the NDU's command ended with code `e` and these interrupt bits set (R358, R388); no pending word and no
place in a decode is left (log entry 5). -/
def NduEnded (u : State) (e : Err) (bits : BitVec 5) (t : State) : Prop :=
  t = { u with
    irqStatus := u.irqStatus ||| bits
    n := { u.n with
      status := { u.n.status with busy := false, done := true, err := e }
      pending := none
      ctx := ⟨.idle, 0, 0, 0⟩ } }

/-- The NDU's command ends without an error: `NAV_DONE` (R22). -/
def NduDone (u t : State) : Prop := NduEnded u .none 0b01000#5 t

/-- The NDU's command ends with error `e`: `NAV_DONE` and `NAV_ERR` (R22, R370). -/
def NduFailed (u : State) (e : Err) (t : State) : Prop := e ≠ .none ∧ NduEnded u e 0b11000#5 t

/-! ## What the video decoder does after an element (the pseudocode of R210 and R224) -/

/-- `u` with the element expected next changed, and nothing else. -/
def State.atElement (u : State) (p : VideoPhase) : State :=
  { u with v := { u.v with ctx := { u.v.ctx with phase := p } } }

/-- The loop test of R210 at a header boundary. -/
def HeaderBoundary (u t : State) : Prop :=
  (BytesRemain u → t = u.atElement .startCode) ∧ (¬ BytesRemain u → VduDone u t)

/-- The RGB word of a luma and two chroma samples, R325 to R327 written over the sample values. -/
def pixelWord (cfg : Config) (luma cb cr : Int) : Word :=
  let clamp (t : Int) : Nat := (min (max t 0) 255).toNat
  BitVec.ofNat 32
    (65536 * clamp ((256 * luma + cfg.kRV * (cr - 128)) / 256)
      + 256 * clamp ((256 * luma - cfg.kGU * (cb - 128) - cfg.kGV * (cr - 128)) / 256)
      + clamp ((256 * luma + cfg.kBU * (cb - 128)) / 256))

/-- The word `ComposeSlice` gives pixel `(y, x)` of macroblock `j` (R320, R323, R324). -/
def State.composedWord (u : State) (j y x : Nat) : Word :=
  pixelWord u.cfg (u.gridSample j (2 * (y / 8) + x / 8) (8 * (y % 8) + x % 8))
    (u.gridSample j 4 (8 * (y / 2) + x / 2)) (u.gridSample j 5 (8 * (y / 2) + x / 2))

/-- `c` is `u` with slice `sl` composed: each pixel of each macroblock has its word, every other pixel reads as before,
and nothing but `PIX` changed (R320 to R327). -/
def Composed (u : State) (sl : Nat) (c : State) : Prop :=
  c = { u with pix := c.pix } ∧
  (∀ j y x, j < u.v.mbPerRow.toNat → y < 16 → x < 16 →
    c.pix.get ((16 * sl + y) * u.v.width.toNat + 16 * j + x) = some (u.composedWord j y x)) ∧
  (∀ p, (∀ j y x, j < u.v.mbPerRow.toNat → y < 16 → x < 16 →
      p ≠ (16 * sl + y) * u.v.width.toNat + 16 * j + x) → c.pix.get p = u.pix.get p)

/-- The slice's macroblocks are decoded: compose it as slice `V_SLICE_INDEX - 1`, or `SLICE_OVERFLOW` with no pixel
written (R210, R320, R328). -/
def SliceDone (u t : State) : Prop :=
  (u.v.sliceIndex.toNat - 1 < u.v.sliceCount.toNat →
    ∃ c, Composed u (u.v.sliceIndex.toNat - 1) c ∧ HeaderBoundary c t) ∧
  (u.v.sliceCount.toNat ≤ u.v.sliceIndex.toNat - 1 → VduFailed u .sliceOverflow t)

/-- The loop over the macroblocks of a slice arrives at macroblock `j` (R210). -/
def MacroblockLoop (u : State) (j : Nat) (t : State) : Prop :=
  (j < u.v.mbPerRow.toNat → t = { u with v := { u.v with ctx := { u.v.ctx with phase := .mbc, mb := j } } }) ∧
  (u.v.mbPerRow.toNat ≤ j → SliceDone u t)

/-- The loop over the blocks of a macroblock arrives at block `k` (R224). -/
def BlockLoop (u : State) (k : Nat) (t : State) : Prop :=
  (k < 6 → t = { u with v := { u.v with ctx := { u.v.ctx with phase := .dc, blk := k } } }) ∧
  (6 ≤ k → MacroblockLoop u (u.v.ctx.mb + 1) t)

/-- The samples of a finished block: dequantized with the factor of R260 and R261, transformed by the configured `IDCT` and
wrapped to `SAMPLE_BITS` (R290, R293). -/
def blockSamples (cfg : Config) (quant : Word) (coef : Block) : Block :=
  let qe : Int := if quant.toInt = 31 then 2 else quant.toInt
  let scaled := (List.range 64).map fun i =>
    (coef.getD i 0 * (1 + (1 + (i / 8 : Nat) + (i % 8 : Nat)) * qe)).bmod (2 ^ cfg.coefBits)
  (idctApply cfg.idct scaled).map fun x => x.bmod (2 ^ cfg.sampleBits)

/-- `t` follows `u`, whose current block has the coefficients `coef`: the block's samples are stored in the grid entry of
the current macroblock, and the loop goes to the next block (R224, R228, R250). -/
def BlockStored (u : State) (coef : Block) (t : State) : Prop :=
  let entry := (u.v.grid.getD u.v.ctx.mb []).set u.v.ctx.blk (blockSamples u.cfg u.v.quant coef)
  BlockLoop { u with v := { u.v with grid := u.v.grid.set u.v.ctx.mb entry } } (u.v.ctx.blk + 1) t

/-- The elements of the stream, read and performed one after the other until the command has ended (R210). -/
inductive ElementRun : State → State → Prop where
  | ended {s : State} : s.v.ctx.phase = .idle → ElementRun s s
  | element {s u t : State} {c : DecCtx} {w : Nat} {i : Instr} :
      videoWindow s = some (c, w) → decode c w = .ok i → exec i s = .next u → ElementRun u t → ElementRun s t
  | noElement {s u t : State} {c : DecCtx} {w : Nat} {r : Reject} :
      videoWindow s = some (c, w) → decode c w = .error r → videoReject r s = .next u → ElementRun u t → ElementRun s t

/-! ## The operands of the run and level codes -/

/-- The zeros before the one, and the escape bits, of a run code (R120). -/
def runOperands : Instr → Option (Nat × Nat)
  | .runZ0 => some (0, 0)
  | .runZ1 => some (1, 0)
  | .runZ2 t => some (2, t.toNat)
  | .runZ3 t => some (3, t.toNat)
  | .runZ4 t => some (4, t.toNat)
  | .runZ5 t => some (5, t.toNat)
  | .runZ6 t => some (6, t.toNat)
  | .runZ7 t => some (7, t.toNat)
  | .runZ8 t => some (8, t.toNat)
  | .runZ9 t => some (9, t.toNat)
  | .runZ10 t => some (10, t.toNat)
  | .runZ11 t => some (11, t.toNat)
  | .runZ12 t => some (12, t.toNat)
  | .runZ13 t => some (13, t.toNat)
  | .runZ14 t => some (14, t.toNat)
  | .runZ15 t => some (15, t.toNat)
  | _ => none

/-- The zeros before the one, the magnitude bits and the sign of a level code that is not end of block (R121). -/
def levelOperands : Instr → Option (Nat × Nat × Bool)
  | .levelZ0 s => some (0, 0, s)
  | .levelZ2 m s => some (2, m.toNat, s)
  | .levelZ3 m s => some (3, m.toNat, s)
  | .levelZ4 m s => some (4, m.toNat, s)
  | .levelZ5 m s => some (5, m.toNat, s)
  | .levelZ6 m s => some (6, m.toNat, s)
  | .levelZ7 m s => some (7, m.toNat, s)
  | .levelZ8 m s => some (8, m.toNat, s)
  | .levelZ9 m s => some (9, m.toNat, s)
  | .levelZ10 m s => some (10, m.toNat, s)
  | .levelZ11 m s => some (11, m.toNat, s)
  | .levelZ12 m s => some (12, m.toNat, s)
  | .levelZ13 m s => some (13, m.toNat, s)
  | .levelZ14 m s => some (14, m.toNat, s)
  | .levelZ15 m s => some (15, m.toNat, s)
  | _ => none

/-- The run a run code stands for (R120, R255). -/
def specRun (z t : Nat) : Nat := match z with
  | 0 => 0
  | 1 => 1
  | k + 2 => 2 ^ (k + 1) + t

/-- The bits of a run code (R120). -/
def specRunBits (z : Nat) : Nat := match z with
  | 0 => 1
  | 1 => 2
  | k + 2 => 2 * (k + 2)

/-- The level a level code stands for (R121, R256). -/
def specLevel (z m : Nat) (negative : Bool) : Int :=
  let magnitude : Nat := match z with
    | 0 => 1
    | k + 1 => 2 ^ k + m
  if negative then -(magnitude : Int) else (magnitude : Int)

/-- The bits of a level code (R121). -/
def specLevelBits (z : Nat) : Nat := match z with
  | 0 => 2
  | k + 1 => 2 * (k + 1) + 1

/-! ## The NavData unit (R171 to R183) -/

/-- The walk has stopped at `pos` with this `TRUNC`: `N_END_POS` and `VALID` are written and the command ends without an
error (R171, R177, R183). -/
def NavStopped (u : State) (pos : Nat) (trunc : Bool) (t : State) : Prop :=
  NduDone { u with n := { u.n with
    endPos := BitVec.ofNat 32 pos
    status := { u.n.status with
      trunc := trunc
      valid := u.n.status.cksSeen && decide (u.n.cksRx = u.n.cksCalc) } } } t

/-- The walk arrives at `pos`: it reads a record header there, or stops because fewer than 4 bytes remain (R176, R177). -/
def NavLoop (u : State) (pos : Nat) (t : State) : Prop :=
  (pos + 4 ≤ u.n.len.toNat →
    t = { u with n := { u.n with ctx := { u.n.ctx with phase := .recordHeader, pos := pos } } }) ∧
  (u.n.len.toNat < pos + 4 → NavStopped u pos (decide (pos ≠ u.n.len.toNat)) t)

/-- The demo registers of the record at `pos` (R130, R179). -/
def specDemo (word : Nat → Word) (pos : Nat) : Demo :=
  { ctrlState := word (pos + 4), battery := word (pos + 8), theta := word (pos + 12), phi := word (pos + 16),
    psi := word (pos + 20), altitude := word (pos + 24), vx := word (pos + 28), vy := word (pos + 32),
    vz := word (pos + 36) }

/-- Vision slot `t` of the record at `pos`: field `f` is the word at `pos + 8 + 16 f + 4 t` (R180). -/
def specSlot (word : Nat → Word) (pos t : Nat) : VisionSlot :=
  let field (f : Nat) : Word := word (pos + 8 + 16 * f + 4 * t)
  { type := field 0, xc := field 1, yc := field 2, width := field 3, height := field 4, dist := field 5,
    orient := field 6 }

/-- What a demo record at `pos` writes (R179). -/
def withDemo (word : Nat → Word) (pos : Nat) (n : Ndu) : Ndu :=
  { n with status := { n.status with demoSeen := true }, demo := specDemo word pos }

/-- What a vision record at `pos` writes: all four slots, the count raw (R180). -/
def withVision (word : Nat → Word) (pos : Nat) (n : Ndu) : Ndu :=
  { n with status := { n.status with visSeen := true }, visCount := word (pos + 4), slot0 := specSlot word pos 0,
           slot1 := specSlot word pos 1, slot2 := specSlot word pos 2, slot3 := specSlot word pos 3 }

/-- What a checksum record at `pos` writes (R181). -/
def withChecksum (word : Nat → Word) (pos : Nat) (n : Ndu) : Ndu :=
  { n with status := { n.status with cksSeen := true }, cksRx := word (pos + 4) }

/-- `Dispatch(tag, size, pos)` (R178 to R182). -/
def specDispatch (word : Nat → Word) (tag size pos : Nat) (n : Ndu) : Ndu :=
  if tag = 0x0000 ∧ size ≥ 40 then withDemo word pos n
  else if tag = 0x0010 ∧ size ≥ 120 then withVision word pos n
  else if tag = 0xFFFF ∧ size ≥ 8 then withChecksum word pos n
  else n

/-- The loop of R171 over a datagram of `len` bytes: from `pos` with the registers `n`, the walk stops at a position, with
a `TRUNC` flag and the registers the records left. -/
inductive NavWalk (byte : Nat → Byte) (word : Nat → Word) (len : Nat) : Nat → Ndu → Nat → Bool → Ndu → Prop where
  | fewBytes {pos : Nat} {n : Ndu} : pos + 4 > len → NavWalk byte word len pos n pos (decide (pos ≠ len)) n
  | badSize {pos : Nat} {n : Ndu} : pos + 4 ≤ len →
      (leRead byte (pos + 2) 2 = 0 ∨ pos + leRead byte (pos + 2) 2 > len) → NavWalk byte word len pos n pos true n
  | record {pos stop : Nat} {n m : Ndu} {trunc : Bool} : pos + 4 ≤ len →
      leRead byte (pos + 2) 2 ≠ 0 → pos + leRead byte (pos + 2) 2 ≤ len →
      NavWalk byte word len (pos + leRead byte (pos + 2) 2)
        (specDispatch word (leRead byte pos 2) (leRead byte (pos + 2) 2) pos n) stop trunc m →
      NavWalk byte word len pos n stop trunc m

/-- The result registers and flags cleared (R172); `N_LEN`, the rest of the status and the pending word stay. -/
def cleared (n : Ndu) : Ndu :=
  { Ndu.reset with
    status := { Ndu.reset.status with
      busy := n.status.busy, done := n.status.done, rejected := n.status.rejected, err := n.status.err }
    pending := n.pending, len := n.len, ctx := n.ctx }

/-- The header's words and the computed checksum of a datagram of `len` bytes (R174, R175). -/
def withHeader (byte : Nat → Byte) (word : Nat → Word) (len : Nat) (n : Ndu) : Ndu :=
  { n with magic := word 0, state := word 4, seq := word 8, visionDef := word 12,
           cksCalc := BitVec.ofNat 32 (((List.range (len - 8)).map fun a => (byte a).toNat).sum) }

/-! ## Host accesses -/

/-- An access of this width at this offset from `VFD_BASE` lies in a space that allows it (R70 to R75). -/
def InSpace (cfg : Config) (off width : Nat) : Prop :=
  (width = 4 ∧ off % 4 = 0 ∧ off + 4 ≤ 0x1000) ∨
  ((width = 1 ∨ width = 2 ∨ width = 4) ∧ off % width = 0 ∧ 0x100000 ≤ off ∧ off + width ≤ 0x100000 + cfg.vinBytes) ∨
  ((width = 1 ∨ width = 2 ∨ width = 4) ∧ off % width = 0 ∧ 0x200000 ≤ off ∧ off + width ≤ 0x200000 + cfg.ninBytes) ∨
  (width = 4 ∧ off % 4 = 0 ∧ 0x400000 ≤ off ∧ off + 4 ≤ 0x400000 + 4 * cfg.pixEntries)

/-- The accesses that R75, R431 and R432 do not refuse. -/
def Allowed (s : State) : HostAccess → Prop
  | .read addr width => s.cfg.vfdBase ≤ addr ∧ InSpace s.cfg (addr - s.cfg.vfdBase) width
  | .write addr width _ =>
    s.cfg.vfdBase ≤ addr ∧ InSpace s.cfg (addr - s.cfg.vfdBase) width ∧
    (s.v.status.busy = true →
      addr ≠ s.cfg.vfdBase + 0x108 ∧
      ¬ (s.cfg.vfdBase + 0x100000 ≤ addr ∧ addr < s.cfg.vfdBase + 0x100000 + s.cfg.vinBytes)) ∧
    (s.n.status.busy = true →
      addr ≠ s.cfg.vfdBase + 0x208 ∧
      ¬ (s.cfg.vfdBase + 0x200000 ≤ addr ∧ addr < s.cfg.vfdBase + 0x200000 + s.cfg.ninBytes))

/-- The host's view of the register at this offset is exact: R433 names neither the registers that no command writes nor
those of an idle unit.  (`V_CMD` and `N_CMD` hold nothing and read as 0, R25, R48.) -/
def ReadsExactly (s : State) (off : Nat) : Prop :=
  off ∈ [0x000, 0x004, 0x008, 0x00C, 0x100, 0x108, 0x200, 0x208] ∨
  (0x100 ≤ off ∧ off < 0x200 ∧ s.v.status.busy = false) ∨ (0x200 ≤ off ∧ s.n.status.busy = false)

/-- `s` after a host step that took the first access of its queue and did nothing else. -/
def State.hostMoved (s : State) : State :=
  { s with host := { s.host with queue := s.host.queue.tail, sched := s.host.sched.tail } }

/-- `t` is `s` after a host step that read: the access is used up, the data is kept, and nothing else has changed. -/
def HostRead (s t : State) : Prop :=
  KeepsMemory s t ∧
  t = { s.hostMoved with host := { s.hostMoved.host with data := t.host.data, reads := s.host.reads + 1 } }

/-- `s` after a step of a unit that did nothing else: the schedule moves on. -/
def State.moved (s : State) : State := { s with host := { s.host with sched := s.host.sched.tail } }

/-! ## The invariant -/

/-- A value of a signed field of `bits` bits. -/
def InSigned (bits : Nat) (x : Int) : Prop := -(2 ^ (bits - 1)) ≤ x ∧ x < 2 ^ (bits - 1)

/-- The buffers are in canonical form and inside their spaces; a pixel word has 24 bits (R70, R74). -/
structure BuffersOk (s : State) : Prop where
  vinForm : s.vin.wf = true
  vinRange : ∀ c ∈ s.vin, c.1 < s.cfg.vinBytes
  ninForm : s.nin.wf = true
  ninRange : ∀ c ∈ s.nin, c.1 < s.cfg.ninBytes
  pixForm : s.pix.wf = true
  pixRange : ∀ c ∈ s.pix.cells, c.1 < s.cfg.pixEntries
  pixWord : ∀ c ∈ s.pix.cells, c.2.toNat < 2 ^ 24

/-- The invariant of R30 that ties `BR_POS` to `BR_STATE`. -/
structure BrStateOk (s : State) : Prop where
  start : s.v.brChunk = 0 → s.brAt = 0
  place : s.v.brChunk ≠ 0 → s.brAt = 32 * (s.v.brChunk.toNat - 1) + s.v.brBitIdx.toNat
  bitIdx : 1 ≤ s.v.brBitIdx.toNat ∧ s.v.brBitIdx.toNat ≤ 32

/-- The dimensions of no picture (reset), or those of a format and a resolution shift (R217, R218). -/
def LegalDimensions (w h : Nat) : Prop :=
  (w = 0 ∧ h = 0) ∨ ∃ r, 1 ≤ r ∧ r ≤ 7 ∧
    ((w = 88 * 2 ^ (r - 1) ∧ h = 72 * 2 ^ (r - 1)) ∨ (w = 160 * 2 ^ (r - 1) ∧ h = 120 * 2 ^ (r - 1)))

/-- The picture registers agree with each other and with the grid (R218 to R221, R46), and no pixel outside the picture
has been written since the reallocation (R80). -/
structure PictureOk (s : State) : Prop where
  mbPerRow : s.v.mbPerRow.toNat = s.v.width.toNat / 16
  sliceCount : s.v.sliceCount.toNat = s.v.height.toNat / 16
  fits : s.v.width.toNat * s.v.height.toNat ≤ s.cfg.pixEntries
  gridMbs : s.v.gridMbs = s.v.mbPerRow
  gridFits : s.v.gridMbs.toNat ≤ s.cfg.gridMaxMbs
  gridLength : s.v.grid.length = s.v.gridMbs.toNat
  gridShape : ∀ m ∈ s.v.grid, m.length = 6 ∧ ∀ b ∈ m, b.length = 64 ∧ ∀ x ∈ b, InSigned s.cfg.sampleBits x
  pixCleared : s.v.gridMbs ≠ 0 → s.pix.cleared = true
  dimensions : LegalDimensions s.v.width.toNat s.v.height.toNat
  pixInside : s.v.gridMbs ≠ 0 → ∀ c ∈ s.pix.cells, c.1 < s.v.width.toNat * s.v.height.toNat

/-- The status registers of both units are consistent (R26, R49, R358, R183, R230). -/
structure StatusOk (s : State) : Prop where
  vduIdle : s.v.status.busy = false → s.v.pending = none ∧ s.v.ctx = VideoCtx.idle
  vduBusy : s.v.status.busy = true → s.v.status.done = false ∧ s.v.status.err = .none
  vduWord : s.v.status.busy = true → s.v.ctx.phase = .idle → s.v.pending ≠ none
  frame : s.v.status.frameValid = s.v.status.picComplete
  nduIdle : s.n.status.busy = false → s.n.pending = none ∧ s.n.ctx = NavCtx.idle
  nduBusy : s.n.status.busy = true → s.n.status.done = false ∧ s.n.status.err = .none
  nduWord : s.n.status.busy = true → s.n.ctx.phase = .idle → s.n.pending ≠ none
  navValid : s.n.status.valid = true → s.n.status.cksSeen = true ∧ s.n.cksRx = s.n.cksCalc

/-- A place inside a video decode is one the loops of R210, R224 and R250 have. -/
structure VideoPlaceOk (s : State) : Prop where
  header : s.v.ctx.phase = .pictureHeader → s.v.sliceIndex = 0
  later : s.v.ctx.phase = .sliceQuant → s.v.sliceIndex ≠ 0
  macroblock : s.v.ctx.phase ∈ [.mbc, .mbdes, .mbdiff, .dc, .run, .level] → s.v.ctx.mb < s.v.mbPerRow.toNat
  block : s.v.ctx.phase ∈ [.dc, .run, .level] → s.v.ctx.blk < 6
  coefficients : s.v.ctx.phase ∈ [.run, .level] → s.v.ctx.coef.length = 64 ∧ s.v.ctx.scan ≤ 63
  runCode : s.v.ctx.phase = .level → 1 ≤ s.v.ctx.runLen ∧ s.v.ctx.runLen ≤ 30

/-- A place inside a NavData decode is one the walk of R171 has, and no result of the walk is out yet. -/
structure NavPlaceOk (s : State) : Prop where
  length : s.n.ctx.phase ≠ .idle → 16 ≤ s.n.len.toNat ∧ s.n.len.toNat ≤ s.cfg.ninBytes
  noResult : s.n.ctx.phase ≠ .idle → s.n.status.valid = false
  header : s.n.ctx.phase = .recordHeader → 16 ≤ s.n.ctx.pos ∧ s.n.ctx.pos + 4 ≤ s.n.len.toNat
  record : s.n.ctx.phase = .record →
    16 ≤ s.n.ctx.pos ∧ s.n.ctx.size ≠ 0 ∧ s.n.ctx.pos + s.n.ctx.size.toNat ≤ s.n.len.toNat

/-- The invariant of the machine: every state a run from reset reaches has it, and every step keeps it. -/
structure Inv (s : State) : Prop where
  cursor : CursorOk s
  brState : BrStateOk s
  buffers : BuffersOk s
  picture : PictureOk s
  status : StatusOk s
  video : VideoPlaceOk s
  nav : NavPlaceOk s

/-- Neither unit is inside a decode: the states the host's world can be in, because a command is one step (R7, R430). -/
def Settled (s : State) : Prop := s.v.ctx.phase = .idle ∧ s.n.ctx.phase = .idle

end Sys2Proof.Machine
end

