-- ==== Sys2Proof/Certificates/Slice0/Obligations.lean ====
section
/-!
DEFINITION. The statements for the provers.  The words they are written in (`Took`, `VduEnded`, `HeaderBoundary`, `NavWalk`,
`Inv`, …) are those of Sys2Proof/Safety.lean.  Each docstring names the rule of spec/ it formalises.
-/

open Sys2Proof Sys2Proof.Machine

/-! ## Decoding and encoding -/

/-- Every well-formed instruction is read back from its own code, whatever bits follow it (R100 to R124, R128 to R133). -/
def Obligations.DecodeEncode : Prop :=
  ∀ (i : Instr) (rest : Nat), i.wellFormed = true → rest < 2 ^ (i.ctx.width - (encode i).len) →
    decode i.ctx (codeWindow i rest) = .ok i

/-- Bits that are read as an instruction are that instruction's code: where no bit of the place is ignored, two
different groups of bits are never read as one instruction with the same bits after it.  (Left out: the three registers
whose reserved bits a write ignores, R24, R351, R352, and a record tag, whose meaning depends on its `size`, R178.) -/
def Obligations.EncodeDecode : Prop :=
  ∀ (c : DecCtx) (w : Nat) (i : Instr), w < 2 ^ c.width →
    c ≠ .softReset → c ≠ .irqStatus → c ≠ .irqEnable → (∀ size, c ≠ .navRecord size) →
    decode c w = .ok i →
    i.ctx = c ∧ i.wellFormed = true ∧
      ∃ rest, rest < 2 ^ (c.width - (encode i).len) ∧ codeWindow i rest = w

/-- The legal command words of both units are exactly those of R101 and R102 with `RSV` = 0 and `N` in range (R103). -/
def Obligations.LegalCommandWords : Prop :=
  ∀ w : Word,
    ((∃ i, decode .vCmd w.toNat = .ok i) ↔
      w.toNat / 2 ^ 14 = 0 ∧
      ((w.toNat % 256 ∈ [0x00, 0x01, 0x10, 0x13, 0x14, 0x15] ∧ w.toNat / 256 % 64 = 0) ∨
       (w.toNat % 256 ∈ [0x11, 0x12] ∧ 1 ≤ w.toNat / 256 % 64 ∧ w.toNat / 256 % 64 ≤ 32))) ∧
    ((∃ i, decode .nCmd w.toNat = .ok i) ↔
      w.toNat / 2 ^ 14 = 0 ∧ w.toNat % 256 ∈ [0x00, 0x01] ∧ w.toNat / 256 % 64 = 0)

/-- A few words written out from the spec's encodings are read as what they stand for (R100, R111, R112, R114, R120 to
R122, R128, R129). -/
def Obligations.SampleWords : Prop :=
  decode .vCmd 0x00001411 = .ok (.brRead 20#6) ∧
  decode .nCmd 0x00000001 = .ok .nDecode ∧
  decode .softReset 0x00000002 = .ok (.softReset true false) ∧
  decode .startCode 0x000020 = .ok (.sc 0#5) ∧
  decode .startCode 0x00003F = .ok .eop ∧
  decode .pictureHeader 0b01_001_010_11111_00000000000000000000000000000111 =
    .ok (.pictureHeader 1#2 1#3 2#3 31#5 7#32) ∧
  decode .run 0b00011110_00000000_00000000_00000000 = .ok (.runZ3 3#2) ∧
  decode .level 0b00101000_00000000_00000000_00000000 = .ok (.levelZ2 0#1 true) ∧
  decode .level 0b01000000_00000000_00000000_00000000 = .ok .eob ∧
  decode .navRecordHeader 0x0008FFFF = .ok (.navRecordHeader 0xFFFF#16 8#16)

/-! ## The step -/

/-- A step runs the instruction that is decoded where the agent that moves finds it; around it a step only uses up the
schedule entry, and for the host its access (R6, R83, R358).
The place inside a decode is the model's (log entry 5). The schedule is the model's (log entry 6). -/
def Obligations.StepRunsDecoded : Prop :=
  ∀ (s : State) (i : Instr),
    (∀ w, s.nextAgent = .vdu → s.v.status.busy = true → s.v.ctx.phase = .idle → s.v.pending = some w →
      decode .vCmd w.toNat = .ok i → step s = exec i s.moved) ∧
    (∀ c w, s.nextAgent = .vdu → s.v.status.busy = true → videoWindow s = some (c, w) → decode c w = .ok i →
      step s = exec i s.moved) ∧
    (∀ w, s.nextAgent = .ndu → s.n.status.busy = true → s.n.ctx.phase = .idle → s.n.pending = some w →
      decode .nCmd w.toNat = .ok i → step s = exec i s.moved) ∧
    (∀ c w, s.nextAgent = .ndu → s.n.status.busy = true → navWindow s = some (c, w) → decode c w = .ok i →
      step s = exec i s.moved) ∧
    (∀ acc rest, s.nextAgent = .host → s.host.queue = acc :: rest → hostInstr s.cfg acc = some i →
      step s = exec i s.hostMoved)

/-- A host write to a register of R104 is the operation with the written value as operand, reserved bits dropped. -/
def Obligations.HostOperations : Prop :=
  ∀ (cfg : Config) (w : Word),
    hostInstr cfg (.write (cfg.vfdBase + 0x004) 4 w) = some (.irqStatusW1c (w.extractLsb' 0 5)) ∧
    hostInstr cfg (.write (cfg.vfdBase + 0x008) 4 w) = some (.irqEnable (w.extractLsb' 0 5)) ∧
    hostInstr cfg (.write (cfg.vfdBase + 0x00C) 4 w) = some (.softReset (w.getLsbD 1) (w.getLsbD 0)) ∧
    hostInstr cfg (.write (cfg.vfdBase + 0x108) 4 w) = some (.vLen w) ∧
    hostInstr cfg (.write (cfg.vfdBase + 0x208) 4 w) = some (.nLen w)

/-- An accepted command is performed by ONE step of its unit, which ends with `BUSY` = 0, `DONE` = 1, the unit's interrupt
bits set and no place inside the command left (R7, R358, R370, R430). The schedule is the model's (log entry 6). -/
def Obligations.UnitStepCompletes : Prop :=
  ∀ s : State, Inv s → Settled s →
    (s.nextAgent = .vdu → s.v.status.busy = true →
      ∃ t, step s = .next t ∧ t.v.status.busy = false ∧ t.v.status.done = true ∧ t.v.pending = none ∧ Settled t ∧
        t.irqStatus.getLsbD 0 = true ∧
        (t.v.status.err ≠ .none → t.irqStatus.getLsbD 1 = true ∧ t.v.errPos = t.v.brPos) ∧
        (t.v.status.err = .none → t.irqStatus.getLsbD 1 = s.irqStatus.getLsbD 1 ∧ t.v.errPos = s.v.errPos)) ∧
    (s.nextAgent = .ndu → s.n.status.busy = true →
      ∃ t, step s = .next t ∧ t.n.status.busy = false ∧ t.n.status.done = true ∧ t.n.pending = none ∧ Settled t ∧
        t.irqStatus.getLsbD 3 = true ∧
        (t.n.status.err ≠ .none → t.irqStatus.getLsbD 4 = true) ∧
        (t.n.status.err = .none → t.irqStatus.getLsbD 4 = s.irqStatus.getLsbD 4))

/-- No step leaves a unit inside a decode (R7, R430). The place inside a decode is the model's (log entry 5). -/
def Obligations.StepKeepsSettled : Prop := ∀ s t : State, Settled s → step s = .next t → Settled t

/-- An illegal pending word ends the command with `BAD_COMMAND` (code `0x01`) and changes nothing but the status;
`V_ERR_POS` receives `BR_POS` (R371). -/
def Obligations.BadCommand : Prop :=
  ∀ (s : State) (w : Word),
    (s.nextAgent = .vdu → s.v.status.busy = true → s.v.ctx.phase = .idle → s.v.pending = some w →
      (∀ i, decode .vCmd w.toNat ≠ .ok i) →
      ∃ t, step s = .next t ∧ VduFailed s.moved .badCommand t ∧ t.v.status.err.code = 0x01 ∧ KeepsMemory s t) ∧
    (s.nextAgent = .ndu → s.n.status.busy = true → s.n.ctx.phase = .idle → s.n.pending = some w →
      (∀ i, decode .nCmd w.toNat ≠ .ok i) →
      ∃ t, step s = .next t ∧ NduFailed s.moved .badCommand t ∧ t.n.status.err.code = 0x01 ∧ KeepsMemory s t)

/-! ## Reset and the invariant -/

/-- Right after power-on reset every register reads its reset value, both units are idle with no pending word, and the
interrupt output is low (R410, R411). -/
def Obligations.ResetRegisters : Prop :=
  (∀ r : Reg, State.reset.readReg r =
    match r with
    | .id => 0x56464401#32
    | .brState => 0x00000020#32
    | _ => 0#32) ∧
  State.reset.v.pending = none ∧ State.reset.n.pending = none ∧ State.reset.irqOutput = false

/-- The state after reset has the invariant. -/
def Obligations.ResetInv : Prop := Inv State.reset ∧ Settled State.reset

/-- Every step keeps the invariant: the canonical form of the memories, the cursor inside its extent and in step with
`BR_STATE` (R30, R140), the picture registers, the grid and the pixel buffer in agreement (R80, R218 to R221), and
consistent status registers (R26, R49, R183, R358). -/
def Obligations.StepKeepsInv : Prop := ∀ s t : State, Inv s → step s = .next t → Inv t

/-- No step of a state with the invariant ends in a fault: the bound of the decode loops is never met.
The bound is the model's (log entry 9). -/
def Obligations.NoFault : Prop := ∀ (s : State) (f : Fault), Inv s → step s ≠ .fault f

/-! ## The two units -/

/-- A step of the VDU touches only what R89 gives the VDU. -/
def Obligations.VduStepFrame : Prop :=
  ∀ s t : State, s.nextAgent = .vdu → step s = .next t → KeepsOutsideVdu s t

/-- A step of the NDU touches only what R89 gives the NDU: no pixel, no video register, no byte of a buffer. -/
def Obligations.NduStepFrame : Prop :=
  ∀ s t : State, s.nextAgent = .ndu → step s = .next t → KeepsOutsideNdu s t

/-- The two units' steps may happen in either order with the same outcome (R89, R359). -/
def Obligations.UnitsCommute : Prop :=
  ∀ (s : State) (rest : List Agent),
    Host.Core.run Sys2Proof.core 2
      ({ s with host := { s.host with sched := .vdu :: .ndu :: rest } } : State) =
    Host.Core.run Sys2Proof.core 2
      ({ s with host := { s.host with sched := .ndu :: .vdu :: rest } } : State)

/-! ## Whole-machine rules about one register -/

/-- `BR_POS` never decreases, except that `BR.INIT`, `V.DECODE` and a soft reset of the VDU set it to 0 (R30, R360). -/
def Obligations.CursorMonotone : Prop :=
  ∀ (s t : State) (i : Instr), CursorOk s → i ≠ .brInit → i ≠ .vDecode → (∀ n, i ≠ .softReset n true) →
    exec i s = .next t → s.v.brPos.toNat ≤ t.v.brPos.toNat ∧ t.v.brLen = s.v.brLen

/-- `V_RESULT` is written only by `BR.INIT`, `BR.READ`, `BR.PEEK` and `BR.HASREM`, and `V_RL_*` only by `BR.RLDEC`; a soft
reset of the VDU clears both (R28, R45, R148, R412). -/
def Obligations.ResultRegisterWriters : Prop :=
  ∀ (s t : State) (i : Instr), exec i s = .next t → (∀ n, i ≠ .softReset n true) →
    (i ≠ .brInit → (∀ n, i ≠ .brRead n) → (∀ n, i ≠ .brPeek n) → i ≠ .brHasrem → t.v.result = s.v.result) ∧
    (i ≠ .brRldec → t.v.rlRun = s.v.rlRun ∧ t.v.rlLevel = s.v.rlLevel ∧ t.v.rlLen = s.v.rlLen ∧
      t.v.rlLast = s.v.rlLast)

/-- A bit of `IRQ_STATUS` is cleared only by a W1C write or a reset of its unit (R385), and `IRQ_ENABLE` is written only by
its own write (R352). -/
def Obligations.InterruptBitsPersist : Prop :=
  ∀ (s t : State) (i : Instr), exec i s = .next t →
    ((∀ m, i ≠ .irqStatusW1c m) → (∀ n v, i ≠ .softReset n v) →
      ∀ k, s.irqStatus.getLsbD k = true → t.irqStatus.getLsbD k = true) ∧
    ((∀ e, i ≠ .irqEnable e) → t.irqEnable = s.irqEnable)

/-! ## The operations of the host -/

/-- `SOFT_RESET`: each unit whose bit is set takes its power-on values and its interrupt bits are cleared; the other unit,
`IRQ_ENABLE` and every buffer are kept (R350, R412). -/
def Obligations.SoftReset : Prop :=
  ∀ (n v : Bool) (s : State), ∃ t, exec (.softReset n v) s = .next t ∧
    t.v = (if v then Vdu.reset else s.v) ∧ t.n = (if n then Ndu.reset else s.n) ∧
    t.irqStatus = s.irqStatus &&& ((if v then 0b11000#5 else 0b11111#5) &&& (if n then 0b00111#5 else 0b11111#5)) ∧
    t.cfg = s.cfg ∧ t.irqEnable = s.irqEnable ∧ t.pix = s.pix ∧ t.host = s.host ∧ KeepsMemory s t

/-- `IRQ_STATUS` write: a bit written 1 is cleared and a bit written 0 is kept (R351).  `IRQ_ENABLE` write: the enables are
stored and no status bit changes (R352).  The interrupt output follows both at once (R386). -/
def Obligations.InterruptWrites : Prop :=
  ∀ (m : BitVec 5) (s : State),
    (∃ t, exec (.irqStatusW1c m) s = .next t ∧ KeepsMemory s t ∧ t = { s with irqStatus := t.irqStatus } ∧
      (∀ k < 5, t.irqStatus.getLsbD k = (s.irqStatus.getLsbD k && !m.getLsbD k)) ∧
      (t.irqOutput = true ↔ ∃ k < 5, t.irqStatus.getLsbD k = true ∧ s.irqEnable.getLsbD k = true)) ∧
    (∃ t, exec (.irqEnable m) s = .next t ∧ KeepsMemory s t ∧ t = { s with irqEnable := m } ∧
      (t.irqOutput = true ↔ ∃ k < 5, s.irqStatus.getLsbD k = true ∧ m.getLsbD k = true))

/-- The length writes: stored as written while their unit is idle, refused while it is busy (R353, R354, R432). -/
def Obligations.LengthWrites : Prop :=
  ∀ (l : BitVec 32) (s : State),
    (s.v.status.busy = false → ∃ t, exec (.vLen l) s = .next t ∧ t = { s with v := { s.v with len := l } } ∧
      KeepsMemory s t) ∧
    (s.v.status.busy = true → exec (.vLen l) s = .refused .lengthBusy) ∧
    (s.n.status.busy = false → ∃ t, exec (.nLen l) s = .next t ∧ t = { s with n := { s.n with len := l } } ∧
      KeepsMemory s t) ∧
    (s.n.status.busy = true → exec (.nLen l) s = .refused .lengthBusy)

/-- A word written to `V_CMD` or `N_CMD` is accepted by an idle unit and rejected by a busy one, without regard to the
other unit (R358, R359, R383). -/
def Obligations.CommandAcceptance : Prop :=
  ∀ (s : State) (w : Word) (rest : List HostAccess), s.nextAgent = .host →
    (s.host.queue = .write (s.cfg.vfdBase + 0x100) 4 w :: rest →
      ∃ t, step s = .next t ∧ KeepsMemory s t ∧
        t = { s.hostMoved with v := { s.v with
              status := if s.v.status.busy then { s.v.status with rejected := true }
                else { s.v.status with busy := true, done := false, rejected := false, err := .none }
              pending := if s.v.status.busy then s.v.pending else some w } }) ∧
    (s.host.queue = .write (s.cfg.vfdBase + 0x200) 4 w :: rest →
      ∃ t, step s = .next t ∧ KeepsMemory s t ∧
        t = { s.hostMoved with n := { s.n with
              status := if s.n.status.busy then { s.n.status with rejected := true }
                else { s.n.status with busy := true, done := false, rejected := false, err := .none }
              pending := if s.n.status.busy then s.n.pending else some w } })

/-- A host read has no side effect.  A register read returns the register's value while the unit that writes it is idle, and
at all times where no unit writes it; a reserved offset reads as 0 (R355, R60, R72); `ID` reads its constant at all times
(R356).  A buffer read returns the written bytes, the lowest address least significant, whatever the units do (R73, R413);
a pixel read returns the pixel's word while the VDU is idle (R74).  Where nothing has been written the data is free (log
entries 3 and 8). -/
def Obligations.RegisterReads : Prop :=
  ∀ (s : State) (rest : List HostAccess), s.nextAgent = .host →
    (∀ off, off < 0x1000 → off % 4 = 0 → s.host.queue = .read (s.cfg.vfdBase + off) 4 :: rest →
      ∃ t, step s = .next t ∧ HostRead s t ∧
        (off = 0x000 → t.host.data = 0x56464401#32) ∧
        (regAt off = none → t.host.data = 0) ∧
        (∀ r, regAt off = some r → ReadsExactly s off → t.host.data = s.readReg r)) ∧
    (∀ a width, s.cfg.valid = true → (width = 1 ∨ width = 2 ∨ width = 4) → a % width = 0 →
      (a + width ≤ s.cfg.vinBytes → s.host.queue = .read (s.cfg.vfdBase + 0x100000 + a) width :: rest →
        ∃ t, step s = .next t ∧ HostRead s t ∧ t.host.data.toNat < 2 ^ (8 * width) ∧
          ∀ k < width, ∀ b, cellFind s.vin (a + k) = some b → t.host.data.extractLsb' (8 * k) 8 = b) ∧
      (a + width ≤ s.cfg.ninBytes → s.host.queue = .read (s.cfg.vfdBase + 0x200000 + a) width :: rest →
        ∃ t, step s = .next t ∧ HostRead s t ∧ t.host.data.toNat < 2 ^ (8 * width) ∧
          ∀ k < width, ∀ b, cellFind s.nin (a + k) = some b → t.host.data.extractLsb' (8 * k) 8 = b)) ∧
    (∀ p, s.cfg.valid = true → p < s.cfg.pixEntries →
      s.host.queue = .read (s.cfg.vfdBase + 0x400000 + 4 * p) 4 :: rest →
      ∃ t, step s = .next t ∧ HostRead s t ∧
        (s.v.status.busy = false → ∀ w, s.pix.get p = some w → t.host.data = w))

/-- Every offset of the register map shows the whole word spec/10_state.md puts there: each field at its bits, reserved bits
0 (R20 to R59), write-only registers and every reserved offset 0 (R60, R355).  The words are written from bit 31 down. -/
def Obligations.RegisterMap : Prop :=
  ∀ (s : State) (any : Word), s.v.status.busy = false → s.n.status.busy = false →
    let rd := fun off => s.hostRead .reg off 4 any
    let bit := BitVec.ofBool
    rd 0x000 = 0x56464401#32 ∧ rd 0x004 = 0#27 ++ s.irqStatus ∧ rd 0x008 = 0#27 ++ s.irqEnable ∧
    rd 0x00C = 0 ∧ rd 0x100 = 0 ∧ rd 0x200 = 0 ∧
    rd 0x104 = 0#16 ++ BitVec.ofNat 8 s.v.status.err.code ++ 0#3 ++ bit s.v.status.rejected ++ bit s.v.status.frameValid
      ++ bit s.v.status.picComplete ++ bit s.v.status.done ++ bit s.v.status.busy ∧
    rd 0x108 = s.v.len ∧ rd 0x10C = s.v.result ∧ rd 0x110 = s.v.brWord ∧ rd 0x114 = s.v.brPos ∧
    rd 0x118 = 0#2 ++ s.v.brChunk ++ 0#2 ++ s.v.brBitIdx ∧
    rd 0x11C = s.v.brLen ∧ rd 0x120 = 0#30 ++ s.v.format ∧ rd 0x124 = 0#29 ++ s.v.res ∧
    rd 0x128 = 0#29 ++ s.v.ptype ∧ rd 0x12C = s.v.quant ∧ rd 0x130 = s.v.frameIndex ∧ rd 0x134 = s.v.width ∧
    rd 0x138 = s.v.height ∧ rd 0x13C = s.v.sliceCount ∧ rd 0x140 = s.v.mbPerRow ∧ rd 0x144 = s.v.sliceIndex ∧
    rd 0x148 = s.v.gridMbs ∧ rd 0x14C = s.v.errPos ∧ rd 0x150 = s.v.rlRun ∧ rd 0x154 = s.v.rlLevel ∧
    rd 0x158 = 0#23 ++ bit s.v.rlLast ++ 0#2 ++ s.v.rlLen ∧
    rd 0x204 = 0#16 ++ BitVec.ofNat 8 s.n.status.err.code ++ bit s.n.status.rejected ++ bit s.n.status.visSeen
      ++ bit s.n.status.cksSeen ++ bit s.n.status.demoSeen ++ bit s.n.status.trunc ++ bit s.n.status.valid
      ++ bit s.n.status.done ++ bit s.n.status.busy ∧
    rd 0x208 = s.n.len ∧ rd 0x20C = s.n.magic ∧ rd 0x210 = s.n.state ∧ rd 0x214 = s.n.seq ∧ rd 0x218 = s.n.visionDef ∧
    rd 0x21C = s.n.cksCalc ∧ rd 0x220 = s.n.cksRx ∧ rd 0x224 = s.n.endPos ∧ rd 0x230 = s.n.demo.ctrlState ∧
    rd 0x234 = s.n.demo.battery ∧ rd 0x238 = s.n.demo.theta ∧ rd 0x23C = s.n.demo.phi ∧ rd 0x240 = s.n.demo.psi ∧
    rd 0x244 = s.n.demo.altitude ∧ rd 0x248 = s.n.demo.vx ∧ rd 0x24C = s.n.demo.vy ∧ rd 0x250 = s.n.demo.vz ∧
    rd 0x260 = s.n.visCount ∧
    (∀ t < 4, ∀ f < 7, rd (0x280 + 0x20 * t + 4 * f) = (s.n.slot t).field f) ∧
    (∀ off < 0x1000, off % 4 = 0 →
      (0x00C < off ∧ off < 0x100) ∨ (0x158 < off ∧ off < 0x200) ∨ (0x224 < off ∧ off < 0x230) ∨
      (0x250 < off ∧ off < 0x260) ∨ (0x260 < off ∧ off < 0x280) ∨
      (0x280 ≤ off ∧ off < 0x300 ∧ off % 0x20 = 0x1C) ∨ 0x300 ≤ off → rd off = 0)

/-- Reads while a unit is busy (R433).  `BUSY` and `REJECTED` of its status register read exactly, and every other bit of
it is free, reserved bits included (log entries 3 and 11).  Every register that its command does not write reads exactly:
those of the other unit while that one is idle, and at all times `ID`, `IRQ_STATUS`, `IRQ_ENABLE`, `V_LEN` and `N_LEN`.
Any other register of its own reads a free value, and so does a pixel while the VDU is busy. -/
def Obligations.BusyReads : Prop :=
  ∀ (s : State) (any : Word),
    let rd := fun off => s.hostRead .reg off 4 any
    (∀ off r, regAt off = some r → ReadsExactly s off → rd off = s.readReg r) ∧
    (∀ off r, regAt off = some r → ¬ ReadsExactly s off → off ≠ 0x104 → off ≠ 0x204 → rd off = any) ∧
    (s.v.status.busy = true →
      (rd 0x104).getLsbD 0 = true ∧ (rd 0x104).getLsbD 4 = s.v.status.rejected ∧
      (∀ k < 32, k ≠ 0 → k ≠ 4 → (rd 0x104).getLsbD k = any.getLsbD k) ∧
      ∀ p, s.hostRead .pix (4 * p) 4 any = any) ∧
    (s.n.status.busy = true →
      (rd 0x204).getLsbD 0 = true ∧ (rd 0x204).getLsbD 7 = s.n.status.rejected ∧
      ∀ k < 32, k ≠ 0 → k ≠ 7 → (rd 0x204).getLsbD k = any.getLsbD k) ∧
    (s.v.status.busy = false → ∀ p w, s.pix.get p = some w → s.hostRead .pix (4 * p) 4 any = w)

/-- A host write to a read-only register or a reserved offset (R357), or to a pixel (R74), has no effect and is not
refused, whatever the units do. -/
def Obligations.IneffectiveWrites : Prop :=
  ∀ (s : State) (w : Word) (rest : List HostAccess), s.nextAgent = .host →
    (∀ off, off < 0x1000 → off % 4 = 0 → off ∉ [0x004, 0x008, 0x00C, 0x100, 0x108, 0x200, 0x208] →
      s.host.queue = .write (s.cfg.vfdBase + off) 4 w :: rest → step s = .next s.hostMoved) ∧
    (∀ p, s.cfg.valid = true → p < s.cfg.pixEntries →
      s.host.queue = .write (s.cfg.vfdBase + 0x400000 + 4 * p) 4 w :: rest → step s = .next s.hostMoved)

/-- A host write to a buffer of an idle unit stores its bytes, the least significant at the lowest address, leaves every
other byte of both buffers and every pixel, and a read of the same place then returns them (R73, R76).  Nothing else
changes: that `BR_WORD` keeps its value when the write changes the loaded chunk, against the equation R29 writes, is the
model's choice (log entry 10). -/
def Obligations.BufferWrites : Prop :=
  ∀ (s : State) (a width : Nat) (w : Word) (rest : List HostAccess), s.nextAgent = .host → s.cfg.valid = true →
    (width = 1 ∨ width = 2 ∨ width = 4) → a % width = 0 →
    (s.v.status.busy = false → a + width ≤ s.cfg.vinBytes →
      s.host.queue = .write (s.cfg.vfdBase + 0x100000 + a) width w :: rest →
      ∃ t, step s = .next t ∧ t = { s.hostMoved with vin := t.vin } ∧
        (∀ k < width, t.vinByte (a + k) = w.extractLsb' (8 * k) 8) ∧
        (∀ b, b < a ∨ a + width ≤ b → t.vinByte b = s.vinByte b) ∧
        (∀ b, t.ninByte b = s.ninByte b) ∧ (∀ p, t.pix.get p = s.pix.get p) ∧
        (∀ any, (t.hostRead .vin a width any).toNat = w.toNat % 2 ^ (8 * width))) ∧
    (s.n.status.busy = false → a + width ≤ s.cfg.ninBytes →
      s.host.queue = .write (s.cfg.vfdBase + 0x200000 + a) width w :: rest →
      ∃ t, step s = .next t ∧ t = { s.hostMoved with nin := t.nin } ∧
        (∀ k < width, t.ninByte (a + k) = w.extractLsb' (8 * k) 8) ∧
        (∀ b, b < a ∨ a + width ≤ b → t.ninByte b = s.ninByte b) ∧
        (∀ b, t.vinByte b = s.vinByte b) ∧ (∀ p, t.pix.get p = s.pix.get p) ∧
        (∀ any, (t.hostRead .nin a width any).toNat = w.toNat % 2 ^ (8 * width)))

/-- A step is refused exactly when it is a host access that R75, R431 or R432 refuses; a unit's step never is.  That a write
to `PIX` of a width other than 4 and an access below `VFD_BASE` are among them is the model's reading (log entry 12). -/
def Obligations.RefusedAccesses : Prop :=
  ∀ s : State, s.cfg.valid = true →
    (∀ acc rest, s.nextAgent = .host → s.host.queue = acc :: rest →
      ((∃ r, step s = .refused r) ↔ ¬ Allowed s acc)) ∧
    (s.nextAgent ≠ .host → ∀ r, step s ≠ .refused r)

/-! ## The bit cursor -/

/-- `V.NOP` and `N.NOP` only complete (R141, R170). -/
def Obligations.Nops : Prop :=
  ∀ s : State,
    (∃ t, exec .vNop s = .next t ∧ VduDone s t ∧ KeepsMemory s t) ∧
    (∃ t, exec .nNop s = .next t ∧ NduDone s t ∧ KeepsMemory s t)

/-- `BR.INIT` (R142): a new cursor over `V_LEN` bytes, or `LEN_RANGE` with no state changed (R372). -/
def Obligations.BrInit : Prop :=
  ∀ s : State,
    (s.v.len.toNat ≤ s.cfg.vinBytes →
      ∃ u t, MovedTo { s with v := { s.v with brLen := s.v.len, result := 0 } } 0 u ∧
        exec .brInit s = .next t ∧ VduDone u t ∧ KeepsMemory s t) ∧
    (s.cfg.vinBytes < s.v.len.toNat → ∃ t, exec .brInit s = .next t ∧ VduFailed s .lenRange t ∧ KeepsMemory s t)

/-- `BR.READ n` (R143): the next `n` bits, first bit most significant, into `V_RESULT`, and the cursor moves past them;
or `READ_PAST_END` with nothing consumed. -/
def Obligations.BrRead : Prop :=
  ∀ (n : BitVec 6) (s : State), bitCountOk n = true → CursorOk s →
    (s.brAt + n.toNat ≤ s.brExt →
      ∃ u v t, Took s n.toNat u ∧ BitsAt s.streamBit s.brAt n.toNat v ∧ exec (.brRead n) s = .next t ∧
        VduDone { u with v := { u.v with result := BitVec.ofNat 32 v } } t ∧ KeepsMemory s t) ∧
    (s.brExt < s.brAt + n.toNat →
      ∃ t, exec (.brRead n) s = .next t ∧ VduFailed s .readPastEnd t ∧ KeepsMemory s t)

/-- `BR.PEEK n` (R144): the same bits, 0 at or beyond the readable extent; it never faults and moves nothing. -/
def Obligations.BrPeek : Prop :=
  ∀ (n : BitVec 6) (s : State), bitCountOk n = true →
    ∃ v t, BitsAt s.peekBit s.brAt n.toNat v ∧ exec (.brPeek n) s = .next t ∧
      VduDone { s with v := { s.v with result := BitVec.ofNat 32 v } } t ∧ KeepsMemory s t

/-- `BR.ALIGN` (R145): the cursor moves to the next byte boundary, by 0 to 7 bits, and stays inside the extent. -/
def Obligations.BrAlign : Prop :=
  ∀ s : State, CursorOk s →
    ∃ u t, MovedTo s s.alignedAt u ∧ u.brAt ≤ s.brExt ∧ exec .brAlign s = .next t ∧ VduDone u t ∧ KeepsMemory s t

/-- `BR.HASREM` (R146): 1 exactly when a byte of whole chunks has none of its bits consumed. -/
def Obligations.BrHasrem : Prop :=
  ∀ s : State, ∃ r t, (r = 1#32 ∧ BytesRemain s ∨ r = 0#32 ∧ ¬ BytesRemain s) ∧ exec .brHasrem s = .next t ∧
    VduDone { s with v := { s.v with result := r } } t ∧ KeepsMemory s t

/-- Two reads return the bits of one read of their sum and leave the same cursor (R149).  A peek gives what the read would
give whenever the read does not fault, and 0 at the end of the extent (R144). -/
def Obligations.ReadLaws : Prop :=
  ∀ (a b c : BitVec 6) (s : State), bitCountOk a = true → bitCountOk b = true → bitCountOk c = true → CursorOk s →
    (∀ t u v, c.toNat = a.toNat + b.toNat → s.brAt + c.toNat ≤ s.brExt →
      exec (.brRead a) s = .next t → exec (.brRead b) t = .next u → exec (.brRead c) s = .next v →
      t.v.result.toNat * 2 ^ b.toNat + u.v.result.toNat = v.v.result.toNat ∧ u.v.brPos = v.v.brPos ∧
        u.v.brWord = v.v.brWord) ∧
    (∀ t u, s.brAt + a.toNat ≤ s.brExt → exec (.brPeek a) s = .next t → exec (.brRead a) s = .next u →
      t.v.result = u.v.result) ∧
    (∀ t, s.brAt = s.brExt → exec (.brPeek a) s = .next t → t.v.result = 0)

/-- A 32-bit word the host writes to a chunk of `VIN` is what `BR.READ 32` returns at that chunk (R77, R143, R150). -/
def Obligations.WordReadsBack : Prop :=
  ∀ (s t u : State) (w : Word) (rest : List HostAccess), CursorOk s → s.nextAgent = .host →
    s.v.status.busy = false → s.brAt % 32 = 0 → s.brAt + 32 ≤ s.brExt →
    s.host.queue = .write (s.cfg.vfdBase + 0x100000 + s.brAt / 8) 4 w :: rest →
    step s = .next t → exec (.brRead 32#6) t = .next u → u.v.result = w

/-- `BR.RLDEC` (R254 to R259): a run code and a level code at the cursor give their run and level, an end-of-block code
gives zeros with `LAST`, both consumed whole; past the extent a level is `READ_PAST_END`; a run prefix of 16 or more zeros,
and a level prefix too long for what the run code left of the window, are `VLC_OVERFLOW`.  An error leaves `V_RL_*` and the
cursor unchanged. -/
def Obligations.BrRldec : Prop :=
  ∀ s : State, CursorOk s →
    (∀ (i j : Instr) (z e z2 m rest : Nat) (neg : Bool),
      runOperands i = some (z, e) → levelOperands j = some (z2, m, neg) →
      specRunBits z + specLevelBits z2 ≤ 32 → rest < 2 ^ (32 - (specRunBits z + specLevelBits z2)) →
      s.brPeek 32 = ((encode i).val * 2 ^ specLevelBits z2 + (encode j).val)
        * 2 ^ (32 - (specRunBits z + specLevelBits z2)) + rest →
      (s.brAt + (specRunBits z + specLevelBits z2) ≤ s.brExt →
        ∃ u t, Took s (specRunBits z + specLevelBits z2) u ∧ exec .brRldec s = .next t ∧ KeepsMemory s t ∧
          VduDone { u with v := { u.v with
            rlRun := BitVec.ofNat 32 (specRun z e), rlLevel := BitVec.ofInt 32 (specLevel z2 m neg),
            rlLen := BitVec.ofNat 6 (specRunBits z + specLevelBits z2), rlLast := false } } t) ∧
      (s.brExt < s.brAt + (specRunBits z + specLevelBits z2) →
        ∃ t, exec .brRldec s = .next t ∧ VduFailed s .readPastEnd t ∧ KeepsMemory s t)) ∧
    (∀ (i : Instr) (z e rest : Nat), runOperands i = some (z, e) → rest < 2 ^ (32 - (specRunBits z + 2)) →
      s.brPeek 32 = ((encode i).val * 4 + 1) * 2 ^ (32 - (specRunBits z + 2)) + rest →
      s.brAt + (specRunBits z + 2) ≤ s.brExt →
        ∃ u t, Took s (specRunBits z + 2) u ∧ exec .brRldec s = .next t ∧ KeepsMemory s t ∧
          VduDone { u with v := { u.v with
            rlRun := 0, rlLevel := 0, rlLen := BitVec.ofNat 6 (specRunBits z + 2), rlLast := true } } t) ∧
    (s.brPeek 32 < 2 ^ 16 → ∃ t, exec .brRldec s = .next t ∧ VduFailed s .vlcOverflow t ∧ KeepsMemory s t) ∧
    (∀ (i : Instr) (z e z2 rest : Nat), runOperands i = some (z, e) → 2 ≤ z2 → z2 ≤ 32 - specRunBits z →
      32 < specRunBits z + specLevelBits z2 → rest < 2 ^ (32 - specRunBits z - z2) →
      s.brPeek 32 = (encode i).val * 2 ^ (32 - specRunBits z) + rest →
      ∃ t, exec .brRldec s = .next t ∧ VduFailed s .vlcOverflow t ∧ KeepsMemory s t)

/-! ## `V.DECODE`: the picture -/

/-- `V.DECODE` (R210): the flags are cleared; a `V_LEN` above the buffer is `LEN_RANGE` with nothing else changed (R232);
else a cursor is started, and from the first loop test on the elements of the stream are performed one after the other,
until the command has ended.  It always ends, and only `PIX` of the memories may have changed (R7, R211).
The place inside a decode is the model's (log entry 5). -/
def Obligations.DecodePicture : Prop :=
  ∀ s : State, s.cfg.valid = true →
    (s.cfg.vinBytes < s.v.len.toNat →
      ∃ t, exec .vDecode s = .next t ∧ KeepsMemory s t ∧
        VduFailed { s with v := { s.v with
          status := { s.v.status with picComplete := false, frameValid := false } } } .lenRange t) ∧
    (s.v.len.toNat ≤ s.cfg.vinBytes →
      ∃ u v t, MovedTo { s with v := { s.v with
            status := { s.v.status with picComplete := false, frameValid := false }
            brLen := s.v.len, sliceIndex := 0 } } 0 u ∧
        HeaderBoundary u v ∧ ElementRun v t ∧ exec .vDecode s = .next t ∧
        t.v.ctx = VideoCtx.idle ∧ t.v.status.busy = false ∧ t.v.status.done = true ∧ KeepsBuffers s t ∧ t.n = s.n ∧
        t.host = s.host)

/-- `SC` (R212, R213): align, consume 22 bits, and expect the picture header on the first slice, the quantizer on a later
one; the slice number does not matter (R111).  Past the end, `READ_PAST_END` after the alignment.  Bits whose upper 17 are
not 1 are no start code: `BAD_START_CODE`, with `BR_POS` just after the 22 bits.  Where the extent cuts the 22 bits off, the
step is `READ_PAST_END` after the alignment (R143, R387), whatever the bits that are left read as.
The place inside a decode is the model's (log entry 5). -/
def Obligations.StartCode : Prop :=
  ∀ s : State, CursorOk s →
    (∀ k : BitVec 5, s.alignedAt + 22 ≤ s.brExt →
      ∃ u, MovedTo s (s.alignedAt + 22) u ∧ KeepsMemory s u ∧
        exec (.sc k) s = .next (u.atElement (if s.v.sliceIndex = 0 then .pictureHeader else .sliceQuant))) ∧
    (∀ k : BitVec 5, s.brExt < s.alignedAt + 22 →
      ∃ u t, MovedTo s s.alignedAt u ∧ exec (.sc k) s = .next t ∧ VduFailed u .readPastEnd t ∧ KeepsMemory s t) ∧
    (s.nextAgent = .vdu → s.v.status.busy = true → s.v.ctx.phase = .startCode → s.alignedAt + 22 ≤ s.brExt →
      (∀ v, BitsAt s.streamBit s.alignedAt 22 v → v / 2 ^ 5 ≠ 1) →
      ∃ u t, MovedTo s.moved (s.alignedAt + 22) u ∧ step s = .next t ∧ VduFailed u .badStartCode t ∧
        KeepsMemory s t) ∧
    (s.nextAgent = .vdu → s.v.status.busy = true → s.v.ctx.phase = .startCode → s.brExt < s.alignedAt + 22 →
      ∃ u t, MovedTo s.moved s.alignedAt u ∧ step s = .next t ∧ VduFailed u .readPastEnd t ∧ KeepsMemory s t)

/-- `EOP` (R214, R230): the picture is complete and a frame is emitted: `PIC_COMPLETE`, `FRAME_VALID`, `VID_DONE` and
`FRAME` are set, whatever was decoded before; `V_SLICE_INDEX` and every pixel keep their values. -/
def Obligations.EndOfPicture : Prop :=
  ∀ s : State, CursorOk s →
    (s.alignedAt + 22 ≤ s.brExt →
      ∃ u t, MovedTo s (s.alignedAt + 22) u ∧ exec .eop s = .next t ∧ KeepsMemory s t ∧
        VduEnded { u with v := { u.v with
          status := { u.v.status with picComplete := true, frameValid := true } } } .none 0b00101#5 t) ∧
    (s.brExt < s.alignedAt + 22 →
      ∃ u t, MovedTo s s.alignedAt u ∧ exec .eop s = .next t ∧ VduFailed u .readPastEnd t ∧ KeepsMemory s t)

/-- `PICTURE_HEADER` (R215 to R221): the five fields are stored; then `BAD_FORMAT`, `BAD_RESOLUTION` or `CAPACITY`, or the
dimensions and counts are stored, the grid and every pixel are cleared if the macroblock count changed, the slice is
counted (R223) and its macroblocks begin.
The place inside a decode is the model's (log entry 5). -/
def Obligations.PictureHeader : Prop :=
  ∀ (f : BitVec 2) (r ty : BitVec 3) (q : BitVec 5) (x : BitVec 32) (s : State), CursorOk s →
    s.brAt + 45 ≤ s.brExt →
    ∃ u t, Took s 45 u ∧ exec (.pictureHeader f r ty q x) s = .next t ∧ KeepsBuffers s t ∧
      let h : State := { u with v := { u.v with
        format := f, res := r, ptype := ty, quant := q.zeroExtend 32, frameIndex := x } }
      let w := (if f = 1#2 then 88 else 160) * 2 ^ (r.toNat - 1)
      let ht := (if f = 1#2 then 72 else 120) * 2 ^ (r.toNat - 1)
      let big := s.cfg.pixEntries < w * ht ∨ s.cfg.gridMaxMbs < w / 16
      let d : State := { h with v := { h.v with
        width := BitVec.ofNat 32 w, height := BitVec.ofNat 32 ht, sliceCount := BitVec.ofNat 32 (ht / 16),
        mbPerRow := BitVec.ofNat 32 (w / 16), sliceIndex := h.v.sliceIndex + 1 } }
      (f = 0#2 ∨ f = 3#2 → VduFailed h .badFormat t) ∧
      (f = 1#2 ∨ f = 2#2 → r = 0#3 → VduFailed h .badResolution t) ∧
      (f = 1#2 ∨ f = 2#2 → r ≠ 0#3 → big → VduFailed h .capacity t) ∧
      (f = 1#2 ∨ f = 2#2 → r ≠ 0#3 → ¬ big → BitVec.ofNat 32 (w / 16) = s.v.gridMbs →
        MacroblockLoop d 0 t ∧ ∀ p, t.pix.get p = s.pix.get p) ∧
      (f = 1#2 ∨ f = 2#2 → r ≠ 0#3 → ¬ big → BitVec.ofNat 32 (w / 16) ≠ s.v.gridMbs →
        MacroblockLoop { d with
          v := { d.v with
            gridMbs := BitVec.ofNat 32 (w / 16)
            grid := List.replicate (w / 16) (List.replicate 6 (List.replicate 64 0)) }
          pix := ⟨true, []⟩ } 0 t ∧ ∀ p, t.pix.get p = some 0)

/-- A picture header cut off by the end of the stream keeps the fields already read, and no check is made (R215, R387,
R390). -/
def Obligations.PictureHeaderPastEnd : Prop :=
  ∀ (f : BitVec 2) (r ty : BitVec 3) (q : BitVec 5) (x : BitVec 32) (s : State), CursorOk s →
    s.brExt < s.brAt + 45 →
    ∃ t, exec (.pictureHeader f r ty q x) s = .next t ∧ KeepsMemory s t ∧
      (s.brExt < s.brAt + 2 → VduFailed s .readPastEnd t) ∧
      (s.brAt + 2 ≤ s.brExt → s.brExt < s.brAt + 5 → ∃ u, Took s 2 u ∧
        VduFailed { u with v := { u.v with format := f } } .readPastEnd t) ∧
      (s.brAt + 5 ≤ s.brExt → s.brExt < s.brAt + 8 → ∃ u, Took s 5 u ∧
        VduFailed { u with v := { u.v with format := f, res := r } } .readPastEnd t) ∧
      (s.brAt + 8 ≤ s.brExt → s.brExt < s.brAt + 13 → ∃ u, Took s 8 u ∧
        VduFailed { u with v := { u.v with format := f, res := r, ptype := ty } } .readPastEnd t) ∧
      (s.brAt + 13 ≤ s.brExt → ∃ u, Took s 13 u ∧
        VduFailed { u with v := { u.v with format := f, res := r, ptype := ty, quant := q.zeroExtend 32 } }
          .readPastEnd t)

/-- `SQUANT` (R222, R223): the running quantizer is set, the slice is counted and its macroblocks begin.
The place inside a decode is the model's (log entry 5). -/
def Obligations.SliceQuant : Prop :=
  ∀ (q : BitVec 5) (s : State), CursorOk s → s.brAt + 5 ≤ s.brExt →
    ∃ u t, Took s 5 u ∧ exec (.squant q) s = .next t ∧ KeepsMemory s t ∧
      MacroblockLoop { u with v := { u.v with
        quant := q.zeroExtend 32, sliceIndex := u.v.sliceIndex + 1 } } 0 t

/-! ## `V.DECODE`: macroblocks and blocks -/

/-- `MBC` = 1 (R225, R229): the grid entry is left as it was and the next macroblock follows; after the last one the slice
is composed from the grid (R320 to R327), or `SLICE_OVERFLOW` with no pixel written (R328).
The place inside a decode is the model's (log entry 5). -/
def Obligations.EmptyMacroblock : Prop :=
  ∀ s : State, Inv s → s.brAt + 1 ≤ s.brExt →
    ∃ u t, Took s 1 u ∧ exec .mbcEmpty s = .next t ∧ MacroblockLoop u (s.v.ctx.mb + 1) t ∧ KeepsBuffers s t ∧
      t.v.grid = s.v.grid

/-- `MBC` = 0 and `MBDES` (R224, R226): the bitmap follows the flag; bit 6 alone says whether a quantizer delta follows,
else block 0 does; bit 7 changes nothing. The place inside a decode is the model's (log entry 5). -/
def Obligations.CodedMacroblock : Prop :=
  ∀ s : State, CursorOk s →
    (s.brAt + 1 ≤ s.brExt →
      ∃ u, Took s 1 u ∧ KeepsMemory s u ∧ exec .mbcCoded s = .next (u.atElement .mbdes)) ∧
    (∀ d : BitVec 8, s.brAt + 8 ≤ s.brExt →
      ∃ u t, Took s 8 u ∧ KeepsMemory s t ∧ exec (.mbdes d) s = .next t ∧
        let v : State := { u with v := { u.v with ctx := { u.v.ctx with des := d } } }
        (d.getLsbD 6 = true → t = v.atElement .mbdiff) ∧ (d.getLsbD 6 = false → BlockLoop v 0 t))

/-- `MBDIFF` (R227): the running quantizer changes by -1, -2, +2 or +3, wrapping at 32 bits, and block 0 follows.
The place inside a decode is the model's (log entry 5). -/
def Obligations.QuantDelta : Prop :=
  ∀ (d : BitVec 2) (s : State), CursorOk s → s.brAt + 2 ≤ s.brExt →
    ∃ u t, Took s 2 u ∧ exec (.mbdiff d) s = .next t ∧ KeepsMemory s t ∧
      BlockLoop { u with v := { u.v with
        quant := u.v.quant + BitVec.ofInt 32
          (if d = 0#2 then -1 else if d = 1#2 then -2 else if d = 2#2 then 2 else 3) } } 0 t

/-- `DC` (R250, R251): coefficient 0 of a new block, unsigned; the AC codes follow if the block's bit of `MBDES` is set,
else the block is finished and stored. The place inside a decode is the model's (log entry 5). -/
def Obligations.DcCoefficient : Prop :=
  ∀ (d : BitVec 10) (s : State), Inv s → s.brAt + 10 ≤ s.brExt →
    ∃ u t, Took s 10 u ∧ exec (.dc d) s = .next t ∧ KeepsBuffers s t ∧
      let coef : Block := (d.toNat : Int) :: List.replicate 63 0
      let v : State := { u with v := { u.v with ctx := { u.v.ctx with phase := .run, coef := coef, scan := 0 } } }
      (s.v.ctx.des.getLsbD s.v.ctx.blk = true → t = v) ∧
      (s.v.ctx.des.getLsbD s.v.ctx.blk = false → BlockStored v coef t)

/-- Every run code (R120, R255) only notes its run and its length: the level code after it consumes both (R254).  A run
prefix of 16 or more zeros is `VLC_OVERFLOW`, with nothing consumed (R124, R259).
The place inside a decode is the model's (log entry 5). -/
def Obligations.RunCodes : Prop :=
  ∀ s : State,
    (∀ (i : Instr) (z e : Nat), runOperands i = some (z, e) →
      ∃ t, exec i s = .next t ∧ KeepsMemory s t ∧
        t = { s with v := { s.v with ctx := { s.v.ctx with
          phase := .level, run := specRun z e, runLen := specRunBits z } } }) ∧
    (∃ t, exec .runOvf s = .next t ∧ VduFailed s .vlcOverflow t ∧ KeepsMemory s t)

/-- Every level code (R121, R253, R256): consumed with its run code, the level is stored at the scan position after the
run; a position past 63 is `ZIGZAG_OVERFLOW` after the codes are consumed; a pair of more than 32 bits is `VLC_OVERFLOW`,
one past the end `READ_PAST_END`, both with nothing consumed.
The place inside a decode is the model's (log entry 5). -/
def Obligations.LevelCodes : Prop :=
  ∀ (i : Instr) (z m : Nat) (neg : Bool) (s : State), CursorOk s → levelOperands i = some (z, m, neg) →
    let len := s.v.ctx.runLen + specLevelBits z
    let pos := s.v.ctx.scan + s.v.ctx.run + 1
    (len ≤ 32 → s.brAt + len ≤ s.brExt →
      ∃ u t, Took s len u ∧ exec i s = .next t ∧ KeepsMemory s t ∧
        (pos ≤ 63 → t = { u with v := { u.v with ctx := { u.v.ctx with
          phase := .run, scan := pos, coef := u.v.ctx.coef.set (zigzag.getD pos 0) (specLevel z m neg) } } }) ∧
        (63 < pos → VduFailed u .zigzagOverflow t)) ∧
    (32 < len → ∃ t, exec i s = .next t ∧ VduFailed s .vlcOverflow t ∧ KeepsMemory s t) ∧
    (len ≤ 32 → s.brExt < s.brAt + len →
      ∃ t, exec i s = .next t ∧ VduFailed s .readPastEnd t ∧ KeepsMemory s t)

/-- `EOB` (R257, R260, R293): consumed with its run code, whose value is dropped; the block is dequantized, transformed
and stored, and the next block, macroblock or slice boundary follows.
The place inside a decode is the model's (log entry 5). -/
def Obligations.EndOfBlock : Prop :=
  ∀ s : State, Inv s → s.v.ctx.runLen + 2 ≤ 32 → s.brAt + (s.v.ctx.runLen + 2) ≤ s.brExt →
    ∃ u t, Took s (s.v.ctx.runLen + 2) u ∧ exec .eob s = .next t ∧ KeepsBuffers s t ∧ BlockStored u s.v.ctx.coef t

/-- An element that would consume a bit at or beyond the extent is `READ_PAST_END` with nothing consumed (R143, R373).
The place inside a decode is the model's (log entry 5). -/
def Obligations.ElementPastEnd : Prop :=
  ∀ (i : Instr) (n : Nat) (s : State), CursorOk s →
    ((∃ q, i = .squant q) ∧ n = 5 ∨ i = .mbcEmpty ∧ n = 1 ∨ i = .mbcCoded ∧ n = 1 ∨ (∃ d, i = .mbdes d) ∧ n = 8 ∨
      (∃ d, i = .mbdiff d) ∧ n = 2 ∨ (∃ d, i = .dc d) ∧ n = 10 ∨
      i = .eob ∧ s.v.ctx.runLen ≤ 30 ∧ n = s.v.ctx.runLen + 2) →
    s.brExt < s.brAt + n →
    ∃ t, exec i s = .next t ∧ VduFailed s .readPastEnd t ∧ KeepsMemory s t

/-- The pair of elements that reads a run and a level code inside a block does what `RunLevelDecode` of R254 says, which
`BR.RLDEC` runs on the same window: the same errors, the same bits consumed, the same run, level and end of block.
The place inside a decode is the model's (log entry 5). -/
def Obligations.PairIsRunLevelDecode : Prop :=
  ∀ s : State, Inv s → s.v.ctx.phase = .run →
    ∃ u t, videoElement s = .next u ∧ (u.v.ctx.phase = .level → videoElement u = .next t) ∧
      (u.v.ctx.phase ≠ .level → t = u) ∧
      (runLevelOf (s.brPeek 32) = none → VduFailed s .vlcOverflow t) ∧
      (∀ r, runLevelOf (s.brPeek 32) = some r →
        (s.brExt < s.brAt + r.len → VduFailed s .readPastEnd t) ∧
        (s.brAt + r.len ≤ s.brExt → ∃ z k v,
          Took { s with v := { s.v with ctx := { s.v.ctx with phase := .level, run := z, runLen := k } } } r.len v ∧
          (r.last = true → BlockStored v s.v.ctx.coef t) ∧
          (r.last = false → s.v.ctx.scan + r.run + 1 ≤ 63 →
            t = { v with v := { v.v with ctx := { v.v.ctx with
              phase := .run
              scan := s.v.ctx.scan + r.run + 1
              coef := s.v.ctx.coef.set (zigzag.getD (s.v.ctx.scan + r.run + 1) 0) r.level } } }) ∧
          (r.last = false → 63 < s.v.ctx.scan + r.run + 1 → VduFailed v .zigzagOverflow t)))

/-! ## The inverse transform -/

/-- The reference transform of a block whose only nonzero coefficient is the first: the value of R302, but for the four
largest coefficients of its range, where the rounding addend of pass 2 wraps at 32 bits (R299, R300; log entry 7).  The
fast path of pass 1 gives what the kernel gives (R297). -/
def Obligations.ReferenceDcOnly : Prop :=
  ∀ c : Int,
    (-(2 ^ 16) ≤ c → c < 2 ^ 16 - 4 → idctReference (c :: List.replicate 63 0) = List.replicate 64 ((c + 4) / 8)) ∧
    (2 ^ 16 - 4 ≤ c → c < 2 ^ 16 → idctReference (c :: List.replicate 63 0) = List.replicate 64 (-8192)) ∧
    (-(2 ^ 18) < c → c < 2 ^ 18 → idctKernel c 0 0 0 0 0 0 0 11 = List.replicate 8 (4 * c))

/-- Every configured transform has the form R292 asks for, two separable fixed-point passes of one 1-D kernel, and the
DC-only property (R291).  The reference instance, for every block, is the form with the constants of R295 multiplied out,
columns first, 2 extra bits, round half up and the wraps of R297 and R300 (R294 to R300).  A transform gives 64 samples,
which the store wraps to `SAMPLE_BITS` signed bits (R290, R293).  How the model writes the form down is its choice (log
entry 4). -/
def Obligations.TransformProperties : Prop :=
  ∀ cfg : Config, cfg.valid = true →
    (∃ f : TransformForm, ∀ coef : Block, idctApply cfg.idct coef = formApply f coef) ∧
    (cfg.idct = .reference → ∀ coef : Block, idctApply cfg.idct coef = formApply transformReference coef) ∧
    (∀ c : Int, ∃ x, idctApply cfg.idct (c :: List.replicate 63 0) = List.replicate 64 x) ∧
    (∀ coef : Block, (idctApply cfg.idct coef).length = 64 ∧
      ∀ x ∈ idctStore cfg coef, InSigned cfg.sampleBits x)

/-- The zig-zag table is that of R262: the table itself, and every raster index has its one scan position.  The reference
transform gives the vectors of R303 for blocks with AC coefficients: one AC coefficient in a row and in a column, a DC with
one and with two AC coefficients, and two rows of the block of 64 extreme coefficients, whose pass-2 sums wrap. -/
def Obligations.ScanAndTransformVectors : Prop :=
  let block := fun cells : List (Nat × Int) => (List.range 64).map fun i => ((cells.lookup i).getD 0 : Int)
  let row := fun (coef : Block) (r : Nat) => ((idctReference coef).drop (8 * r)).take 8
  zigzag =
    [0, 1, 8, 16, 9, 2, 3, 10, 17, 24, 32, 25, 18, 11, 4, 5,
     12, 19, 26, 33, 40, 48, 41, 34, 27, 20, 13, 6, 7, 14, 21, 28,
     35, 42, 49, 56, 57, 50, 43, 36, 29, 22, 15, 23, 30, 37, 44, 51,
     58, 59, 52, 45, 38, 31, 39, 46, 53, 60, 61, 54, 47, 55, 62, 63] ∧
  (∀ i < 64, ∃ pos < 64, zigzag.getD pos 0 = i ∧ ∀ q < 64, zigzag.getD q 0 = i → q = pos) ∧
  (∀ r < 8, row (block [(1, 100)]) r = [17, 15, 10, 3, -3, -10, -15, -17]) ∧
  (∀ r < 8, row (block [(8, 100)]) r = List.replicate 8 ([17, 15, 10, 3, -3, -10, -15, -17].getD r 0)) ∧
  idctReference (block [(0, 800), (9, -64)]) =
    [85, 87, 91, 97, 103, 109, 113, 115, 87, 89, 93, 97, 103, 107, 111, 113,
     91, 93, 95, 98, 102, 105, 107, 109, 97, 97, 98, 99, 101, 102, 103, 103,
     103, 103, 102, 101, 99, 98, 97, 97, 109, 107, 105, 102, 98, 95, 93, 91,
     113, 111, 107, 103, 97, 93, 89, 87, 115, 113, 109, 103, 97, 91, 87, 85] ∧
  idctReference (block [(0, 768), (1, 15), (9, -4)]) =
    [98, 97, 97, 96, 96, 95, 95, 94, 98, 98, 97, 96, 96, 95, 94, 94,
     98, 98, 97, 96, 96, 95, 94, 94, 98, 98, 97, 96, 96, 95, 94, 94,
     99, 98, 98, 97, 95, 94, 94, 93, 99, 99, 98, 97, 95, 94, 93, 93,
     99, 99, 98, 97, 95, 94, 93, 93, 100, 99, 98, 97, 95, 94, 93, 92] ∧
  row (List.replicate 64 32767) 0 = [-682, 3163, 313, -1018, -6040, -2608, -868, 6826] ∧
  row (List.replicate 64 32767) 7 = [6826, -1862, 1476, -519, 798, -78, 463, 204]

/-! ## The NavData unit -/

/-- `N.DECODE` with a length out of range: the results are cleared first; `LEN_RANGE` comes before `TOO_SHORT`, and no
field is read (R172, R173, R387). -/
def Obligations.NavLengthChecks : Prop :=
  ∀ s : State,
    (s.cfg.ninBytes < s.n.len.toNat → ∃ t, exec .nDecode s = .next t ∧ KeepsMemory s t ∧
      NduFailed { s with n := cleared s.n } .lenRange t) ∧
    (s.n.len.toNat ≤ s.cfg.ninBytes → s.n.len.toNat < 16 → ∃ t, exec .nDecode s = .next t ∧ KeepsMemory s t ∧
      NduFailed { s with n := cleared s.n } .tooShort t)

/-- `N.DECODE` on a datagram of 16 bytes or more is the walk of R171: it ends without an error, with the header, the
checksum over all but the final 8 bytes, the fields of every record dispatched, `N_END_POS`, `TRUNC` and `VALID`. -/
def Obligations.NavDecode : Prop :=
  ∀ s : State, s.cfg.valid = true → 16 ≤ s.n.len.toNat → s.n.len.toNat ≤ s.cfg.ninBytes →
    ∃ stop trunc m t,
      NavWalk s.ninByte s.ninWord s.n.len.toNat 16
        (withHeader s.ninByte s.ninWord s.n.len.toNat (cleared s.n)) stop trunc m ∧
      exec .nDecode s = .next t ∧ NavStopped { s with n := m } stop trunc t ∧ KeepsMemory s t

/-- `NAV_HEADER` (R128, R174, R175): the four words are stored raw, the checksum is the sum of all bytes but the final 8,
and the walk starts at 16.  `NAV_RECORD_HEADER` (R129, R176, R177): a size of 0, or a record past the datagram's end, stops
the walk with `TRUNC`; any other record is dispatched at its position.
The place inside a decode is the model's (log entry 5). -/
def Obligations.NavHeaders : Prop :=
  ∀ s : State,
    (∀ a b c d : BitVec 32, ∃ t, exec (.navHeader a b c d) s = .next t ∧ KeepsMemory s t ∧
      NavLoop { s with n := { s.n with
        magic := a, state := b, seq := c, visionDef := d
        cksCalc := BitVec.ofNat 32
          (((List.range (s.n.len.toNat - 8)).map fun k => (s.ninByte k).toNat).sum) } } 16 t) ∧
    (∀ tag size : BitVec 16, ∃ t, exec (.navRecordHeader tag size) s = .next t ∧ KeepsMemory s t ∧
      (size = 0#16 ∨ s.n.len.toNat < s.n.ctx.pos + size.toNat → NavStopped s s.n.ctx.pos true t) ∧
      (size ≠ 0#16 → s.n.ctx.pos + size.toNat ≤ s.n.len.toNat →
        t = { s with n := { s.n with ctx := ⟨.record, s.n.ctx.pos, tag, size⟩ } }))

/-- `NAV_DEMO`, `NAV_VISION` and `NAV_CHECKSUM` write the registers of their record from its bytes in `NIN`, raw, and set
their flag; `NAV_UNKNOWN` writes nothing; the walk goes on after the record's `size` bytes (R179 to R182, R185).
The place inside a decode is the model's (log entry 5). -/
def Obligations.NavRecords : Prop :=
  ∀ s : State,
    let pos := s.n.ctx.pos
    let after := pos + s.n.ctx.size.toNat
    (∃ t, exec .navDemo s = .next t ∧ KeepsMemory s t ∧ NavLoop { s with n := withDemo s.ninWord pos s.n } after t) ∧
    (∃ t, exec .navVision s = .next t ∧ KeepsMemory s t ∧
      NavLoop { s with n := withVision s.ninWord pos s.n } after t) ∧
    (∃ t, exec .navChecksum s = .next t ∧ KeepsMemory s t ∧
      NavLoop { s with n := withChecksum s.ninWord pos s.n } after t) ∧
    (∀ tag, ∃ t, exec (.navUnknown tag) s = .next t ∧ KeepsMemory s t ∧ NavLoop s after t)
end

