-- ==== Sys2Proof/Laws/State.lean ====
section
/-!
SUPPORT. One lemma per field per update of the state: what each named update of Machine/*.lean leaves alone and what it
writes, so that no later proof unfolds a record update.
-/

namespace Sys2Proof.Machine

/-! ### `raiseIrq` -/

@[simp] theorem raiseIrq_cfg (s : State) (b : BitVec 5) : (s.raiseIrq b).cfg = s.cfg := rfl
@[simp] theorem raiseIrq_irqEnable (s : State) (b : BitVec 5) : (s.raiseIrq b).irqEnable = s.irqEnable := rfl
@[simp] theorem raiseIrq_v (s : State) (b : BitVec 5) : (s.raiseIrq b).v = s.v := rfl
@[simp] theorem raiseIrq_n (s : State) (b : BitVec 5) : (s.raiseIrq b).n = s.n := rfl
@[simp] theorem raiseIrq_vin (s : State) (b : BitVec 5) : (s.raiseIrq b).vin = s.vin := rfl
@[simp] theorem raiseIrq_nin (s : State) (b : BitVec 5) : (s.raiseIrq b).nin = s.nin := rfl
@[simp] theorem raiseIrq_pix (s : State) (b : BitVec 5) : (s.raiseIrq b).pix = s.pix := rfl
@[simp] theorem raiseIrq_host (s : State) (b : BitVec 5) : (s.raiseIrq b).host = s.host := rfl
@[simp] theorem raiseIrq_irqStatus (s : State) (b : BitVec 5) :
    (s.raiseIrq b).irqStatus = s.irqStatus ||| b := rfl

/-! ### `brMoveTo` (R147) -/

@[simp] theorem brMoveTo_cfg (s : State) (p : Nat) : (s.brMoveTo p).cfg = s.cfg := by unfold State.brMoveTo; split <;> rfl
@[simp] theorem brMoveTo_irqStatus (s : State) (p : Nat) : (s.brMoveTo p).irqStatus = s.irqStatus := by unfold State.brMoveTo; split <;> rfl
@[simp] theorem brMoveTo_irqEnable (s : State) (p : Nat) : (s.brMoveTo p).irqEnable = s.irqEnable := by unfold State.brMoveTo; split <;> rfl
@[simp] theorem brMoveTo_n (s : State) (p : Nat) : (s.brMoveTo p).n = s.n := by unfold State.brMoveTo; split <;> rfl
@[simp] theorem brMoveTo_vin (s : State) (p : Nat) : (s.brMoveTo p).vin = s.vin := by unfold State.brMoveTo; split <;> rfl
@[simp] theorem brMoveTo_nin (s : State) (p : Nat) : (s.brMoveTo p).nin = s.nin := by unfold State.brMoveTo; split <;> rfl
@[simp] theorem brMoveTo_pix (s : State) (p : Nat) : (s.brMoveTo p).pix = s.pix := by unfold State.brMoveTo; split <;> rfl
@[simp] theorem brMoveTo_host (s : State) (p : Nat) : (s.brMoveTo p).host = s.host := by unfold State.brMoveTo; split <;> rfl
@[simp] theorem brMoveTo_v_status (s : State) (p : Nat) : (s.brMoveTo p).v.status = s.v.status := by unfold State.brMoveTo; split <;> rfl
@[simp] theorem brMoveTo_v_pending (s : State) (p : Nat) : (s.brMoveTo p).v.pending = s.v.pending := by unfold State.brMoveTo; split <;> rfl
@[simp] theorem brMoveTo_v_len (s : State) (p : Nat) : (s.brMoveTo p).v.len = s.v.len := by unfold State.brMoveTo; split <;> rfl
@[simp] theorem brMoveTo_v_result (s : State) (p : Nat) : (s.brMoveTo p).v.result = s.v.result := by unfold State.brMoveTo; split <;> rfl
@[simp] theorem brMoveTo_v_brLen (s : State) (p : Nat) : (s.brMoveTo p).v.brLen = s.v.brLen := by unfold State.brMoveTo; split <;> rfl
@[simp] theorem brMoveTo_v_format (s : State) (p : Nat) : (s.brMoveTo p).v.format = s.v.format := by unfold State.brMoveTo; split <;> rfl
@[simp] theorem brMoveTo_v_res (s : State) (p : Nat) : (s.brMoveTo p).v.res = s.v.res := by unfold State.brMoveTo; split <;> rfl
@[simp] theorem brMoveTo_v_ptype (s : State) (p : Nat) : (s.brMoveTo p).v.ptype = s.v.ptype := by unfold State.brMoveTo; split <;> rfl
@[simp] theorem brMoveTo_v_quant (s : State) (p : Nat) : (s.brMoveTo p).v.quant = s.v.quant := by unfold State.brMoveTo; split <;> rfl
@[simp] theorem brMoveTo_v_frameIndex (s : State) (p : Nat) :
    (s.brMoveTo p).v.frameIndex = s.v.frameIndex := by unfold State.brMoveTo; split <;> rfl
@[simp] theorem brMoveTo_v_width (s : State) (p : Nat) : (s.brMoveTo p).v.width = s.v.width := by unfold State.brMoveTo; split <;> rfl
@[simp] theorem brMoveTo_v_height (s : State) (p : Nat) : (s.brMoveTo p).v.height = s.v.height := by unfold State.brMoveTo; split <;> rfl
@[simp] theorem brMoveTo_v_sliceCount (s : State) (p : Nat) :
    (s.brMoveTo p).v.sliceCount = s.v.sliceCount := by unfold State.brMoveTo; split <;> rfl
@[simp] theorem brMoveTo_v_mbPerRow (s : State) (p : Nat) : (s.brMoveTo p).v.mbPerRow = s.v.mbPerRow := by unfold State.brMoveTo; split <;> rfl
@[simp] theorem brMoveTo_v_sliceIndex (s : State) (p : Nat) :
    (s.brMoveTo p).v.sliceIndex = s.v.sliceIndex := by unfold State.brMoveTo; split <;> rfl
@[simp] theorem brMoveTo_v_gridMbs (s : State) (p : Nat) : (s.brMoveTo p).v.gridMbs = s.v.gridMbs := by unfold State.brMoveTo; split <;> rfl
@[simp] theorem brMoveTo_v_errPos (s : State) (p : Nat) : (s.brMoveTo p).v.errPos = s.v.errPos := by unfold State.brMoveTo; split <;> rfl
@[simp] theorem brMoveTo_v_rlRun (s : State) (p : Nat) : (s.brMoveTo p).v.rlRun = s.v.rlRun := by unfold State.brMoveTo; split <;> rfl
@[simp] theorem brMoveTo_v_rlLevel (s : State) (p : Nat) : (s.brMoveTo p).v.rlLevel = s.v.rlLevel := by unfold State.brMoveTo; split <;> rfl
@[simp] theorem brMoveTo_v_rlLen (s : State) (p : Nat) : (s.brMoveTo p).v.rlLen = s.v.rlLen := by unfold State.brMoveTo; split <;> rfl
@[simp] theorem brMoveTo_v_rlLast (s : State) (p : Nat) : (s.brMoveTo p).v.rlLast = s.v.rlLast := by unfold State.brMoveTo; split <;> rfl
@[simp] theorem brMoveTo_v_grid (s : State) (p : Nat) : (s.brMoveTo p).v.grid = s.v.grid := by unfold State.brMoveTo; split <;> rfl
@[simp] theorem brMoveTo_v_ctx (s : State) (p : Nat) : (s.brMoveTo p).v.ctx = s.v.ctx := by unfold State.brMoveTo; split <;> rfl

/-! ### `brAlign` (R145) -/

@[simp] theorem brAlign_cfg (s : State) : (s.brAlign).cfg = s.cfg := brMoveTo_cfg _ _
@[simp] theorem brAlign_irqStatus (s : State) : (s.brAlign).irqStatus = s.irqStatus := brMoveTo_irqStatus _ _
@[simp] theorem brAlign_irqEnable (s : State) : (s.brAlign).irqEnable = s.irqEnable := brMoveTo_irqEnable _ _
@[simp] theorem brAlign_n (s : State) : (s.brAlign).n = s.n := brMoveTo_n _ _
@[simp] theorem brAlign_vin (s : State) : (s.brAlign).vin = s.vin := brMoveTo_vin _ _
@[simp] theorem brAlign_nin (s : State) : (s.brAlign).nin = s.nin := brMoveTo_nin _ _
@[simp] theorem brAlign_pix (s : State) : (s.brAlign).pix = s.pix := brMoveTo_pix _ _
@[simp] theorem brAlign_host (s : State) : (s.brAlign).host = s.host := brMoveTo_host _ _
@[simp] theorem brAlign_v_status (s : State) : (s.brAlign).v.status = s.v.status := brMoveTo_v_status _ _
@[simp] theorem brAlign_v_pending (s : State) : (s.brAlign).v.pending = s.v.pending := brMoveTo_v_pending _ _
@[simp] theorem brAlign_v_len (s : State) : (s.brAlign).v.len = s.v.len := brMoveTo_v_len _ _
@[simp] theorem brAlign_v_result (s : State) : (s.brAlign).v.result = s.v.result := brMoveTo_v_result _ _
@[simp] theorem brAlign_v_brLen (s : State) : (s.brAlign).v.brLen = s.v.brLen := brMoveTo_v_brLen _ _
@[simp] theorem brAlign_v_format (s : State) : (s.brAlign).v.format = s.v.format := brMoveTo_v_format _ _
@[simp] theorem brAlign_v_res (s : State) : (s.brAlign).v.res = s.v.res := brMoveTo_v_res _ _
@[simp] theorem brAlign_v_ptype (s : State) : (s.brAlign).v.ptype = s.v.ptype := brMoveTo_v_ptype _ _
@[simp] theorem brAlign_v_quant (s : State) : (s.brAlign).v.quant = s.v.quant := brMoveTo_v_quant _ _
@[simp] theorem brAlign_v_frameIndex (s : State) : (s.brAlign).v.frameIndex = s.v.frameIndex := brMoveTo_v_frameIndex _ _
@[simp] theorem brAlign_v_width (s : State) : (s.brAlign).v.width = s.v.width := brMoveTo_v_width _ _
@[simp] theorem brAlign_v_height (s : State) : (s.brAlign).v.height = s.v.height := brMoveTo_v_height _ _
@[simp] theorem brAlign_v_sliceCount (s : State) : (s.brAlign).v.sliceCount = s.v.sliceCount := brMoveTo_v_sliceCount _ _
@[simp] theorem brAlign_v_mbPerRow (s : State) : (s.brAlign).v.mbPerRow = s.v.mbPerRow := brMoveTo_v_mbPerRow _ _
@[simp] theorem brAlign_v_sliceIndex (s : State) : (s.brAlign).v.sliceIndex = s.v.sliceIndex := brMoveTo_v_sliceIndex _ _
@[simp] theorem brAlign_v_gridMbs (s : State) : (s.brAlign).v.gridMbs = s.v.gridMbs := brMoveTo_v_gridMbs _ _
@[simp] theorem brAlign_v_errPos (s : State) : (s.brAlign).v.errPos = s.v.errPos := brMoveTo_v_errPos _ _
@[simp] theorem brAlign_v_rlRun (s : State) : (s.brAlign).v.rlRun = s.v.rlRun := brMoveTo_v_rlRun _ _
@[simp] theorem brAlign_v_rlLevel (s : State) : (s.brAlign).v.rlLevel = s.v.rlLevel := brMoveTo_v_rlLevel _ _
@[simp] theorem brAlign_v_rlLen (s : State) : (s.brAlign).v.rlLen = s.v.rlLen := brMoveTo_v_rlLen _ _
@[simp] theorem brAlign_v_rlLast (s : State) : (s.brAlign).v.rlLast = s.v.rlLast := brMoveTo_v_rlLast _ _
@[simp] theorem brAlign_v_grid (s : State) : (s.brAlign).v.grid = s.v.grid := brMoveTo_v_grid _ _
@[simp] theorem brAlign_v_ctx (s : State) : (s.brAlign).v.ctx = s.v.ctx := brMoveTo_v_ctx _ _

/-! ### `brStart` (R142, R210) -/

@[simp] theorem brStart_cfg (s : State) : (s.brStart).cfg = s.cfg := brMoveTo_cfg _ _
@[simp] theorem brStart_irqStatus (s : State) : (s.brStart).irqStatus = s.irqStatus := brMoveTo_irqStatus _ _
@[simp] theorem brStart_irqEnable (s : State) : (s.brStart).irqEnable = s.irqEnable := brMoveTo_irqEnable _ _
@[simp] theorem brStart_n (s : State) : (s.brStart).n = s.n := brMoveTo_n _ _
@[simp] theorem brStart_vin (s : State) : (s.brStart).vin = s.vin := brMoveTo_vin _ _
@[simp] theorem brStart_nin (s : State) : (s.brStart).nin = s.nin := brMoveTo_nin _ _
@[simp] theorem brStart_pix (s : State) : (s.brStart).pix = s.pix := brMoveTo_pix _ _
@[simp] theorem brStart_host (s : State) : (s.brStart).host = s.host := brMoveTo_host _ _
@[simp] theorem brStart_v_status (s : State) : (s.brStart).v.status = s.v.status := brMoveTo_v_status _ _
@[simp] theorem brStart_v_pending (s : State) : (s.brStart).v.pending = s.v.pending := brMoveTo_v_pending _ _
@[simp] theorem brStart_v_len (s : State) : (s.brStart).v.len = s.v.len := brMoveTo_v_len _ _
@[simp] theorem brStart_v_result (s : State) : (s.brStart).v.result = s.v.result := brMoveTo_v_result _ _
@[simp] theorem brStart_v_format (s : State) : (s.brStart).v.format = s.v.format := brMoveTo_v_format _ _
@[simp] theorem brStart_v_res (s : State) : (s.brStart).v.res = s.v.res := brMoveTo_v_res _ _
@[simp] theorem brStart_v_ptype (s : State) : (s.brStart).v.ptype = s.v.ptype := brMoveTo_v_ptype _ _
@[simp] theorem brStart_v_quant (s : State) : (s.brStart).v.quant = s.v.quant := brMoveTo_v_quant _ _
@[simp] theorem brStart_v_frameIndex (s : State) : (s.brStart).v.frameIndex = s.v.frameIndex := brMoveTo_v_frameIndex _ _
@[simp] theorem brStart_v_width (s : State) : (s.brStart).v.width = s.v.width := brMoveTo_v_width _ _
@[simp] theorem brStart_v_height (s : State) : (s.brStart).v.height = s.v.height := brMoveTo_v_height _ _
@[simp] theorem brStart_v_sliceCount (s : State) : (s.brStart).v.sliceCount = s.v.sliceCount := brMoveTo_v_sliceCount _ _
@[simp] theorem brStart_v_mbPerRow (s : State) : (s.brStart).v.mbPerRow = s.v.mbPerRow := brMoveTo_v_mbPerRow _ _
@[simp] theorem brStart_v_sliceIndex (s : State) : (s.brStart).v.sliceIndex = s.v.sliceIndex := brMoveTo_v_sliceIndex _ _
@[simp] theorem brStart_v_gridMbs (s : State) : (s.brStart).v.gridMbs = s.v.gridMbs := brMoveTo_v_gridMbs _ _
@[simp] theorem brStart_v_errPos (s : State) : (s.brStart).v.errPos = s.v.errPos := brMoveTo_v_errPos _ _
@[simp] theorem brStart_v_rlRun (s : State) : (s.brStart).v.rlRun = s.v.rlRun := brMoveTo_v_rlRun _ _
@[simp] theorem brStart_v_rlLevel (s : State) : (s.brStart).v.rlLevel = s.v.rlLevel := brMoveTo_v_rlLevel _ _
@[simp] theorem brStart_v_rlLen (s : State) : (s.brStart).v.rlLen = s.v.rlLen := brMoveTo_v_rlLen _ _
@[simp] theorem brStart_v_rlLast (s : State) : (s.brStart).v.rlLast = s.v.rlLast := brMoveTo_v_rlLast _ _
@[simp] theorem brStart_v_grid (s : State) : (s.brStart).v.grid = s.v.grid := brMoveTo_v_grid _ _
@[simp] theorem brStart_v_ctx (s : State) : (s.brStart).v.ctx = s.v.ctx := brMoveTo_v_ctx _ _
@[simp] theorem brStart_v_brLen (s : State) : s.brStart.v.brLen = s.v.len := rfl
@[simp] theorem brStart_v_brPos (s : State) : s.brStart.v.brPos = 0 := rfl
@[simp] theorem brStart_v_brChunk (s : State) : s.brStart.v.brChunk = 0 := rfl
@[simp] theorem brStart_v_brBitIdx (s : State) : s.brStart.v.brBitIdx = 32 := rfl
@[simp] theorem brStart_v_brWord (s : State) : s.brStart.v.brWord = 0 := rfl

/-! ### `complete` (R358, R388), for the VDU -/

@[simp] theorem completeVdu_cfg (s : State) (e : Err) : (s.complete .vdu e).cfg = s.cfg := rfl
@[simp] theorem completeVdu_irqEnable (s : State) (e : Err) :
    (s.complete .vdu e).irqEnable = s.irqEnable := rfl
@[simp] theorem completeVdu_n (s : State) (e : Err) : (s.complete .vdu e).n = s.n := rfl
@[simp] theorem completeVdu_vin (s : State) (e : Err) : (s.complete .vdu e).vin = s.vin := rfl
@[simp] theorem completeVdu_nin (s : State) (e : Err) : (s.complete .vdu e).nin = s.nin := rfl
@[simp] theorem completeVdu_pix (s : State) (e : Err) : (s.complete .vdu e).pix = s.pix := rfl
@[simp] theorem completeVdu_host (s : State) (e : Err) : (s.complete .vdu e).host = s.host := rfl
@[simp] theorem completeVdu_v_len (s : State) (e : Err) : (s.complete .vdu e).v.len = s.v.len := rfl
@[simp] theorem completeVdu_v_result (s : State) (e : Err) : (s.complete .vdu e).v.result = s.v.result := rfl
@[simp] theorem completeVdu_v_brWord (s : State) (e : Err) : (s.complete .vdu e).v.brWord = s.v.brWord := rfl
@[simp] theorem completeVdu_v_brPos (s : State) (e : Err) : (s.complete .vdu e).v.brPos = s.v.brPos := rfl
@[simp] theorem completeVdu_v_brBitIdx (s : State) (e : Err) :
    (s.complete .vdu e).v.brBitIdx = s.v.brBitIdx := rfl
@[simp] theorem completeVdu_v_brChunk (s : State) (e : Err) :
    (s.complete .vdu e).v.brChunk = s.v.brChunk := rfl
@[simp] theorem completeVdu_v_brLen (s : State) (e : Err) : (s.complete .vdu e).v.brLen = s.v.brLen := rfl
@[simp] theorem completeVdu_v_format (s : State) (e : Err) : (s.complete .vdu e).v.format = s.v.format := rfl
@[simp] theorem completeVdu_v_res (s : State) (e : Err) : (s.complete .vdu e).v.res = s.v.res := rfl
@[simp] theorem completeVdu_v_ptype (s : State) (e : Err) : (s.complete .vdu e).v.ptype = s.v.ptype := rfl
@[simp] theorem completeVdu_v_quant (s : State) (e : Err) : (s.complete .vdu e).v.quant = s.v.quant := rfl
@[simp] theorem completeVdu_v_frameIndex (s : State) (e : Err) :
    (s.complete .vdu e).v.frameIndex = s.v.frameIndex := rfl
@[simp] theorem completeVdu_v_width (s : State) (e : Err) : (s.complete .vdu e).v.width = s.v.width := rfl
@[simp] theorem completeVdu_v_height (s : State) (e : Err) : (s.complete .vdu e).v.height = s.v.height := rfl
@[simp] theorem completeVdu_v_sliceCount (s : State) (e : Err) :
    (s.complete .vdu e).v.sliceCount = s.v.sliceCount := rfl
@[simp] theorem completeVdu_v_mbPerRow (s : State) (e : Err) :
    (s.complete .vdu e).v.mbPerRow = s.v.mbPerRow := rfl
@[simp] theorem completeVdu_v_sliceIndex (s : State) (e : Err) :
    (s.complete .vdu e).v.sliceIndex = s.v.sliceIndex := rfl
@[simp] theorem completeVdu_v_gridMbs (s : State) (e : Err) :
    (s.complete .vdu e).v.gridMbs = s.v.gridMbs := rfl
@[simp] theorem completeVdu_v_rlRun (s : State) (e : Err) : (s.complete .vdu e).v.rlRun = s.v.rlRun := rfl
@[simp] theorem completeVdu_v_rlLevel (s : State) (e : Err) :
    (s.complete .vdu e).v.rlLevel = s.v.rlLevel := rfl
@[simp] theorem completeVdu_v_rlLen (s : State) (e : Err) : (s.complete .vdu e).v.rlLen = s.v.rlLen := rfl
@[simp] theorem completeVdu_v_rlLast (s : State) (e : Err) : (s.complete .vdu e).v.rlLast = s.v.rlLast := rfl
@[simp] theorem completeVdu_v_grid (s : State) (e : Err) : (s.complete .vdu e).v.grid = s.v.grid := rfl
@[simp] theorem completeVdu_v_status (s : State) (e : Err) :
    (s.complete .vdu e).v.status = { s.v.status with err := e, busy := false, done := true } := rfl
@[simp] theorem completeVdu_v_pending (s : State) (e : Err) : (s.complete .vdu e).v.pending = none := rfl
@[simp] theorem completeVdu_v_ctx (s : State) (e : Err) : (s.complete .vdu e).v.ctx = VideoCtx.idle := rfl
@[simp] theorem completeVdu_v_errPos (s : State) (e : Err) :
    (s.complete .vdu e).v.errPos = (if e = .none then s.v.errPos else s.v.brPos) := rfl
@[simp] theorem completeVdu_irqStatus (s : State) (e : Err) :
    (s.complete .vdu e).irqStatus = s.irqStatus ||| (if e = .none then irqVidDone else irqVidDone ||| irqVidErr) := rfl

/-! ### `complete` (R358), for the NDU -/

@[simp] theorem completeNdu_cfg (s : State) (e : Err) : (s.complete .ndu e).cfg = s.cfg := rfl
@[simp] theorem completeNdu_irqEnable (s : State) (e : Err) :
    (s.complete .ndu e).irqEnable = s.irqEnable := rfl
@[simp] theorem completeNdu_v (s : State) (e : Err) : (s.complete .ndu e).v = s.v := rfl
@[simp] theorem completeNdu_vin (s : State) (e : Err) : (s.complete .ndu e).vin = s.vin := rfl
@[simp] theorem completeNdu_nin (s : State) (e : Err) : (s.complete .ndu e).nin = s.nin := rfl
@[simp] theorem completeNdu_pix (s : State) (e : Err) : (s.complete .ndu e).pix = s.pix := rfl
@[simp] theorem completeNdu_host (s : State) (e : Err) : (s.complete .ndu e).host = s.host := rfl
@[simp] theorem completeNdu_n_len (s : State) (e : Err) : (s.complete .ndu e).n.len = s.n.len := rfl
@[simp] theorem completeNdu_n_magic (s : State) (e : Err) : (s.complete .ndu e).n.magic = s.n.magic := rfl
@[simp] theorem completeNdu_n_state (s : State) (e : Err) : (s.complete .ndu e).n.state = s.n.state := rfl
@[simp] theorem completeNdu_n_seq (s : State) (e : Err) : (s.complete .ndu e).n.seq = s.n.seq := rfl
@[simp] theorem completeNdu_n_visionDef (s : State) (e : Err) :
    (s.complete .ndu e).n.visionDef = s.n.visionDef := rfl
@[simp] theorem completeNdu_n_cksCalc (s : State) (e : Err) :
    (s.complete .ndu e).n.cksCalc = s.n.cksCalc := rfl
@[simp] theorem completeNdu_n_cksRx (s : State) (e : Err) : (s.complete .ndu e).n.cksRx = s.n.cksRx := rfl
@[simp] theorem completeNdu_n_endPos (s : State) (e : Err) : (s.complete .ndu e).n.endPos = s.n.endPos := rfl
@[simp] theorem completeNdu_n_demo (s : State) (e : Err) : (s.complete .ndu e).n.demo = s.n.demo := rfl
@[simp] theorem completeNdu_n_visCount (s : State) (e : Err) :
    (s.complete .ndu e).n.visCount = s.n.visCount := rfl
@[simp] theorem completeNdu_n_slot0 (s : State) (e : Err) : (s.complete .ndu e).n.slot0 = s.n.slot0 := rfl
@[simp] theorem completeNdu_n_slot1 (s : State) (e : Err) : (s.complete .ndu e).n.slot1 = s.n.slot1 := rfl
@[simp] theorem completeNdu_n_slot2 (s : State) (e : Err) : (s.complete .ndu e).n.slot2 = s.n.slot2 := rfl
@[simp] theorem completeNdu_n_slot3 (s : State) (e : Err) : (s.complete .ndu e).n.slot3 = s.n.slot3 := rfl
@[simp] theorem completeNdu_n_status (s : State) (e : Err) :
    (s.complete .ndu e).n.status = { s.n.status with err := e, busy := false, done := true } := rfl
@[simp] theorem completeNdu_n_pending (s : State) (e : Err) : (s.complete .ndu e).n.pending = none := rfl
@[simp] theorem completeNdu_n_ctx (s : State) (e : Err) : (s.complete .ndu e).n.ctx = NavCtx.idle := rfl
@[simp] theorem completeNdu_irqStatus (s : State) (e : Err) :
    (s.complete .ndu e).irqStatus = s.irqStatus ||| (if e = .none then irqNavDone else irqNavDone ||| irqNavErr) := rfl

/-! ### `accept` (R358, R383) -/

@[simp] theorem accept_cfg (s : State) (u : DecodeUnit) (w : Word) : (s.accept u w).cfg = s.cfg := by cases u <;> unfold State.accept <;> dsimp only <;> split <;> rfl
@[simp] theorem accept_irqStatus (s : State) (u : DecodeUnit) (w : Word) :
    (s.accept u w).irqStatus = s.irqStatus := by cases u <;> unfold State.accept <;> dsimp only <;> split <;> rfl
@[simp] theorem accept_irqEnable (s : State) (u : DecodeUnit) (w : Word) :
    (s.accept u w).irqEnable = s.irqEnable := by cases u <;> unfold State.accept <;> dsimp only <;> split <;> rfl
@[simp] theorem accept_vin (s : State) (u : DecodeUnit) (w : Word) : (s.accept u w).vin = s.vin := by cases u <;> unfold State.accept <;> dsimp only <;> split <;> rfl
@[simp] theorem accept_nin (s : State) (u : DecodeUnit) (w : Word) : (s.accept u w).nin = s.nin := by cases u <;> unfold State.accept <;> dsimp only <;> split <;> rfl
@[simp] theorem accept_pix (s : State) (u : DecodeUnit) (w : Word) : (s.accept u w).pix = s.pix := by cases u <;> unfold State.accept <;> dsimp only <;> split <;> rfl
@[simp] theorem accept_host (s : State) (u : DecodeUnit) (w : Word) : (s.accept u w).host = s.host := by cases u <;> unfold State.accept <;> dsimp only <;> split <;> rfl
@[simp] theorem accept_ndu_v (s : State) (w : Word) : (s.accept .ndu w).v = s.v := by unfold State.accept; dsimp only; split <;> rfl
@[simp] theorem accept_vdu_n (s : State) (w : Word) : (s.accept .vdu w).n = s.n := by unfold State.accept; dsimp only; split <;> rfl

/-! ### `resetUnit` (R412) -/

@[simp] theorem resetVdu_cfg (s : State) : (s.resetUnit .vdu).cfg = s.cfg := rfl
@[simp] theorem resetVdu_irqEnable (s : State) : (s.resetUnit .vdu).irqEnable = s.irqEnable := rfl
@[simp] theorem resetVdu_n (s : State) : (s.resetUnit .vdu).n = s.n := rfl
@[simp] theorem resetVdu_vin (s : State) : (s.resetUnit .vdu).vin = s.vin := rfl
@[simp] theorem resetVdu_nin (s : State) : (s.resetUnit .vdu).nin = s.nin := rfl
@[simp] theorem resetVdu_pix (s : State) : (s.resetUnit .vdu).pix = s.pix := rfl
@[simp] theorem resetVdu_host (s : State) : (s.resetUnit .vdu).host = s.host := rfl
@[simp] theorem resetVdu_v (s : State) : (s.resetUnit .vdu).v = Vdu.reset := rfl
@[simp] theorem resetNdu_cfg (s : State) : (s.resetUnit .ndu).cfg = s.cfg := rfl
@[simp] theorem resetNdu_irqEnable (s : State) : (s.resetUnit .ndu).irqEnable = s.irqEnable := rfl
@[simp] theorem resetNdu_v (s : State) : (s.resetUnit .ndu).v = s.v := rfl
@[simp] theorem resetNdu_vin (s : State) : (s.resetUnit .ndu).vin = s.vin := rfl
@[simp] theorem resetNdu_nin (s : State) : (s.resetUnit .ndu).nin = s.nin := rfl
@[simp] theorem resetNdu_pix (s : State) : (s.resetUnit .ndu).pix = s.pix := rfl
@[simp] theorem resetNdu_host (s : State) : (s.resetUnit .ndu).host = s.host := rfl
@[simp] theorem resetNdu_n (s : State) : (s.resetUnit .ndu).n = Ndu.reset := rfl

/-! ### `expect` -/

@[simp] theorem expect_cfg (s : State) (p : VideoPhase) : (s.expect p).cfg = s.cfg := rfl
@[simp] theorem expect_irqStatus (s : State) (p : VideoPhase) : (s.expect p).irqStatus = s.irqStatus := rfl
@[simp] theorem expect_irqEnable (s : State) (p : VideoPhase) : (s.expect p).irqEnable = s.irqEnable := rfl
@[simp] theorem expect_n (s : State) (p : VideoPhase) : (s.expect p).n = s.n := rfl
@[simp] theorem expect_vin (s : State) (p : VideoPhase) : (s.expect p).vin = s.vin := rfl
@[simp] theorem expect_nin (s : State) (p : VideoPhase) : (s.expect p).nin = s.nin := rfl
@[simp] theorem expect_pix (s : State) (p : VideoPhase) : (s.expect p).pix = s.pix := rfl
@[simp] theorem expect_host (s : State) (p : VideoPhase) : (s.expect p).host = s.host := rfl
@[simp] theorem expect_v_status (s : State) (p : VideoPhase) : (s.expect p).v.status = s.v.status := rfl
@[simp] theorem expect_v_pending (s : State) (p : VideoPhase) : (s.expect p).v.pending = s.v.pending := rfl
@[simp] theorem expect_v_len (s : State) (p : VideoPhase) : (s.expect p).v.len = s.v.len := rfl
@[simp] theorem expect_v_result (s : State) (p : VideoPhase) : (s.expect p).v.result = s.v.result := rfl
@[simp] theorem expect_v_brWord (s : State) (p : VideoPhase) : (s.expect p).v.brWord = s.v.brWord := rfl
@[simp] theorem expect_v_brPos (s : State) (p : VideoPhase) : (s.expect p).v.brPos = s.v.brPos := rfl
@[simp] theorem expect_v_brBitIdx (s : State) (p : VideoPhase) : (s.expect p).v.brBitIdx = s.v.brBitIdx := rfl
@[simp] theorem expect_v_brChunk (s : State) (p : VideoPhase) : (s.expect p).v.brChunk = s.v.brChunk := rfl
@[simp] theorem expect_v_brLen (s : State) (p : VideoPhase) : (s.expect p).v.brLen = s.v.brLen := rfl
@[simp] theorem expect_v_format (s : State) (p : VideoPhase) : (s.expect p).v.format = s.v.format := rfl
@[simp] theorem expect_v_res (s : State) (p : VideoPhase) : (s.expect p).v.res = s.v.res := rfl
@[simp] theorem expect_v_ptype (s : State) (p : VideoPhase) : (s.expect p).v.ptype = s.v.ptype := rfl
@[simp] theorem expect_v_quant (s : State) (p : VideoPhase) : (s.expect p).v.quant = s.v.quant := rfl
@[simp] theorem expect_v_frameIndex (s : State) (p : VideoPhase) :
    (s.expect p).v.frameIndex = s.v.frameIndex := rfl
@[simp] theorem expect_v_width (s : State) (p : VideoPhase) : (s.expect p).v.width = s.v.width := rfl
@[simp] theorem expect_v_height (s : State) (p : VideoPhase) : (s.expect p).v.height = s.v.height := rfl
@[simp] theorem expect_v_sliceCount (s : State) (p : VideoPhase) :
    (s.expect p).v.sliceCount = s.v.sliceCount := rfl
@[simp] theorem expect_v_mbPerRow (s : State) (p : VideoPhase) : (s.expect p).v.mbPerRow = s.v.mbPerRow := rfl
@[simp] theorem expect_v_sliceIndex (s : State) (p : VideoPhase) :
    (s.expect p).v.sliceIndex = s.v.sliceIndex := rfl
@[simp] theorem expect_v_gridMbs (s : State) (p : VideoPhase) : (s.expect p).v.gridMbs = s.v.gridMbs := rfl
@[simp] theorem expect_v_errPos (s : State) (p : VideoPhase) : (s.expect p).v.errPos = s.v.errPos := rfl
@[simp] theorem expect_v_rlRun (s : State) (p : VideoPhase) : (s.expect p).v.rlRun = s.v.rlRun := rfl
@[simp] theorem expect_v_rlLevel (s : State) (p : VideoPhase) : (s.expect p).v.rlLevel = s.v.rlLevel := rfl
@[simp] theorem expect_v_rlLen (s : State) (p : VideoPhase) : (s.expect p).v.rlLen = s.v.rlLen := rfl
@[simp] theorem expect_v_rlLast (s : State) (p : VideoPhase) : (s.expect p).v.rlLast = s.v.rlLast := rfl
@[simp] theorem expect_v_grid (s : State) (p : VideoPhase) : (s.expect p).v.grid = s.v.grid := rfl
@[simp] theorem expect_v_ctx (s : State) (p : VideoPhase) :
    (s.expect p).v.ctx = { s.v.ctx with phase := p } := rfl

/-! ### `emitFrame` (R230) -/

@[simp] theorem emitFrame_cfg (s : State) : (s.emitFrame).cfg = s.cfg := rfl
@[simp] theorem emitFrame_irqEnable (s : State) : (s.emitFrame).irqEnable = s.irqEnable := rfl
@[simp] theorem emitFrame_n (s : State) : (s.emitFrame).n = s.n := rfl
@[simp] theorem emitFrame_vin (s : State) : (s.emitFrame).vin = s.vin := rfl
@[simp] theorem emitFrame_nin (s : State) : (s.emitFrame).nin = s.nin := rfl
@[simp] theorem emitFrame_pix (s : State) : (s.emitFrame).pix = s.pix := rfl
@[simp] theorem emitFrame_host (s : State) : (s.emitFrame).host = s.host := rfl
@[simp] theorem emitFrame_v_pending (s : State) : (s.emitFrame).v.pending = s.v.pending := rfl
@[simp] theorem emitFrame_v_len (s : State) : (s.emitFrame).v.len = s.v.len := rfl
@[simp] theorem emitFrame_v_result (s : State) : (s.emitFrame).v.result = s.v.result := rfl
@[simp] theorem emitFrame_v_brWord (s : State) : (s.emitFrame).v.brWord = s.v.brWord := rfl
@[simp] theorem emitFrame_v_brPos (s : State) : (s.emitFrame).v.brPos = s.v.brPos := rfl
@[simp] theorem emitFrame_v_brBitIdx (s : State) : (s.emitFrame).v.brBitIdx = s.v.brBitIdx := rfl
@[simp] theorem emitFrame_v_brChunk (s : State) : (s.emitFrame).v.brChunk = s.v.brChunk := rfl
@[simp] theorem emitFrame_v_brLen (s : State) : (s.emitFrame).v.brLen = s.v.brLen := rfl
@[simp] theorem emitFrame_v_format (s : State) : (s.emitFrame).v.format = s.v.format := rfl
@[simp] theorem emitFrame_v_res (s : State) : (s.emitFrame).v.res = s.v.res := rfl
@[simp] theorem emitFrame_v_ptype (s : State) : (s.emitFrame).v.ptype = s.v.ptype := rfl
@[simp] theorem emitFrame_v_quant (s : State) : (s.emitFrame).v.quant = s.v.quant := rfl
@[simp] theorem emitFrame_v_frameIndex (s : State) : (s.emitFrame).v.frameIndex = s.v.frameIndex := rfl
@[simp] theorem emitFrame_v_width (s : State) : (s.emitFrame).v.width = s.v.width := rfl
@[simp] theorem emitFrame_v_height (s : State) : (s.emitFrame).v.height = s.v.height := rfl
@[simp] theorem emitFrame_v_sliceCount (s : State) : (s.emitFrame).v.sliceCount = s.v.sliceCount := rfl
@[simp] theorem emitFrame_v_mbPerRow (s : State) : (s.emitFrame).v.mbPerRow = s.v.mbPerRow := rfl
@[simp] theorem emitFrame_v_sliceIndex (s : State) : (s.emitFrame).v.sliceIndex = s.v.sliceIndex := rfl
@[simp] theorem emitFrame_v_gridMbs (s : State) : (s.emitFrame).v.gridMbs = s.v.gridMbs := rfl
@[simp] theorem emitFrame_v_errPos (s : State) : (s.emitFrame).v.errPos = s.v.errPos := rfl
@[simp] theorem emitFrame_v_rlRun (s : State) : (s.emitFrame).v.rlRun = s.v.rlRun := rfl
@[simp] theorem emitFrame_v_rlLevel (s : State) : (s.emitFrame).v.rlLevel = s.v.rlLevel := rfl
@[simp] theorem emitFrame_v_rlLen (s : State) : (s.emitFrame).v.rlLen = s.v.rlLen := rfl
@[simp] theorem emitFrame_v_rlLast (s : State) : (s.emitFrame).v.rlLast = s.v.rlLast := rfl
@[simp] theorem emitFrame_v_grid (s : State) : (s.emitFrame).v.grid = s.v.grid := rfl
@[simp] theorem emitFrame_v_ctx (s : State) : (s.emitFrame).v.ctx = s.v.ctx := rfl
@[simp] theorem emitFrame_v_status (s : State) :
    s.emitFrame.v.status = { s.v.status with frameValid := true } := rfl
@[simp] theorem emitFrame_irqStatus (s : State) : s.emitFrame.irqStatus = s.irqStatus ||| irqFrame := rfl

/-! ### `realloc` (R221) -/

@[simp] theorem realloc_cfg (s : State) : (s.realloc).cfg = s.cfg := rfl
@[simp] theorem realloc_irqStatus (s : State) : (s.realloc).irqStatus = s.irqStatus := rfl
@[simp] theorem realloc_irqEnable (s : State) : (s.realloc).irqEnable = s.irqEnable := rfl
@[simp] theorem realloc_n (s : State) : (s.realloc).n = s.n := rfl
@[simp] theorem realloc_vin (s : State) : (s.realloc).vin = s.vin := rfl
@[simp] theorem realloc_nin (s : State) : (s.realloc).nin = s.nin := rfl
@[simp] theorem realloc_host (s : State) : (s.realloc).host = s.host := rfl
@[simp] theorem realloc_v_status (s : State) : (s.realloc).v.status = s.v.status := rfl
@[simp] theorem realloc_v_pending (s : State) : (s.realloc).v.pending = s.v.pending := rfl
@[simp] theorem realloc_v_len (s : State) : (s.realloc).v.len = s.v.len := rfl
@[simp] theorem realloc_v_result (s : State) : (s.realloc).v.result = s.v.result := rfl
@[simp] theorem realloc_v_brWord (s : State) : (s.realloc).v.brWord = s.v.brWord := rfl
@[simp] theorem realloc_v_brPos (s : State) : (s.realloc).v.brPos = s.v.brPos := rfl
@[simp] theorem realloc_v_brBitIdx (s : State) : (s.realloc).v.brBitIdx = s.v.brBitIdx := rfl
@[simp] theorem realloc_v_brChunk (s : State) : (s.realloc).v.brChunk = s.v.brChunk := rfl
@[simp] theorem realloc_v_brLen (s : State) : (s.realloc).v.brLen = s.v.brLen := rfl
@[simp] theorem realloc_v_format (s : State) : (s.realloc).v.format = s.v.format := rfl
@[simp] theorem realloc_v_res (s : State) : (s.realloc).v.res = s.v.res := rfl
@[simp] theorem realloc_v_ptype (s : State) : (s.realloc).v.ptype = s.v.ptype := rfl
@[simp] theorem realloc_v_quant (s : State) : (s.realloc).v.quant = s.v.quant := rfl
@[simp] theorem realloc_v_frameIndex (s : State) : (s.realloc).v.frameIndex = s.v.frameIndex := rfl
@[simp] theorem realloc_v_width (s : State) : (s.realloc).v.width = s.v.width := rfl
@[simp] theorem realloc_v_height (s : State) : (s.realloc).v.height = s.v.height := rfl
@[simp] theorem realloc_v_sliceCount (s : State) : (s.realloc).v.sliceCount = s.v.sliceCount := rfl
@[simp] theorem realloc_v_mbPerRow (s : State) : (s.realloc).v.mbPerRow = s.v.mbPerRow := rfl
@[simp] theorem realloc_v_sliceIndex (s : State) : (s.realloc).v.sliceIndex = s.v.sliceIndex := rfl
@[simp] theorem realloc_v_errPos (s : State) : (s.realloc).v.errPos = s.v.errPos := rfl
@[simp] theorem realloc_v_rlRun (s : State) : (s.realloc).v.rlRun = s.v.rlRun := rfl
@[simp] theorem realloc_v_rlLevel (s : State) : (s.realloc).v.rlLevel = s.v.rlLevel := rfl
@[simp] theorem realloc_v_rlLen (s : State) : (s.realloc).v.rlLen = s.v.rlLen := rfl
@[simp] theorem realloc_v_rlLast (s : State) : (s.realloc).v.rlLast = s.v.rlLast := rfl
@[simp] theorem realloc_v_ctx (s : State) : (s.realloc).v.ctx = s.v.ctx := rfl
@[simp] theorem realloc_v_gridMbs (s : State) : s.realloc.v.gridMbs = s.v.mbPerRow := rfl
@[simp] theorem realloc_v_grid (s : State) :
    s.realloc.v.grid = List.replicate s.v.mbPerRow.toNat (List.replicate 6 (List.replicate 64 0)) := rfl
@[simp] theorem realloc_pix (s : State) : s.realloc.pix = ⟨true, []⟩ := rfl

/-! ### `setDimensions` (R218, R220, R221) -/

@[simp] theorem setDimensions_cfg (s : State) (w h : Nat) : (s.setDimensions w h).cfg = s.cfg := by unfold State.setDimensions; dsimp only; split <;> rfl
@[simp] theorem setDimensions_irqStatus (s : State) (w h : Nat) :
    (s.setDimensions w h).irqStatus = s.irqStatus := by unfold State.setDimensions; dsimp only; split <;> rfl
@[simp] theorem setDimensions_irqEnable (s : State) (w h : Nat) :
    (s.setDimensions w h).irqEnable = s.irqEnable := by unfold State.setDimensions; dsimp only; split <;> rfl
@[simp] theorem setDimensions_n (s : State) (w h : Nat) : (s.setDimensions w h).n = s.n := by unfold State.setDimensions; dsimp only; split <;> rfl
@[simp] theorem setDimensions_vin (s : State) (w h : Nat) : (s.setDimensions w h).vin = s.vin := by unfold State.setDimensions; dsimp only; split <;> rfl
@[simp] theorem setDimensions_nin (s : State) (w h : Nat) : (s.setDimensions w h).nin = s.nin := by unfold State.setDimensions; dsimp only; split <;> rfl
@[simp] theorem setDimensions_host (s : State) (w h : Nat) : (s.setDimensions w h).host = s.host := by unfold State.setDimensions; dsimp only; split <;> rfl
@[simp] theorem setDimensions_v_status (s : State) (w h : Nat) :
    (s.setDimensions w h).v.status = s.v.status := by unfold State.setDimensions; dsimp only; split <;> rfl
@[simp] theorem setDimensions_v_pending (s : State) (w h : Nat) :
    (s.setDimensions w h).v.pending = s.v.pending := by unfold State.setDimensions; dsimp only; split <;> rfl
@[simp] theorem setDimensions_v_len (s : State) (w h : Nat) : (s.setDimensions w h).v.len = s.v.len := by unfold State.setDimensions; dsimp only; split <;> rfl
@[simp] theorem setDimensions_v_result (s : State) (w h : Nat) :
    (s.setDimensions w h).v.result = s.v.result := by unfold State.setDimensions; dsimp only; split <;> rfl
@[simp] theorem setDimensions_v_brWord (s : State) (w h : Nat) :
    (s.setDimensions w h).v.brWord = s.v.brWord := by unfold State.setDimensions; dsimp only; split <;> rfl
@[simp] theorem setDimensions_v_brPos (s : State) (w h : Nat) :
    (s.setDimensions w h).v.brPos = s.v.brPos := by unfold State.setDimensions; dsimp only; split <;> rfl
@[simp] theorem setDimensions_v_brBitIdx (s : State) (w h : Nat) :
    (s.setDimensions w h).v.brBitIdx = s.v.brBitIdx := by unfold State.setDimensions; dsimp only; split <;> rfl
@[simp] theorem setDimensions_v_brChunk (s : State) (w h : Nat) :
    (s.setDimensions w h).v.brChunk = s.v.brChunk := by unfold State.setDimensions; dsimp only; split <;> rfl
@[simp] theorem setDimensions_v_brLen (s : State) (w h : Nat) :
    (s.setDimensions w h).v.brLen = s.v.brLen := by unfold State.setDimensions; dsimp only; split <;> rfl
@[simp] theorem setDimensions_v_format (s : State) (w h : Nat) :
    (s.setDimensions w h).v.format = s.v.format := by unfold State.setDimensions; dsimp only; split <;> rfl
@[simp] theorem setDimensions_v_res (s : State) (w h : Nat) : (s.setDimensions w h).v.res = s.v.res := by unfold State.setDimensions; dsimp only; split <;> rfl
@[simp] theorem setDimensions_v_ptype (s : State) (w h : Nat) :
    (s.setDimensions w h).v.ptype = s.v.ptype := by unfold State.setDimensions; dsimp only; split <;> rfl
@[simp] theorem setDimensions_v_quant (s : State) (w h : Nat) :
    (s.setDimensions w h).v.quant = s.v.quant := by unfold State.setDimensions; dsimp only; split <;> rfl
@[simp] theorem setDimensions_v_frameIndex (s : State) (w h : Nat) :
    (s.setDimensions w h).v.frameIndex = s.v.frameIndex := by unfold State.setDimensions; dsimp only; split <;> rfl
@[simp] theorem setDimensions_v_sliceIndex (s : State) (w h : Nat) :
    (s.setDimensions w h).v.sliceIndex = s.v.sliceIndex := by unfold State.setDimensions; dsimp only; split <;> rfl
@[simp] theorem setDimensions_v_errPos (s : State) (w h : Nat) :
    (s.setDimensions w h).v.errPos = s.v.errPos := by unfold State.setDimensions; dsimp only; split <;> rfl
@[simp] theorem setDimensions_v_rlRun (s : State) (w h : Nat) :
    (s.setDimensions w h).v.rlRun = s.v.rlRun := by unfold State.setDimensions; dsimp only; split <;> rfl
@[simp] theorem setDimensions_v_rlLevel (s : State) (w h : Nat) :
    (s.setDimensions w h).v.rlLevel = s.v.rlLevel := by unfold State.setDimensions; dsimp only; split <;> rfl
@[simp] theorem setDimensions_v_rlLen (s : State) (w h : Nat) :
    (s.setDimensions w h).v.rlLen = s.v.rlLen := by unfold State.setDimensions; dsimp only; split <;> rfl
@[simp] theorem setDimensions_v_rlLast (s : State) (w h : Nat) :
    (s.setDimensions w h).v.rlLast = s.v.rlLast := by unfold State.setDimensions; dsimp only; split <;> rfl
@[simp] theorem setDimensions_v_ctx (s : State) (w h : Nat) : (s.setDimensions w h).v.ctx = s.v.ctx := by unfold State.setDimensions; dsimp only; split <;> rfl
@[simp] theorem setDimensions_v_width (s : State) (w h : Nat) :
    (s.setDimensions w h).v.width = BitVec.ofNat 32 w := by unfold State.setDimensions; dsimp only; split <;> rfl
@[simp] theorem setDimensions_v_height (s : State) (w h : Nat) :
    (s.setDimensions w h).v.height = BitVec.ofNat 32 h := by unfold State.setDimensions; dsimp only; split <;> rfl
@[simp] theorem setDimensions_v_sliceCount (s : State) (w h : Nat) :
    (s.setDimensions w h).v.sliceCount = BitVec.ofNat 32 (h / 16) := by unfold State.setDimensions; dsimp only; split <;> rfl
@[simp] theorem setDimensions_v_mbPerRow (s : State) (w h : Nat) :
    (s.setDimensions w h).v.mbPerRow = BitVec.ofNat 32 (w / 16) := by unfold State.setDimensions; dsimp only; split <;> rfl
@[simp] theorem setDimensions_v_gridMbs (s : State) (w h : Nat) :
    (s.setDimensions w h).v.gridMbs = BitVec.ofNat 32 (w / 16) := by
  unfold State.setDimensions; dsimp only; split
  · next h => exact h.symm
  · rfl

/-! ### `composeSlice` (R320) -/

@[simp] theorem composeSlice_cfg (s : State) (sl : Nat) : (s.composeSlice sl).cfg = s.cfg := rfl
@[simp] theorem composeSlice_irqStatus (s : State) (sl : Nat) :
    (s.composeSlice sl).irqStatus = s.irqStatus := rfl
@[simp] theorem composeSlice_irqEnable (s : State) (sl : Nat) :
    (s.composeSlice sl).irqEnable = s.irqEnable := rfl
@[simp] theorem composeSlice_v (s : State) (sl : Nat) : (s.composeSlice sl).v = s.v := rfl
@[simp] theorem composeSlice_n (s : State) (sl : Nat) : (s.composeSlice sl).n = s.n := rfl
@[simp] theorem composeSlice_vin (s : State) (sl : Nat) : (s.composeSlice sl).vin = s.vin := rfl
@[simp] theorem composeSlice_nin (s : State) (sl : Nat) : (s.composeSlice sl).nin = s.nin := rfl
@[simp] theorem composeSlice_host (s : State) (sl : Nat) : (s.composeSlice sl).host = s.host := rfl
@[simp] theorem composeSlice_pix (s : State) (sl : Nat) :
    (s.composeSlice sl).pix = s.pix.setAll (s.slicePixels sl) := rfl

/-! ### `setResult` and `setRunLevel` (R28, R258) -/

@[simp] theorem setResult_cfg (s : State) (r : Word) : (s.setResult r).cfg = s.cfg := rfl
@[simp] theorem setResult_irqStatus (s : State) (r : Word) : (s.setResult r).irqStatus = s.irqStatus := rfl
@[simp] theorem setResult_irqEnable (s : State) (r : Word) : (s.setResult r).irqEnable = s.irqEnable := rfl
@[simp] theorem setResult_n (s : State) (r : Word) : (s.setResult r).n = s.n := rfl
@[simp] theorem setResult_vin (s : State) (r : Word) : (s.setResult r).vin = s.vin := rfl
@[simp] theorem setResult_nin (s : State) (r : Word) : (s.setResult r).nin = s.nin := rfl
@[simp] theorem setResult_pix (s : State) (r : Word) : (s.setResult r).pix = s.pix := rfl
@[simp] theorem setResult_host (s : State) (r : Word) : (s.setResult r).host = s.host := rfl
@[simp] theorem setResult_v_status (s : State) (r : Word) : (s.setResult r).v.status = s.v.status := rfl
@[simp] theorem setResult_v_pending (s : State) (r : Word) : (s.setResult r).v.pending = s.v.pending := rfl
@[simp] theorem setResult_v_len (s : State) (r : Word) : (s.setResult r).v.len = s.v.len := rfl
@[simp] theorem setResult_v_brWord (s : State) (r : Word) : (s.setResult r).v.brWord = s.v.brWord := rfl
@[simp] theorem setResult_v_brPos (s : State) (r : Word) : (s.setResult r).v.brPos = s.v.brPos := rfl
@[simp] theorem setResult_v_brBitIdx (s : State) (r : Word) : (s.setResult r).v.brBitIdx = s.v.brBitIdx := rfl
@[simp] theorem setResult_v_brChunk (s : State) (r : Word) : (s.setResult r).v.brChunk = s.v.brChunk := rfl
@[simp] theorem setResult_v_brLen (s : State) (r : Word) : (s.setResult r).v.brLen = s.v.brLen := rfl
@[simp] theorem setResult_v_format (s : State) (r : Word) : (s.setResult r).v.format = s.v.format := rfl
@[simp] theorem setResult_v_res (s : State) (r : Word) : (s.setResult r).v.res = s.v.res := rfl
@[simp] theorem setResult_v_ptype (s : State) (r : Word) : (s.setResult r).v.ptype = s.v.ptype := rfl
@[simp] theorem setResult_v_quant (s : State) (r : Word) : (s.setResult r).v.quant = s.v.quant := rfl
@[simp] theorem setResult_v_frameIndex (s : State) (r : Word) :
    (s.setResult r).v.frameIndex = s.v.frameIndex := rfl
@[simp] theorem setResult_v_width (s : State) (r : Word) : (s.setResult r).v.width = s.v.width := rfl
@[simp] theorem setResult_v_height (s : State) (r : Word) : (s.setResult r).v.height = s.v.height := rfl
@[simp] theorem setResult_v_sliceCount (s : State) (r : Word) :
    (s.setResult r).v.sliceCount = s.v.sliceCount := rfl
@[simp] theorem setResult_v_mbPerRow (s : State) (r : Word) : (s.setResult r).v.mbPerRow = s.v.mbPerRow := rfl
@[simp] theorem setResult_v_sliceIndex (s : State) (r : Word) :
    (s.setResult r).v.sliceIndex = s.v.sliceIndex := rfl
@[simp] theorem setResult_v_gridMbs (s : State) (r : Word) : (s.setResult r).v.gridMbs = s.v.gridMbs := rfl
@[simp] theorem setResult_v_errPos (s : State) (r : Word) : (s.setResult r).v.errPos = s.v.errPos := rfl
@[simp] theorem setResult_v_rlRun (s : State) (r : Word) : (s.setResult r).v.rlRun = s.v.rlRun := rfl
@[simp] theorem setResult_v_rlLevel (s : State) (r : Word) : (s.setResult r).v.rlLevel = s.v.rlLevel := rfl
@[simp] theorem setResult_v_rlLen (s : State) (r : Word) : (s.setResult r).v.rlLen = s.v.rlLen := rfl
@[simp] theorem setResult_v_rlLast (s : State) (r : Word) : (s.setResult r).v.rlLast = s.v.rlLast := rfl
@[simp] theorem setResult_v_grid (s : State) (r : Word) : (s.setResult r).v.grid = s.v.grid := rfl
@[simp] theorem setResult_v_ctx (s : State) (r : Word) : (s.setResult r).v.ctx = s.v.ctx := rfl
@[simp] theorem setResult_v_result (s : State) (r : Word) : (s.setResult r).v.result = r := rfl
@[simp] theorem setRunLevel_cfg (s : State) (r : RunLevel) : (s.setRunLevel r).cfg = s.cfg := rfl
@[simp] theorem setRunLevel_irqStatus (s : State) (r : RunLevel) :
    (s.setRunLevel r).irqStatus = s.irqStatus := rfl
@[simp] theorem setRunLevel_irqEnable (s : State) (r : RunLevel) :
    (s.setRunLevel r).irqEnable = s.irqEnable := rfl
@[simp] theorem setRunLevel_n (s : State) (r : RunLevel) : (s.setRunLevel r).n = s.n := rfl
@[simp] theorem setRunLevel_vin (s : State) (r : RunLevel) : (s.setRunLevel r).vin = s.vin := rfl
@[simp] theorem setRunLevel_nin (s : State) (r : RunLevel) : (s.setRunLevel r).nin = s.nin := rfl
@[simp] theorem setRunLevel_pix (s : State) (r : RunLevel) : (s.setRunLevel r).pix = s.pix := rfl
@[simp] theorem setRunLevel_host (s : State) (r : RunLevel) : (s.setRunLevel r).host = s.host := rfl
@[simp] theorem setRunLevel_v_status (s : State) (r : RunLevel) :
    (s.setRunLevel r).v.status = s.v.status := rfl
@[simp] theorem setRunLevel_v_pending (s : State) (r : RunLevel) :
    (s.setRunLevel r).v.pending = s.v.pending := rfl
@[simp] theorem setRunLevel_v_len (s : State) (r : RunLevel) : (s.setRunLevel r).v.len = s.v.len := rfl
@[simp] theorem setRunLevel_v_result (s : State) (r : RunLevel) :
    (s.setRunLevel r).v.result = s.v.result := rfl
@[simp] theorem setRunLevel_v_brWord (s : State) (r : RunLevel) :
    (s.setRunLevel r).v.brWord = s.v.brWord := rfl
@[simp] theorem setRunLevel_v_brPos (s : State) (r : RunLevel) : (s.setRunLevel r).v.brPos = s.v.brPos := rfl
@[simp] theorem setRunLevel_v_brBitIdx (s : State) (r : RunLevel) :
    (s.setRunLevel r).v.brBitIdx = s.v.brBitIdx := rfl
@[simp] theorem setRunLevel_v_brChunk (s : State) (r : RunLevel) :
    (s.setRunLevel r).v.brChunk = s.v.brChunk := rfl
@[simp] theorem setRunLevel_v_brLen (s : State) (r : RunLevel) : (s.setRunLevel r).v.brLen = s.v.brLen := rfl
@[simp] theorem setRunLevel_v_format (s : State) (r : RunLevel) :
    (s.setRunLevel r).v.format = s.v.format := rfl
@[simp] theorem setRunLevel_v_res (s : State) (r : RunLevel) : (s.setRunLevel r).v.res = s.v.res := rfl
@[simp] theorem setRunLevel_v_ptype (s : State) (r : RunLevel) : (s.setRunLevel r).v.ptype = s.v.ptype := rfl
@[simp] theorem setRunLevel_v_quant (s : State) (r : RunLevel) : (s.setRunLevel r).v.quant = s.v.quant := rfl
@[simp] theorem setRunLevel_v_frameIndex (s : State) (r : RunLevel) :
    (s.setRunLevel r).v.frameIndex = s.v.frameIndex := rfl
@[simp] theorem setRunLevel_v_width (s : State) (r : RunLevel) : (s.setRunLevel r).v.width = s.v.width := rfl
@[simp] theorem setRunLevel_v_height (s : State) (r : RunLevel) :
    (s.setRunLevel r).v.height = s.v.height := rfl
@[simp] theorem setRunLevel_v_sliceCount (s : State) (r : RunLevel) :
    (s.setRunLevel r).v.sliceCount = s.v.sliceCount := rfl
@[simp] theorem setRunLevel_v_mbPerRow (s : State) (r : RunLevel) :
    (s.setRunLevel r).v.mbPerRow = s.v.mbPerRow := rfl
@[simp] theorem setRunLevel_v_sliceIndex (s : State) (r : RunLevel) :
    (s.setRunLevel r).v.sliceIndex = s.v.sliceIndex := rfl
@[simp] theorem setRunLevel_v_gridMbs (s : State) (r : RunLevel) :
    (s.setRunLevel r).v.gridMbs = s.v.gridMbs := rfl
@[simp] theorem setRunLevel_v_errPos (s : State) (r : RunLevel) :
    (s.setRunLevel r).v.errPos = s.v.errPos := rfl
@[simp] theorem setRunLevel_v_grid (s : State) (r : RunLevel) : (s.setRunLevel r).v.grid = s.v.grid := rfl
@[simp] theorem setRunLevel_v_ctx (s : State) (r : RunLevel) : (s.setRunLevel r).v.ctx = s.v.ctx := rfl

/-! ### `clearResults` (R172) -/

@[simp] theorem clearResults_cfg (s : State) : (s.clearResults).cfg = s.cfg := rfl
@[simp] theorem clearResults_irqStatus (s : State) : (s.clearResults).irqStatus = s.irqStatus := rfl
@[simp] theorem clearResults_irqEnable (s : State) : (s.clearResults).irqEnable = s.irqEnable := rfl
@[simp] theorem clearResults_v (s : State) : (s.clearResults).v = s.v := rfl
@[simp] theorem clearResults_vin (s : State) : (s.clearResults).vin = s.vin := rfl
@[simp] theorem clearResults_nin (s : State) : (s.clearResults).nin = s.nin := rfl
@[simp] theorem clearResults_pix (s : State) : (s.clearResults).pix = s.pix := rfl
@[simp] theorem clearResults_host (s : State) : (s.clearResults).host = s.host := rfl
@[simp] theorem clearResults_n_pending (s : State) : s.clearResults.n.pending = s.n.pending := rfl
@[simp] theorem clearResults_n_len (s : State) : s.clearResults.n.len = s.n.len := rfl
@[simp] theorem clearResults_n_ctx (s : State) : s.clearResults.n.ctx = s.n.ctx := rfl

/-! ### The schedule -/

@[simp] theorem advanceSched_cfg (s : State) : (s.advanceSched).cfg = s.cfg := rfl
@[simp] theorem advanceSched_irqStatus (s : State) : (s.advanceSched).irqStatus = s.irqStatus := rfl
@[simp] theorem advanceSched_irqEnable (s : State) : (s.advanceSched).irqEnable = s.irqEnable := rfl
@[simp] theorem advanceSched_v (s : State) : (s.advanceSched).v = s.v := rfl
@[simp] theorem advanceSched_n (s : State) : (s.advanceSched).n = s.n := rfl
@[simp] theorem advanceSched_vin (s : State) : (s.advanceSched).vin = s.vin := rfl
@[simp] theorem advanceSched_nin (s : State) : (s.advanceSched).nin = s.nin := rfl
@[simp] theorem advanceSched_pix (s : State) : (s.advanceSched).pix = s.pix := rfl
@[simp] theorem scheduleNext_cfg (s : State) (a : Agent) : (s.scheduleNext a).cfg = s.cfg := rfl
@[simp] theorem scheduleNext_irqStatus (s : State) (a : Agent) :
    (s.scheduleNext a).irqStatus = s.irqStatus := rfl
@[simp] theorem scheduleNext_irqEnable (s : State) (a : Agent) :
    (s.scheduleNext a).irqEnable = s.irqEnable := rfl
@[simp] theorem scheduleNext_v (s : State) (a : Agent) : (s.scheduleNext a).v = s.v := rfl
@[simp] theorem scheduleNext_n (s : State) (a : Agent) : (s.scheduleNext a).n = s.n := rfl
@[simp] theorem scheduleNext_vin (s : State) (a : Agent) : (s.scheduleNext a).vin = s.vin := rfl
@[simp] theorem scheduleNext_nin (s : State) (a : Agent) : (s.scheduleNext a).nin = s.nin := rfl
@[simp] theorem scheduleNext_pix (s : State) (a : Agent) : (s.scheduleNext a).pix = s.pix := rfl

end Sys2Proof.Machine
end

