-- ==== Sys2Proof/Laws/Storage.lean ====
section
/-!
SUPPORT. The laws of the sparse stores: a read after a write, every other key left alone, and the canonical form kept by
every operation on the byte buffers and on the pixel buffer.
-/

namespace Sys2Proof.Machine

/-! ## Rising lists -/

theorem cellsRising_cons {α : Type} (b : Nat) (y : α) (l : List (Nat × α)) :
    cellsRising ((b, y) :: l) = true ↔ (∀ c ∈ l, b < c.1) ∧ cellsRising l = true := by
  induction l generalizing b y with
  | nil => simp [cellsRising]
  | cons c l ih =>
    obtain ⟨c1, c2⟩ := c
    simp only [cellsRising, Bool.and_eq_true, decide_eq_true_eq, List.forall_mem_cons]
    rw [ih]
    constructor
    · rintro ⟨h, h1, h2⟩
      exact ⟨⟨h, fun d hd => lt_trans h (h1 d hd)⟩, h1, h2⟩
    · rintro ⟨⟨h, _⟩, h1, h2⟩
      exact ⟨h, h1, h2⟩

theorem mem_cellInsert {α : Type} (l : List (Nat × α)) (a : Nat) (x : α) :
    ∀ c ∈ cellInsert l a x, c = (a, x) ∨ c ∈ l := by
  induction l with
  | nil => simp [cellInsert]
  | cons d l ih =>
    obtain ⟨b, y⟩ := d
    intro c hc
    simp only [cellInsert] at hc
    split at hc
    · simpa using hc
    · split at hc
      · simp only [List.mem_cons] at hc ⊢
        tauto
      · simp only [List.mem_cons] at hc ⊢
        rcases hc with hc | hc
        · exact .inr (.inl hc)
        · rcases ih c hc with h | h
          · exact .inl h
          · exact .inr (.inr h)

theorem mem_cellErase {α : Type} (l : List (Nat × α)) (a : Nat) : ∀ c ∈ cellErase l a, c ∈ l := by
  induction l with
  | nil => simp [cellErase]
  | cons d l ih =>
    obtain ⟨b, y⟩ := d
    intro c hc
    simp only [cellErase] at hc
    split at hc
    · exact List.mem_cons_of_mem _ hc
    · rcases List.mem_cons.1 hc with h | h
      · exact h ▸ List.mem_cons_self
      · exact List.mem_cons_of_mem _ (ih c h)

theorem cellsRising_insert {α : Type} (l : List (Nat × α)) (a : Nat) (x : α) (h : cellsRising l = true) :
    cellsRising (cellInsert l a x) = true := by
  induction l with
  | nil => rfl
  | cons d l ih =>
    obtain ⟨b, y⟩ := d
    have hb := (cellsRising_cons b y l).1 h
    simp only [cellInsert]
    split
    · rename_i hab
      refine (cellsRising_cons _ _ _).2 ⟨fun c hc => ?_, h⟩
      rcases List.mem_cons.1 hc with e | e
      · exact e ▸ hab
      · exact lt_trans hab (hb.1 c e)
    · split
      · rename_i hab
        subst hab
        exact (cellsRising_cons _ _ _).2 hb
      · refine (cellsRising_cons _ _ _).2 ⟨fun c hc => ?_, ih hb.2⟩
        rcases mem_cellInsert l a x c hc with e | e
        · rw [e]; simp only; omega
        · exact hb.1 c e

theorem cellsRising_erase {α : Type} (l : List (Nat × α)) (a : Nat) (h : cellsRising l = true) :
    cellsRising (cellErase l a) = true := by
  induction l with
  | nil => rfl
  | cons d l ih =>
    obtain ⟨b, y⟩ := d
    have hb := (cellsRising_cons b y l).1 h
    simp only [cellErase]
    split
    · exact hb.2
    · exact (cellsRising_cons _ _ _).2 ⟨fun c hc => hb.1 c (mem_cellErase l a c hc), ih hb.2⟩

/-! ## Reading -/

theorem cellFind_none_of_lt {α : Type} (l : List (Nat × α)) (a : Nat) (h : ∀ c ∈ l, a < c.1) : cellFind l a = none := by
  induction l with
  | nil => rfl
  | cons d l ih =>
    obtain ⟨b, y⟩ := d
    have hab : a ≠ b := ne_of_lt (h (b, y) List.mem_cons_self)
    simp only [cellFind, hab, if_false]
    exact ih fun c hc => h c (List.mem_cons_of_mem _ hc)

/-- A read after an insertion. -/
theorem cellFind_insert {α : Type} (l : List (Nat × α)) (a b : Nat) (x : α) :
    cellFind (cellInsert l a x) b = if b = a then some x else cellFind l b := by
  induction l with
  | nil => simp [cellInsert, cellFind]
  | cons d l ih =>
    obtain ⟨c, y⟩ := d
    simp only [cellInsert]
    split
    · simp [cellFind]
    · split
      · rename_i h
        subst h
        simp only [cellFind]
        split <;> rfl
      · rename_i h1 h2
        simp only [cellFind, ih]
        split
        · rename_i h3
          rw [if_neg (by omega)]
        · rfl

/-- A read after an erasure. -/
theorem cellFind_erase {α : Type} (l : List (Nat × α)) (a b : Nat) (h : cellsRising l = true) :
    cellFind (cellErase l a) b = if b = a then none else cellFind l b := by
  induction l with
  | nil => simp [cellErase, cellFind]
  | cons d l ih =>
    obtain ⟨c, y⟩ := d
    have hc := (cellsRising_cons c y l).1 h
    simp only [cellErase]
    split
    · rename_i e
      subst e
      split
      · rename_i e
        subst e
        exact cellFind_none_of_lt l b hc.1
      · rename_i e
        simp [cellFind, e]
    · rename_i e
      simp only [cellFind, ih hc.2]
      split
      · rename_i e2
        rw [if_neg (by omega)]
      · rfl

theorem cellFind_mem {α : Type} (l : List (Nat × α)) (a : Nat) (x : α) (h : cellFind l a = some x) : (a, x) ∈ l := by
  induction l with
  | nil => simp [cellFind] at h
  | cons d l ih =>
    obtain ⟨b, y⟩ := d
    simp only [cellFind] at h
    split at h
    · rename_i e
      cases h
      exact e ▸ List.mem_cons_self
    · exact List.mem_cons_of_mem _ (ih h)

/-! ## The byte buffers -/

/-- `memWrite` keeps the canonical form. -/
theorem memWrite_wf (m : Memory) (a : Nat) (w : Word) (n : Nat) (h : m.wf = true) : (memWrite m a w n).wf = true := by
  induction n with
  | zero => exact h
  | succ n ih => exact cellsRising_insert _ _ _ ih

theorem mem_memWrite (m : Memory) (a : Nat) (w : Word) (n : Nat) :
    ∀ c ∈ memWrite m a w n, c ∈ m ∨ (a ≤ c.1 ∧ c.1 < a + n) := by
  induction n with
  | zero => exact fun c hc => .inl hc
  | succ n ih =>
    intro c hc
    rcases mem_cellInsert _ _ _ c hc with h | h
    · rw [h]; right; simp only; omega
    · rcases ih c h with h | h
      · exact .inl h
      · exact .inr (by omega)

/-- Reading a byte after `memWrite`: a written byte, or what was there. -/
theorem cellFind_memWrite (m : Memory) (a : Nat) (w : Word) (n b : Nat) :
    cellFind (memWrite m a w n) b = if a ≤ b ∧ b < a + n then some (wordByte w (b - a)) else cellFind m b := by
  induction n with
  | zero => rw [if_neg (by omega)]; rfl
  | succ n ih =>
    rw [memWrite, cellFind_insert, ih]
    split
    · rename_i h
      rw [if_pos (by omega), h, Nat.add_sub_cancel_left]
    · split
      · rw [if_pos (by omega)]
      · rw [if_neg (by omega)]

/-! ## The pixel buffer -/

theorem PixelBuffer.set_cleared (p : PixelBuffer) (i : Nat) (w : Word) : (p.set i w).cleared = p.cleared := by
  unfold PixelBuffer.set; split <;> rfl

theorem PixelBuffer.setAll_cleared (p : PixelBuffer) (l : List (Nat × Word)) : (p.setAll l).cleared = p.cleared := by
  induction l generalizing p with
  | nil => rfl
  | cons c l ih => obtain ⟨i, w⟩ := c; simp only [PixelBuffer.setAll, ih, PixelBuffer.set_cleared]

theorem PixelBuffer.set_rising (p : PixelBuffer) (i : Nat) (w : Word) (h : cellsRising p.cells = true) :
    cellsRising (p.set i w).cells = true := by
  unfold PixelBuffer.set
  split
  · exact cellsRising_erase _ _ h
  · exact cellsRising_insert _ _ _ h

theorem PixelBuffer.mem_set (p : PixelBuffer) (i : Nat) (w : Word) :
    ∀ c ∈ (p.set i w).cells, c = (i, w) ∨ c ∈ p.cells := by
  unfold PixelBuffer.set
  split
  · exact fun c hc => .inr (mem_cellErase _ _ c hc)
  · exact fun c hc => mem_cellInsert _ _ _ c hc

theorem PixelBuffer.mem_setAll (p : PixelBuffer) (l : List (Nat × Word)) :
    ∀ c ∈ (p.setAll l).cells, c ∈ l ∨ c ∈ p.cells := by
  induction l generalizing p with
  | nil => exact fun c hc => .inr hc
  | cons d l ih =>
    obtain ⟨i, w⟩ := d
    intro c hc
    rcases ih (p.set i w) c hc with h | h
    · exact .inl (List.mem_cons_of_mem _ h)
    · rcases p.mem_set i w c h with h | h
      · exact .inl (h ▸ List.mem_cons_self)
      · exact .inr h

/-- A write of a cleared pixel buffer keeps the canonical form. -/
theorem PixelBuffer.set_wf (p : PixelBuffer) (i : Nat) (w : Word) (hc : p.cleared = true) (h : p.wf = true) :
    (p.set i w).wf = true := by
  simp only [PixelBuffer.wf, hc, if_true, Bool.and_eq_true, List.all_eq_true, PixelBuffer.set_cleared] at h ⊢
  refine ⟨p.set_rising i w h.1, fun c hm => ?_⟩
  unfold PixelBuffer.set at hm
  split at hm
  · exact h.2 c (mem_cellErase _ _ c hm)
  · rename_i hw
    simp only [hc, Bool.true_and, beq_iff_eq] at hw
    rcases mem_cellInsert _ _ _ c hm with e | e
    · rw [e]; simpa using hw
    · exact h.2 c e

/-- Writing a list of pixels keeps the canonical form of a cleared buffer. -/
theorem PixelBuffer.setAll_wf (p : PixelBuffer) (l : List (Nat × Word)) (hc : p.cleared = true) (h : p.wf = true) :
    (p.setAll l).wf = true := by
  induction l generalizing p with
  | nil => exact h
  | cons d l ih =>
    obtain ⟨i, w⟩ := d
    exact ih _ (by rw [PixelBuffer.set_cleared, hc]) (p.set_wf i w hc h)

/-- A read of a pixel after a write. -/
theorem PixelBuffer.get_set (p : PixelBuffer) (i j : Nat) (w : Word) (h : cellsRising p.cells = true) :
    (p.set i w).get j = if j = i then some w else p.get j := by
  unfold PixelBuffer.set
  split
  · rename_i hc
    simp only [Bool.and_eq_true, beq_iff_eq] at hc
    simp only [PixelBuffer.get, cellFind_erase _ _ _ h, hc.1, hc.2]
    by_cases e : j = i <;> simp [e]
  · simp only [PixelBuffer.get, cellFind_insert]
    by_cases e : j = i <;> simp [e]

/-- A read of a pixel that a list of writes does not name. -/
theorem PixelBuffer.get_setAll_of_not_mem (p : PixelBuffer) (l : List (Nat × Word)) (j : Nat)
    (h : cellsRising p.cells = true) (hj : ∀ c ∈ l, c.1 ≠ j) : (p.setAll l).get j = p.get j := by
  induction l generalizing p with
  | nil => rfl
  | cons d l ih =>
    obtain ⟨i, w⟩ := d
    have h1 : i ≠ j := hj (i, w) List.mem_cons_self
    rw [PixelBuffer.setAll, ih _ (p.set_rising i w h) fun c hc => hj c (List.mem_cons_of_mem _ hc),
      p.get_set i j w h, if_neg (by omega)]

/-- A read of a pixel that a list of writes names, each time with the same word. -/
theorem PixelBuffer.get_setAll_of_mem (p : PixelBuffer) (l : List (Nat × Word)) (j : Nat) (w : Word)
    (h : cellsRising p.cells = true) (hm : (j, w) ∈ l) (hu : ∀ c ∈ l, c.1 = j → c.2 = w) :
    (p.setAll l).get j = some w := by
  induction l generalizing p with
  | nil => simp at hm
  | cons d l ih =>
    obtain ⟨i, x⟩ := d
    rw [PixelBuffer.setAll]
    by_cases hl : (j, w) ∈ l
    · exact ih _ (p.set_rising i x h) hl fun c hc => hu c (List.mem_cons_of_mem _ hc)
    · by_cases hn : ∃ c ∈ l, c.1 = j
      · obtain ⟨c, hc, e⟩ := hn
        have e2 := hu c (List.mem_cons_of_mem _ hc) e
        exact absurd (show (j, w) ∈ l by rw [← e, ← e2]; exact hc) hl
      · rw [PixelBuffer.get_setAll_of_not_mem _ _ _ (p.set_rising i x h) (by
            intro c hc e; exact hn ⟨c, hc, e⟩), p.get_set i j x h]
        have : (j, w) = (i, x) := by
          rcases List.mem_cons.1 hm with e | e
          · exact e
          · exact absurd e hl
        cases this
        simp

/-! ## Little-endian reads -/

theorem leRead_lt (f : Nat → Byte) (a n : Nat) : leRead f a n < 2 ^ (8 * n) := by
  induction n generalizing a with
  | zero => simp [leRead]
  | succ n ih =>
    have h1 := ih (a + 1)
    have h2 : (f a).toNat < 256 := (f a).isLt
    have h3 : 2 ^ (8 * (n + 1)) = 256 * 2 ^ (8 * n) := by rw [Nat.mul_succ, Nat.pow_add]; ring
    simp only [leRead]
    omega

/-- Byte `k` of a little-endian read. -/
theorem leRead_byte (f : Nat → Byte) (a n k : Nat) (h : k < n) : leRead f a n / 2 ^ (8 * k) % 256 = (f (a + k)).toNat := by
  induction n generalizing a k with
  | zero => omega
  | succ n ih =>
    have h2 : (f a).toNat < 256 := (f a).isLt
    cases k with
    | zero => simp only [leRead]; simp; omega
    | succ j =>
      have hb := ih (a + 1) j (by omega)
      rw [show a + (j + 1) = a + 1 + j by omega, ← hb]
      simp only [leRead]
      rw [show 2 ^ (8 * (j + 1)) = 256 * 2 ^ (8 * j) by rw [Nat.mul_succ, Nat.pow_add]; ring, ← Nat.div_div_eq_div_mul]
      congr 2
      omega

theorem leRead_congr (f g : Nat → Byte) (a n : Nat) (h : ∀ b, a ≤ b → b < a + n → f b = g b) :
    leRead f a n = leRead g a n := by
  induction n generalizing a with
  | zero => rfl
  | succ n ih =>
    simp only [leRead]
    rw [h a (le_refl a) (by omega), ih (a + 1) fun b h1 h2 => h b (by omega) (by omega)]

/-- A little-endian read of the bytes of a word is the word, cut to the bytes read. -/
theorem leRead_wordByte (w : Nat) (a n : Nat) (f : Nat → Byte) (k : Nat)
    (h : ∀ b < n, f (a + b) = BitVec.ofNat 8 (w / 2 ^ (8 * (k + b)))) :
    leRead f a n = w / 2 ^ (8 * k) % 2 ^ (8 * n) := by
  induction n generalizing a k with
  | zero => simp [leRead, Nat.mod_one]
  | succ n ih =>
    simp only [leRead]
    rw [ih (a + 1) (k + 1) fun b hb => by
      have := h (b + 1) (by omega)
      rw [show a + 1 + b = a + (b + 1) by omega, show k + 1 + b = k + (b + 1) by omega]
      exact this]
    have h0 := h 0 (by omega)
    simp only [Nat.add_zero] at h0
    rw [h0]
    have e1 : w / 2 ^ (8 * (k + 1)) = w / 2 ^ (8 * k) / 256 := by
      rw [Nat.div_div_eq_div_mul, Nat.mul_succ, Nat.pow_add]
    have e2 : 2 ^ (8 * (n + 1)) = 256 * 2 ^ (8 * n) := by rw [Nat.mul_succ, Nat.pow_add]; ring
    rw [e1, e2, Nat.mod_mul, BitVec.toNat_ofNat]

end Sys2Proof.Machine
end

