-- ==== Sys2Proof/Laws/BitReader.lean ====
section
/-!
SUPPORT. The laws of the bit cursor (spec/40_bitreader.md): what a group of bits is worth, what moving the cursor does, and
for each primitive one lemma that says everything it can do.
-/

namespace Sys2Proof.Machine

/-! ## Groups of bits -/

theorem bitsFrom_lt (f : Nat → Bool) (p n : Nat) : bitsFrom f p n < 2 ^ n := by
  induction n with
  | zero => simp [bitsFrom]
  | succ n ih =>
    have : (f (p + n)).toNat ≤ 1 := Bool.toNat_le _
    simp only [bitsFrom, pow_succ]
    omega

/-- Two groups of bits read one after the other are the bits read at once (R149). -/
theorem bitsFrom_add (f : Nat → Bool) (p a b : Nat) :
    bitsFrom f p (a + b) = bitsFrom f p a * 2 ^ b + bitsFrom f (p + a) b := by
  induction b with
  | zero => simp [bitsFrom]
  | succ b ih =>
    rw [← Nat.add_assoc, bitsFrom, ih, bitsFrom, pow_succ, Nat.add_assoc p a b]
    ring

theorem bitsFrom_congr (f g : Nat → Bool) (p n : Nat) (h : ∀ k, p ≤ k → k < p + n → f k = g k) :
    bitsFrom f p n = bitsFrom g p n := by
  induction n with
  | zero => rfl
  | succ n ih =>
    rw [bitsFrom, bitsFrom, ih fun k h1 h2 => h k h1 (by omega), h (p + n) (by omega) (by omega)]

theorem bitsFrom_zero (f : Nat → Bool) (p n : Nat) (h : ∀ k, p ≤ k → k < p + n → f k = false) : bitsFrom f p n = 0 := by
  induction n with
  | zero => rfl
  | succ n ih => rw [bitsFrom, ih fun k h1 h2 => h k h1 (by omega), h (p + n) (by omega) (by omega)]; rfl

theorem bitsFrom_testBit (f : Nat → Bool) (p n j : Nat) (h : j < n) :
    (bitsFrom f p n).testBit (n - 1 - j) = f (p + j) := by
  induction n with
  | zero => omega
  | succ n ih =>
    rw [bitsFrom]
    by_cases e : j = n
    · subst e
      rw [show j + 1 - 1 - j = 0 by omega, Nat.testBit_zero]
      cases f (p + j) <;> simp
    · rw [show n + 1 - 1 - j = (n - 1 - j) + 1 by omega, Nat.testBit_succ]
      rw [show (2 * bitsFrom f p n + (f (p + n)).toNat) / 2 = bitsFrom f p n by
        have : (f (p + n)).toNat ≤ 1 := Bool.toNat_le _
        omega]
      exact ih (by omega)

/-- `bitsFrom` gives the number of R77. -/
theorem bitsAt_bitsFrom (f : Nat → Bool) (p n : Nat) : BitsAt f p n (bitsFrom f p n) :=
  ⟨bitsFrom_lt f p n, bitsFrom_testBit f p n⟩

/-- The number of R77 is unique. -/
theorem BitsAt.unique {f : Nat → Bool} {p n v w : Nat} (hv : BitsAt f p n v) (hw : BitsAt f p n w) : v = w := by
  apply Nat.eq_of_testBit_eq
  intro i
  by_cases h : i < n
  · have h1 := hv.2 (n - 1 - i) (by omega)
    have h2 := hw.2 (n - 1 - i) (by omega)
    rw [show n - 1 - (n - 1 - i) = i by omega] at h1 h2
    rw [h1, h2]
  · rw [Nat.testBit_lt_two_pow (lt_of_lt_of_le hv.1 (Nat.pow_le_pow_right (by norm_num) (by omega))),
      Nat.testBit_lt_two_pow (lt_of_lt_of_le hw.1 (Nat.pow_le_pow_right (by norm_num) (by omega)))]

theorem State.brPeek_eq (s : State) (n : Nat) : s.brPeek n = bitsFrom s.peekBit s.brAt n := by
  unfold State.brPeek
  apply bitsFrom_congr
  intro k _ _
  unfold State.peekBit
  by_cases h : k < s.brExt <;> simp [h]

/-- A peek inside the extent is the bits themselves (R144). -/
theorem State.brPeek_inside (s : State) (n : Nat) (h : s.brAt + n ≤ s.brExt) : s.brPeek n = s.brValue n := by
  unfold State.brPeek State.brValue
  apply bitsFrom_congr
  intro k _ h2
  simp [show k < s.brExt by omega]

/-! ## The parameters -/

theorem Config.valid_facts {c : Config} (h : c.valid = true) :
    c.vinBytes % 4 = 0 ∧ c.vinBytes ≤ 0x100000 ∧ c.ninBytes ≤ 0x100000 ∧ 6336 ≤ c.pixEntries ∧
    c.pixEntries ≤ 0x100000 ∧ 5 ≤ c.gridMaxMbs ∧ 16 ≤ c.coefBits ∧ c.coefBits ≤ 32 ∧ 16 ≤ c.sampleBits ∧
    c.sampleBits ≤ 32 := by
  simp only [Config.valid, Bool.and_eq_true, decide_eq_true_eq, beq_iff_eq] at h
  tauto

theorem CursorOk.ext_le {s : State} (h : CursorOk s) : s.brExt ≤ 0x800000 := by
  have h1 := (Config.valid_facts h.valid).2.1
  have h2 := h.len
  unfold State.brExt
  omega

theorem brExt_mod (s : State) : s.brExt % 32 = 0 := by unfold State.brExt; omega

/-! ## Moving the cursor (R147) -/

/-- Everything `brMoveTo` does, for a cursor the registers have room for. -/
theorem movedTo_brMoveTo (s : State) (p : Nat) (h : p ≤ 0x800000) : MovedTo s p (s.brMoveTo p) := by
  unfold State.brMoveTo
  by_cases hp : p = 0
  · subst hp
    simp only [if_true]
    refine ⟨rfl, rfl, ?_, ?_⟩
    · intro _; exact ⟨rfl, rfl, rfl⟩
    · intro h; exact absurd rfl h
  · simp only [hp, if_false]
    have h0 : p % 2 ^ 32 = p := Nat.mod_eq_of_lt (by omega)
    have h1 : ((p - 1) / 32 + 1) % 2 ^ 22 = (p - 1) / 32 + 1 := Nat.mod_eq_of_lt (by omega)
    have h2 : (p - 32 * ((p - 1) / 32 + 1 - 1)) % 2 ^ 6 = p - 32 * ((p - 1) / 32 + 1 - 1) :=
      Nat.mod_eq_of_lt (by omega)
    refine ⟨rfl, ?_, ?_, ?_⟩
    · simp only [State.brAt, BitVec.toNat_ofNat, h0]
    · intro h
      simp only [State.brAt, BitVec.toNat_ofNat, h0] at h
      exact absurd h hp
    · intro _
      simp only [State.brAt, BitVec.toNat_ofNat, h0, h1, h2]
      refine ⟨trivial, trivial, ?_⟩
      split
      · rfl
      · rw [BitVec.toNat_ofNat]; rfl

/-- The cursor after a move. -/
theorem brAt_brMoveTo (s : State) (p : Nat) (h : p ≤ 0x800000) : (s.brMoveTo p).brAt = p := (movedTo_brMoveTo s p h).2.1

@[simp] theorem brExt_brMoveTo (s : State) (p : Nat) : (s.brMoveTo p).brExt = s.brExt := by
  simp [State.brExt]

/-- `BR_STATE` agrees with `BR_POS` after a move (R30). -/
theorem brStateOk_of_synced {s : State} (h : Synced s) : BrStateOk s := by
  obtain ⟨h0, h1⟩ := h
  by_cases hp : s.brAt = 0
  · obtain ⟨a, b, c⟩ := h0 hp
    refine ⟨fun _ => hp, fun hc => ?_, by omega⟩
    exact absurd (BitVec.eq_of_toNat_eq (by simpa using a)) hc
  · obtain ⟨a, b, c⟩ := h1 hp
    refine ⟨fun hc => ?_, fun _ => by omega, by omega⟩
    rw [hc] at a
    simp at a

/-- Two moves are one. -/
theorem brMoveTo_brMoveTo (s : State) (p q : Nat) : (s.brMoveTo p).brMoveTo q = s.brMoveTo q := by
  unfold State.brMoveTo
  by_cases hq : q = 0
  · subst hq; by_cases hp : p = 0 <;> simp [hp]
  · by_cases hp : p = 0 <;> simp [hp, hq, State.vinChunk, leRead, State.vinByte]

/-! ## The primitives: everything each of them can do -/

/-- `BR_Read`'s move: refused past the extent, else the cursor is `n` bits further (R143). -/
theorem brConsume_cases (s : State) (n : Nat) :
    (s.brExt < s.brAt + n ∧ s.brConsume n = none) ∨
    (s.brAt + n ≤ s.brExt ∧ s.brConsume n = some (s.brMoveTo (s.brAt + n))) := by
  unfold State.brConsume
  by_cases h : s.brAt + n > s.brExt
  · exact .inl ⟨h, by simp [h]⟩
  · exact .inr ⟨by omega, by simp [h]⟩

theorem took_brMoveTo {s : State} (hs : CursorOk s) (n : Nat) (h : s.brAt + n ≤ s.brExt) :
    Took s n (s.brMoveTo (s.brAt + n)) := movedTo_brMoveTo s _ (by have := hs.ext_le; omega)

theorem alignedAt_eq (s : State) : (s.brAt + 7) / 8 * 8 = s.alignedAt := by unfold State.alignedAt; split <;> omega

theorem brAlign_eq (s : State) : s.brAlign = s.brMoveTo s.alignedAt := by
  unfold State.brAlign; rw [alignedAt_eq]

/-- The aligned cursor stays inside the extent (R145). -/
theorem alignedAt_le {s : State} (hs : CursorOk s) : s.alignedAt ≤ s.brExt := by
  have := hs.pos
  have := brExt_mod s
  unfold State.alignedAt
  split <;> omega

/-- `BR_HasRemaining` is the test of R146. -/
theorem brHasRemaining_iff (s : State) : s.brHasRemaining = true ↔ BytesRemain s := by
  unfold State.brHasRemaining BytesRemain
  rw [decide_eq_true_iff, ← alignedAt_eq]
  omega

/-- A moved state satisfies the cursor's invariant where its cursor is inside. -/
theorem cursorOk_brMoveTo {s : State} (hs : CursorOk s) (p : Nat) (h : p ≤ s.brExt) : CursorOk (s.brMoveTo p) where
  valid := by simpa using hs.valid
  len := by simpa using hs.len
  pos := by rw [brAt_brMoveTo _ _ (by have := hs.ext_le; omega), brExt_brMoveTo]; exact h

end Sys2Proof.Machine
end

