-- ==== Sys2Proof/Laws/Video.lean ====
section
/-!
SUPPORT. For each shared operation of the video decoder one lemma that says everything it can do, in the words of
Sys2Proof/Safety.lean; the loops of `V.DECODE` unfolded once.
-/

namespace Sys2Proof.Machine

/-! ## The end of a command -/

/-- The end of a VDU command without an error. -/
theorem videoEnd_none (s : State) : ∃ t, videoEnd s .none = .next t ∧ VduDone s t := ⟨_, rfl, rfl⟩

/-- The end of a VDU command with an error. -/
theorem videoEnd_err (s : State) (e : Err) (h : e ≠ .none) : ∃ t, videoEnd s e = .next t ∧ VduFailed s e t := by
  refine ⟨_, rfl, h, ?_⟩
  cases e <;> first | exact absurd rfl h | rfl

/-- The end of an NDU command without an error. -/
theorem navEnd_none (s : State) : ∃ t, navEnd s .none = .next t ∧ NduDone s t := ⟨_, rfl, rfl⟩

/-- The end of an NDU command with an error. -/
theorem navEnd_err (s : State) (e : Err) (h : e ≠ .none) : ∃ t, navEnd s e = .next t ∧ NduFailed s e t := by
  refine ⟨_, rfl, h, ?_⟩
  cases e <;> first | exact absurd rfl h | rfl

/-! ## Consuming bits -/

/-- Everything `videoTake` does. -/
theorem videoTake_cases (s : State) (n : Nat) (k : State → StepOutcome State) :
    (s.brExt < s.brAt + n ∧ videoTake s n k = videoEnd s .readPastEnd) ∨
    (s.brAt + n ≤ s.brExt ∧ videoTake s n k = k (s.brMoveTo (s.brAt + n))) := by
  unfold videoTake
  rcases brConsume_cases s n with ⟨h, e⟩ | ⟨h, e⟩
  · exact .inl ⟨h, by rw [e]⟩
  · exact .inr ⟨h, by rw [e]⟩

theorem videoTake_inside {s : State} {n : Nat} (h : s.brAt + n ≤ s.brExt) (k : State → StepOutcome State) :
    videoTake s n k = k (s.brMoveTo (s.brAt + n)) := by
  rcases videoTake_cases s n k with ⟨h1, _⟩ | ⟨_, e⟩
  · omega
  · exact e

theorem videoTake_outside {s : State} {n : Nat} (h : s.brExt < s.brAt + n) (k : State → StepOutcome State) :
    videoTake s n k = videoEnd s .readPastEnd := by
  rcases videoTake_cases s n k with ⟨_, e⟩ | ⟨h1, _⟩
  · exact e
  · omega

/-! ## What an update leaves alone -/

theorem keepsBuffers_of_eq {s t : State} (h1 : t.vin = s.vin) (h2 : t.nin = s.nin) : KeepsBuffers s t :=
  ⟨fun a => by simp [State.vinByte, h1], fun a => by simp [State.ninByte, h2], h1, h2⟩

theorem keepsMemory_of_eq {s t : State} (h1 : t.vin = s.vin) (h2 : t.nin = s.nin) (h3 : t.pix = s.pix) :
    KeepsMemory s t := ⟨keepsBuffers_of_eq h1 h2, fun p => by rw [h3]⟩

/-! ## The loops between elements -/

/-- Everything `videoAtHeader` does. -/
theorem videoAtHeader_spec (s : State) : ∃ t, videoAtHeader s = .next t ∧ HeaderBoundary s t := by
  unfold videoAtHeader
  by_cases h : s.brHasRemaining = true
  · rw [if_pos h]
    exact ⟨_, rfl, fun _ => rfl, fun hn => absurd ((brHasRemaining_iff s).1 h) hn⟩
  · rw [if_neg h]
    exact ⟨_, rfl, fun hb => absurd ((brHasRemaining_iff s).2 hb) h, fun _ => rfl⟩

theorem sat8_eq (t : Int) : sat8 t = (min (max t 0) 255).toNat := by unfold sat8; split <;> [skip; split] <;> omega

/-- The pixel word of the machine is that of R325 to R327. -/
theorem rgbWord_eq (cfg : Config) (y cb cr : Int) : rgbWord cfg y cb cr = pixelWord cfg y cb cr := by
  have e1 : y * 256 + cfg.kRV * (cr - 128) = 256 * y + cfg.kRV * (cr - 128) := by ring
  have e2 : y * 256 - cfg.kGU * (cb - 128) - cfg.kGV * (cr - 128)
      = 256 * y - cfg.kGU * (cb - 128) - cfg.kGV * (cr - 128) := by ring
  have e3 : y * 256 + cfg.kBU * (cb - 128) = 256 * y + cfg.kBU * (cb - 128) := by ring
  simp only [rgbWord, pixelWord, sat8_eq, e1, e2, e3]
  congr 1
  ring

/-- A pixel word has 24 bits (R74). -/
theorem rgbWord_lt (cfg : Config) (y cb cr : Int) : (rgbWord cfg y cb cr).toNat < 2 ^ 24 := by
  have h (t : Int) : sat8 t ≤ 255 := by unfold sat8; split <;> [skip; split] <;> omega
  unfold rgbWord
  dsimp only
  rw [BitVec.toNat_ofNat]
  have h1 := h ((y * 256 + cfg.kRV * (cr - 128)) / 256)
  have h2 := h ((y * 256 - cfg.kGU * (cb - 128) - cfg.kGV * (cr - 128)) / 256)
  have h3 := h ((y * 256 + cfg.kBU * (cb - 128)) / 256)
  omega

/-- The pixels a composition writes. -/
theorem mem_slicePixels (s : State) (sl : Nat) (c : Nat × Word) :
    c ∈ s.slicePixels sl ↔ ∃ j y x, j < s.v.mbPerRow.toNat ∧ y < 16 ∧ x < 16 ∧
      c = ((16 * sl + y) * s.v.width.toNat + 16 * j + x, s.composedWord j y x) := by
  simp only [State.slicePixels, State.macroblockPixels, List.mem_flatMap, List.mem_range, List.mem_map]
  constructor
  · rintro ⟨j, hj, y, hy, x, hx, rfl⟩
    exact ⟨j, y, x, hj, hy, hx, by simp [State.slicePixelIndex, State.macroblockPixel, State.composedWord, rgbWord_eq]⟩
  · rintro ⟨j, y, x, hj, hy, hx, rfl⟩
    exact ⟨j, hj, y, hy, x, hx, by simp [State.slicePixelIndex, State.macroblockPixel, State.composedWord, rgbWord_eq]⟩

/-- Two pixels of a slice with one index are one pixel. -/
theorem slicePixel_inj {w m sl j y x j' y' x' : Nat} (hw : 16 * m ≤ w) (hj : j < m) (hx : x < 16) (hj' : j' < m)
    (hx' : x' < 16) (h : (16 * sl + y) * w + 16 * j + x = (16 * sl + y') * w + 16 * j' + x') :
    j = j' ∧ y = y' ∧ x = x' := by
  have h1 : 16 * j + x < w := by omega
  have h2 : 16 * j' + x' < w := by omega
  have hpos : 0 < w := by omega
  have e1 : (16 * sl + y) = (16 * sl + y') := by
    have d1 : ((16 * sl + y) * w + (16 * j + x)) / w = 16 * sl + y := by
      rw [Nat.mul_comm, Nat.mul_add_div hpos, Nat.div_eq_of_lt h1, Nat.add_zero]
    have d2 : ((16 * sl + y') * w + (16 * j' + x')) / w = 16 * sl + y' := by
      rw [Nat.mul_comm, Nat.mul_add_div hpos, Nat.div_eq_of_lt h2, Nat.add_zero]
    rw [← d1, ← d2, ← Nat.add_assoc, ← Nat.add_assoc, h]
  rw [e1] at h
  omega

/-- What a composition does (R320 to R327). -/
theorem composed_composeSlice (s : State) (sl : Nat) (hr : cellsRising s.pix.cells = true)
    (hw : 16 * s.v.mbPerRow.toNat ≤ s.v.width.toNat) : Composed s sl (s.composeSlice sl) := by
  refine ⟨rfl, ?_, ?_⟩
  · intro j y x hj hy hx
    apply PixelBuffer.get_setAll_of_mem _ _ _ _ hr
    · exact (mem_slicePixels s sl _).2 ⟨j, y, x, hj, hy, hx, rfl⟩
    · intro c hc e
      obtain ⟨j', y', x', hj', hy', hx', rfl⟩ := (mem_slicePixels s sl c).1 hc
      obtain ⟨rfl, rfl, rfl⟩ := slicePixel_inj hw hj' hx' hj hx e
      rfl
  · intro p hp
    apply PixelBuffer.get_setAll_of_not_mem _ _ _ hr
    intro c hc e
    obtain ⟨j, y, x, hj, hy, hx, rfl⟩ := (mem_slicePixels s sl c).1 hc
    exact hp j y x hj hy hx e.symm

/-- What a composition needs of a state: the pixel buffer in order, the macroblocks inside the width (R220). -/
structure ComposeOk (s : State) : Prop where
  rising : cellsRising s.pix.cells = true
  width : 16 * s.v.mbPerRow.toNat ≤ s.v.width.toNat

theorem Inv.composeOk {s : State} (h : Inv s) : ComposeOk s where
  rising := by
    have := h.buffers.pixForm
    simp only [PixelBuffer.wf, Bool.and_eq_true] at this
    exact this.1
  width := by have := h.picture.mbPerRow; omega

/-- Everything `videoEndSlice` does. -/
theorem videoEndSlice_spec {s : State} (h : ComposeOk s) : ∃ t, videoEndSlice s = .next t ∧ SliceDone s t := by
  unfold videoEndSlice
  dsimp only
  by_cases hs : s.v.sliceCount.toNat ≤ s.v.sliceIndex.toNat - 1
  · rw [if_pos hs]
    obtain ⟨t, e, ht⟩ := videoEnd_err s .sliceOverflow (by decide)
    exact ⟨t, e, fun hn => by omega, fun _ => ht⟩
  · rw [if_neg hs]
    obtain ⟨t, e, ht⟩ := videoAtHeader_spec (s.composeSlice (s.v.sliceIndex.toNat - 1))
    exact ⟨t, e, fun _ => ⟨_, composed_composeSlice s _ h.rising h.width, ht⟩, fun hn => absurd hn hs⟩

/-- Everything `videoMacroblock` does. -/
theorem videoMacroblock_spec {s : State} (h : ComposeOk s) (j : Nat) :
    ∃ t, videoMacroblock s j = .next t ∧ MacroblockLoop s j t := by
  unfold videoMacroblock
  by_cases hj : j < s.v.mbPerRow.toNat
  · rw [if_pos hj]
    exact ⟨_, rfl, fun _ => rfl, fun hn => by omega⟩
  · rw [if_neg hj]
    obtain ⟨t, e, ht⟩ := videoEndSlice_spec h
    exact ⟨t, e, fun hn => absurd hn hj, fun _ => ht⟩

/-- Everything `videoBlock` does. -/
theorem videoBlock_spec {s : State} (h : ComposeOk s) (k : Nat) : ∃ t, videoBlock s k = .next t ∧ BlockLoop s k t := by
  unfold videoBlock
  by_cases hk : k < 6
  · rw [if_pos hk]
    exact ⟨_, rfl, fun _ => rfl, fun hn => by omega⟩
  · rw [if_neg hk]
    obtain ⟨t, e, ht⟩ := videoMacroblock_spec h (s.v.ctx.mb + 1)
    exact ⟨t, e, fun hn => absurd hn hk, fun _ => ht⟩

/-- The kernel of a form on a vector with nothing but input 0 gives eight equal values (R291). -/
theorem formKernel_dcOnly (f : TransformForm) (pass n : Nat) (v : Nat → Int) (h : ∀ j < 7, v (j + 1) = 0) :
    formKernel f pass n v = List.replicate 8 (formDescale f pass n true (f.dc * v 0)) := by
  refine List.eq_replicate_iff.2 ⟨by simp [formKernel], fun b hb => ?_⟩
  simp only [formKernel, List.mem_map] at hb
  obtain ⟨i, -, rfl⟩ := hb
  simp [List.range, List.range.loop, h 0, h 1, h 2, h 3, h 4, h 5, h 6]

theorem idctStore_dequantize (cfg : Config) (q : Word) (coef : Block) :
    idctStore cfg (dequantize cfg q coef) = blockSamples cfg q coef := by
  have e : effectiveQuant q = if q.toInt = 31 then 2 else q.toInt := by
    unfold effectiveQuant
    have h : q = 31#32 ↔ q.toInt = 31 :=
      ⟨fun h => by rw [h]; rfl, fun h => BitVec.eq_of_toInt_eq (by rw [h]; rfl)⟩
    by_cases hq : q = 31#32
    · rw [if_pos hq, if_pos (h.1 hq)]
    · rw [if_neg hq, if_neg (fun hn => hq (h.2 hn))]
  simp only [idctStore, dequantize, blockSamples, dequantFactor, wrapTo, e]
  rfl

/-- Everything `videoEndBlock` does. -/
theorem videoEndBlock_spec {s : State} (h : ComposeOk s) :
    ∃ t, videoEndBlock s = .next t ∧ BlockStored s s.v.ctx.coef t := by
  unfold videoEndBlock BlockStored
  dsimp only
  rw [idctStore_dequantize]
  generalize s.v.grid.set s.v.ctx.mb _ = g
  exact videoBlock_spec (s := { s with v := { s.v with grid := g } }) ⟨h.rising, h.width⟩ _

/-- Everything `takePair` does (R254, R259). -/
theorem takePair_cases (n : Nat) (s : State) (k : State → StepOutcome State) :
    (32 < s.v.ctx.runLen + n ∧ takePair n s k = videoEnd s .vlcOverflow) ∨
    (s.v.ctx.runLen + n ≤ 32 ∧ s.brExt < s.brAt + (s.v.ctx.runLen + n) ∧
      takePair n s k = videoEnd s .readPastEnd) ∨
    (s.v.ctx.runLen + n ≤ 32 ∧ s.brAt + (s.v.ctx.runLen + n) ≤ s.brExt ∧
      takePair n s k = k (s.brMoveTo (s.brAt + (s.v.ctx.runLen + n)))) := by
  unfold takePair windowOverflow
  dsimp only
  by_cases h : 32 < s.v.ctx.runLen + n
  · exact .inl ⟨h, by rw [if_pos h]⟩
  · rw [if_neg h]
    rcases videoTake_cases s (s.v.ctx.runLen + n) k with ⟨a, b⟩ | ⟨a, b⟩
    · exact .inr (.inl ⟨by omega, a, b⟩)
    · exact .inr (.inr ⟨by omega, a, b⟩)

/-! ## The loop over elements -/

theorem videoLoop_idle (n : Nat) (s : State) (h : s.v.ctx.phase = .idle) : videoLoop n s = .next s := by
  cases n <;> simp [videoLoop, h]

theorem videoLoop_succ (n : Nat) (s t : State) (h : s.v.ctx.phase ≠ .idle) (ht : videoElement s = .next t) :
    videoLoop (n + 1) s = videoLoop n t := by simp [videoLoop, h, ht]

/-- A loop that answers a next state has ended its command. -/
theorem videoLoop_ends (n : Nat) (s t : State) (h : videoLoop n s = .next t) : t.v.ctx.phase = .idle := by
  induction n generalizing s with
  | zero =>
    simp only [videoLoop] at h
    split at h
    · cases h; assumption
    · cases h
  | succ n ih =>
    simp only [videoLoop] at h
    split at h
    · cases h; assumption
    · split at h
      · exact ih _ h
      · rename_i ho
        exact absurd h (ho t)

/-- An invariant of the elements is an invariant of the loop. -/
theorem videoLoop_invariant {P : State → Prop} (hP : ∀ s t, P s → videoElement s = .next t → P t) (n : Nat) (s t : State)
    (hs : P s) (h : videoLoop n s = .next t) : P t := by
  induction n generalizing s with
  | zero =>
    simp only [videoLoop] at h
    split at h
    · cases h; exact hs
    · cases h
  | succ n ih =>
    simp only [videoLoop] at h
    split at h
    · cases h; exact hs
    · split at h
      · rename_i u hu
        exact ih u (hP s u hs hu) h
      · rename_i ho
        exact absurd h (ho t)

end Sys2Proof.Machine
end

