-- ==== Sys2Proof/Laws/Codes.lean ====
section
/-!
SUPPORT. The laws of the variable-length codes: leading zeros, the run and level codes as numbers, and what
`RunLevelDecode` reads from a window that begins with them (R120 to R123, R254 to R259).
-/

namespace Sys2Proof.Machine

/-! ## Leading zeros (R11) -/

/-- A window whose first one bit comes after `z` zeros. -/
theorem clz32_of_range {w z : Nat} (hz : z ≤ 31) (h1 : 2 ^ (31 - z) ≤ w) (h2 : w < 2 ^ (32 - z)) : clz32 w = z := by
  have hw : w ≠ 0 := by have : 0 < 2 ^ (31 - z) := Nat.two_pow_pos _; omega
  have e : Nat.log2 w = 31 - z := by
    apply le_antisymm
    · have := (Nat.log2_lt hw).2 h2; omega
    · exact (Nat.le_log2 hw).2 h1
  unfold clz32
  rw [if_neg hw, e]
  omega

theorem clz32_zero : clz32 0 = 32 := rfl

/-- The bounds that a number of leading zeros gives. -/
theorem clz32_bounds {w : Nat} (h0 : w ≠ 0) (h : w < 2 ^ 32) :
    clz32 w ≤ 31 ∧ 2 ^ (31 - clz32 w) ≤ w ∧ w < 2 ^ (32 - clz32 w) := by
  have hl : Nat.log2 w < 32 := (Nat.log2_lt h0).2 h
  have h1 : 2 ^ Nat.log2 w ≤ w := (Nat.le_log2 h0).1 (le_refl _)
  have h2 : w < 2 ^ (Nat.log2 w + 1) := (Nat.log2_lt h0).1 (Nat.lt_succ_self _)
  unfold clz32
  rw [if_neg h0]
  rw [show 31 - (31 - Nat.log2 w) = Nat.log2 w by omega, show 32 - (31 - Nat.log2 w) = Nat.log2 w + 1 by omega]
  exact ⟨by omega, h1, h2⟩

/-- A window below `2 ^ (32 - z)` has at least `z` leading zeros. -/
theorem le_clz32 {w z : Nat} (hz : z ≤ 32) (h : w < 2 ^ (32 - z)) : z ≤ clz32 w := by
  by_cases h0 : w = 0
  · rw [h0, clz32_zero]; exact hz
  · have hl : Nat.log2 w < 32 - z := (Nat.log2_lt h0).2 h
    unfold clz32
    rw [if_neg h0]
    omega

/-! ## The codes as the machine and the spec write them -/

theorem runValue_eq (z t : Nat) : runValue z t = specRun z t := by rcases z with _ | _ | z <;> simp [runValue, specRun]

theorem runLength_eq (z : Nat) : runLength z = specRunBits z := by
  rcases z with _ | _ | z <;> simp [runLength, specRunBits]

theorem levelValue_eq (z m : Nat) (s : Bool) : levelValue z m s = specLevel z m s := by
  rcases z with _ | z <;> simp [levelValue, specLevel]

theorem levelLength_eq (z : Nat) : levelLength z = specLevelBits z := by
  rcases z with _ | z <;> simp [levelLength, specLevelBits]

/-- What a run code's operands are, and its code (R120). -/
theorem runOperands_cases {i : Instr} {z e : Nat} (h : runOperands i = some (z, e)) :
    z ≤ 15 ∧ (2 ≤ z → e < 2 ^ (z - 1)) ∧ (z ≤ 1 → e = 0) ∧ (encode i).len = specRunBits z ∧
      (encode i).val = (if z ≤ 1 then 1 else 2 ^ (z - 1) + e) ∧ (∀ s, exec i s = inspectRun z e s) := by
  cases i <;> simp only [runOperands, Option.some.injEq, Prod.mk.injEq, reduceCtorEq] at h <;>
    obtain ⟨rfl, rfl⟩ := h <;>
    refine ⟨by omega, fun h => ?_, fun h => ?_, rfl, rfl, fun s => rfl⟩ <;>
    omega

/-- What a level code's operands are, and its code (R121). -/
theorem levelOperands_cases {i : Instr} {z m : Nat} {s : Bool} (h : levelOperands i = some (z, m, s)) :
    z ≤ 15 ∧ z ≠ 1 ∧ (2 ≤ z → m < 2 ^ (z - 1)) ∧ (z = 0 → m = 0) ∧ (encode i).len = specLevelBits z ∧
      (encode i).val = (if z = 0 then 2 + s.toNat else (2 ^ (z - 1) + m) * 2 + s.toNat) ∧
      (∀ t, exec i t = storeLevel z m s t) := by
  cases i <;> simp only [levelOperands, Option.some.injEq, Prod.mk.injEq, reduceCtorEq] at h <;>
    obtain ⟨rfl, rfl, rfl⟩ := h <;>
    refine ⟨by omega, by omega, fun h => ?_, fun h => ?_, rfl, rfl, fun s => rfl⟩ <;>
    omega

/-- A code of `len` bits that begins with `z` zeros and a one, at the head of a 32-bit window, has `z` leading zeros. -/
theorem clz32_code {len val rest z : Nat} (hl : z < len) (hlen : len ≤ 32) (h1 : 2 ^ (len - 1 - z) ≤ val)
    (h2 : val < 2 ^ (len - z)) (hr : rest < 2 ^ (32 - len)) : clz32 (val * 2 ^ (32 - len) + rest) = z := by
  apply clz32_of_range (by omega)
  · calc 2 ^ (31 - z) = 2 ^ (len - 1 - z) * 2 ^ (32 - len) := by rw [← Nat.pow_add]; congr 1; omega
      _ ≤ val * 2 ^ (32 - len) := Nat.mul_le_mul_right _ h1
      _ ≤ _ := Nat.le_add_right _ _
  · calc val * 2 ^ (32 - len) + rest < (val + 1) * 2 ^ (32 - len) := by rw [Nat.add_mul, Nat.one_mul]; omega
      _ ≤ 2 ^ (len - z) * 2 ^ (32 - len) := Nat.mul_le_mul_right _ h2
      _ = 2 ^ (32 - z) := by rw [← Nat.pow_add]; congr 1; omega

/-- The head and the tail of a window. -/
theorem window_div {len val rest : Nat} (hr : rest < 2 ^ (32 - len)) :
    (val * 2 ^ (32 - len) + rest) / 2 ^ (32 - len) = val := by
  rw [Nat.add_comm, Nat.add_mul_div_right _ _ (Nat.two_pow_pos _), Nat.div_eq_of_lt hr, Nat.zero_add]

/-- What is left of a window after its first `len` bits, left-justified. -/
theorem window_shift {len val rest : Nat} (hlen : len ≤ 32) (hr : rest < 2 ^ (32 - len)) :
    (val * 2 ^ (32 - len) + rest) * 2 ^ len % 2 ^ 32 = rest * 2 ^ len := by
  have e : (val * 2 ^ (32 - len) + rest) * 2 ^ len = rest * 2 ^ len + 2 ^ 32 * val := by
    have : 2 ^ (32 - len) * 2 ^ len = 2 ^ 32 := by rw [← Nat.pow_add]; congr 1; omega
    rw [Nat.add_mul, Nat.mul_assoc, this]; ring
  rw [e, Nat.add_mul_mod_self_left, Nat.mod_eq_of_lt]
  calc rest * 2 ^ len < 2 ^ (32 - len) * 2 ^ len := Nat.mul_lt_mul_of_pos_right hr (Nat.two_pow_pos _)
    _ = 2 ^ 32 := by rw [← Nat.pow_add]; congr 1; omega

/-! ## `RunLevelDecode` in two halves (R254) -/

/-- The run half: the prefix, its length and the run; `none` where the run code does not fit. -/
def runHalf (w : Nat) : Option (Nat × Nat) :=
  let z := clz32 w
  let len := if z > 1 then z + 1 + (z - 1) else z + 1
  if z = 32 ∨ len > 32 then none
  else some (len, if z > 1 then w / 2 ^ (32 - len) % 2 ^ (z - 1) + 2 ^ (z - 1) else z)

/-- The level half, on what the run code of `len` bits left of the window. -/
def levelHalf (w len run : Nat) : Option RunLevel :=
  let z2 := clz32 (w * 2 ^ len % 2 ^ 32)
  let len2 := len + z2 + 1
  if len2 > 32 then none
  else if z2 = 1 then some ⟨0, 0, true, len2⟩
  else
    let m := if z2 = 0 then 1 else z2
    if len2 + m > 32 then none
    else
      let b := w / 2 ^ (32 - len2 - m) % 2 ^ m
      let mag : Int := ((b / 2 + 2 ^ (m - 1) : Nat) : Int)
      some ⟨run, if b % 2 = 1 then -mag else mag, false, len2 + m⟩

theorem runLevelOf_eq (w : Nat) :
    runLevelOf w = match runHalf w with
      | none => none
      | some (len, run) => levelHalf w len run := by
  unfold runLevelOf runHalf levelHalf
  dsimp only
  by_cases h : clz32 w = 32 ∨ (if clz32 w > 1 then clz32 w + 1 + (clz32 w - 1) else clz32 w + 1) > 32
  · rw [if_pos h, if_pos h]
  · rw [if_neg h, if_neg h]

/-- A window that begins with a run code. -/
theorem runHalf_code {i : Instr} {z e rest : Nat} (h : runOperands i = some (z, e))
    (hr : rest < 2 ^ (32 - specRunBits z)) :
    runHalf ((encode i).val * 2 ^ (32 - specRunBits z) + rest) = some (specRunBits z, specRun z e) := by
  obtain ⟨hz, he, he0, hlen, hval, -⟩ := runOperands_cases h
  rw [hval]
  have hc : clz32 ((if z ≤ 1 then 1 else 2 ^ (z - 1) + e) * 2 ^ (32 - specRunBits z) + rest) = z := by
    rcases z with _ | _ | z
    · exact clz32_code (len := 1) (by omega) (by omega) (by simp) (by simp) hr
    · exact clz32_code (len := 2) (by omega) (by omega) (by simp) (by simp) hr
    · rw [if_neg (by omega)]
      have he' := he (by omega)
      apply clz32_code (len := 2 * (z + 2)) (by omega) (by omega) _ _ hr
      · rw [show 2 * (z + 2) - 1 - (z + 1 + 1) = z + 1 + 1 - 1 by omega]; exact Nat.le_add_right _ _
      · rw [show 2 * (z + 2) - (z + 1 + 1) = (z + 1 + 1 - 1) + 1 by omega, pow_succ]; omega
  unfold runHalf
  dsimp only
  rw [hc]
  rcases z with _ | _ | z
  · simp [specRunBits, specRun]
  · simp [specRunBits, specRun]
  · have he' := he (by omega)
    rw [if_pos (by omega : z + 1 + 1 > 1), if_neg (by omega)]
    have hb : z + 1 + 1 + 1 + (z + 1 + 1 - 1) = specRunBits (z + 1 + 1) := by simp [specRunBits]; omega
    rw [hb, if_pos (by omega : z + 1 + 1 > 1), if_neg (by omega : ¬ z + 1 + 1 ≤ 1), window_div hr]
    rw [Nat.add_mod_left, Nat.mod_eq_of_lt he']
    have hs : specRun (z + 1 + 1) e = 2 ^ (z + 1) + e := rfl
    rw [hs, Nat.add_comm (2 ^ (z + 1)) e]
    rfl

/-- A window whose run code is followed by a level code. -/
theorem levelHalf_code {j : Instr} {z2 m len val rest : Nat} {neg : Bool} (run : Nat)
    (h : levelOperands j = some (z2, m, neg)) (hlen : len + specLevelBits z2 ≤ 32)
    (hr : rest < 2 ^ (32 - (len + specLevelBits z2))) :
    levelHalf ((val * 2 ^ specLevelBits z2 + (encode j).val) * 2 ^ (32 - (len + specLevelBits z2)) + rest) len run =
      some ⟨run, specLevel z2 m neg, false, len + specLevelBits z2⟩ := by
  obtain ⟨hz, hz1, hm, hm0, -, hval, -⟩ := levelOperands_cases h
  have hs : neg.toNat ≤ 1 := Bool.toNat_le _
  set lb := specLevelBits z2 with hlb
  have hjlt : (encode j).val < 2 ^ lb := by
    rw [hval]
    rcases z2 with _ | z2
    · simp [hlb, specLevelBits]; omega
    · rw [if_neg (by omega)]
      have := hm (by omega)
      have e : 2 ^ lb = 2 ^ (z2 + 1) * 2 ^ (z2 + 1 - 1) * 4 := by
        rw [hlb]; simp only [specLevelBits]
        rw [← Nat.pow_add, show (4 : Nat) = 2 ^ 2 by norm_num, ← Nat.pow_add]; congr 1; omega
      have e1 : 2 ^ (z2 + 1 - 1) ≤ 2 ^ (z2 + 1) * 2 ^ (z2 + 1 - 1) := Nat.le_mul_of_pos_left _ (Nat.two_pow_pos _)
      omega
  have hrest : (encode j).val * 2 ^ (32 - (len + lb)) + rest < 2 ^ (32 - len) := by
    calc (encode j).val * 2 ^ (32 - (len + lb)) + rest
        < ((encode j).val + 1) * 2 ^ (32 - (len + lb)) := by rw [Nat.add_mul, Nat.one_mul]; omega
      _ ≤ 2 ^ lb * 2 ^ (32 - (len + lb)) := Nat.mul_le_mul_right _ hjlt
      _ = 2 ^ (32 - len) := by rw [← Nat.pow_add]; congr 1; omega
  have hw : (val * 2 ^ lb + (encode j).val) * 2 ^ (32 - (len + lb)) + rest
      = val * 2 ^ (32 - len) + ((encode j).val * 2 ^ (32 - (len + lb)) + rest) := by
    have : 2 ^ (32 - len) = 2 ^ lb * 2 ^ (32 - (len + lb)) := by rw [← Nat.pow_add]; congr 1; omega
    rw [this]; ring
  have hshift : ((val * 2 ^ lb + (encode j).val) * 2 ^ (32 - (len + lb)) + rest) * 2 ^ len % 2 ^ 32
      = (encode j).val * 2 ^ (32 - lb) + rest * 2 ^ len := by
    rw [hw, window_shift (by omega) hrest, Nat.add_mul, Nat.mul_assoc, ← Nat.pow_add]
    congr 3; omega
  have hrl : rest * 2 ^ len < 2 ^ (32 - lb) := by
    calc rest * 2 ^ len < 2 ^ (32 - (len + lb)) * 2 ^ len := Nat.mul_lt_mul_of_pos_right hr (Nat.two_pow_pos _)
      _ = 2 ^ (32 - lb) := by rw [← Nat.pow_add]; congr 1; omega
  have hc : clz32 ((encode j).val * 2 ^ (32 - lb) + rest * 2 ^ len) = z2 := by
    rw [hval]
    rcases z2 with _ | z2
    · rw [if_pos rfl]
      exact clz32_code (len := lb) (by simp [hlb, specLevelBits]) (by omega) (by simp [hlb, specLevelBits])
        (by simp only [hlb, specLevelBits]; omega) hrl
    · rw [if_neg (by omega)]
      have hm' := hm (by omega)
      have hlb' : lb = 2 * (z2 + 1) + 1 := rfl
      apply clz32_code (len := lb) (by omega) (by omega) _ _ hrl
      · rw [show lb - 1 - (z2 + 1) = (z2 + 1 - 1) + 1 by omega, pow_succ]; omega
      · rw [show lb - (z2 + 1) = (z2 + 1 - 1) + 1 + 1 by omega, pow_succ, pow_succ]; omega
  unfold levelHalf
  dsimp only
  rw [hshift, hc]
  rcases z2 with _ | z2
  · have hlb' : lb = 2 := rfl
    rw [if_neg (by omega), if_neg (by omega), if_pos rfl, if_neg (by omega)]
    have hd : ((val * 2 ^ lb + (encode j).val) * 2 ^ (32 - (len + lb)) + rest) / 2 ^ (32 - (len + 0 + 1) - 1)
        = val * 2 ^ lb + (encode j).val := by
      rw [show 32 - (len + 0 + 1) - 1 = 32 - (len + lb) by omega]; exact window_div hr
    rw [hd, hval, if_pos rfl, hlb']
    rw [show (val * 2 ^ 2 + (2 + neg.toNat)) % 2 ^ 1 = neg.toNat by omega]
    cases neg <;> simp [specLevel]
  · have hlb' : lb = 2 * (z2 + 1) + 1 := rfl
    have hm' := hm (by omega)
    rw [if_neg (by omega), if_neg (by omega), if_neg (by omega : ¬ z2 + 1 = 0), if_neg (by omega)]
    have hd : ((val * 2 ^ lb + (encode j).val) * 2 ^ (32 - (len + lb)) + rest) /
        2 ^ (32 - (len + (z2 + 1) + 1) - (z2 + 1)) = val * 2 ^ lb + (encode j).val := by
      rw [show 32 - (len + (z2 + 1) + 1) - (z2 + 1) = 32 - (len + lb) by omega]; exact window_div hr
    rw [hd, hval, if_neg (by omega : ¬ z2 + 1 = 0)]
    have hb : (val * 2 ^ lb + ((2 ^ (z2 + 1 - 1) + m) * 2 + neg.toNat)) % 2 ^ (z2 + 1) = 2 * m + neg.toNat := by
      have e : val * 2 ^ lb + ((2 ^ (z2 + 1 - 1) + m) * 2 + neg.toNat)
          = (2 * m + neg.toNat) + 2 ^ (z2 + 1) * (val * 2 ^ (z2 + 2) + 1) := by
        have e1 : 2 ^ lb = 2 ^ (z2 + 1) * 2 ^ (z2 + 2) := by rw [← Nat.pow_add]; congr 1; omega
        have e2 : 2 ^ (z2 + 1) = 2 * 2 ^ (z2 + 1 - 1) := by rw [Nat.add_sub_cancel, pow_succ]; ring
        rw [e1, Nat.mul_add, Nat.mul_one]
        nth_rewrite 3 [e2]
        ring
      rw [e, Nat.add_mul_mod_self_left, Nat.mod_eq_of_lt]
      rw [pow_succ]
      have : m < 2 ^ z2 := by simpa using hm'
      omega
    rw [hb]
    have hb1 : (2 * m + neg.toNat) / 2 = m := by omega
    have hb2 : (2 * m + neg.toNat) % 2 = neg.toNat := by omega
    rw [hb1, hb2]
    have hl : len + (z2 + 1) + 1 + (z2 + 1) = len + lb := by omega
    rw [hl]
    cases neg <;> simp [specLevel, Nat.add_comm]

/-- A window whose run code is followed by the end-of-block code (R257). -/
theorem levelHalf_eob {len val rest : Nat} (run : Nat) (hlen : len + 2 ≤ 32) (hr : rest < 2 ^ (32 - (len + 2))) :
    levelHalf ((val * 4 + 1) * 2 ^ (32 - (len + 2)) + rest) len run = some ⟨0, 0, true, len + 2⟩ := by
  have e2 : 2 ^ (32 - len) = 4 * 2 ^ (32 - (len + 2)) := by
    rw [show (4 : Nat) = 2 ^ 2 by norm_num, ← Nat.pow_add]; congr 1; omega
  have hw : (val * 4 + 1) * 2 ^ (32 - (len + 2)) + rest = val * 2 ^ (32 - len) + (2 ^ (32 - (len + 2)) + rest) := by
    rw [e2]; ring
  have hrest : 2 ^ (32 - (len + 2)) + rest < 2 ^ (32 - len) := by omega
  have hc : clz32 ((2 ^ (32 - (len + 2)) + rest) * 2 ^ len) = 1 := by
    apply clz32_of_range (by omega)
    · calc 2 ^ (31 - 1) = 2 ^ (32 - (len + 2)) * 2 ^ len := by rw [← Nat.pow_add]; congr 1; omega
        _ ≤ _ := Nat.mul_le_mul_right _ (Nat.le_add_right _ _)
    · calc (2 ^ (32 - (len + 2)) + rest) * 2 ^ len < (2 * 2 ^ (32 - (len + 2))) * 2 ^ len :=
            Nat.mul_lt_mul_of_pos_right (by omega) (Nat.two_pow_pos _)
        _ = 2 ^ (32 - 1) := by rw [← pow_succ', ← Nat.pow_add]; congr 1; omega
  unfold levelHalf
  dsimp only
  rw [hw, window_shift (by omega) hrest, hc, if_neg (by omega), if_pos rfl]

/-- A window whose run code leaves no room for the level code after it (R259). -/
theorem levelHalf_overflow {len val rest z2 : Nat} (run : Nat) (hlen : len ≤ 32) (h2 : 2 ≤ z2) (hz : z2 ≤ 32 - len)
    (hl : 32 < len + specLevelBits z2) (hr : rest < 2 ^ (32 - len - z2)) :
    levelHalf (val * 2 ^ (32 - len) + rest) len run = none := by
  have hrest : rest < 2 ^ (32 - len) := lt_of_lt_of_le hr (Nat.pow_le_pow_right (by norm_num) (by omega))
  have hc : z2 ≤ clz32 (rest * 2 ^ len) := by
    apply le_clz32 (by omega)
    calc rest * 2 ^ len < 2 ^ (32 - len - z2) * 2 ^ len := Nat.mul_lt_mul_of_pos_right hr (Nat.two_pow_pos _)
      _ = 2 ^ (32 - z2) := by rw [← Nat.pow_add]; congr 1; omega
  have hb : specLevelBits z2 = 2 * z2 + 1 := by
    obtain ⟨k, rfl⟩ : ∃ k, z2 = k + 1 := ⟨z2 - 1, by omega⟩
    rfl
  unfold levelHalf
  dsimp only
  rw [window_shift hlen hrest]
  split
  · rfl
  · have hne : ¬ clz32 (rest * 2 ^ len) = 0 := by omega
    rw [if_neg (by omega), if_neg hne, if_pos (by omega)]

/-- A window that begins with 16 or more zeros has no run and level code (R123, R124). -/
theorem runLevelOf_small {w : Nat} (h : w < 2 ^ 16) : runLevelOf w = none := by
  have hc : 16 ≤ clz32 w := le_clz32 (by omega) (by simpa using h)
  rw [runLevelOf_eq]
  unfold runHalf
  dsimp only
  by_cases h32 : clz32 w = 32 ∨ (if clz32 w > 1 then clz32 w + 1 + (clz32 w - 1) else clz32 w + 1) > 32
  · rw [if_pos h32]
  · rw [if_neg h32]
    dsimp only
    rw [if_pos (by omega)] at h32 ⊢
    unfold levelHalf
    dsimp only
    rw [if_pos (by omega)]

end Sys2Proof.Machine
end

