-- ==== Sys2Proof/Laws/Frames.lean ====
section
/-!
SUPPORT. What the words of Sys2Proof/Safety.lean leave alone: memory across the end of a command, the bit cursor and the
loops of the decoders, so that a frame is a chain of these.
-/

namespace Sys2Proof.Machine

theorem KeepsBuffers.trans {s t u : State} (h : KeepsBuffers s t) (g : KeepsBuffers t u) : KeepsBuffers s u :=
  ⟨fun a => (g.1 a).trans (h.1 a), fun a => (g.2.1 a).trans (h.2.1 a), g.2.2.1.trans h.2.2.1,
    g.2.2.2.trans h.2.2.2⟩

theorem KeepsMemory.trans {s t u : State} (h : KeepsMemory s t) (g : KeepsMemory t u) : KeepsMemory s u :=
  ⟨h.1.trans g.1, fun p => (g.2 p).trans (h.2 p)⟩

/-- Moving the cursor keeps memory. -/
theorem keepsMemory_brMoveTo (s : State) (p : Nat) : KeepsMemory s (s.brMoveTo p) :=
  keepsMemory_of_eq (by simp) (by simp) (by simp)

theorem MovedTo.keepsMemory {s u : State} {p : Nat} (h : MovedTo s p u) : KeepsMemory s u := by
  rw [h.1]; exact keepsMemory_of_eq rfl rfl rfl

theorem VduEnded.keepsMemory {u t : State} {e : Err} {b : BitVec 5} (h : VduEnded u e b t) : KeepsMemory u t := by
  rw [h]; exact keepsMemory_of_eq rfl rfl rfl

theorem NduEnded.keepsMemory {u t : State} {e : Err} {b : BitVec 5} (h : NduEnded u e b t) : KeepsMemory u t := by
  rw [h]; exact keepsMemory_of_eq rfl rfl rfl

theorem HeaderBoundary.keepsMemory {u t : State} (h : HeaderBoundary u t) : KeepsMemory u t := by
  by_cases hb : BytesRemain u
  · rw [h.1 hb]; exact keepsMemory_of_eq rfl rfl rfl
  · exact VduEnded.keepsMemory (h.2 hb)

theorem SliceDone.keepsBuffers {u t : State} (h : SliceDone u t) : KeepsBuffers u t := by
  by_cases hb : u.v.sliceIndex.toNat - 1 < u.v.sliceCount.toNat
  · obtain ⟨c, hc, hh⟩ := h.1 hb
    refine KeepsBuffers.trans ?_ hh.keepsMemory.1
    rw [hc.1]; exact keepsBuffers_of_eq rfl rfl
  · exact (h.2 (by omega)).2.keepsMemory.1

theorem MacroblockLoop.keepsBuffers {u t : State} {j : Nat} (h : MacroblockLoop u j t) : KeepsBuffers u t := by
  by_cases hb : j < u.v.mbPerRow.toNat
  · rw [h.1 hb]; exact keepsBuffers_of_eq rfl rfl
  · exact (h.2 (by omega)).keepsBuffers

theorem BlockLoop.keepsBuffers {u t : State} {k : Nat} (h : BlockLoop u k t) : KeepsBuffers u t := by
  by_cases hb : k < 6
  · rw [h.1 hb]; exact keepsBuffers_of_eq rfl rfl
  · exact (h.2 (by omega)).keepsBuffers

theorem BlockStored.keepsBuffers {u t : State} {c : Block} (h : BlockStored u c t) : KeepsBuffers u t := by
  unfold BlockStored at h
  dsimp only at h
  exact KeepsBuffers.trans (keepsBuffers_of_eq rfl rfl) h.keepsBuffers

theorem HeaderBoundary.grid {u t : State} (h : HeaderBoundary u t) : t.v.grid = u.v.grid := by
  by_cases hb : BytesRemain u
  · rw [h.1 hb]; rfl
  · rw [h.2 hb]

theorem MacroblockLoop.grid {u t : State} {j : Nat} (h : MacroblockLoop u j t) : t.v.grid = u.v.grid := by
  by_cases hb : j < u.v.mbPerRow.toNat
  · rw [h.1 hb]
  · have h2 := h.2 (by omega)
    by_cases hb : u.v.sliceIndex.toNat - 1 < u.v.sliceCount.toNat
    · obtain ⟨c, hc, hh⟩ := h2.1 hb
      rw [hh.grid, hc.1]
    · rw [(h2.2 (by omega)).2]

theorem ComposeOk.brMoveTo {s : State} (h : ComposeOk s) (p : Nat) : ComposeOk (s.brMoveTo p) :=
  ⟨by simpa using h.1, by simpa using h.2⟩

/-- With no macroblock in a row the macroblocks of a slice are done at once, and no pixel is written. -/
theorem videoMacroblock_start (v : State) : ∃ t, videoMacroblock v 0 = .next t ∧ MacroblockLoop v 0 t ∧ KeepsMemory v t := by
  unfold videoMacroblock
  by_cases hj : 0 < v.v.mbPerRow.toNat
  · rw [if_pos hj]
    exact ⟨_, rfl, ⟨fun _ => rfl, fun hn => by omega⟩, keepsMemory_of_eq rfl rfl rfl⟩
  · rw [if_neg hj]
    have hp : ∀ sl, v.slicePixels sl = [] := by
      intro sl; simp [State.slicePixels, show v.v.mbPerRow.toNat = 0 by omega]
    unfold videoEndSlice
    dsimp only
    by_cases hs : v.v.sliceCount.toNat ≤ v.v.sliceIndex.toNat - 1
    · rw [if_pos hs]
      obtain ⟨t, e, ht⟩ := videoEnd_err v .sliceOverflow (by decide)
      exact ⟨t, e, ⟨fun hn => absurd hn hj, fun _ => ⟨fun hn => by omega, fun _ => ht⟩⟩, ht.2.keepsMemory⟩
    · rw [if_neg hs]
      have hc : v.composeSlice (v.v.sliceIndex.toNat - 1) = v := by
        unfold State.composeSlice; rw [hp]; rfl
      rw [hc]
      obtain ⟨t, e, ht⟩ := videoAtHeader_spec v
      refine ⟨t, e, ⟨fun hn => absurd hn hj, fun _ => ⟨fun hn => ⟨v, ⟨rfl, ?_, fun _ _ => rfl⟩, ht⟩,
        fun hn => absurd hn hs⟩⟩, ht.keepsMemory⟩
      intro j y x h0; omega

end Sys2Proof.Machine
end

