-- ==== Sys2Proof/Laws/Nav.lean ====
section
/-!
SUPPORT. The operations of the NavData unit in the words of Sys2Proof/Safety.lean, and the loop of `N.DECODE` as the walk
of R171.
-/

namespace Sys2Proof.Machine

/-- Everything `navFinish` does. -/
theorem navFinish_spec (s : State) (pos : Nat) (trunc : Bool) :
    ∃ t, navFinish s pos trunc = .next t ∧ NavStopped s pos trunc t := by
  refine ⟨_, rfl, ?_⟩
  have e : (s.n.cksRx == s.n.cksCalc) = decide (s.n.cksRx = s.n.cksCalc) := by
    by_cases h : s.n.cksRx = s.n.cksCalc <;> simp [h]
  rw [e]
  rfl

/-- Everything `navAt` does. -/
theorem navAt_spec (s : State) (pos : Nat) : ∃ t, navAt s pos = .next t ∧ NavLoop s pos t := by
  unfold navAt
  by_cases h : s.n.len.toNat < pos + 4
  · rw [if_pos h]
    have e : (pos != s.n.len.toNat) = decide (pos ≠ s.n.len.toNat) := by
      by_cases hp : pos = s.n.len.toNat <;> simp [hp]
    rw [e]
    obtain ⟨t, e, ht⟩ := navFinish_spec s pos (decide (pos ≠ s.n.len.toNat))
    exact ⟨t, e, fun hn => by omega, fun _ => ht⟩
  · rw [if_neg h]
    exact ⟨_, rfl, fun _ => rfl, fun hn => absurd hn h⟩

/-- Results are cleared (R172). -/
theorem clearResults_eq (s : State) : s.clearResults = { s with n := cleared s.n } := rfl

theorem byteSum_eq (f : Nat → Byte) (n : Nat) : byteSum f n = ((List.range n).map fun k => (f k).toNat).sum := by
  induction n with
  | zero => rfl
  | succ n ih => simp [byteSum, ih, List.range_succ]

/-- The checksum of R175. -/
theorem navChecksum_eq (s : State) (len : Nat) :
    s.navChecksum len = BitVec.ofNat 32 (((List.range (len - 8)).map fun k => (s.ninByte k).toNat).sum) := by
  rw [State.navChecksum, byteSum_eq]

theorem NavStopped.keepsMemory {u t : State} {pos : Nat} {tr : Bool} (h : NavStopped u pos tr t) : KeepsMemory u t := by
  unfold NavStopped NduDone at h
  exact KeepsMemory.trans (keepsMemory_of_eq rfl rfl rfl) h.keepsMemory

theorem NavLoop.keepsMemory {u t : State} {pos : Nat} (h : NavLoop u pos t) : KeepsMemory u t := by
  by_cases hp : pos + 4 ≤ u.n.len.toNat
  · rw [h.1 hp]; exact keepsMemory_of_eq rfl rfl rfl
  · exact (h.2 (by omega)).keepsMemory

/-- The end of the walk overwrites the place it was at. -/
theorem NavStopped.of_ctx {u t : State} {n : Ndu} {pos : Nat} {tr : Bool} (c : NavCtx)
    (h : NavStopped { u with n := { n with ctx := c } } pos tr t) : NavStopped { u with n := n } pos tr t := h

theorem demoRecord_spec (s : State) :
    ∃ t, demoRecord s = .next t ∧
      NavLoop { s with n := withDemo s.ninWord s.n.ctx.pos s.n } (s.n.ctx.pos + s.n.ctx.size.toNat) t :=
  navAt_spec { s with n := withDemo s.ninWord s.n.ctx.pos s.n } _

theorem visionAt_eq (s : State) (pos t : Nat) : s.visionAt pos t = specSlot s.ninWord pos t := by
  simp [State.visionAt, specSlot]

theorem visionRecord_spec (s : State) :
    ∃ t, visionRecord s = .next t ∧
      NavLoop { s with n := withVision s.ninWord s.n.ctx.pos s.n } (s.n.ctx.pos + s.n.ctx.size.toNat) t := by
  unfold visionRecord
  simp only [visionAt_eq]
  exact navAt_spec { s with n := withVision s.ninWord s.n.ctx.pos s.n } _

theorem checksumRecord_spec (s : State) :
    ∃ t, checksumRecord s = .next t ∧
      NavLoop { s with n := withChecksum s.ninWord s.n.ctx.pos s.n } (s.n.ctx.pos + s.n.ctx.size.toNat) t :=
  navAt_spec { s with n := withChecksum s.ninWord s.n.ctx.pos s.n } _

/-- The dispatch of a record does what R178 to R182 say and goes on after the record. -/
theorem record_spec (s : State) (hp : s.n.ctx.phase = .record) :
    ∃ t, navForm s = .next t ∧
      NavLoop { s with n := specDispatch s.ninWord s.n.ctx.tag.toNat s.n.ctx.size.toNat s.n.ctx.pos s.n }
        (s.n.ctx.pos + s.n.ctx.size.toNat) t := by
  have hw : navWindow s = some (.navRecord s.n.ctx.size, s.n.ctx.tag.toNat) := by unfold navWindow; rw [hp]
  have ht : bitField s.n.ctx.tag.toNat 0 16 = s.n.ctx.tag.toNat := by
    unfold bitField; have := s.n.ctx.tag.isLt; omega
  unfold navForm
  rw [hw]
  dsimp only [decode, decodeNavRecord]
  rw [ht]
  unfold specDispatch
  by_cases h1 : s.n.ctx.tag.toNat = 0x0000 ∧ 40 ≤ s.n.ctx.size.toNat
  · rw [if_pos h1, if_pos h1]; exact demoRecord_spec s
  rw [if_neg h1, if_neg h1]
  by_cases h2 : s.n.ctx.tag.toNat = 0x0010 ∧ 120 ≤ s.n.ctx.size.toNat
  · rw [if_pos h2, if_pos h2]; exact visionRecord_spec s
  rw [if_neg h2, if_neg h2]
  by_cases h3 : s.n.ctx.tag.toNat = 0xFFFF ∧ 8 ≤ s.n.ctx.size.toNat
  · rw [if_pos h3, if_pos h3]; exact checksumRecord_spec s
  rw [if_neg h3, if_neg h3]
  exact navAt_spec s _

theorem navLoop_idle (n : Nat) (s : State) (h : s.n.ctx.phase = .idle) : navLoop n s = .next s := by
  cases n <;> simp [navLoop, h]

theorem navLoop_succ (n : Nat) (s t : State) (h : s.n.ctx.phase ≠ .idle) (ht : navForm s = .next t) :
    navLoop (n + 1) s = navLoop n t := by simp [navLoop, h, ht]

/-- The two halves of a record header (R129). -/
theorem recordHeader_parts (f : Nat → Byte) (pos : Nat) :
    leRead f pos 4 = leRead f pos 2 + 2 ^ 16 * leRead f (pos + 2) 2 := by
  simp only [leRead, Nat.mul_zero, Nat.add_zero, Nat.add_assoc, Nat.reduceAdd]
  omega

/-- A record header at `pos` (R176, R177). -/
theorem recordHeader_spec (s : State) (hp : s.n.ctx.phase = .recordHeader) :
    navForm s = readRecordHeader (BitVec.ofNat 16 (leRead s.ninByte s.n.ctx.pos 2))
      (BitVec.ofNat 16 (leRead s.ninByte (s.n.ctx.pos + 2) 2)) s := by
  have hw : navWindow s = some (.navRecordHeader, leRead s.ninByte s.n.ctx.pos 4) := by unfold navWindow; rw [hp]
  have h1 := leRead_lt s.ninByte s.n.ctx.pos 2
  have e1 : BitVec.ofNat 16 (leRead s.ninByte s.n.ctx.pos 4) = BitVec.ofNat 16 (leRead s.ninByte s.n.ctx.pos 2) := by
    apply BitVec.eq_of_toNat_eq
    rw [BitVec.toNat_ofNat, BitVec.toNat_ofNat, recordHeader_parts]; omega
  have e2 : leRead s.ninByte s.n.ctx.pos 4 / 2 ^ 16 = leRead s.ninByte (s.n.ctx.pos + 2) 2 := by
    rw [recordHeader_parts]; omega
  unfold navForm
  rw [hw]
  dsimp only [decode, performForm, execNavRecordHeader]
  rw [e1, e2]

theorem specDispatch_len (word : Nat → Word) (tag size pos : Nat) (n : Ndu) :
    (specDispatch word tag size pos n).len = n.len := by
  unfold specDispatch; split <;> [rfl; split <;> [rfl; split <;> rfl]]

theorem specDispatch_ctx (word : Nat → Word) (tag size pos : Nat) (n : Ndu) (c : NavCtx) :
    specDispatch word tag size pos { n with ctx := c } = { specDispatch word tag size pos n with ctx := c } := by
  unfold specDispatch; split <;> [rfl; split <;> [rfl; split <;> rfl]]

/-- The header of a datagram (R174, R175). -/
theorem header_spec (u : State) (hp : u.n.ctx.phase = .header) :
    ∃ t, navForm u = .next t ∧
      NavLoop { u with n := withHeader u.ninByte u.ninWord u.n.len.toNat u.n } 16 t := by
  have hw : navWindow u = some (.navHeader, leRead u.ninByte 0 16) := by unfold navWindow; rw [hp]
  unfold navForm
  rw [hw]
  dsimp only [decode, decodeNavHeader, performForm, execNavHeader, readNavHeader]
  have e : ∀ lo, lo ∈ [0, 4, 8, 12] →
      BitVec.ofNat 32 (bitField (leRead u.ninByte 0 16) (8 * lo) 32) = u.ninWord lo := by
    intro lo h
    apply BitVec.eq_of_toNat_eq
    simp only [State.ninWord, BitVec.toNat_ofNat, bitField]
    have hb : ∀ a, (u.ninByte a).toNat < 256 := fun a => (u.ninByte a).isLt
    have := hb 0; have := hb 1; have := hb 2; have := hb 3
    have := hb 4; have := hb 5; have := hb 6; have := hb 7
    have := hb 8; have := hb 9; have := hb 10; have := hb 11
    have := hb 12; have := hb 13; have := hb 14; have := hb 15
    simp at h
    rcases h with rfl | rfl | rfl | rfl <;> simp only [leRead, Nat.zero_add, Nat.reduceAdd, Nat.reduceMul] <;> omega
  rw [e 0 (by simp), e 4 (by simp), e 8 (by simp), e 12 (by simp), navChecksum_eq]
  exact navAt_spec { u with n := withHeader u.ninByte u.ninWord u.n.len.toNat u.n } 16

/-- The loop of `N.DECODE` is the walk of R171: from the end of a record or of the header (R176, R177).  The place `c`
that the loop carries is the machine's; the walk does not see it. -/
theorem navLoop_walk (fuel : Nat) (u s : State) (n : Ndu) (c : NavCtx) (pos : Nat)
    (hu : NavLoop { u with n := { n with ctx := c } } pos s) (hf : 2 * (n.len.toNat - pos) + 1 ≤ fuel) :
    ∃ stop trunc m t, NavWalk u.ninByte u.ninWord n.len.toNat pos n stop trunc m ∧
      navLoop fuel s = .next t ∧ NavStopped { u with n := m } stop trunc t := by
  induction h : n.len.toNat - pos using Nat.strong_induction_on generalizing fuel s n c pos with
  | _ k ih =>
  by_cases h4 : pos + 4 ≤ n.len.toNat
  · have hs : s = { u with n := { n with ctx := { c with phase := .recordHeader, pos := pos } } } := hu.1 h4
    clear hu
    subst hs
    obtain ⟨fuel, rfl⟩ : ∃ f, fuel = f + 2 := ⟨fuel - 2, by omega⟩
    have hsz := leRead_lt u.ninByte (pos + 2) 2
    have htg := leRead_lt u.ninByte pos 2
    have hform := recordHeader_spec
      { u with n := { n with ctx := { c with phase := .recordHeader, pos := pos } } } rfl
    unfold readRecordHeader at hform
    change _ = ite (_ ∨ n.len.toNat < pos + _) (navFinish _ pos true) (.next { u with n := { n with
      ctx := ⟨.record, pos, BitVec.ofNat 16 (leRead u.ninByte pos 2), BitVec.ofNat 16 (leRead u.ninByte (pos + 2) 2)⟩ } })
      at hform
    by_cases hbad : leRead u.ninByte (pos + 2) 2 = 0 ∨ pos + leRead u.ninByte (pos + 2) 2 > n.len.toNat
    · rw [if_pos] at hform
      · obtain ⟨t, et, ht⟩ := navFinish_spec
          { u with n := { n with ctx := { c with phase := .recordHeader, pos := pos } } } pos true
        refine ⟨pos, true, n, t, .badSize h4 hbad, ?_, ht⟩
        rw [navLoop_succ _ _ _ (by simp) (hform.trans et), navLoop_idle]
        rw [ht]
      · change BitVec.ofNat 16 (leRead u.ninByte (pos + 2) 2) = 0 ∨
          n.len.toNat < pos + (BitVec.ofNat 16 (leRead u.ninByte (pos + 2) 2)).toNat
        rw [BitVec.toNat_ofNat, Nat.mod_eq_of_lt (by omega)]
        rcases hbad with h0 | h0
        · left; rw [h0]; rfl
        · right; exact h0
    · push Not at hbad
      obtain ⟨hz, hin⟩ := hbad
      rw [if_neg] at hform
      · obtain ⟨t1, e1, ht1⟩ := record_spec { u with n := { n with
          ctx := ⟨.record, pos, BitVec.ofNat 16 (leRead u.ninByte pos 2),
            BitVec.ofNat 16 (leRead u.ninByte (pos + 2) 2)⟩ } } rfl
        change NavLoop (State.mk _ _ _ _ (specDispatch u.ninWord (BitVec.ofNat 16 _).toNat (BitVec.ofNat 16 _).toNat pos
          { n with ctx := _ }) _ _ _ _) (pos + (BitVec.ofNat 16 _).toNat) t1 at ht1
        rw [BitVec.toNat_ofNat, BitVec.toNat_ofNat, Nat.mod_eq_of_lt (by omega), Nat.mod_eq_of_lt (by omega),
          specDispatch_ctx] at ht1
        have hl := specDispatch_len u.ninWord (leRead u.ninByte pos 2) (leRead u.ninByte (pos + 2) 2) pos n
        obtain ⟨stop, trunc, m, t, hw, hloop, hst⟩ :=
          ih (n.len.toNat - (pos + leRead u.ninByte (pos + 2) 2)) (by omega) fuel t1 _ _ _ ht1
            (by rw [hl]; omega) (by rw [hl])
        rw [hl] at hw
        refine ⟨stop, trunc, m, t, .record h4 hz hin hw, ?_, hst⟩
        rw [navLoop_succ _ _ _ (by simp) hform, navLoop_succ _ _ _ (by simp) e1, hloop]
      · change ¬ (BitVec.ofNat 16 (leRead u.ninByte (pos + 2) 2) = 0 ∨
          n.len.toNat < pos + (BitVec.ofNat 16 (leRead u.ninByte (pos + 2) 2)).toNat)
        rw [BitVec.toNat_ofNat, Nat.mod_eq_of_lt (by omega)]
        rintro (h0 | h0)
        · apply hz
          have := congrArg BitVec.toNat h0
          rw [BitVec.toNat_ofNat, Nat.mod_eq_of_lt (by omega)] at this
          simpa using this
        · omega
  · have hst := hu.2 (by change n.len.toNat < _; omega)
    refine ⟨pos, decide (pos ≠ n.len.toNat), n, s, .fewBytes (by omega), ?_, hst⟩
    rw [navLoop_idle]
    rw [hst]

end Sys2Proof.Machine
end

