-- ==== Sys2Proof/Laws/Local.lean ====
section
/-!
SUPPORT. What every operation of a decoder leaves alone (R89), once for all of them: the relations `VduOnly` and
`NduOnly`, their closure under the shared operations, and what they say of a whole `V.DECODE` and `N.DECODE`.
-/

namespace Sys2Proof.Machine

/-- `t` differs from `s` in nothing but what `V.DECODE` may write: pixels, picture registers, the cursor, the grid, the
status, and interrupt bits of the VDU, which are only set. -/
structure VduOnly (s t : State) : Prop where
  cfg : t.cfg = s.cfg
  irqEnable : t.irqEnable = s.irqEnable
  irqKept : ∀ k, s.irqStatus.getLsbD k = true → t.irqStatus.getLsbD k = true
  navBits : t.irqStatus &&& 0b11000#5 = s.irqStatus &&& 0b11000#5
  ndu : t.n = s.n
  vin : t.vin = s.vin
  nin : t.nin = s.nin
  host : t.host = s.host
  len : t.v.len = s.v.len
  result : t.v.result = s.v.result
  rlRun : t.v.rlRun = s.v.rlRun
  rlLevel : t.v.rlLevel = s.v.rlLevel
  rlLen : t.v.rlLen = s.v.rlLen
  rlLast : t.v.rlLast = s.v.rlLast

/-- The cursor stays on its stream and does not go back (R30, R360). -/
structure Onward (s t : State) : Prop where
  brLen : t.v.brLen = s.v.brLen
  cursor : CursorOk s → CursorOk t ∧ s.brAt ≤ t.brAt

/-- Both. -/
structure Stays (s t : State) : Prop where
  only : VduOnly s t
  onward : Onward s t

theorem VduOnly.refl (s : State) : VduOnly s s :=
  ⟨rfl, rfl, fun _ h => h, rfl, rfl, rfl, rfl, rfl, rfl, rfl, rfl, rfl, rfl, rfl⟩

theorem VduOnly.trans {s t u : State} (h : VduOnly s t) (g : VduOnly t u) : VduOnly s u where
  cfg := g.cfg.trans h.cfg
  irqEnable := g.irqEnable.trans h.irqEnable
  irqKept k hk := g.irqKept k (h.irqKept k hk)
  navBits := g.navBits.trans h.navBits
  ndu := g.ndu.trans h.ndu
  vin := g.vin.trans h.vin
  nin := g.nin.trans h.nin
  host := g.host.trans h.host
  len := g.len.trans h.len
  result := g.result.trans h.result
  rlRun := g.rlRun.trans h.rlRun
  rlLevel := g.rlLevel.trans h.rlLevel
  rlLen := g.rlLen.trans h.rlLen
  rlLast := g.rlLast.trans h.rlLast

theorem Onward.trans {s t u : State} (h : Onward s t) (g : Onward t u) : Onward s u where
  brLen := g.brLen.trans h.brLen
  cursor hs := ⟨(g.cursor (h.cursor hs).1).1, le_trans (h.cursor hs).2 (g.cursor (h.cursor hs).1).2⟩

theorem Stays.trans {s t u : State} (h : Stays s t) (g : Stays t u) : Stays s u :=
  ⟨h.only.trans g.only, h.onward.trans g.onward⟩

/-- The parts of the VDU that `Stays` does not speak of may change at will. -/
theorem stays_update (s : State) (v : Vdu) (p : PixelBuffer) (h1 : v.len = s.v.len) (h2 : v.result = s.v.result)
    (h3 : v.rlRun = s.v.rlRun) (h4 : v.rlLevel = s.v.rlLevel) (h5 : v.rlLen = s.v.rlLen)
    (h6 : v.rlLast = s.v.rlLast) (h7 : v.brLen = s.v.brLen) (h8 : v.brPos = s.v.brPos) :
    Stays s { s with v := v, pix := p } where
  only := ⟨rfl, rfl, fun _ h => h, rfl, rfl, rfl, rfl, rfl, h1, h2, h3, h4, h5, h6⟩
  onward := ⟨h7, fun hs => ⟨⟨hs.1, by simpa [h7] using hs.2, by simpa [State.brAt, State.brExt, h7, h8] using hs.3⟩,
    by simp [State.brAt, h8]⟩⟩

theorem Stays.refl (s : State) : Stays s s := stays_update s s.v s.pix rfl rfl rfl rfl rfl rfl rfl rfl

/-- Setting interrupt bits of the VDU. -/
theorem stays_raiseIrq (s : State) (b : BitVec 5) (hb : b &&& 0b11000#5 = 0) : Stays s (s.raiseIrq b) where
  only :=
    { VduOnly.refl s with
      irqKept := fun k h => by simp [h]
      navBits := by
        change (s.irqStatus ||| b) &&& _ = _
        rw [BitVec.and_or_distrib_right, hb]; exact BitVec.or_zero }
  onward := ⟨rfl, fun hs => ⟨⟨hs.1, hs.2, hs.3⟩, le_refl _⟩⟩

/-- Moving the cursor on. -/
theorem stays_brMoveTo (s : State) (p : Nat) (hp : s.brAt ≤ p) (hx : CursorOk s → p ≤ s.brExt) : Stays s (s.brMoveTo p) where
  only := by
    refine ⟨?_, ?_, fun k h => ?_, ?_, ?_, ?_, ?_, ?_, ?_, ?_, ?_, ?_, ?_, ?_⟩ <;> simp
    exact h
  onward := ⟨by simp, fun hs => ⟨cursorOk_brMoveTo hs p (hx hs), by
    rw [brAt_brMoveTo s p (le_trans (hx hs) hs.ext_le)]; exact hp⟩⟩

theorem stays_brAlign (s : State) : Stays s s.brAlign := by
  rw [brAlign_eq]
  exact stays_brMoveTo s _ (by unfold State.alignedAt; split <;> omega) fun hs => alignedAt_le hs

/-- The end of a VDU command. -/
theorem stays_complete (s : State) (e : Err) : Stays s (s.complete .vdu e) := by
  refine (stays_update s _ s.pix ?_ ?_ ?_ ?_ ?_ ?_ ?_ ?_).trans (stays_raiseIrq _ _ ?_) <;> try rfl
  split <;> decide

theorem stays_videoEnd {s t : State} {e : Err} (h : videoEnd s e = .next t) : Stays s t := by
  cases h; exact stays_complete s e

/-- Consuming bits, then what follows. -/
theorem stays_videoTake {s t : State} {n : Nat} {k : State → StepOutcome State}
    (hk : ∀ u t, k u = .next t → Stays u t) (h : videoTake s n k = .next t) : Stays s t := by
  rcases videoTake_cases s n k with ⟨_, e⟩ | ⟨hle, e⟩
  · rw [e] at h; exact stays_videoEnd h
  · rw [e] at h
    exact (stays_brMoveTo s _ (by omega) fun _ => hle).trans (hk _ _ h)

theorem stays_takePair {s t : State} {n : Nat} {k : State → StepOutcome State}
    (hk : ∀ u t, k u = .next t → Stays u t) (h : takePair n s k = .next t) : Stays s t := by
  rcases takePair_cases n s k with ⟨_, e⟩ | ⟨_, _, e⟩ | ⟨_, hle, e⟩
  · rw [e] at h; exact stays_videoEnd h
  · rw [e] at h; exact stays_videoEnd h
  · rw [e] at h
    exact (stays_brMoveTo s _ (by omega) fun _ => hle).trans (hk _ _ h)

/-- A change of the place in the decode, of a picture register, of the grid or of pixels, before what follows. -/
theorem Stays.after {s t : State} {v : Vdu} {p : PixelBuffer} (g : Stays { s with v := v, pix := p } t)
    (h1 : v.len = s.v.len := by rfl) (h2 : v.result = s.v.result := by rfl)
    (h3 : v.rlRun = s.v.rlRun := by rfl) (h4 : v.rlLevel = s.v.rlLevel := by rfl) (h5 : v.rlLen = s.v.rlLen := by rfl)
    (h6 : v.rlLast = s.v.rlLast := by rfl) (h7 : v.brLen = s.v.brLen := by rfl) (h8 : v.brPos = s.v.brPos := by rfl) :
    Stays s t := (stays_update s v p h1 h2 h3 h4 h5 h6 h7 h8).trans g

theorem stays_videoAtHeader {s t : State} (h : videoAtHeader s = .next t) : Stays s t := by
  unfold videoAtHeader at h
  split at h
  · cases h; exact (Stays.refl _).after (s := s)
  · exact stays_videoEnd h

theorem stays_videoMacroblock {s t : State} {j : Nat} (h : videoMacroblock s j = .next t) : Stays s t := by
  unfold videoMacroblock at h
  split at h
  · cases h; exact (Stays.refl _).after (s := s)
  · unfold videoEndSlice at h
    dsimp only at h
    split at h
    · exact stays_videoEnd h
    · exact (stays_videoAtHeader h).after (s := s)

theorem stays_videoBlock {s t : State} {k : Nat} (h : videoBlock s k = .next t) : Stays s t := by
  unfold videoBlock at h
  split at h
  · cases h; exact (Stays.refl _).after (s := s)
  · exact stays_videoMacroblock h

theorem stays_videoEndBlock {s t : State} (h : videoEndBlock s = .next t) : Stays s t := by
  unfold videoEndBlock at h
  dsimp only at h
  exact (stays_videoBlock h).after (s := s)

theorem stays_videoSlice {s t : State} (h : videoSlice s = .next t) : Stays s t := by
  unfold videoSlice at h
  exact (stays_videoMacroblock h).after (s := s)

theorem stays_setDimensions (s : State) (w h : Nat) : Stays s (s.setDimensions w h) := by
  unfold State.setDimensions
  dsimp only
  split
  · exact (Stays.refl _).after (s := s)
  · exact ((Stays.refl _).after (s := s)).trans
      (stays_update _ _ _ rfl rfl rfl rfl rfl rfl rfl rfl)

theorem stays_pictureDimensions {s t : State} {f : BitVec 2} {r : BitVec 3}
    (h : pictureDimensions s f r = .next t) : Stays s t := by
  unfold pictureDimensions at h
  split at h
  · exact stays_videoEnd h
  · split at h
    · exact stays_videoEnd h
    · dsimp only at h
      split at h
      · exact stays_videoEnd h
      · exact (stays_setDimensions s _ _).trans (stays_videoSlice h)

theorem stays_readPictureHeader {s t : State} {f : BitVec 2} {r p : BitVec 3} {q : BitVec 5} {i : BitVec 32}
    (h : readPictureHeader f r p q i s = .next t) : Stays s t := by
  refine stays_videoTake (fun s1 t h => (stays_videoTake ?_ h).after (s := s1)) h
  refine fun s2 t h => (stays_videoTake ?_ h).after (s := s2)
  refine fun s3 t h => (stays_videoTake ?_ h).after (s := s3)
  refine fun s4 t h => (stays_videoTake ?_ h).after (s := s4)
  exact fun s5 t h => (stays_pictureDimensions h).after (s := s5)

theorem stays_videoStartCode {s t : State} {k : State → StepOutcome State} (hk : ∀ u t, k u = .next t → Stays u t)
    (h : videoStartCode s k = .next t) : Stays s t := (stays_brAlign s).trans (stays_videoTake hk h)

theorem stays_endPicture {s t : State} (h : endPicture s = .next t) : Stays s t := by
  refine stays_videoStartCode (fun u t h => ?_) h
  have h1 : Stays u { u with v := { u.v with status := { u.v.status with picComplete := true, frameValid := true } } } :=
    (Stays.refl _).after (s := u)
  exact h1.trans ((stays_raiseIrq _ irqFrame (by decide)).trans (stays_videoEnd h))

theorem stays_storeLevel {s t : State} {z m : Nat} {b : Bool} (h : storeLevel z m b s = .next t) : Stays s t := by
  refine stays_takePair (fun u t h => ?_) h
  dsimp only at h
  split at h
  · exact stays_videoEnd h
  · cases h; exact (Stays.refl _).after (s := u)

theorem stays_readDc {s t : State} {d : BitVec 10} (h : readDc d s = .next t) : Stays s t := by
  refine stays_videoTake (fun u t h => ?_) h
  dsimp only at h
  split at h
  · cases h; exact (Stays.refl _).after (s := u)
  · exact (stays_videoEndBlock h).after (s := u)

theorem stays_inspectRun {s t : State} {z e : Nat} (h : inspectRun z e s = .next t) : Stays s t := by
  cases h; exact (Stays.refl _).after (s := s)

/-- Every element of the stream stays inside the VDU and does not move the cursor back. -/
theorem stays_performElement {s t : State} (i : Instr) (h : performElement i s = .next t) : Stays s t := by
  cases i <;> (try change Host.Outcome.next s = Host.Outcome.next t at h) <;>
    first
    | exact stays_inspectRun h
    | exact stays_storeLevel h
    | exact stays_videoEnd h
    | exact stays_endPicture h
    | exact stays_readPictureHeader h
    | exact stays_readDc h
    | exact stays_takePair (fun _ _ h => stays_videoEndBlock h) h
    | exact stays_videoStartCode (fun u t h => by cases h; exact (Stays.refl _).after (s := u)) h
    | exact stays_videoTake (fun u t h => (stays_videoSlice h).after (s := u)) h
    | exact stays_videoTake (fun u t h => stays_videoMacroblock h) h
    | exact stays_videoTake (fun u t h => by cases h; exact (Stays.refl _).after (s := u)) h
    | exact stays_videoTake (fun u t h => (stays_videoBlock h).after (s := u)) h
    | exact stays_videoTake (fun u t h => by
        dsimp only at h
        split at h
        · cases h; exact (Stays.refl _).after (s := u)
        · exact (stays_videoBlock h).after (s := u)) h
    | (cases h; exact Stays.refl _)

theorem stays_videoReject {s t : State} (r : Reject) (h : videoReject r s = .next t) : Stays s t := by
  cases r
  case badStartCode => exact stays_videoStartCode (fun _ _ h => stays_videoEnd h) h
  all_goals exact stays_videoEnd h

theorem stays_videoElement {s t : State} (h : videoElement s = .next t) : Stays s t := by
  unfold videoElement at h
  split at h
  · cases h; exact Stays.refl s
  · split at h
    · exact stays_performElement _ h
    · exact stays_videoReject _ h

theorem stays_videoLoop {n : Nat} {s t : State} (h : videoLoop n s = .next t) : Stays s t :=
  videoLoop_invariant (P := Stays s) (fun _ _ hp hu => hp.trans (stays_videoElement hu)) n s t (Stays.refl s) h

/-- A `V.DECODE` stays inside the VDU. -/
theorem vduOnly_videoBegin {s t : State} (h : videoBegin s = .next t) : VduOnly s t := by
  unfold videoBegin at h
  dsimp only at h
  split at h
  · exact ((stays_videoEnd h).after (s := s)).only
  · refine VduOnly.trans ?_ (stays_videoAtHeader h).only
    exact ⟨rfl, rfl, fun _ h => h, rfl, rfl, rfl, rfl, rfl, rfl, rfl, rfl, rfl, rfl, rfl⟩

theorem vduOnly_execVDecode {s t : State} (h : execVDecode s = .next t) : VduOnly s t := by
  unfold execVDecode at h
  split at h
  · rename_i u hu
    exact (vduOnly_videoBegin hu).trans (stays_videoLoop h).only
  · rename_i ho
    exact absurd h (ho t)

/-! ## The NavData unit -/

/-- `t` differs from `s` in nothing but the NDU's registers and the NDU's interrupt bits, which are only set; `N_LEN` is
kept. -/
structure NduOnly (s t : State) : Prop where
  cfg : t.cfg = s.cfg
  irqEnable : t.irqEnable = s.irqEnable
  irqKept : ∀ k, s.irqStatus.getLsbD k = true → t.irqStatus.getLsbD k = true
  videoBits : t.irqStatus &&& 0b00111#5 = s.irqStatus &&& 0b00111#5
  vdu : t.v = s.v
  vin : t.vin = s.vin
  nin : t.nin = s.nin
  pix : t.pix = s.pix
  host : t.host = s.host
  len : t.n.len = s.n.len

theorem NduOnly.trans {s t u : State} (h : NduOnly s t) (g : NduOnly t u) : NduOnly s u where
  cfg := g.cfg.trans h.cfg
  irqEnable := g.irqEnable.trans h.irqEnable
  irqKept k hk := g.irqKept k (h.irqKept k hk)
  videoBits := g.videoBits.trans h.videoBits
  vdu := g.vdu.trans h.vdu
  vin := g.vin.trans h.vin
  nin := g.nin.trans h.nin
  pix := g.pix.trans h.pix
  host := g.host.trans h.host
  len := g.len.trans h.len

/-- The NDU's registers, `N_LEN` apart, may change at will. -/
theorem nduOnly_update (s : State) (n : Ndu) (h : n.len = s.n.len := by rfl) : NduOnly s { s with n := n } :=
  ⟨rfl, rfl, fun _ h => h, rfl, rfl, rfl, rfl, rfl, rfl, h⟩

theorem NduOnly.refl (s : State) : NduOnly s s := nduOnly_update s s.n rfl

/-- The end of an NDU command. -/
theorem nduOnly_navEnd {s t : State} {e : Err} (h : navEnd s e = .next t) : NduOnly s t := by
  cases h
  refine ⟨rfl, rfl, fun k hk => ?_, ?_, rfl, rfl, rfl, rfl, rfl, rfl⟩
  · change (s.irqStatus ||| _).getLsbD k = true
    simp [hk]
  · change (s.irqStatus ||| _) &&& _ = _
    rw [BitVec.and_or_distrib_right]
    have hb : (if e = .none then irqNavDone else irqNavDone ||| irqNavErr) &&& 0b00111#5 = 0#5 := by split <;> decide
    rw [hb]; exact BitVec.or_zero

theorem nduOnly_navFinish {s t : State} {pos : Nat} {tr : Bool} (h : navFinish s pos tr = .next t) : NduOnly s t :=
  (nduOnly_update s _).trans (nduOnly_navEnd h)

theorem nduOnly_navAt {s t : State} {pos : Nat} (h : navAt s pos = .next t) : NduOnly s t := by
  unfold navAt at h
  split at h
  · exact nduOnly_navFinish h
  · cases h; exact nduOnly_update s _

/-- Every form of a datagram stays inside the NDU. -/
theorem nduOnly_performForm {s t : State} (i : Instr) (h : performForm i s = .next t) : NduOnly s t := by
  cases i <;> (try change Host.Outcome.next s = Host.Outcome.next t at h) <;>
    first
    | exact nduOnly_navAt h
    | exact (nduOnly_update s _).trans (nduOnly_navAt h)
    | (cases h; exact NduOnly.refl _)
    | skip
  change readRecordHeader _ _ s = _ at h
  unfold readRecordHeader at h
  dsimp only at h
  split at h
  · exact nduOnly_navFinish h
  · cases h; exact nduOnly_update s _

theorem nduOnly_navForm {s t : State} (h : navForm s = .next t) : NduOnly s t := by
  unfold navForm at h
  split at h
  · cases h; exact NduOnly.refl s
  · split at h
    · exact nduOnly_performForm _ h
    · exact nduOnly_navEnd h

/-- An invariant of the forms is an invariant of the loop. -/
theorem navLoop_invariant {P : State → Prop} (hP : ∀ s t, P s → navForm s = .next t → P t) (n : Nat) (s t : State)
    (hs : P s) (h : navLoop n s = .next t) : P t := by
  induction n generalizing s with
  | zero =>
    simp only [navLoop] at h
    split at h
    · cases h; exact hs
    · cases h
  | succ n ih =>
    simp only [navLoop] at h
    split at h
    · cases h; exact hs
    · split at h
      · rename_i u hu
        exact ih u (hP s u hs hu) h
      · rename_i ho
        exact absurd h (ho t)

/-- A loop that answers a next state has ended its command. -/
theorem navLoop_ends (n : Nat) (s t : State) (h : navLoop n s = .next t) : t.n.ctx.phase = .idle := by
  induction n generalizing s with
  | zero =>
    simp only [navLoop] at h
    split at h
    · cases h; assumption
    · cases h
  | succ n ih =>
    simp only [navLoop] at h
    split at h
    · cases h; assumption
    · split at h
      · exact ih _ h
      · rename_i ho
        exact absurd h (ho t)

/-- An `N.DECODE` stays inside the NDU. -/
theorem nduOnly_execNDecode {s t : State} (h : execNDecode s = .next t) : NduOnly s t := by
  unfold execNDecode at h
  split at h
  · rename_i u hu
    have hb : NduOnly s u := by
      unfold navBegin at hu
      dsimp only at hu
      split at hu
      · exact (nduOnly_update s _).trans (nduOnly_navEnd hu)
      · split at hu
        · exact (nduOnly_update s _).trans (nduOnly_navEnd hu)
        · cases hu; exact nduOnly_update s _
    exact hb.trans (navLoop_invariant (P := NduOnly u) (fun _ _ hp hu => hp.trans (nduOnly_navForm hu)) _ u t
      (NduOnly.refl u) h)
  · rename_i ho
    exact absurd h (ho t)

end Sys2Proof.Machine
end

