-- ==== Sys2Proof/Laws/HostPort.lean ====
section
/-!
SUPPORT. The step by the agent that moves, and the host's accesses: where an address falls, which accesses are refused,
what an allowed one does (R70 to R75).
-/

namespace Sys2Proof.Machine

/-! ## One step -/

/-- A step of the host with an access to make. -/
theorem step_host {s : State} {acc : HostAccess} {rest : List HostAccess} (ha : s.nextAgent = .host)
    (hq : s.host.queue = acc :: rest) :
    step s = match hostInstr s.cfg acc with
      | some i => exec i s.hostMoved
      | none => hostAccess acc s.hostMoved := by
  have hm : ({ s.advanceSched with host := { s.advanceSched.host with queue := rest } } : State) = s.hostMoved := by
    simp [State.hostMoved, State.advanceSched, hq]
  unfold step fetch
  rw [ha]
  dsimp only [fetchHost]
  have hq' : s.advanceSched.host.queue = acc :: rest := hq
  rw [hq']
  dsimp only
  rw [hm]
  change (match (match hostInstr s.cfg acc with
    | some i => Fetched.instr i s.hostMoved
    | none => Fetched.other (hostAccess acc s.hostMoved)) with
    | .instr i t => exec i t
    | .other o => o) = _
  cases hostInstr s.cfg acc <;> rfl

/-- A step of the host with nothing to do. -/
theorem step_host_idle {s : State} (ha : s.nextAgent = .host) (hq : s.host.queue = []) : step s = .next s.moved := by
  unfold step fetch
  rw [ha]
  dsimp only [fetchHost]
  have hq' : s.advanceSched.host.queue = [] := hq
  rw [hq']
  rfl

/-- A step of the VDU. -/
theorem step_vdu {s : State} (ha : s.nextAgent = .vdu) :
    step s = match fetchVdu s.moved with
      | .instr i t => exec i t
      | .other o => o := by
  unfold step fetch
  rw [ha]
  rfl

/-- A step of the NDU. -/
theorem step_ndu {s : State} (ha : s.nextAgent = .ndu) :
    step s = match fetchNdu s.moved with
      | .instr i t => exec i t
      | .other o => o := by
  unfold step fetch
  rw [ha]
  rfl

/-! ## Where an address falls -/

theorem spaceAt_reg {cfg : Config} {off : Nat} (h : off < 0x1000) : spaceAt cfg (cfg.vfdBase + off) = some (.reg, off) := by
  unfold spaceAt
  have e : cfg.vfdBase + off - cfg.vfdBase = off := by omega
  dsimp only
  rw [e, if_neg (by omega), if_pos h]

theorem spaceAt_vin {cfg : Config} {a : Nat} (hv : cfg.valid = true) (h : a < cfg.vinBytes) :
    spaceAt cfg (cfg.vfdBase + 0x100000 + a) = some (.vin, a) := by
  have hc := Config.valid_facts hv
  unfold spaceAt
  have e : cfg.vfdBase + 0x100000 + a - cfg.vfdBase = 0x100000 + a := by omega
  dsimp only
  rw [e, if_neg (by omega), if_neg (by omega), if_pos (by omega), Nat.add_sub_cancel_left]

theorem spaceAt_nin {cfg : Config} {a : Nat} (hv : cfg.valid = true) (h : a < cfg.ninBytes) :
    spaceAt cfg (cfg.vfdBase + 0x200000 + a) = some (.nin, a) := by
  have hc := Config.valid_facts hv
  unfold spaceAt
  have e : cfg.vfdBase + 0x200000 + a - cfg.vfdBase = 0x200000 + a := by omega
  dsimp only
  rw [e, if_neg (by omega), if_neg (by omega), if_neg (by omega), if_pos (by omega), Nat.add_sub_cancel_left]

theorem spaceAt_pix {cfg : Config} {a : Nat} (hv : cfg.valid = true) (h : a < 4 * cfg.pixEntries) :
    spaceAt cfg (cfg.vfdBase + 0x400000 + a) = some (.pix, a) := by
  have hc := Config.valid_facts hv
  unfold spaceAt
  have e : cfg.vfdBase + 0x400000 + a - cfg.vfdBase = 0x400000 + a := by omega
  dsimp only
  rw [e, if_neg (by omega), if_neg (by omega), if_neg (by omega), if_neg (by omega), if_pos (by omega),
    Nat.add_sub_cancel_left]

/-- An access the map allows. -/
theorem resolveAccess_ok {cfg : Config} {addr width a : Nat} {sp : Space} (h : spaceAt cfg addr = some (sp, a))
    (hw : sp.allows width = true) (hm : a % width = 0) (hb : a + width ≤ sp.bytes cfg) :
    resolveAccess cfg addr width = .ok (sp, a) := by
  unfold resolveAccess
  rw [h]
  dsimp only
  rw [if_neg (by simp [hw]), if_neg (by simp [hm]), if_neg (by omega)]

/-- A word access to a register. -/
theorem resolveAccess_reg {cfg : Config} {off : Nat} (h : off < 0x1000) (hm : off % 4 = 0) :
    resolveAccess cfg (cfg.vfdBase + off) 4 = .ok (.reg, off) :=
  resolveAccess_ok (spaceAt_reg h) rfl hm (by change off + 4 ≤ 0x1000; omega)

theorem allows_buffer {width : Nat} (h : width = 1 ∨ width = 2 ∨ width = 4) :
    Space.vin.allows width = true ∧ Space.nin.allows width = true := by
  rcases h with rfl | rfl | rfl <;> exact ⟨rfl, rfl⟩

theorem resolveAccess_vin {cfg : Config} {a width : Nat} (hv : cfg.valid = true)
    (hw : width = 1 ∨ width = 2 ∨ width = 4) (hm : a % width = 0) (hb : a + width ≤ cfg.vinBytes) :
    resolveAccess cfg (cfg.vfdBase + 0x100000 + a) width = .ok (.vin, a) :=
  resolveAccess_ok (spaceAt_vin hv (by omega)) (allows_buffer hw).1 hm hb

theorem resolveAccess_nin {cfg : Config} {a width : Nat} (hv : cfg.valid = true)
    (hw : width = 1 ∨ width = 2 ∨ width = 4) (hm : a % width = 0) (hb : a + width ≤ cfg.ninBytes) :
    resolveAccess cfg (cfg.vfdBase + 0x200000 + a) width = .ok (.nin, a) :=
  resolveAccess_ok (spaceAt_nin hv (by omega)) (allows_buffer hw).2 hm hb

theorem resolveAccess_pix {cfg : Config} {p : Nat} (hv : cfg.valid = true) (h : p < cfg.pixEntries) :
    resolveAccess cfg (cfg.vfdBase + 0x400000 + 4 * p) 4 = .ok (.pix, 4 * p) :=
  resolveAccess_ok (spaceAt_pix hv (by omega)) rfl (by omega) (by change 4 * p + 4 ≤ 4 * cfg.pixEntries; omega)

/-- A read is never an instruction. -/
theorem hostInstr_read (cfg : Config) (addr width : Nat) : hostInstr cfg (.read addr width) = none := rfl

/-- A host step that reads at an allowed place uses up its access and keeps the data; nothing else changes. -/
theorem step_read {s : State} {addr width a : Nat} {sp : Space} {rest : List HostAccess} (ha : s.nextAgent = .host)
    (hq : s.host.queue = .read addr width :: rest) (hr : resolveAccess s.cfg addr width = .ok (sp, a)) :
    ∃ t, step s = .next t ∧ HostRead s t ∧ t.host.data = s.hostRead sp a width (Config.anyWord s.host.reads) := by
  rw [step_host ha hq]
  dsimp only [hostInstr_read]
  unfold hostAccess
  have hc : s.hostMoved.cfg = s.cfg := rfl
  dsimp only
  rw [hc, hr]
  exact ⟨_, rfl, ⟨⟨⟨fun _ => rfl, fun _ => rfl, rfl, rfl⟩, fun _ => rfl⟩, rfl⟩, rfl⟩

/-- A write to a register of R104 is its instruction; any other write to a register is none. -/
theorem hostInstr_reg {cfg : Config} {off : Nat} (w : Word) (h : off < 0x1000) (hm : off % 4 = 0) :
    hostInstr cfg (.write (cfg.vfdBase + off) 4 w) =
      match (regAt off).bind Reg.operation with
      | some c => (decode c w.toNat).toOption
      | none => none := by
  unfold hostInstr
  dsimp only
  rw [resolveAccess_reg h hm]
  all_goals rfl

/-- A write outside `REG` is no instruction. -/
theorem hostInstr_of_space {cfg : Config} {addr width a : Nat} {sp : Space} (w : Word)
    (h : resolveAccess cfg addr width = .ok (sp, a)) (hs : sp ≠ .reg) : hostInstr cfg (.write addr width w) = none := by
  unfold hostInstr
  dsimp only
  rw [h]
  cases sp <;> first | exact absurd rfl hs | rfl

/-- A refused write is no instruction. -/
theorem hostInstr_of_error {cfg : Config} {addr width : Nat} {r : Refusal} (w : Word)
    (h : resolveAccess cfg addr width = .error r) : hostInstr cfg (.write addr width w) = none := by
  unfold hostInstr
  dsimp only
  rw [h]

/-- The offsets whose writes are operations (R104). -/
theorem operation_regAt {off : Nat}
    (hn : off ∉ [0x004, 0x008, 0x00C, 0x108, 0x208]) : (regAt off).bind Reg.operation = none := by
  unfold regAt
  split
  · rfl
  · cases hc : cellFind regTable off with
    | none => rfl
    | some r =>
      have hm := cellFind_mem regTable off r hc
      revert hn
      simp only [regTable, globalRegs, readerRegs, pictureRegs, navRegs, List.cons_append, List.nil_append, List.mem_cons,
        Prod.mk.injEq, List.not_mem_nil, or_false] at hm
      rcases hm with ⟨rfl, rfl⟩ | hm
      · intro _; rfl
      iterate 45
        rcases hm with ⟨rfl, rfl⟩ | hm
        · intro hn
          first | rfl | exact absurd (by decide) hn
      obtain ⟨rfl, rfl⟩ := hm
      intro _; rfl

end Sys2Proof.Machine
end

