-- ==== Sys2Proof/Laws/Invariant.lean ====
section
/-!
SUPPORT. The invariant of Sys2Proof/Safety.lean through the shared operations: for each, that a state with the invariant
and a command in progress goes to a state with the invariant.  A proof about a step is a chain of these.
-/

namespace Sys2Proof.Machine

/-! ## The VDU with a command in progress -/

/-- The NDU's part of the invariant. -/
structure NduOk (s : State) : Prop where
  idle : s.n.status.busy = false → s.n.pending = none ∧ s.n.ctx = NavCtx.idle
  busy : s.n.status.busy = true → s.n.status.done = false ∧ s.n.status.err = .none
  word : s.n.status.busy = true → s.n.ctx.phase = .idle → s.n.pending ≠ none
  navValid : s.n.status.valid = true → s.n.status.cksSeen = true ∧ s.n.cksRx = s.n.cksCalc
  nav : NavPlaceOk s

/-- The invariant of a state whose VDU performs a command, but for the place inside it. -/
structure Running (s : State) : Prop where
  cursor : CursorOk s
  brState : BrStateOk s
  buffers : BuffersOk s
  picture : PictureOk s
  frame : s.v.status.frameValid = s.v.status.picComplete
  busy : s.v.status.busy = true
  fresh : s.v.status.done = false ∧ s.v.status.err = .none
  ndu : NduOk s

theorem Inv.nduOk {s : State} (h : Inv s) : NduOk s :=
  ⟨h.status.nduIdle, h.status.nduBusy, h.status.nduWord, h.status.navValid, h.nav⟩

theorem Inv.running {s : State} (h : Inv s) (hb : s.v.status.busy = true) : Running s :=
  ⟨h.cursor, h.brState, h.buffers, h.picture, h.status.frame, hb, h.status.vduBusy hb, h.nduOk⟩

/-- Inside a decode the VDU is busy. -/
theorem Inv.running_of_phase {s : State} (h : Inv s) (hp : s.v.ctx.phase ≠ .idle) : Running s := by
  refine h.running ?_
  by_contra hb
  exact hp (by rw [(h.status.vduIdle (by simpa using hb)).2]; rfl)

theorem Running.composeOk {s : State} (h : Running s) : ComposeOk s where
  rising := by
    have := h.buffers.pixForm
    simp only [PixelBuffer.wf, Bool.and_eq_true] at this
    exact this.1
  width := by have := h.picture.mbPerRow; omega

/-- Back to the invariant at a place inside the decode. -/
theorem Running.inv {s : State} (h : Running s) (hp : VideoPlaceOk s) (hi : s.v.ctx.phase ≠ .idle) : Inv s where
  cursor := h.cursor
  brState := h.brState
  buffers := h.buffers
  picture := h.picture
  status := ⟨fun hn => absurd (h.busy.symm.trans hn) (by decide), fun _ => h.fresh, fun _ hn => absurd hn hi, h.frame, h.ndu.idle,
    h.ndu.busy, h.ndu.word, h.ndu.navValid⟩
  video := hp
  nav := h.ndu.nav

/-- Other registers and the place may change. -/
theorem Running.update {s : State} (h : Running s) (v : Vdu)
    (h1 : v.brPos = s.v.brPos := by rfl) (h2 : v.brLen = s.v.brLen := by rfl) (h3 : v.brChunk = s.v.brChunk := by rfl)
    (h4 : v.brBitIdx = s.v.brBitIdx := by rfl) (h5 : v.width = s.v.width := by rfl)
    (h6 : v.height = s.v.height := by rfl) (h7 : v.sliceCount = s.v.sliceCount := by rfl)
    (h8 : v.mbPerRow = s.v.mbPerRow := by rfl) (h9 : v.gridMbs = s.v.gridMbs := by rfl)
    (h10 : v.grid = s.v.grid := by rfl) (h11 : v.status = s.v.status := by rfl) :
    Running { s with v := v } := by
  obtain ⟨hc, hb, hm, hp, hf, hbusy, hfr, hn⟩ := h
  refine ⟨⟨hc.1, ?_, ?_⟩, ⟨?_, ?_, ?_⟩, ⟨hm.1, hm.2, hm.3, hm.4, hm.5, hm.6, hm.7⟩, ?_, ?_, ?_, ?_, ⟨hn.1, hn.2, hn.3, hn.4, hn.5.1, hn.5.2, hn.5.3, hn.5.4⟩⟩
  · change v.brLen.toNat ≤ _; rw [h2]; exact hc.2
  · change v.brPos.toNat ≤ 32 * (v.brLen.toNat / 4); rw [h1, h2]; exact hc.3
  · change v.brChunk = 0 → v.brPos.toNat = 0; rw [h1, h3]; exact hb.1
  · change v.brChunk ≠ 0 → v.brPos.toNat = 32 * (v.brChunk.toNat - 1) + v.brBitIdx.toNat; rw [h1, h3, h4]; exact hb.2
  · change 1 ≤ v.brBitIdx.toNat ∧ v.brBitIdx.toNat ≤ 32; rw [h4]; exact hb.3
  · constructor <;> dsimp only <;> (try rw [h5]) <;> (try rw [h6]) <;> (try rw [h7]) <;> (try rw [h8]) <;>
      (try rw [h9]) <;> (try rw [h10])
    exacts [hp.1, hp.2, hp.3, hp.4, hp.5, hp.6, hp.7, hp.8, hp.9, hp.10]
  · change v.status.frameValid = v.status.picComplete; rw [h11]; exact hf
  · change v.status.busy = true; rw [h11]; exact hbusy
  · change v.status.done = false ∧ v.status.err = .none; rw [h11]; exact hfr

/-- The cursor moves inside its extent. -/
theorem Running.brMoveTo {s : State} (h : Running s) {p : Nat} (hp : p ≤ s.brExt) : Running (s.brMoveTo p) := by
  have hm := movedTo_brMoveTo s p (le_trans hp h.cursor.ext_le)
  have hb := brStateOk_of_synced hm.2.2
  have hc := cursorOk_brMoveTo h.cursor p hp
  obtain ⟨e, -, -⟩ := hm
  generalize s.brMoveTo p = u at e hb hc
  obtain ⟨-, -, hm, hp, hf, hbusy, hfr, hn⟩ := h
  rw [e] at hb hc ⊢
  exact ⟨hc, hb, ⟨hm.1, hm.2, hm.3, hm.4, hm.5, hm.6, hm.7⟩, ⟨hp.1, hp.2, hp.3, hp.4, hp.5, hp.6, hp.7, hp.8, hp.9, hp.10⟩,
    hf, hbusy, hfr, ⟨hn.1, hn.2, hn.3, hn.4, hn.5.1, hn.5.2, hn.5.3, hn.5.4⟩⟩

/-- The end of a command. -/
theorem Running.complete {s : State} (h : Running s) (e : Err) : Inv (s.complete .vdu e) := by
  obtain ⟨hc, hb, hm, hp, hf, hbusy, hfr, hn⟩ := h
  refine ⟨⟨hc.1, hc.2, hc.3⟩, ⟨hb.1, hb.2, hb.3⟩, ⟨hm.1, hm.2, hm.3, hm.4, hm.5, hm.6, hm.7⟩,
    ⟨hp.1, hp.2, hp.3, hp.4, hp.5, hp.6, hp.7, hp.8, hp.9, hp.10⟩,
    ⟨fun _ => ⟨rfl, rfl⟩, fun hx => (Bool.false_ne_true hx).elim, fun hx => (Bool.false_ne_true hx).elim, hf, hn.1, hn.2, hn.3, hn.4⟩, ?_,
    ⟨hn.5.1, hn.5.2, hn.5.3, hn.5.4⟩⟩
  constructor <;> intro hx <;> simp [State.complete, State.raiseIrq, VideoCtx.idle] at hx

theorem Running.videoEnd {s t : State} {e : Err} (h : Running s) (ht : videoEnd s e = .next t) : Inv t := by
  cases ht; exact h.complete e

/-- Consuming bits, then what follows. -/
theorem Running.videoTake {s t : State} {n : Nat} {k : State → StepOutcome State} (h : Running s)
    (hk : ∀ u, Running u → u.v.ctx = s.v.ctx → u.v.mbPerRow = s.v.mbPerRow → u.v.sliceIndex = s.v.sliceIndex →
      k u = .next t → Inv t)
    (ht : videoTake s n k = .next t) : Inv t := by
  rcases videoTake_cases s n k with ⟨_, e⟩ | ⟨hle, e⟩
  · rw [e] at ht; exact h.videoEnd ht
  · rw [e] at ht
    exact hk _ (h.brMoveTo hle) (by simp) (by simp) (by simp) ht

theorem Running.takePair {s t : State} {n : Nat} {k : State → StepOutcome State} (h : Running s)
    (hk : ∀ u, Running u → u.v.ctx = s.v.ctx → u.v.mbPerRow = s.v.mbPerRow → k u = .next t → Inv t)
    (ht : takePair n s k = .next t) : Inv t := by
  rcases takePair_cases n s k with ⟨_, e⟩ | ⟨_, _, e⟩ | ⟨_, hle, e⟩
  · rw [e] at ht; exact h.videoEnd ht
  · rw [e] at ht; exact h.videoEnd ht
  · rw [e] at ht
    exact hk _ (h.brMoveTo hle) (by simp) (by simp) ht

theorem Running.videoAtHeader {s t : State} (h : Running s) (ht : videoAtHeader s = .next t) : Inv t := by
  unfold Machine.videoAtHeader at ht
  split at ht
  · cases ht
    refine (h.update _).inv ?_ (by simp)
    constructor <;> intro hx <;> simp at hx
  · exact h.videoEnd ht

/-! ## Slices and blocks -/

/-- A slice inside the picture is composed. -/
theorem Running.composeSlice {s : State} (h : Running s) {sl : Nat} (hs : sl < s.v.sliceCount.toNat) :
    Running (s.composeSlice sl) := by
  obtain ⟨hc, hb, hm, hp, hf, hbusy, hfr, hn⟩ := h
  have hin : ∀ c ∈ s.slicePixels sl, c.1 < s.v.width.toNat * s.v.height.toNat ∧ c.2.toNat < 2 ^ 24 := by
    intro c hmem
    obtain ⟨j, y, x, hj, hy, hx, rfl⟩ := (mem_slicePixels s sl c).1 hmem
    refine ⟨?_, by rw [State.composedWord, ← rgbWord_eq]; exact rgbWord_lt _ _ _ _⟩
    have h1 := hp.mbPerRow
    have h2 := hp.sliceCount
    have h3 : (16 * sl + y) + 1 ≤ s.v.height.toNat := by omega
    have h4 : 16 * j + x < s.v.width.toNat := by omega
    calc (16 * sl + y) * s.v.width.toNat + 16 * j + x
        < (16 * sl + y) * s.v.width.toNat + s.v.width.toNat := by omega
      _ = s.v.width.toNat * (16 * sl + y + 1) := by ring
      _ ≤ _ := Nat.mul_le_mul_left _ h3
  have hmem : ∀ c ∈ (s.pix.setAll (s.slicePixels sl)).cells, c ∈ s.slicePixels sl ∨ c ∈ s.pix.cells :=
    fun c hmem => PixelBuffer.mem_setAll _ _ c hmem
  have hwf : (s.pix.setAll (s.slicePixels sl)).wf = true := by
    by_cases hz : s.v.gridMbs = 0
    · have he : s.slicePixels sl = [] := by
        have : s.v.mbPerRow = 0 := by rw [← hp.gridMbs, hz]
        simp [State.slicePixels, this]
      rw [he]; exact hm.pixForm
    · exact PixelBuffer.setAll_wf _ _ (hp.pixCleared hz) hm.pixForm
  refine ⟨⟨hc.1, hc.2, hc.3⟩, ⟨hb.1, hb.2, hb.3⟩,
    ⟨hm.1, hm.2, hm.3, hm.4, hwf, fun c hx => ?_, fun c hx => ?_⟩,
    ⟨hp.1, hp.2, hp.3, hp.4, hp.5, hp.6, hp.7, fun hz => ?_, hp.9, fun hz c hx => ?_⟩, hf, hbusy, hfr,
    ⟨hn.1, hn.2, hn.3, hn.4, hn.5.1, hn.5.2, hn.5.3, hn.5.4⟩⟩
  · rcases hmem c hx with hx | hx
    · exact lt_of_lt_of_le (hin c hx).1 hp.fits
    · exact hm.pixRange c hx
  · rcases hmem c hx with hx | hx
    · exact (hin c hx).2
    · exact hm.pixWord c hx
  · change (s.pix.setAll _).cleared = true
    rw [PixelBuffer.setAll_cleared]; exact hp.pixCleared hz
  · rcases hmem c hx with hx | hx
    · exact (hin c hx).1
    · exact hp.pixInside hz c hx

theorem Running.videoMacroblock {s t : State} {j : Nat} (h : Running s) (ht : videoMacroblock s j = .next t) : Inv t := by
  unfold Machine.videoMacroblock at ht
  split at ht
  · rename_i hj
    cases ht
    refine (h.update _).inv ?_ (by simp)
    constructor <;> intro hx <;> simp at hx
    exact hj
  · unfold videoEndSlice at ht
    dsimp only at ht
    split at ht
    · exact h.videoEnd ht
    · rename_i hs
      exact (h.composeSlice (by omega)).videoAtHeader ht

theorem Running.videoBlock {s t : State} {k : Nat} (h : Running s) (hmb : s.v.ctx.mb < s.v.mbPerRow.toNat)
    (ht : videoBlock s k = .next t) : Inv t := by
  unfold Machine.videoBlock at ht
  split at ht
  · rename_i hk
    cases ht
    refine (h.update _).inv ?_ (by simp)
    constructor <;> intro hx <;> simp at hx
    · exact hmb
    · exact hk
  · exact h.videoMacroblock ht

/-- A stored sample fits its width. -/
theorem inSigned_wrapTo (bits : Nat) (h : 1 ≤ bits) (v : Int) : InSigned bits (wrapTo bits v) := by
  unfold InSigned wrapTo
  have hpos : (0 : Int) < 2 ^ (bits - 1) := by positivity
  have e : ((2 ^ bits : Nat) : Int) = 2 * 2 ^ (bits - 1) := by
    push_cast
    rw [← pow_succ', Nat.sub_add_cancel h]
  have h1 := Int.le_bmod (x := v) (m := 2 ^ bits) (by positivity)
  have h2 := Int.bmod_lt (x := v) (m := 2 ^ bits) (by positivity)
  rw [e] at h1 h2
  constructor <;> omega

theorem idctColumn_length (coef : Block) (c : Nat) : (idctColumn coef c).length = 8 := by
  unfold idctColumn; dsimp only; split <;> simp [idctKernel]

theorem idctApply_length (choice : IdctChoice) (coef : Block) : (idctApply choice coef).length = 64 := by
  unfold idctApply
  split
  · simp [idctReference, idctRow, idctKernel, List.range, List.range.loop]
  · simp [formApply]

/-- The block at hand is stored. -/
theorem Running.videoEndBlock {s t : State} (h : Running s) (hmb : s.v.ctx.mb < s.v.mbPerRow.toNat)
    (ht : videoEndBlock s = .next t) : Inv t := by
  unfold Machine.videoEndBlock at ht
  dsimp only at ht
  refine Running.videoBlock ?_ ?_ ht
  · have hv := Config.valid_facts h.cursor.valid
    obtain ⟨hc, hb, hm, hp, hf, hbusy, hfr, hn⟩ := h
    refine ⟨⟨hc.1, hc.2, hc.3⟩, ⟨hb.1, hb.2, hb.3⟩, ⟨hm.1, hm.2, hm.3, hm.4, hm.5, hm.6, hm.7⟩,
      ⟨hp.1, hp.2, hp.3, hp.4, hp.5, ?_, ?_, hp.8, hp.9, hp.10⟩,
      hf, hbusy, hfr, ⟨hn.1, hn.2, hn.3, hn.4, hn.5.1, hn.5.2, hn.5.3, hn.5.4⟩⟩
    · change (s.v.grid.set _ _).length = _
      rw [List.length_set]; exact hp.gridLength
    · intro m hmem
      have hlen : s.v.ctx.mb < s.v.grid.length := by rw [hp.gridLength, hp.gridMbs]; exact hmb
      rcases List.mem_or_eq_of_mem_set hmem with hmem | rfl
      · exact hp.gridShape m hmem
      · have hold := hp.gridShape (s.v.grid.getD s.v.ctx.mb []) (by
          rw [List.getD_eq_getElem _ _ hlen]; exact List.getElem_mem hlen)
        refine ⟨by rw [List.length_set]; exact hold.1, fun b hbm => ?_⟩
        rcases List.mem_or_eq_of_mem_set hbm with hbm | rfl
        · exact hold.2 b hbm
        · refine ⟨by simp [idctStore, idctApply_length], fun x hx => ?_⟩
          obtain ⟨y, -, rfl⟩ := List.mem_map.1 hx
          exact inSigned_wrapTo _ (show 1 ≤ s.cfg.sampleBits by omega) y
  · exact hmb

theorem Running.videoSlice {s t : State} (h : Running s) (ht : videoSlice s = .next t) : Inv t :=
  (h.update _).videoMacroblock ht

/-! ## The picture header -/

/-- The dimensions of a format and a shift, without the disjunction of `LegalDimensions`. -/
theorem legalDimensions_of {f : BitVec 2} {r : BitVec 3} {bw bh : Nat} (hb : baseDimensions f = some (bw, bh))
    (hr : r ≠ 0) : LegalDimensions (bw * 2 ^ (r.toNat - 1)) (bh * 2 ^ (r.toNat - 1)) := by
  refine .inr ⟨r.toNat, ?_, by omega, ?_⟩
  · by_contra h
    exact hr (BitVec.eq_of_toNat_eq (by simp; omega))
  · unfold baseDimensions at hb
    split at hb
    · cases hb; exact .inl ⟨rfl, rfl⟩
    · cases hb; exact .inr ⟨rfl, rfl⟩
    · cases hb

/-- The dimensions of a picture by its number of macroblocks in a row (R217, R218, R220). -/
def dimensionsOfMb (m : Nat) : Nat × Nat :=
  match m with
  | 5 => (88, 72)
  | 10 => (160, 120)
  | 11 => (176, 144)
  | 20 => (320, 240)
  | 22 => (352, 288)
  | 40 => (640, 480)
  | 44 => (704, 576)
  | 80 => (1280, 960)
  | 88 => (1408, 1152)
  | 160 => (2560, 1920)
  | 176 => (2816, 2304)
  | 320 => (5120, 3840)
  | 352 => (5632, 4608)
  | 640 => (10240, 7680)
  | _ => (0, 0)

theorem LegalDimensions.eq {w h : Nat} (a : LegalDimensions w h) (hz : w / 16 ≠ 0) : (w, h) = dimensionsOfMb (w / 16) := by
  rcases a with ⟨rfl, rfl⟩ | ⟨r, h1, h2, a⟩
  · omega
  have hr : r = 1 ∨ r = 2 ∨ r = 3 ∨ r = 4 ∨ r = 5 ∨ r = 6 ∨ r = 7 := by omega
  rcases hr with rfl | rfl | rfl | rfl | rfl | rfl | rfl <;> rcases a with ⟨rfl, rfl⟩ | ⟨rfl, rfl⟩ <;> rfl

/-- Two pictures with the same number of macroblocks in a row have the same dimensions. -/
theorem LegalDimensions.unique {w h w' h' : Nat} (a : LegalDimensions w h) (b : LegalDimensions w' h')
    (hm : w / 16 = w' / 16) (hz : w' / 16 ≠ 0) : w = w' ∧ h = h' := by
  have e : (w, h) = (w', h') := by rw [a.eq (by omega), b.eq hz, hm]
  exact ⟨congrArg Prod.fst e, congrArg Prod.snd e⟩

/-- The dimensions are stored, and the grid and the pixels are made to fit them (R218 to R221). -/
theorem Running.setDimensions {s : State} (h : Running s) {w ht : Nat} (hl : LegalDimensions w ht) (hz : w / 16 ≠ 0)
    (hfit : w * ht ≤ s.cfg.pixEntries) (hgrid : w / 16 ≤ s.cfg.gridMaxMbs) : Running (s.setDimensions w ht) := by
  have hv := Config.valid_facts h.cursor.valid
  have hwb : w < 2 ^ 32 ∧ ht < 2 ^ 32 := by
    rcases hl with ⟨rfl, rfl⟩ | ⟨r, h1, h2, a⟩
    · omega
    · have hr : r = 1 ∨ r = 2 ∨ r = 3 ∨ r = 4 ∨ r = 5 ∨ r = 6 ∨ r = 7 := by omega
      rcases hr with rfl | rfl | rfl | rfl | rfl | rfl | rfl <;> simp at a <;> omega
  have ew : (BitVec.ofNat 32 w).toNat = w := by rw [BitVec.toNat_ofNat, Nat.mod_eq_of_lt hwb.1]
  have eh : (BitVec.ofNat 32 ht).toNat = ht := by rw [BitVec.toNat_ofNat, Nat.mod_eq_of_lt hwb.2]
  have em : (BitVec.ofNat 32 (w / 16)).toNat = w / 16 := by
    rw [BitVec.toNat_ofNat, Nat.mod_eq_of_lt (by omega)]
  have es : (BitVec.ofNat 32 (ht / 16)).toNat = ht / 16 := by
    rw [BitVec.toNat_ofNat, Nat.mod_eq_of_lt (by omega)]
  obtain ⟨hc, hb, hm, hp, hf, hbusy, hfr, hn⟩ := h
  unfold State.setDimensions
  dsimp only
  split
  · rename_i he
    have hsame : s.v.width.toNat = w ∧ s.v.height.toNat = ht := by
      refine hp.dimensions.unique hl ?_ hz
      rw [← hp.mbPerRow, ← hp.gridMbs, ← he, em]
    refine ⟨⟨hc.1, hc.2, hc.3⟩, ⟨hb.1, hb.2, hb.3⟩, ⟨hm.1, hm.2, hm.3, hm.4, hm.5, hm.6, hm.7⟩,
      ⟨?_, ?_, ?_, he.symm, hp.5, hp.6, hp.7, hp.8, ?_, fun hx => ?_⟩, hf, hbusy, hfr,
      ⟨hn.1, hn.2, hn.3, hn.4, hn.5.1, hn.5.2, hn.5.3, hn.5.4⟩⟩ <;> dsimp only
    · rw [em, ew]
    · rw [es, eh]
    · rw [ew, eh]; exact hfit
    · rw [ew, eh]; exact hl
    · rw [ew, eh, ← hsame.1, ← hsame.2]; exact hp.pixInside hx
  · refine ⟨⟨hc.1, hc.2, hc.3⟩, ⟨hb.1, hb.2, hb.3⟩, ⟨hm.1, hm.2, hm.3, hm.4, rfl, fun c hx => ?_, fun c hx => ?_⟩,
      ⟨?_, ?_, ?_, rfl, ?_, ?_, ?_, fun _ => rfl, ?_, fun _ c hx => ?_⟩, hf, hbusy, hfr,
      ⟨hn.1, hn.2, hn.3, hn.4, hn.5.1, hn.5.2, hn.5.3, hn.5.4⟩⟩ <;> (try dsimp only [State.realloc])
    · cases hx
    · cases hx
    · rw [em, ew]
    · rw [es, eh]
    · rw [ew, eh]; exact hfit
    · rw [em]; exact hgrid
    · rw [List.length_replicate]
    · intro m hmem
      rw [List.eq_of_mem_replicate hmem]
      refine ⟨List.length_replicate, fun b hbm => ?_⟩
      rw [List.eq_of_mem_replicate hbm]
      refine ⟨List.length_replicate, fun x hx => ?_⟩
      rw [List.eq_of_mem_replicate hx]
      unfold InSigned
      have : (0 : Int) < 2 ^ (s.cfg.sampleBits - 1) := by positivity
      constructor <;> omega
    · rw [ew, eh]; exact hl
    · cases hx

theorem baseDimensions_mb {f : BitVec 2} {bw bh : Nat} (hb : baseDimensions f = some (bw, bh)) (k : Nat) :
    bw * 2 ^ k / 16 ≠ 0 := by
  have h1 : 1 ≤ 2 ^ k := Nat.one_le_two_pow
  unfold baseDimensions at hb
  split at hb
  · cases hb; omega
  · cases hb; omega
  · cases hb

theorem Running.pictureDimensions {s t : State} {f : BitVec 2} {r : BitVec 3} (h : Running s)
    (ht : pictureDimensions s f r = .next t) : Inv t := by
  unfold Machine.pictureDimensions at ht
  split at ht
  · exact h.videoEnd ht
  · rename_i bw bh hb
    split at ht
    · exact h.videoEnd ht
    · rename_i hr
      dsimp only at ht
      split at ht
      · exact h.videoEnd ht
      · rename_i hn
        exact (h.setDimensions (legalDimensions_of hb hr) (baseDimensions_mb hb _) (by omega) (by omega)).videoSlice ht

theorem Running.readPictureHeader {s t : State} {f : BitVec 2} {r p : BitVec 3} {q : BitVec 5} {i : BitVec 32}
    (h : Running s) (ht : readPictureHeader f r p q i s = .next t) : Inv t := by
  refine h.videoTake (fun s1 h1 _ _ _ ht => ?_) ht
  refine (h1.update _).videoTake (fun s2 h2 _ _ _ ht => ?_) ht
  refine (h2.update _).videoTake (fun s3 h3 _ _ _ ht => ?_) ht
  refine (h3.update _).videoTake (fun s4 h4 _ _ _ ht => ?_) ht
  exact (h4.update _).videoTake (fun s5 h5 _ _ _ ht => (h5.update _).pictureDimensions ht) ht

/-! ## The other elements -/

theorem Running.videoStartCode {s t : State} {k : State → StepOutcome State} (h : Running s)
    (hk : ∀ u, Running u → u.v.sliceIndex = s.v.sliceIndex → k u = .next t → Inv t)
    (ht : videoStartCode s k = .next t) : Inv t := by
  refine Running.videoTake (s := s.brAlign) ?_ (fun u hu _ _ hs hku => hk u hu (hs.trans ?_) hku) ht
  · rw [brAlign_eq]; exact h.brMoveTo (alignedAt_le h.cursor)
  · rw [brAlign_eq]; simp

theorem Running.startSlice {s t : State} (h : Running s) (ht : startSlice s = .next t) : Inv t := by
  refine h.videoStartCode (fun u hu _ hk => ?_) ht
  by_cases hz : u.v.sliceIndex = 0
  · rw [if_pos hz] at hk
    cases hk
    refine (hu.update _).inv ?_ (by simp)
    constructor <;> intro hx <;> simp at hx
    exact hz
  · rw [if_neg hz] at hk
    cases hk
    refine (hu.update _).inv ?_ (by simp)
    constructor <;> intro hx <;> simp at hx
    exact hz

theorem Running.endPicture {s t : State} (h : Running s) (ht : endPicture s = .next t) : Inv t := by
  refine h.videoStartCode (fun u hu _ hk => ?_) ht
  refine Running.videoEnd ?_ hk
  obtain ⟨hc, hb, hm, hp, hf, hbusy, hfr, hn⟩ := hu
  exact ⟨⟨hc.1, hc.2, hc.3⟩, ⟨hb.1, hb.2, hb.3⟩, ⟨hm.1, hm.2, hm.3, hm.4, hm.5, hm.6, hm.7⟩,
    ⟨hp.1, hp.2, hp.3, hp.4, hp.5, hp.6, hp.7, hp.8, hp.9, hp.10⟩, rfl, hbusy, hfr,
    ⟨hn.1, hn.2, hn.3, hn.4, hn.5.1, hn.5.2, hn.5.3, hn.5.4⟩⟩

theorem Running.readSliceQuant {s t : State} {q : BitVec 5} (h : Running s) (ht : readSliceQuant q s = .next t) : Inv t :=
  h.videoTake (fun _ hu _ _ _ hk => (hu.update _).videoSlice hk) ht

theorem Running.emptyMacroblock {s t : State} (h : Running s) (ht : emptyMacroblock s = .next t) : Inv t :=
  h.videoTake (fun _ hu _ _ _ hk => hu.videoMacroblock hk) ht

theorem Running.codedMacroblock {s t : State} (h : Running s) (hmb : s.v.ctx.mb < s.v.mbPerRow.toNat)
    (ht : codedMacroblock s = .next t) : Inv t := by
  refine h.videoTake (fun u hu hc hm _ hk => ?_) ht
  cases hk
  rw [← hc, ← hm] at hmb
  refine (hu.update _).inv ?_ (by simp)
  constructor <;> intro hx <;> simp at hx
  exact hmb

theorem Running.readPresence {s t : State} {d : BitVec 8} (h : Running s) (hmb : s.v.ctx.mb < s.v.mbPerRow.toNat)
    (ht : readPresence d s = .next t) : Inv t := by
  refine h.videoTake (fun u hu hc hm _ hk => ?_) ht
  rw [← hc, ← hm] at hmb
  dsimp only at hk
  split at hk
  · cases hk
    refine (hu.update _).inv ?_ (by simp)
    constructor <;> intro hx <;> simp at hx
    exact hmb
  · exact Running.videoBlock (hu.update _) (by exact hmb) hk

theorem Running.readQuantDelta {s t : State} {d : BitVec 2} (h : Running s) (hmb : s.v.ctx.mb < s.v.mbPerRow.toNat)
    (ht : readQuantDelta d s = .next t) : Inv t := by
  refine h.videoTake (fun u hu hc hm _ hk => ?_) ht
  rw [← hc, ← hm] at hmb
  exact Running.videoBlock (hu.update _) (by exact hmb) hk

theorem Running.readDc {s t : State} {d : BitVec 10} (h : Running s) (hmb : s.v.ctx.mb < s.v.mbPerRow.toNat)
    (hblk : s.v.ctx.blk < 6) (ht : readDc d s = .next t) : Inv t := by
  refine h.videoTake (fun u hu hc hm _ hk => ?_) ht
  rw [← hc, ← hm] at hmb
  rw [← hc] at hblk
  dsimp only at hk
  split at hk
  · cases hk
    refine (hu.update _).inv ?_ (by simp)
    constructor <;> intro hx <;> simp at hx
    · exact hmb
    · exact hblk
    · exact ⟨by simp, by simp⟩
  · exact Running.videoEndBlock (hu.update _) (by exact hmb) hk

theorem Running.inspectRun {s t : State} {z e : Nat} (h : Running s) (hmb : s.v.ctx.mb < s.v.mbPerRow.toNat)
    (hblk : s.v.ctx.blk < 6) (hcoef : s.v.ctx.coef.length = 64 ∧ s.v.ctx.scan ≤ 63) (hz : z ≤ 15)
    (ht : inspectRun z e s = .next t) : Inv t := by
  cases ht
  refine (h.update _).inv ?_ (by simp)
  constructor <;> intro hx <;> simp at hx
  · exact hmb
  · exact hblk
  · exact hcoef
  · unfold runLength; dsimp only; split <;> omega

theorem Running.storeLevel {s t : State} {z m : Nat} {b : Bool} (h : Running s)
    (hmb : s.v.ctx.mb < s.v.mbPerRow.toNat) (hblk : s.v.ctx.blk < 6)
    (hcoef : s.v.ctx.coef.length = 64 ∧ s.v.ctx.scan ≤ 63) (ht : storeLevel z m b s = .next t) : Inv t := by
  refine h.takePair (fun u hu hc hm hk => ?_) ht
  rw [← hc, ← hm] at hmb
  rw [← hc] at hblk hcoef
  dsimp only at hk
  split at hk
  · exact hu.videoEnd hk
  · cases hk
    refine (hu.update _).inv ?_ (by simp)
    constructor <;> intro hx <;> simp at hx
    · exact hmb
    · exact hblk
    · exact ⟨by rw [List.length_set]; exact hcoef.1, by dsimp only; omega⟩

theorem Running.endOfBlock {s t : State} (h : Running s) (hmb : s.v.ctx.mb < s.v.mbPerRow.toNat)
    (ht : endOfBlock s = .next t) : Inv t :=
  h.takePair (fun u hu hc hm hk => hu.videoEndBlock (by rw [hc, hm]; exact hmb) hk) ht

/-! ## One element, a whole decode, the other commands -/

/-- An element of the stream is what its instruction does. -/
theorem videoElement_exec {s : State} {c : DecCtx} {w : Nat} {i : Instr} (hw : videoWindow s = some (c, w))
    (hd : decode c w = .ok i) : videoElement s = exec i s := by
  unfold videoElement
  rw [hw]
  dsimp only
  rw [hd]
  dsimp only
  unfold videoWindow at hw
  split at hw <;> cases hw
  · unfold decode decodeStartCode at hd
    dsimp only at hd
    split at hd
    · cases hd
    · split at hd <;> cases hd <;> rfl
  · cases hd; rfl
  · cases hd; rfl
  · unfold decode at hd; dsimp only at hd; split at hd <;> cases hd <;> rfl
  · cases hd; rfl
  · cases hd; rfl
  · cases hd; rfl
  · unfold decode decodeRun at hd; dsimp only at hd; split at hd <;> cases hd <;> rfl
  · unfold decode decodeLevel at hd; dsimp only at hd; split at hd <;> cases hd <;> rfl

/-- Bits that are no element have their error. -/
theorem videoElement_reject {s : State} {c : DecCtx} {w : Nat} {r : Reject} (hw : videoWindow s = some (c, w))
    (hd : decode c w = .error r) : videoElement s = videoReject r s := by
  unfold videoElement
  rw [hw]
  dsimp only
  rw [hd]

theorem Running.videoReject {s t : State} {r : Reject} (h : Running s) (ht : videoReject r s = .next t) : Inv t := by
  cases r
  case badStartCode => exact h.videoStartCode (fun _ hu _ hk => hu.videoEnd hk) ht
  all_goals exact h.videoEnd ht

/-- Every element keeps the invariant. -/
theorem Inv.videoElement {s t : State} (h : Inv s) (ht : videoElement s = .next t) : Inv t := by
  unfold Machine.videoElement at ht
  split at ht
  · cases ht; exact h
  rename_i c w hw
  unfold videoWindow at hw
  have hr (hp : s.v.ctx.phase ≠ .idle) : Running s := h.running_of_phase hp
  have hmb := h.video.macroblock
  have hblk := h.video.block
  have hco := h.video.coefficients
  split at hw <;> cases hw <;> rename_i hp <;> rw [hp] at hmb hblk hco hr <;> simp at hmb hblk hco hr
  · split at ht
    · rename_i i hd
      unfold decode decodeStartCode at hd
      dsimp only at hd
      split at hd
      · cases hd
      · split at hd <;> cases hd
        · exact hr.endPicture ht
        · exact hr.startSlice ht
    · exact hr.videoReject ht
  · exact hr.readPictureHeader ht
  · exact hr.readSliceQuant ht
  · unfold decode at ht
    dsimp only at ht
    split at ht
    · exact hr.emptyMacroblock ht
    · exact hr.codedMacroblock hmb ht
  · exact hr.readPresence hmb ht
  · exact hr.readQuantDelta hmb ht
  · exact hr.readDc hmb hblk ht
  · unfold decode decodeRun at ht
    dsimp only at ht
    split at ht <;> first
      | exact hr.inspectRun hmb hblk hco (by omega) ht
      | exact hr.videoEnd ht
  · split at ht
    · rename_i i hd
      unfold decode decodeLevel at hd
      dsimp only at hd
      split at hd <;> cases hd <;> first
        | exact hr.storeLevel hmb hblk hco ht
        | exact hr.endOfBlock hmb ht
    · exact hr.videoReject ht

theorem Inv.videoLoop {n : Nat} {s t : State} (h : Inv s) (ht : videoLoop n s = .next t) : Inv t :=
  videoLoop_invariant (P := Inv) (fun _ _ hs hu => hs.videoElement hu) n s t h ht

/-- A cursor is started over `V_LEN` bytes that fit the buffer. -/
theorem Running.brStart {s : State} (h : Running s) (hl : s.v.len.toNat ≤ s.cfg.vinBytes) : Running s.brStart := by
  obtain ⟨hc, hb, hm, hp, hf, hbusy, hfr, hn⟩ := h
  refine ⟨⟨hc.1, hl, ?_⟩, brStateOk_of_synced (movedTo_brMoveTo _ 0 (by omega)).2.2,
    ⟨hm.1, hm.2, hm.3, hm.4, hm.5, hm.6, hm.7⟩,
    ⟨hp.1, hp.2, hp.3, hp.4, hp.5, hp.6, hp.7, hp.8, hp.9, hp.10⟩, hf, hbusy, hfr,
    ⟨hn.1, hn.2, hn.3, hn.4, hn.5.1, hn.5.2, hn.5.3, hn.5.4⟩⟩
  rw [show s.brStart.brAt = 0 from brAt_brMoveTo _ 0 (by omega)]
  exact Nat.zero_le _

theorem Running.videoBegin {s t : State} (h : Running s) (ht : videoBegin s = .next t) : Inv t := by
  have h' : Running { s with v := { s.v with
      status := { s.v.status with picComplete := false, frameValid := false } } } := by
    obtain ⟨hc, hb, hm, hp, hf, hbusy, hfr, hn⟩ := h
    exact ⟨⟨hc.1, hc.2, hc.3⟩, ⟨hb.1, hb.2, hb.3⟩, ⟨hm.1, hm.2, hm.3, hm.4, hm.5, hm.6, hm.7⟩,
      ⟨hp.1, hp.2, hp.3, hp.4, hp.5, hp.6, hp.7, hp.8, hp.9, hp.10⟩, rfl, hbusy, hfr,
      ⟨hn.1, hn.2, hn.3, hn.4, hn.5.1, hn.5.2, hn.5.3, hn.5.4⟩⟩
  unfold Machine.videoBegin at ht
  dsimp only at ht
  split at ht
  · exact h'.videoEnd ht
  · rename_i hl
    exact Running.videoAtHeader ((h'.brStart (by simpa using hl)).update _) ht

theorem Running.execVDecode {s t : State} (h : Running s) (ht : execVDecode s = .next t) : Inv t := by
  unfold Machine.execVDecode at ht
  split at ht
  · rename_i u hu
    exact (h.videoBegin hu).videoLoop ht
  · rename_i ho
    exact absurd ht (ho t)

/-- Every command word of the VDU keeps the invariant. -/
theorem Running.command {s t : State} {w : Nat} {i : Instr} (h : Running s) (hd : decode .vCmd w = .ok i)
    (ht : exec i s = .next t) : Inv t := by
  unfold decode decodeVCmd at hd
  dsimp only at hd
  split at hd
  · cases hd
  · split at hd <;> (try split at hd) <;> cases hd
    · exact h.videoEnd ht
    · exact h.execVDecode ht
    · change execBrInit s = .next t at ht
      unfold execBrInit at ht
      split at ht
      · exact h.videoEnd ht
      · exact ((h.brStart (by omega)).update _).videoEnd ht
    · exact h.videoTake (fun u hu _ _ _ hk => (hu.update _).videoEnd hk) ht
    · exact (h.update _).videoEnd ht
    · have hb : Running s.brAlign := by rw [brAlign_eq]; exact h.brMoveTo (alignedAt_le h.cursor)
      exact hb.videoEnd ht
    · exact (h.update _).videoEnd ht
    · change execBrRldec s = .next t at ht
      unfold execBrRldec at ht
      split at ht
      · exact h.videoEnd ht
      · exact h.videoTake (fun u hu _ _ _ hk => (hu.update _).videoEnd hk) ht

/-! ## The NDU with a command in progress -/

/-- The VDU's part of the invariant, with the memories. -/
structure VduOk (s : State) : Prop where
  cursor : CursorOk s
  brState : BrStateOk s
  buffers : BuffersOk s
  picture : PictureOk s
  idle : s.v.status.busy = false → s.v.pending = none ∧ s.v.ctx = VideoCtx.idle
  busy : s.v.status.busy = true → s.v.status.done = false ∧ s.v.status.err = .none
  word : s.v.status.busy = true → s.v.ctx.phase = .idle → s.v.pending ≠ none
  frame : s.v.status.frameValid = s.v.status.picComplete
  video : VideoPlaceOk s

/-- The invariant of a state whose NDU performs a command, but for the place inside it: no result is out. -/
structure Walking (s : State) : Prop where
  vdu : VduOk s
  busy : s.n.status.busy = true
  fresh : s.n.status.done = false ∧ s.n.status.err = .none
  noResult : s.n.status.valid = false

theorem Inv.vduOk {s : State} (h : Inv s) : VduOk s :=
  ⟨h.cursor, h.brState, h.buffers, h.picture, h.status.vduIdle, h.status.vduBusy, h.status.vduWord, h.status.frame,
    h.video⟩

/-- The registers of the NDU are none of the VDU's business. -/
theorem VduOk.update {s : State} (h : VduOk s) (n : Ndu) (b : BitVec 5) (p : HostPort) :
    VduOk { s with n := n, irqStatus := b, host := p } := by
  obtain ⟨hc, hb, hm, hp, hi, hbu, hw, hf, hv⟩ := h
  exact ⟨⟨hc.1, hc.2, hc.3⟩, ⟨hb.1, hb.2, hb.3⟩, ⟨hm.1, hm.2, hm.3, hm.4, hm.5, hm.6, hm.7⟩,
    ⟨hp.1, hp.2, hp.3, hp.4, hp.5, hp.6, hp.7, hp.8, hp.9, hp.10⟩, hi, hbu, hw, hf,
    ⟨hv.1, hv.2, hv.3, hv.4, hv.5, hv.6⟩⟩

/-- Inside a walk the NDU is busy and no result is out. -/
theorem Inv.walking_of_phase {s : State} (h : Inv s) (hp : s.n.ctx.phase ≠ .idle) : Walking s := by
  have hb : s.n.status.busy = true := by
    by_contra hb
    exact hp (by rw [(h.status.nduIdle (by simpa using hb)).2]; rfl)
  exact ⟨h.vduOk, hb, h.status.nduBusy hb, h.nav.noResult hp⟩

/-- The two parts make the invariant. -/
theorem inv_of_parts {s : State} (h : VduOk s) (g : NduOk s) : Inv s :=
  ⟨h.cursor, h.brState, h.buffers, h.picture,
    ⟨h.idle, h.busy, h.word, h.frame, g.idle, g.busy, g.word, g.navValid⟩, h.video, g.nav⟩

/-- The end of a command. -/
theorem inv_navEnd {s t : State} {e : Err} (h : VduOk s)
    (hv : s.n.status.valid = true → s.n.status.cksSeen = true ∧ s.n.cksRx = s.n.cksCalc)
    (ht : navEnd s e = .next t) : Inv t := by
  cases ht
  refine inv_of_parts (h.update _ _ s.host) ⟨fun _ => ⟨rfl, rfl⟩, fun hx => (Bool.false_ne_true hx).elim,
    fun hx => (Bool.false_ne_true hx).elim, hv, ?_⟩
  constructor <;> intro hx <;> simp [State.complete, State.raiseIrq, NavCtx.idle] at hx

theorem Walking.navEnd {s t : State} {e : Err} (h : Walking s) (ht : navEnd s e = .next t) : Inv t :=
  inv_navEnd h.vdu (fun hx => by rw [h.noResult] at hx; exact (Bool.false_ne_true hx).elim) ht

theorem Walking.navFinish {s t : State} {pos : Nat} {tr : Bool} (h : Walking s) (ht : navFinish s pos tr = .next t) :
    Inv t := by
  refine inv_navEnd (h.vdu.update _ s.irqStatus s.host) (fun hx => ?_) ht
  simpa using hx

/-- Other registers of the NDU and the place may change. -/
theorem Walking.update {s : State} (h : Walking s) (n : Ndu) (h1 : n.status.busy = s.n.status.busy := by rfl)
    (h2 : n.status.done = s.n.status.done := by rfl) (h3 : n.status.err = s.n.status.err := by rfl)
    (h4 : n.status.valid = s.n.status.valid := by rfl) : Walking { s with n := n } :=
  ⟨h.vdu.update n s.irqStatus s.host, h1.trans h.busy, ⟨h2.trans h.fresh.1, h3.trans h.fresh.2⟩, h4.trans h.noResult⟩

/-- The invariant at a place of the walk. -/
theorem Walking.inv {s : State} (h : Walking s) (hp : s.n.ctx.phase ≠ .idle) (hv : NavPlaceOk s) : Inv s :=
  inv_of_parts h.vdu ⟨fun hx => by rw [h.busy] at hx; exact (Bool.false_ne_true hx.symm).elim, fun _ => h.fresh,
    fun _ hx => absurd hx hp, fun hx => by rw [h.noResult] at hx; exact (Bool.false_ne_true hx).elim, hv⟩

theorem Walking.navAt {s t : State} {pos : Nat} (h : Walking s) (hl : 16 ≤ s.n.len.toNat ∧ s.n.len.toNat ≤ s.cfg.ninBytes)
    (hp : 16 ≤ pos) (ht : navAt s pos = .next t) : Inv t := by
  unfold Machine.navAt at ht
  split at ht
  · exact h.navFinish ht
  · rename_i hn
    cases ht
    refine (h.update _).inv (by simp) ⟨fun _ => hl, fun _ => h.noResult, fun _ => ⟨hp, ?_⟩, fun hx => by simp at hx⟩
    dsimp only
    omega

/-- A form of the datagram is what its instruction does. -/
theorem navForm_exec {s : State} {c : DecCtx} {w : Nat} {i : Instr} (hw : navWindow s = some (c, w))
    (hd : decode c w = .ok i) : navForm s = exec i s := by
  unfold navForm
  rw [hw]
  dsimp only
  rw [hd]
  dsimp only
  unfold navWindow at hw
  split at hw <;> cases hw
  · cases hd; rfl
  · cases hd; rfl
  · unfold decode decodeNavRecord at hd
    dsimp only at hd
    split at hd
    · cases hd; rfl
    · split at hd
      · cases hd; rfl
      · split at hd <;> cases hd <;> rfl

/-- The bytes of a datagram are always some form. -/
theorem navWindow_decode {s : State} {c : DecCtx} {w : Nat} (hw : navWindow s = some (c, w)) :
    ∃ i, decode c w = .ok i := by
  unfold navWindow at hw
  split at hw <;> cases hw <;> exact ⟨_, rfl⟩

/-- Every form keeps the invariant. -/
theorem Inv.navForm {s t : State} (h : Inv s) (ht : navForm s = .next t) : Inv t := by
  unfold Machine.navForm at ht
  split at ht
  · cases ht; exact h
  rename_i c w hw
  unfold navWindow at hw
  have hr (hp : s.n.ctx.phase ≠ .idle) : Walking s := h.walking_of_phase hp
  have hlen := h.nav.length
  have hrec := h.nav.record
  have hhdr := h.nav.header
  split at hw <;> cases hw <;> rename_i hp <;> rw [hp] at hlen hrec hr hhdr <;> simp at hlen hrec hr hhdr
  · exact Walking.navAt (hr.update _) (by exact hlen) (le_refl _) ht
  · change readRecordHeader _ _ s = .next t at ht
    unfold readRecordHeader at ht
    dsimp only at ht
    split at ht
    · exact hr.navFinish ht
    · rename_i hn
      rw [not_or] at hn
      cases ht
      exact (hr.update _).inv (by simp) ⟨fun _ => hlen, fun _ => hr.noResult, fun hx => by simp at hx,
        fun _ => ⟨hhdr.1, hn.1, by dsimp only; omega⟩⟩
  · have hpos : 16 ≤ s.n.ctx.pos + s.n.ctx.size.toNat := by omega
    unfold decode decodeNavRecord at ht
    dsimp only at ht
    split at ht
    · exact Walking.navAt (hr.update _) (by exact hlen) (by exact hpos) ht
    · split at ht
      · exact Walking.navAt (hr.update _) (by exact hlen) (by exact hpos) ht
      · split at ht
        · exact Walking.navAt (hr.update _) (by exact hlen) (by exact hpos) ht
        · exact hr.navAt hlen hpos ht

theorem Inv.navLoop {n : Nat} {s t : State} (h : Inv s) (ht : navLoop n s = .next t) : Inv t :=
  navLoop_invariant (P := Inv) (fun _ _ hs hu => hs.navForm hu) n s t h ht

/-- Every command word of the NDU keeps the invariant. -/
theorem Inv.navCommand {s t : State} {w : Nat} {i : Instr} (h : Inv s) (hb : s.n.status.busy = true)
    (hd : decode .nCmd w = .ok i) (ht : exec i s = .next t) : Inv t := by
  unfold decode decodeNCmd at hd
  dsimp only at hd
  split at hd
  · cases hd
  · split at hd <;> (try split at hd) <;> cases hd
    · exact inv_navEnd h.vduOk h.status.navValid ht
    · change execNDecode s = .next t at ht
      have hc : Walking s.clearResults :=
        ⟨h.vduOk.update _ s.irqStatus s.host, hb, h.status.nduBusy hb, rfl⟩
      unfold execNDecode at ht
      split at ht
      · rename_i u hu
        refine Inv.navLoop ?_ ht
        unfold navBegin at hu
        dsimp only at hu
        split at hu
        · exact hc.navEnd hu
        · rename_i h1
          split at hu
          · exact hc.navEnd hu
          · rename_i h2
            cases hu
            exact (hc.update _).inv (by simp) ⟨fun _ => ⟨Nat.le_of_not_lt h2, Nat.le_of_not_lt h1⟩, fun _ => rfl,
              fun hx => by simp at hx, fun hx => by simp at hx⟩
      · rename_i ho
        exact absurd ht (ho t)

/-! ## The host -/

/-- The host port is no part of the invariant. -/
theorem Inv.host {s : State} (h : Inv s) (p : HostPort) : Inv { s with host := p } :=
  inv_of_parts (h.vduOk.update s.n s.irqStatus p)
    ⟨h.status.nduIdle, h.status.nduBusy, h.status.nduWord, h.status.navValid, ⟨h.nav.1, h.nav.2, h.nav.3, h.nav.4⟩⟩

/-- Nor are the interrupt registers. -/
theorem Inv.irq {s : State} (h : Inv s) (a b : BitVec 5) : Inv { s with irqStatus := a, irqEnable := b } := by
  obtain ⟨hc, hb, hm, hp, hi, hbu, hw, hf, hv⟩ := h.vduOk
  exact inv_of_parts ⟨⟨hc.1, hc.2, hc.3⟩, ⟨hb.1, hb.2, hb.3⟩, ⟨hm.1, hm.2, hm.3, hm.4, hm.5, hm.6, hm.7⟩,
    ⟨hp.1, hp.2, hp.3, hp.4, hp.5, hp.6, hp.7, hp.8, hp.9, hp.10⟩, hi, hbu, hw, hf,
    ⟨hv.1, hv.2, hv.3, hv.4, hv.5, hv.6⟩⟩
    ⟨h.status.nduIdle, h.status.nduBusy, h.status.nduWord, h.status.navValid, ⟨h.nav.1, h.nav.2, h.nav.3, h.nav.4⟩⟩

/-- A reset of a unit (R412). -/
theorem Inv.resetUnit {s : State} (h : Inv s) (u : DecodeUnit) : Inv (s.resetUnit u) := by
  cases u
  · have hp : PictureOk (s.resetUnit .vdu) :=
      ⟨by simp [State.resetUnit, Vdu.reset], by simp [State.resetUnit, Vdu.reset], by simp [State.resetUnit, Vdu.reset],
        rfl, by simp [State.resetUnit, Vdu.reset], rfl, fun m hm => absurd hm List.not_mem_nil, fun hx => absurd rfl hx,
        .inl ⟨rfl, rfl⟩, fun hx => absurd rfl hx⟩
    refine inv_of_parts ⟨⟨h.cursor.valid, Nat.zero_le _, Nat.zero_le _⟩,
      ⟨fun _ => rfl, fun hx => absurd rfl hx, ⟨(by decide : 1 ≤ 32), (by decide : 32 ≤ 32)⟩⟩,
      ⟨h.buffers.1, h.buffers.2, h.buffers.3, h.buffers.4, h.buffers.5, h.buffers.6, h.buffers.7⟩, hp,
      fun _ => ⟨rfl, rfl⟩, fun hx => (Bool.false_ne_true hx).elim, fun hx => (Bool.false_ne_true hx).elim, rfl, ?_⟩
      ⟨h.status.nduIdle, h.status.nduBusy, h.status.nduWord, h.status.navValid,
        ⟨h.nav.1, h.nav.2, h.nav.3, h.nav.4⟩⟩
    constructor <;> intro hx <;> simp [State.resetUnit, Vdu.reset, VideoCtx.idle] at hx
  · refine inv_of_parts (h.vduOk.update _ _ s.host) ⟨fun _ => ⟨rfl, rfl⟩, fun hx => (Bool.false_ne_true hx).elim,
      fun hx => (Bool.false_ne_true hx).elim, fun hx => (Bool.false_ne_true hx).elim, ?_⟩
    constructor <;> intro hx <;> simp [State.resetUnit, Ndu.reset, NavCtx.idle] at hx

/-- A command word written by the host (R358, R383). -/
theorem Inv.accept {s : State} (h : Inv s) (u : DecodeUnit) (w : Word) : Inv (s.accept u w) := by
  obtain ⟨hc, hb, hm, hp, hi, hbu, hw, hf, hv⟩ := h.vduOk
  have hn := h.nduOk
  cases u <;> unfold State.accept <;> dsimp only <;> split <;> rename_i hbusy
  · exact inv_of_parts ⟨⟨hc.1, hc.2, hc.3⟩, ⟨hb.1, hb.2, hb.3⟩, ⟨hm.1, hm.2, hm.3, hm.4, hm.5, hm.6, hm.7⟩,
      ⟨hp.1, hp.2, hp.3, hp.4, hp.5, hp.6, hp.7, hp.8, hp.9, hp.10⟩, hi, hbu, hw, hf,
      ⟨hv.1, hv.2, hv.3, hv.4, hv.5, hv.6⟩⟩ ⟨hn.1, hn.2, hn.3, hn.4, ⟨hn.5.1, hn.5.2, hn.5.3, hn.5.4⟩⟩
  · exact inv_of_parts ⟨⟨hc.1, hc.2, hc.3⟩, ⟨hb.1, hb.2, hb.3⟩, ⟨hm.1, hm.2, hm.3, hm.4, hm.5, hm.6, hm.7⟩,
      ⟨hp.1, hp.2, hp.3, hp.4, hp.5, hp.6, hp.7, hp.8, hp.9, hp.10⟩, fun hx => (Bool.false_ne_true hx.symm).elim,
      fun _ => ⟨rfl, rfl⟩, fun _ _ hx => (Option.some_ne_none _ hx).elim, hf,
      ⟨hv.1, hv.2, hv.3, hv.4, hv.5, hv.6⟩⟩ ⟨hn.1, hn.2, hn.3, hn.4, ⟨hn.5.1, hn.5.2, hn.5.3, hn.5.4⟩⟩
  · exact inv_of_parts (h.vduOk.update _ s.irqStatus s.host)
      ⟨hn.1, hn.2, hn.3, hn.4, ⟨hn.5.1, hn.5.2, hn.5.3, hn.5.4⟩⟩
  · exact inv_of_parts (h.vduOk.update _ s.irqStatus s.host)
      ⟨fun hx => (Bool.false_ne_true hx.symm).elim, fun _ => ⟨rfl, rfl⟩, fun _ _ hx => (Option.some_ne_none _ hx).elim, hn.4,
        ⟨hn.5.1, hn.5.2, hn.5.3, hn.5.4⟩⟩

/-- Where an allowed access lies. -/
theorem resolveAccess_bound {cfg : Config} {addr width a : Nat} {sp : Space}
    (h : resolveAccess cfg addr width = .ok (sp, a)) : a + width ≤ sp.bytes cfg := by
  unfold resolveAccess at h
  split at h
  · cases h
  · split at h
    · cases h
    · split at h
      · cases h
      · split at h <;> cases h
        omega

/-- Every host access that is no instruction keeps the invariant. -/
theorem Inv.hostAccess {s t : State} {acc : HostAccess} (h : Inv s) (ht : hostAccess acc s = .next t) : Inv t := by
  unfold Machine.hostAccess at ht
  split at ht
  · split at ht <;> cases ht
    exact h.host _
  · split at ht
    · cases ht
    · rename_i sp a hr
      have hb := resolveAccess_bound hr
      unfold State.hostWrite at ht
      split at ht
      · unfold State.hostWriteReg at ht
        split at ht <;> cases ht
        · exact h.accept _ _
        · exact h.accept _ _
        · exact h
      · split at ht <;> cases ht
        obtain ⟨hc, hb', hm, hp, hi, hbu, hw, hf, hv⟩ := h.vduOk
        have hn := h.nduOk
        exact inv_of_parts ⟨⟨hc.1, hc.2, hc.3⟩, ⟨hb'.1, hb'.2, hb'.3⟩, ⟨memWrite_wf _ _ _ _ hm.1, fun c hx => by
          rcases mem_memWrite _ _ _ _ c hx with hx | hx
          · exact hm.2 c hx
          · exact lt_of_lt_of_le hx.2 hb, hm.3, hm.4, hm.5, hm.6, hm.7⟩,
          ⟨hp.1, hp.2, hp.3, hp.4, hp.5, hp.6, hp.7, hp.8, hp.9, hp.10⟩, hi, hbu, hw, hf,
          ⟨hv.1, hv.2, hv.3, hv.4, hv.5, hv.6⟩⟩ ⟨hn.1, hn.2, hn.3, hn.4, ⟨hn.5.1, hn.5.2, hn.5.3, hn.5.4⟩⟩
      · split at ht <;> cases ht
        obtain ⟨hc, hb', hm, hp, hi, hbu, hw, hf, hv⟩ := h.vduOk
        have hn := h.nduOk
        exact inv_of_parts ⟨⟨hc.1, hc.2, hc.3⟩, ⟨hb'.1, hb'.2, hb'.3⟩, ⟨hm.1, hm.2, memWrite_wf _ _ _ _ hm.3, fun c hx => by
          rcases mem_memWrite _ _ _ _ c hx with hx | hx
          · exact hm.4 c hx
          · exact lt_of_lt_of_le hx.2 hb, hm.5, hm.6, hm.7⟩,
          ⟨hp.1, hp.2, hp.3, hp.4, hp.5, hp.6, hp.7, hp.8, hp.9, hp.10⟩, hi, hbu, hw, hf,
          ⟨hv.1, hv.2, hv.3, hv.4, hv.5, hv.6⟩⟩ ⟨hn.1, hn.2, hn.3, hn.4, ⟨hn.5.1, hn.5.2, hn.5.3, hn.5.4⟩⟩
      · cases ht; exact h

end Sys2Proof.Machine
end

