-- ==== Sys2Proof/Laws/Progress.lean ====
section
/-!
SUPPORT. Every element of the stream answers a next state and consumes a bit, ends the command, or is a run code, so that
the loop of `V.DECODE` ends inside its bound (R7, R211, R252); the same of the NavData walk (R176).
-/

namespace Sys2Proof.Machine

/-! ## The shared operations always answer a next state -/

theorem videoAtHeader_next (s : State) : ∃ t, videoAtHeader s = .next t :=
  let ⟨t, h, _⟩ := videoAtHeader_spec s; ⟨t, h⟩

theorem videoMacroblock_next (s : State) (j : Nat) : ∃ t, videoMacroblock s j = .next t := by
  unfold videoMacroblock videoEndSlice
  dsimp only
  split
  · exact ⟨_, rfl⟩
  · split
    · exact ⟨_, rfl⟩
    · exact videoAtHeader_next _

theorem videoBlock_next (s : State) (k : Nat) : ∃ t, videoBlock s k = .next t := by
  unfold videoBlock
  split
  · exact ⟨_, rfl⟩
  · exact videoMacroblock_next _ _

theorem videoEndBlock_next (s : State) : ∃ t, videoEndBlock s = .next t := videoBlock_next _ _

theorem pictureDimensions_next (s : State) (f : BitVec 2) (r : BitVec 3) : ∃ t, pictureDimensions s f r = .next t := by
  unfold pictureDimensions
  split
  · exact ⟨_, rfl⟩
  · split
    · exact ⟨_, rfl⟩
    · dsimp only
      split
      · exact ⟨_, rfl⟩
      · exact videoMacroblock_next _ _

theorem videoTake_next {s : State} {n : Nat} {k : State → StepOutcome State} (hk : ∀ u, ∃ t, k u = .next t) :
    ∃ t, videoTake s n k = .next t := by
  rcases videoTake_cases s n k with ⟨_, e⟩ | ⟨_, e⟩
  · exact ⟨_, e⟩
  · rw [e]; exact hk _

/-! ## An element goes on -/

/-- The command has ended, or at least one bit has been consumed. -/
def Advanced (s t : State) : Prop := t.v.ctx.phase = .idle ∨ s.brAt < t.brAt

theorem advanced_videoEnd (s : State) (e : Err) : ∃ t, videoEnd s e = .next t ∧ Advanced s t := ⟨_, rfl, .inl rfl⟩

/-- Bits are consumed before anything else is done. -/
theorem advanced_videoTake {s : State} {n : Nat} {k : State → StepOutcome State} (h : CursorOk s) (hn : 1 ≤ n)
    (hk : ∀ u, ∃ t, k u = .next t) (hs : ∀ u t, k u = .next t → Stays u t) :
    ∃ t, videoTake s n k = .next t ∧ Advanced s t := by
  rcases videoTake_cases s n k with ⟨_, e⟩ | ⟨hle, e⟩
  · exact ⟨_, e, .inl rfl⟩
  · obtain ⟨t, ht⟩ := hk (s.brMoveTo (s.brAt + n))
    refine ⟨t, e.trans ht, .inr ?_⟩
    have := ((hs _ t ht).onward.cursor (cursorOk_brMoveTo h _ hle)).2
    rw [brAt_brMoveTo s _ (le_trans hle h.ext_le)] at this
    omega

theorem advanced_takePair {s : State} {n : Nat} {k : State → StepOutcome State} (h : CursorOk s) (hn : 1 ≤ n)
    (hk : ∀ u, ∃ t, k u = .next t) (hs : ∀ u t, k u = .next t → Stays u t) :
    ∃ t, takePair n s k = .next t ∧ Advanced s t := by
  unfold takePair windowOverflow
  dsimp only
  split
  · exact advanced_videoEnd s _
  · exact advanced_videoTake h (by omega) hk hs

theorem advanced_videoStartCode {s : State} {k : State → StepOutcome State} (h : CursorOk s)
    (hk : ∀ u, ∃ t, k u = .next t) (hs : ∀ u t, k u = .next t → Stays u t) :
    ∃ t, videoStartCode s k = .next t ∧ Advanced s t := by
  have ha : CursorOk s.brAlign ∧ s.brAt ≤ s.brAlign.brAt := (stays_brAlign s).onward.cursor h
  obtain ⟨t, ht, hd⟩ := advanced_videoTake (n := 22) ha.1 (by omega) hk hs
  exact ⟨t, ht, hd.imp id fun hx => by omega⟩

theorem advanced_storeLevel {s : State} (h : CursorOk s) (z m : Nat) (b : Bool) :
    ∃ t, storeLevel z m b s = .next t ∧ Advanced s t := by
  refine advanced_takePair h (by unfold levelLength; split <;> omega) (fun u => ?_) (fun u t hk => ?_)
  · dsimp only
    split <;> exact ⟨_, rfl⟩
  · dsimp only at hk
    split at hk
    · exact stays_videoEnd hk
    · cases hk; exact (Stays.refl _).after (s := u)

theorem advanced_videoReject {s : State} (h : CursorOk s) (r : Reject) :
    ∃ t, videoReject r s = .next t ∧ Advanced s t := by
  cases r
  case badStartCode => exact advanced_videoStartCode h (fun u => ⟨_, rfl⟩) (fun _ _ hk => stays_videoEnd hk)
  all_goals exact advanced_videoEnd s _

theorem advanced_readPictureHeader {s : State} (h : CursorOk s) (f : BitVec 2) (r p : BitVec 3) (q : BitVec 5)
    (i : BitVec 32) : ∃ t, readPictureHeader f r p q i s = .next t ∧ Advanced s t := by
  refine advanced_videoTake h (by omega) (fun u => ?_) (fun u t hk => ?_)
  · exact videoTake_next fun u => videoTake_next fun u => videoTake_next fun u => videoTake_next fun u =>
      pictureDimensions_next _ _ _
  · refine (stays_videoTake ?_ hk).after (s := u)
    refine fun s2 t h => (stays_videoTake ?_ h).after (s := s2)
    refine fun s3 t h => (stays_videoTake ?_ h).after (s := s3)
    refine fun s4 t h => (stays_videoTake ?_ h).after (s := s4)
    exact fun s5 t h => (stays_pictureDimensions h).after (s := s5)

/-- An element answers a next state that has gone on; only a run code consumes nothing, and a level code follows it. -/
theorem videoElement_progress {s : State} (h : CursorOk s) (hp : s.v.ctx.phase ≠ .idle) :
    ∃ t, videoElement s = .next t ∧
      (Advanced s t ∨ (s.v.ctx.phase = .run ∧ t.v.ctx.phase = .level ∧ t.brAt = s.brAt)) := by
  unfold videoElement videoWindow
  cases hph : s.v.ctx.phase
  case idle => exact absurd hph hp
  all_goals dsimp only
  case startCode =>
    unfold decode decodeStartCode
    dsimp only
    split
    · rename_i i hd
      split at hd
      · cases hd
      · split at hd <;> cases hd
        · obtain ⟨t, ht, hd⟩ := advanced_videoStartCode (k := fun t => videoEnd (State.emitFrame { t with v := { t.v with
            status := { t.v.status with picComplete := true } } }) .none) h (fun _ => ⟨_, rfl⟩) (fun u t hk => by
              have h1 : Stays u { u with v := { u.v with
                  status := { u.v.status with picComplete := true, frameValid := true } } } :=
                (Stays.refl _).after (s := u)
              exact h1.trans ((stays_raiseIrq _ irqFrame (by decide)).trans (stays_videoEnd hk)))
          exact ⟨t, ht, .inl hd⟩
        · obtain ⟨t, ht, hd⟩ := advanced_videoStartCode (k := fun t => .next (t.expect
            (if t.v.sliceIndex = 0 then .pictureHeader else .sliceQuant))) h (fun _ => ⟨_, rfl⟩)
            (fun u t hk => by cases hk; exact (Stays.refl _).after (s := u))
          exact ⟨t, ht, .inl hd⟩
    · obtain ⟨t, ht, hd⟩ := advanced_videoReject h _
      exact ⟨t, ht, .inl hd⟩
  case pictureHeader =>
    obtain ⟨t, ht, hd⟩ := advanced_readPictureHeader h _ _ _ _ _
    exact ⟨t, ht, .inl hd⟩
  case sliceQuant =>
    obtain ⟨t, ht, hd⟩ := advanced_videoTake (n := 5) (k := fun t => videoSlice { t with v := { t.v with
        quant := (BitVec.ofNat 5 (s.brPeek 5)).zeroExtend 32 } }) h (by omega) (fun u => videoMacroblock_next _ _)
      (fun u t hk => (stays_videoSlice hk).after (s := u))
    exact ⟨t, ht, .inl hd⟩
  case mbc =>
    unfold decode
    dsimp only
    split
    · obtain ⟨t, ht, hd⟩ := advanced_videoTake (n := 1) h (by omega) (fun u => videoMacroblock_next _ _)
        (fun u t hk => stays_videoMacroblock hk)
      exact ⟨t, ht, .inl hd⟩
    · obtain ⟨t, ht, hd⟩ := advanced_videoTake (n := 1) (k := fun t => .next (t.expect .mbdes)) h (by omega) (fun u => ⟨_, rfl⟩)
        (fun u t hk => by cases hk; exact (Stays.refl _).after (s := u))
      exact ⟨t, ht, .inl hd⟩
  case mbdes =>
    obtain ⟨t, ht, hd⟩ := advanced_videoTake (n := 8) h (by omega) (k := fun t =>
        let t' : State := { t with v := { t.v with ctx := { t.v.ctx with des := BitVec.ofNat 8 (s.brPeek 8) } } }
        if (BitVec.ofNat 8 (s.brPeek 8)).getLsbD 6 then .next (t'.expect .mbdiff) else videoBlock t' 0)
      (fun u => by
        dsimp only
        split
        · exact ⟨_, rfl⟩
        · exact videoBlock_next _ _)
      (fun u t hk => by
        dsimp only at hk
        split at hk
        · cases hk; exact (Stays.refl _).after (s := u)
        · exact (stays_videoBlock hk).after (s := u))
    exact ⟨t, ht, .inl hd⟩
  case mbdiff =>
    obtain ⟨t, ht, hd⟩ := advanced_videoTake (n := 2) (k := fun t => videoBlock { t with v := { t.v with
        quant := t.v.quant + quantDelta (BitVec.ofNat 2 (s.brPeek 2)) } } 0) h (by omega) (fun u => videoBlock_next _ _)
      (fun u t hk => (stays_videoBlock hk).after (s := u))
    exact ⟨t, ht, .inl hd⟩
  case dc =>
    obtain ⟨t, ht, hd⟩ := advanced_videoTake (n := 10) h (by omega) (k := fun t =>
        let c := { t.v.ctx with
          coef := ((BitVec.ofNat 10 (s.brPeek 10)).toNat : Int) :: List.replicate 63 0, scan := 0, phase := .run }
        let t' : State := { t with v := { t.v with ctx := c } }
        if c.des.getLsbD c.blk then .next t' else videoEndBlock t')
      (fun u => by
        dsimp only
        split
        · exact ⟨_, rfl⟩
        · exact videoEndBlock_next _)
      (fun u t hk => by
        dsimp only at hk
        split at hk
        · cases hk; exact (Stays.refl _).after (s := u)
        · exact (stays_videoEndBlock hk).after (s := u))
    exact ⟨t, ht, .inl hd⟩
  case run =>
    have hrun (z e : Nat) : ∃ t, inspectRun z e s = .next t ∧
        (Advanced s t ∨ (VideoPhase.run = .run ∧ t.v.ctx.phase = .level ∧ t.brAt = s.brAt)) :=
      ⟨_, rfl, .inr ⟨rfl, rfl, rfl⟩⟩
    unfold decode decodeRun
    dsimp only
    split <;> first
      | exact hrun _ _
      | exact ⟨_, rfl, .inl (.inl rfl)⟩
  case level =>
    have hlev (z m : Nat) (b : Bool) : ∃ t, storeLevel z m b s = .next t ∧
        (Advanced s t ∨ (VideoPhase.level = .run ∧ t.v.ctx.phase = .level ∧ t.brAt = s.brAt)) :=
      let ⟨t, ht, hd⟩ := advanced_storeLevel h z m b; ⟨t, ht, .inl hd⟩
    unfold decode decodeLevel
    dsimp only
    split
    · rename_i i hd
      split at hd <;> cases hd <;> first
        | exact hlev _ _ _
        | (obtain ⟨t, ht, hd⟩ := advanced_takePair (n := 2) h (by omega) (fun u => videoEndBlock_next u)
            (fun u t hk => stays_videoEndBlock hk)
           exact ⟨t, ht, .inl hd⟩)
    · obtain ⟨t, ht, hd⟩ := advanced_videoReject h _
      exact ⟨t, ht, .inl hd⟩

/-! ## The loop ends -/

/-- How many elements may still be performed. -/
def elementsLeft (s : State) : Nat :=
  if s.v.ctx.phase = .idle then 0
  else 2 * (s.brExt - s.brAt) + (if s.v.ctx.phase = .level then 1 else 2)

theorem elementsLeft_le (s : State) : elementsLeft s ≤ videoBound s.brExt := by
  unfold elementsLeft videoBound
  split
  · omega
  · split <;> omega

/-- The loop over the elements ends inside its bound, as a chain of elements. -/
theorem videoLoop_next {n : Nat} {s : State} (h : CursorOk s) (hn : elementsLeft s ≤ n) :
    ∃ t, videoLoop n s = .next t ∧ ElementRun s t := by
  induction n generalizing s with
  | zero =>
    by_cases hp : s.v.ctx.phase = .idle
    · exact ⟨s, videoLoop_idle 0 s hp, .ended hp⟩
    · unfold elementsLeft at hn
      rw [if_neg hp] at hn
      split at hn <;> omega
  | succ n ih =>
    by_cases hp : s.v.ctx.phase = .idle
    · exact ⟨s, videoLoop_idle _ s hp, .ended hp⟩
    · obtain ⟨u, hu, hd⟩ := videoElement_progress h hp
      have hst := (stays_videoElement hu).onward
      have hc := hst.cursor h
      have hx : u.brExt = s.brExt := by unfold State.brExt; rw [hst.brLen]
      have hle := hc.1.pos
      have hlt : elementsLeft u < elementsLeft s := by
        unfold elementsLeft
        rw [if_neg hp]
        split
        · split <;> omega
        · rename_i hui
          rcases hd with (hd | hd) | ⟨h1, h2, h3⟩
          · exact absurd hd hui
          · split <;> split <;> omega
          · rw [if_pos h2, if_neg (by rw [h1]; decide), h3, hx]; omega
      obtain ⟨t, ht, hr⟩ := ih hc.1 (by omega)
      refine ⟨t, (videoLoop_succ n s u hp hu).trans ht, ?_⟩
      cases hw : videoWindow s with
      | none =>
        exfalso
        unfold videoWindow at hw
        split at hw <;> rename_i hi <;> first | exact hp hi | cases hw
      | some p =>
        obtain ⟨c, w⟩ := p
        cases hdec : decode c w with
        | ok i => exact .element hw hdec ((videoElement_exec hw hdec).symm.trans hu) hr
        | error r => exact .noElement hw hdec ((videoElement_reject hw hdec).symm.trans hu) hr

end Sys2Proof.Machine
end

