-- ==== Sys2Proof/Laws/Completion.lean ====
section
/-!
SUPPORT. How a command of the VDU goes to its end (R358, R370, R388): an element either leaves the command in progress with
the status, the interrupt bits and `V_ERR_POS` as they were, or completes it.
-/

namespace Sys2Proof.Machine

/-- What completion writes is as it was. -/
structure Held (s t : State) : Prop where
  irq : t.irqStatus = s.irqStatus
  errPos : t.v.errPos = s.v.errPos

/-- The command that was in progress at `s` has been completed at `t` (R358, R388). -/
structure Completed (s t : State) : Prop where
  busy : t.v.status.busy = false
  done : t.v.status.done = true
  pending : t.v.pending = none
  place : t.v.ctx = VideoCtx.idle
  vidDone : t.irqStatus.getLsbD 0 = true
  failed : t.v.status.err ≠ .none → t.irqStatus.getLsbD 1 = true ∧ t.v.errPos = t.v.brPos
  succeeded : t.v.status.err = .none → t.irqStatus.getLsbD 1 = s.irqStatus.getLsbD 1 ∧ t.v.errPos = s.v.errPos

/-- In progress still, or completed. -/
def Settles (s t : State) : Prop := (t.v.ctx.phase ≠ .idle ∧ Held s t) ∨ Completed s t

theorem Held.refl (s : State) : Held s s := ⟨rfl, rfl⟩

theorem Held.trans {s t u : State} (h : Held s t) (g : Held t u) : Held s u := ⟨g.1.trans h.1, g.2.trans h.2⟩

theorem Held.completed {s t u : State} (h : Held s t) (g : Completed t u) : Completed s u :=
  { g with succeeded := fun e => ⟨by rw [(g.succeeded e).1, h.irq], by rw [(g.succeeded e).2, h.errPos]⟩ }

theorem Held.settles {s t u : State} (h : Held s t) (g : Settles t u) : Settles s u :=
  g.imp (fun ⟨a, b⟩ => ⟨a, h.trans b⟩) h.completed

theorem held_brMoveTo (s : State) (p : Nat) : Held s (s.brMoveTo p) := ⟨by simp, by simp⟩

/-- Completion, also when the frame's bit has been set before (R214, R230). -/
theorem completed_complete (s : State) (e : Err) : Completed s (s.complete .vdu e) := by
  refine ⟨rfl, rfl, rfl, rfl, ?_, fun h => ?_, fun h => ?_⟩
  · unfold State.complete State.raiseIrq
    dsimp only
    split <;> simp [irqVidDone, irqVidErr]
  · have h' : e ≠ .none := h
    unfold State.complete State.raiseIrq
    dsimp only
    rw [if_neg h', if_neg h']
    exact ⟨by simp [irqVidDone, irqVidErr], rfl⟩
  · have h' : e = .none := h
    subst h'
    exact ⟨by simp [State.complete, State.raiseIrq, irqVidDone], rfl⟩

theorem settles_videoEnd {s t : State} {e : Err} (h : videoEnd s e = .next t) : Settles s t := by
  cases h; exact .inr (completed_complete s e)

theorem settles_videoTake {s t : State} {n : Nat} {k : State → StepOutcome State}
    (hk : ∀ u t, k u = .next t → Settles u t) (h : videoTake s n k = .next t) : Settles s t := by
  rcases videoTake_cases s n k with ⟨_, e⟩ | ⟨_, e⟩
  · rw [e] at h; exact settles_videoEnd h
  · rw [e] at h; exact (held_brMoveTo s _).settles (hk _ _ h)

theorem settles_takePair {s t : State} {n : Nat} {k : State → StepOutcome State}
    (hk : ∀ u t, k u = .next t → Settles u t) (h : takePair n s k = .next t) : Settles s t := by
  rcases takePair_cases n s k with ⟨_, e⟩ | ⟨_, _, e⟩ | ⟨_, _, e⟩
  · rw [e] at h; exact settles_videoEnd h
  · rw [e] at h; exact settles_videoEnd h
  · rw [e] at h; exact (held_brMoveTo s _).settles (hk _ _ h)

/-- A change that completion has nothing to do with, before what follows. -/
theorem Settles.after {s t : State} {v : Vdu} {p : PixelBuffer} (g : Settles { s with v := v, pix := p } t)
    (h : v.errPos = s.v.errPos := by rfl) : Settles s t :=
  Held.settles (t := { s with v := v, pix := p }) ⟨rfl, h⟩ g

theorem settles_videoAtHeader {s t : State} (h : videoAtHeader s = .next t) : Settles s t := by
  unfold videoAtHeader at h
  split at h
  · cases h; exact .inl ⟨by simp, ⟨rfl, rfl⟩⟩
  · exact settles_videoEnd h

theorem settles_videoMacroblock {s t : State} {j : Nat} (h : videoMacroblock s j = .next t) : Settles s t := by
  unfold videoMacroblock at h
  split at h
  · cases h; exact .inl ⟨by simp, ⟨rfl, rfl⟩⟩
  · unfold videoEndSlice at h
    dsimp only at h
    split at h
    · exact settles_videoEnd h
    · exact (settles_videoAtHeader h).after (s := s)

theorem settles_videoBlock {s t : State} {k : Nat} (h : videoBlock s k = .next t) : Settles s t := by
  unfold videoBlock at h
  split at h
  · cases h; exact .inl ⟨by simp, ⟨rfl, rfl⟩⟩
  · exact settles_videoMacroblock h

theorem settles_videoEndBlock {s t : State} (h : videoEndBlock s = .next t) : Settles s t := by
  unfold videoEndBlock at h
  dsimp only at h
  exact (settles_videoBlock h).after (s := s)

theorem settles_videoSlice {s t : State} (h : videoSlice s = .next t) : Settles s t := by
  unfold videoSlice at h
  exact (settles_videoMacroblock h).after (s := s)

theorem held_setDimensions (s : State) (w h : Nat) : Held s (s.setDimensions w h) := by
  unfold State.setDimensions
  dsimp only
  split <;> exact ⟨rfl, rfl⟩

theorem settles_pictureDimensions {s t : State} {f : BitVec 2} {r : BitVec 3}
    (h : pictureDimensions s f r = .next t) : Settles s t := by
  unfold pictureDimensions at h
  split at h
  · exact settles_videoEnd h
  · split at h
    · exact settles_videoEnd h
    · dsimp only at h
      split at h
      · exact settles_videoEnd h
      · exact (held_setDimensions s _ _).settles (settles_videoSlice h)

theorem settles_readPictureHeader {s t : State} {f : BitVec 2} {r p : BitVec 3} {q : BitVec 5} {i : BitVec 32}
    (h : readPictureHeader f r p q i s = .next t) : Settles s t := by
  refine settles_videoTake (fun s1 t h => (settles_videoTake ?_ h).after (s := s1)) h
  refine fun s2 t h => (settles_videoTake ?_ h).after (s := s2)
  refine fun s3 t h => (settles_videoTake ?_ h).after (s := s3)
  refine fun s4 t h => (settles_videoTake ?_ h).after (s := s4)
  exact fun s5 t h => (settles_pictureDimensions h).after (s := s5)

theorem settles_videoStartCode {s t : State} {k : State → StepOutcome State} (hk : ∀ u t, k u = .next t → Settles u t)
    (h : videoStartCode s k = .next t) : Settles s t :=
  Held.settles (held_brMoveTo s _) (settles_videoTake hk h)

theorem settles_endPicture {s t : State} (h : endPicture s = .next t) : Settles s t := by
  refine settles_videoStartCode (fun u t h => ?_) h
  cases h
  refine .inr ⟨rfl, rfl, rfl, rfl, ?_, fun he => absurd rfl he, fun _ => ⟨?_, rfl⟩⟩ <;>
    simp [State.complete, State.raiseIrq, State.emitFrame, irqVidDone, irqFrame]

theorem settles_storeLevel {s t : State} {z m : Nat} {b : Bool} (h : storeLevel z m b s = .next t) : Settles s t := by
  refine settles_takePair (fun u t h => ?_) h
  dsimp only at h
  split at h
  · exact settles_videoEnd h
  · cases h; exact .inl ⟨by simp, ⟨rfl, rfl⟩⟩

theorem settles_readDc {s t : State} {d : BitVec 10} (h : readDc d s = .next t) : Settles s t := by
  refine settles_videoTake (fun u t h => ?_) h
  dsimp only at h
  split at h
  · cases h; exact .inl ⟨by simp, ⟨rfl, rfl⟩⟩
  · exact (settles_videoEndBlock h).after (s := u)

theorem settles_inspectRun {s t : State} {z e : Nat} (h : inspectRun z e s = .next t) : Settles s t := by
  cases h; exact .inl ⟨by simp, ⟨rfl, rfl⟩⟩

/-- Every element leaves the command in progress or completes it. -/
theorem settles_performElement {s t : State} (i : Instr) (hp : s.v.ctx.phase ≠ .idle)
    (h : performElement i s = .next t) : Settles s t := by
  cases i <;> (try change Host.Outcome.next s = Host.Outcome.next t at h) <;>
    first
    | exact settles_inspectRun h
    | exact settles_storeLevel h
    | exact settles_videoEnd h
    | exact settles_endPicture h
    | exact settles_readPictureHeader h
    | exact settles_readDc h
    | exact settles_takePair (fun _ _ h => settles_videoEndBlock h) h
    | exact settles_videoStartCode (fun u t h => by
        cases h
        refine .inl ⟨?_, ⟨rfl, rfl⟩⟩
        unfold State.expect
        dsimp only
        split <;> simp) h
    | exact settles_videoTake (fun u t h => (settles_videoSlice h).after (s := u)) h
    | exact settles_videoTake (fun u t h => settles_videoMacroblock h) h
    | exact settles_videoTake (fun u t h => by cases h; exact .inl ⟨by simp, ⟨rfl, rfl⟩⟩) h
    | exact settles_videoTake (fun u t h => (settles_videoBlock h).after (s := u)) h
    | exact settles_videoTake (fun u t h => by
        dsimp only at h
        split at h
        · cases h; exact .inl ⟨by simp, ⟨rfl, rfl⟩⟩
        · exact (settles_videoBlock h).after (s := u)) h
    | (cases h; exact .inl ⟨hp, Held.refl _⟩)

theorem settles_videoReject {s t : State} (r : Reject) (h : videoReject r s = .next t) : Settles s t := by
  cases r
  case badStartCode => exact settles_videoStartCode (fun _ _ h => settles_videoEnd h) h
  all_goals exact settles_videoEnd h

theorem settles_videoElement {s t : State} (hp : s.v.ctx.phase ≠ .idle) (h : videoElement s = .next t) :
    Settles s t := by
  unfold videoElement at h
  split at h
  · cases h; exact .inl ⟨hp, Held.refl _⟩
  · split at h
    · exact settles_performElement _ hp h
    · exact settles_videoReject _ h

/-- A loop that starts inside a command completes it. -/
theorem completed_videoLoop {n : Nat} {s t : State} (hp : s.v.ctx.phase ≠ .idle) (h : videoLoop n s = .next t) :
    Completed s t := by
  have hs : Settles s t := by
    refine videoLoop_invariant (P := Settles s) (fun u v hu hv => ?_) n s t (.inl ⟨hp, Held.refl s⟩) h
    rcases hu with ⟨a, b⟩ | b
    · exact b.settles (settles_videoElement a hv)
    · have : u.v.ctx.phase = .idle := by rw [b.place]; rfl
      unfold videoElement videoWindow at hv
      rw [this] at hv
      cases hv
      exact .inr b
  rcases hs with ⟨a, -⟩ | b
  · exact absurd (videoLoop_ends n s t h) a
  · exact b

theorem settles_videoBegin {s t : State} (h : videoBegin s = .next t) : Settles s t := by
  unfold videoBegin at h
  dsimp only at h
  split at h
  · exact (settles_videoEnd h).after (s := s)
  · refine Held.settles ?_ (settles_videoAtHeader h)
    exact ⟨rfl, rfl⟩

/-- A whole `V.DECODE` completes its command. -/
theorem completed_execVDecode {s t : State} (h : execVDecode s = .next t) : Completed s t := by
  unfold execVDecode at h
  split at h
  · rename_i u hu
    rcases settles_videoBegin hu with ⟨a, b⟩ | b
    · exact b.completed (completed_videoLoop a h)
    · rw [videoLoop_idle _ _ (by rw [b.place]; rfl)] at h
      cases h
      exact b
  · rename_i ho
    exact absurd h (ho t)

/-- A whole `V.DECODE` answers a next state (R7, R211). -/
theorem execVDecode_next {s : State} (h : s.cfg.valid = true) : ∃ t, execVDecode s = .next t := by
  unfold execVDecode videoBegin
  dsimp only
  split
  · rename_i u hu
    split at hu
    · cases hu
      exact ⟨_, videoLoop_idle _ _ rfl⟩
    · rename_i hl
      have hc : ∀ x : State, x.cfg = s.cfg → x.v.len = s.v.len → CursorOk x.brStart := fun x h1 h2 =>
        ⟨by rw [show x.brStart.cfg = x.cfg from rfl, h1]; exact h,
          by change x.v.len.toNat ≤ x.cfg.vinBytes; rw [h1, h2]; omega,
          by rw [show x.brStart.brAt = 0 from brAt_brMoveTo _ 0 (by omega)]; exact Nat.zero_le _⟩
      have hx : ∀ x y : State, CursorOk x → videoAtHeader x = .next y → CursorOk y := fun x y hx hy =>
        ((stays_videoAtHeader hy).onward.cursor hx).1
      refine (videoLoop_next (hx _ u ?_ hu) (elementsLeft_le u)).imp fun _ ht => ht.1
      have := hc { s with v := { s.v with
        status := { s.v.status with picComplete := false, frameValid := false } } } rfl rfl
      exact ⟨this.1, this.2, this.3⟩
  · rename_i ho
    exfalso
    split at ho
    · exact ho _ rfl
    · obtain ⟨y, hy⟩ := videoAtHeader_next { (State.brStart { s with v := { s.v with
        status := { s.v.status with picComplete := false, frameValid := false } } }) with
        v := { (State.brStart { s with v := { s.v with
          status := { s.v.status with picComplete := false, frameValid := false } } }).v with sliceIndex := 0 } }
      exact ho y hy

end Sys2Proof.Machine
end

