-- ==== Sys2Proof/Laws/PerInstr.lean ====
section
/-!
SUPPORT. Statements about every instruction as syntax, one lemma per constructor of `Instr`.
-/

namespace Sys2Proof.Laws.EncodeFits

/-- A well-formed instruction's code fits its place, and its value fits its length. -/
def Statement (i : Instr) : Prop :=
  i.wellFormed = true → (encode i).len ≤ i.ctx.width ∧ (encode i).val < 2 ^ (encode i).len

/-- A run code's value. -/
theorem run_val {z t : Nat} (hz : 2 ≤ z) (h : t < 2 ^ (z - 1)) : (runCode z t).val < 2 ^ (runCode z t).len := by
  obtain ⟨k, rfl⟩ : ∃ k, z = k + 2 := ⟨z - 2, by omega⟩
  simp only [runCode] at h ⊢
  calc 2 ^ (k + 2 - 1) + t < 2 ^ (k + 2 - 1) + 2 ^ (k + 2 - 1) := by omega
    _ = 2 ^ (k + 2) := by rw [show k + 2 = (k + 2 - 1) + 1 by omega, pow_succ, Nat.add_sub_cancel]; ring
    _ ≤ 2 ^ (2 * (k + 2)) := Nat.pow_le_pow_right (by norm_num) (by omega)

/-- A level code's value. -/
theorem level_val {z m : Nat} (s : Bool) (hz : 2 ≤ z) (h : m < 2 ^ (z - 1)) :
    (levelCode z m s).val < 2 ^ (levelCode z m s).len := by
  obtain ⟨k, rfl⟩ : ∃ k, z = k + 2 := ⟨z - 2, by omega⟩
  have hs : s.toNat ≤ 1 := Bool.toNat_le _
  simp only [levelCode] at h ⊢
  calc (2 ^ (k + 2 - 1) + m) * 2 + s.toNat < 2 ^ (k + 2 - 1) * 4 := by omega
    _ = 2 ^ (k + 3) := by rw [show k + 3 = (k + 2 - 1) + 2 by omega, Nat.pow_add]
    _ ≤ 2 ^ (2 * (k + 2) + 1) := Nat.pow_le_pow_right (by norm_num) (by omega)

theorem vNop : Statement .vNop := fun _ => by decide

theorem vDecode : Statement .vDecode := fun _ => by decide

theorem brInit : Statement .brInit := fun _ => by decide

theorem brRead : ∀ x0, Statement (.brRead x0) := by
  intro x0 _
  refine ⟨Nat.le_of_ble_eq_true rfl, ?_⟩
  simp only [encode, commandCode]
  have := x0.isLt
  omega

theorem brPeek : ∀ x0, Statement (.brPeek x0) := by
  intro x0 _
  refine ⟨Nat.le_of_ble_eq_true rfl, ?_⟩
  simp only [encode, commandCode]
  have := x0.isLt
  omega

theorem brAlign : Statement .brAlign := fun _ => by decide

theorem brHasrem : Statement .brHasrem := fun _ => by decide

theorem brRldec : Statement .brRldec := fun _ => by decide

theorem nNop : Statement .nNop := fun _ => by decide

theorem nDecode : Statement .nDecode := fun _ => by decide

theorem softReset : ∀ x0 x1, Statement (.softReset x0 x1) := by
  unfold Statement
  decide

theorem irqStatusW1c : ∀ x0, Statement (.irqStatusW1c x0) :=
  fun x0 _ => ⟨Nat.le_of_ble_eq_true rfl, lt_of_lt_of_le x0.isLt (Nat.pow_le_pow_right (by norm_num) (Nat.le_of_ble_eq_true rfl))⟩

theorem irqEnable : ∀ x0, Statement (.irqEnable x0) :=
  fun x0 _ => ⟨Nat.le_of_ble_eq_true rfl, lt_of_lt_of_le x0.isLt (Nat.pow_le_pow_right (by norm_num) (Nat.le_of_ble_eq_true rfl))⟩

theorem vLen : ∀ x0, Statement (.vLen x0) :=
  fun x0 _ => ⟨Nat.le_of_ble_eq_true rfl, lt_of_lt_of_le x0.isLt (Nat.pow_le_pow_right (by norm_num) (Nat.le_of_ble_eq_true rfl))⟩

theorem nLen : ∀ x0, Statement (.nLen x0) :=
  fun x0 _ => ⟨Nat.le_of_ble_eq_true rfl, lt_of_lt_of_le x0.isLt (Nat.pow_le_pow_right (by norm_num) (Nat.le_of_ble_eq_true rfl))⟩

theorem sc : ∀ x0, Statement (.sc x0) := by
  intro x0 _
  refine ⟨Nat.le_of_ble_eq_true rfl, ?_⟩
  simp only [encode]
  have := x0.isLt
  omega

theorem eop : Statement .eop := fun _ => by decide

theorem pictureHeader : ∀ x0 x1 x2 x3 x4, Statement (.pictureHeader x0 x1 x2 x3 x4) := by
  intro x0 x1 x2 x3 x4 _
  refine ⟨Nat.le_of_ble_eq_true rfl, ?_⟩
  simp only [encode]
  have h0 := x0.isLt
  have h1 := x1.isLt
  have h2 := x2.isLt
  have h3 := x3.isLt
  have h4 := x4.isLt
  omega

theorem squant : ∀ x0, Statement (.squant x0) :=
  fun x0 _ => ⟨Nat.le_of_ble_eq_true rfl, lt_of_lt_of_le x0.isLt (Nat.pow_le_pow_right (by norm_num) (Nat.le_of_ble_eq_true rfl))⟩

theorem mbcEmpty : Statement .mbcEmpty := fun _ => by decide

theorem mbcCoded : Statement .mbcCoded := fun _ => by decide

theorem mbdes : ∀ x0, Statement (.mbdes x0) :=
  fun x0 _ => ⟨Nat.le_of_ble_eq_true rfl, lt_of_lt_of_le x0.isLt (Nat.pow_le_pow_right (by norm_num) (Nat.le_of_ble_eq_true rfl))⟩

theorem mbdiff : ∀ x0, Statement (.mbdiff x0) :=
  fun x0 _ => ⟨Nat.le_of_ble_eq_true rfl, lt_of_lt_of_le x0.isLt (Nat.pow_le_pow_right (by norm_num) (Nat.le_of_ble_eq_true rfl))⟩

theorem dc : ∀ x0, Statement (.dc x0) :=
  fun x0 _ => ⟨Nat.le_of_ble_eq_true rfl, lt_of_lt_of_le x0.isLt (Nat.pow_le_pow_right (by norm_num) (Nat.le_of_ble_eq_true rfl))⟩

theorem runZ0 : Statement .runZ0 := fun _ => by decide

theorem runZ1 : Statement .runZ1 := fun _ => by decide

theorem runZ2 : ∀ x0, Statement (.runZ2 x0) := fun x0 _ => ⟨Nat.le_of_ble_eq_true rfl, run_val (by omega) x0.isLt⟩

theorem runZ3 : ∀ x0, Statement (.runZ3 x0) := fun x0 _ => ⟨Nat.le_of_ble_eq_true rfl, run_val (by omega) x0.isLt⟩

theorem runZ4 : ∀ x0, Statement (.runZ4 x0) := fun x0 _ => ⟨Nat.le_of_ble_eq_true rfl, run_val (by omega) x0.isLt⟩

theorem runZ5 : ∀ x0, Statement (.runZ5 x0) := fun x0 _ => ⟨Nat.le_of_ble_eq_true rfl, run_val (by omega) x0.isLt⟩

theorem runZ6 : ∀ x0, Statement (.runZ6 x0) := fun x0 _ => ⟨Nat.le_of_ble_eq_true rfl, run_val (by omega) x0.isLt⟩

theorem runZ7 : ∀ x0, Statement (.runZ7 x0) := fun x0 _ => ⟨Nat.le_of_ble_eq_true rfl, run_val (by omega) x0.isLt⟩

theorem runZ8 : ∀ x0, Statement (.runZ8 x0) := fun x0 _ => ⟨Nat.le_of_ble_eq_true rfl, run_val (by omega) x0.isLt⟩

theorem runZ9 : ∀ x0, Statement (.runZ9 x0) := fun x0 _ => ⟨Nat.le_of_ble_eq_true rfl, run_val (by omega) x0.isLt⟩

theorem runZ10 : ∀ x0, Statement (.runZ10 x0) := fun x0 _ => ⟨Nat.le_of_ble_eq_true rfl, run_val (by omega) x0.isLt⟩

theorem runZ11 : ∀ x0, Statement (.runZ11 x0) := fun x0 _ => ⟨Nat.le_of_ble_eq_true rfl, run_val (by omega) x0.isLt⟩

theorem runZ12 : ∀ x0, Statement (.runZ12 x0) := fun x0 _ => ⟨Nat.le_of_ble_eq_true rfl, run_val (by omega) x0.isLt⟩

theorem runZ13 : ∀ x0, Statement (.runZ13 x0) := fun x0 _ => ⟨Nat.le_of_ble_eq_true rfl, run_val (by omega) x0.isLt⟩

theorem runZ14 : ∀ x0, Statement (.runZ14 x0) := fun x0 _ => ⟨Nat.le_of_ble_eq_true rfl, run_val (by omega) x0.isLt⟩

theorem runZ15 : ∀ x0, Statement (.runZ15 x0) := fun x0 _ => ⟨Nat.le_of_ble_eq_true rfl, run_val (by omega) x0.isLt⟩

theorem runOvf : Statement .runOvf := fun _ => by decide

theorem levelZ0 : ∀ x0, Statement (.levelZ0 x0) := by
  unfold Statement
  decide

theorem eob : Statement .eob := fun _ => by decide

theorem levelZ2 : ∀ x0 x1, Statement (.levelZ2 x0 x1) :=
  fun x0 x1 _ => ⟨Nat.le_of_ble_eq_true rfl, level_val x1 (by omega) x0.isLt⟩

theorem levelZ3 : ∀ x0 x1, Statement (.levelZ3 x0 x1) :=
  fun x0 x1 _ => ⟨Nat.le_of_ble_eq_true rfl, level_val x1 (by omega) x0.isLt⟩

theorem levelZ4 : ∀ x0 x1, Statement (.levelZ4 x0 x1) :=
  fun x0 x1 _ => ⟨Nat.le_of_ble_eq_true rfl, level_val x1 (by omega) x0.isLt⟩

theorem levelZ5 : ∀ x0 x1, Statement (.levelZ5 x0 x1) :=
  fun x0 x1 _ => ⟨Nat.le_of_ble_eq_true rfl, level_val x1 (by omega) x0.isLt⟩

theorem levelZ6 : ∀ x0 x1, Statement (.levelZ6 x0 x1) :=
  fun x0 x1 _ => ⟨Nat.le_of_ble_eq_true rfl, level_val x1 (by omega) x0.isLt⟩

theorem levelZ7 : ∀ x0 x1, Statement (.levelZ7 x0 x1) :=
  fun x0 x1 _ => ⟨Nat.le_of_ble_eq_true rfl, level_val x1 (by omega) x0.isLt⟩

theorem levelZ8 : ∀ x0 x1, Statement (.levelZ8 x0 x1) :=
  fun x0 x1 _ => ⟨Nat.le_of_ble_eq_true rfl, level_val x1 (by omega) x0.isLt⟩

theorem levelZ9 : ∀ x0 x1, Statement (.levelZ9 x0 x1) :=
  fun x0 x1 _ => ⟨Nat.le_of_ble_eq_true rfl, level_val x1 (by omega) x0.isLt⟩

theorem levelZ10 : ∀ x0 x1, Statement (.levelZ10 x0 x1) :=
  fun x0 x1 _ => ⟨Nat.le_of_ble_eq_true rfl, level_val x1 (by omega) x0.isLt⟩

theorem levelZ11 : ∀ x0 x1, Statement (.levelZ11 x0 x1) :=
  fun x0 x1 _ => ⟨Nat.le_of_ble_eq_true rfl, level_val x1 (by omega) x0.isLt⟩

theorem levelZ12 : ∀ x0 x1, Statement (.levelZ12 x0 x1) :=
  fun x0 x1 _ => ⟨Nat.le_of_ble_eq_true rfl, level_val x1 (by omega) x0.isLt⟩

theorem levelZ13 : ∀ x0 x1, Statement (.levelZ13 x0 x1) :=
  fun x0 x1 _ => ⟨Nat.le_of_ble_eq_true rfl, level_val x1 (by omega) x0.isLt⟩

theorem levelZ14 : ∀ x0 x1, Statement (.levelZ14 x0 x1) :=
  fun x0 x1 _ => ⟨Nat.le_of_ble_eq_true rfl, level_val x1 (by omega) x0.isLt⟩

theorem levelZ15 : ∀ x0 x1, Statement (.levelZ15 x0 x1) :=
  fun x0 x1 _ => ⟨Nat.le_of_ble_eq_true rfl, level_val x1 (by omega) x0.isLt⟩

theorem navHeader : ∀ x0 x1 x2 x3, Statement (.navHeader x0 x1 x2 x3) := by
  intro x0 x1 x2 x3 _
  refine ⟨Nat.le_of_ble_eq_true rfl, ?_⟩
  simp only [encode]
  have h0 := x0.isLt
  have h1 := x1.isLt
  have h2 := x2.isLt
  have h3 := x3.isLt
  omega

theorem navRecordHeader : ∀ x0 x1, Statement (.navRecordHeader x0 x1) := by
  intro x0 x1 _
  refine ⟨Nat.le_of_ble_eq_true rfl, ?_⟩
  simp only [encode]
  have h0 := x0.isLt
  have h1 := x1.isLt
  omega

theorem navDemo : Statement .navDemo := fun _ => by decide

theorem navVision : Statement .navVision := fun _ => by decide

theorem navChecksum : Statement .navChecksum := fun _ => by decide

theorem navUnknown : ∀ x0, Statement (.navUnknown x0) :=
  fun x0 _ => ⟨Nat.le_of_ble_eq_true rfl, lt_of_lt_of_le x0.isLt (Nat.pow_le_pow_right (by norm_num) (Nat.le_of_ble_eq_true rfl))⟩

end Sys2Proof.Laws.EncodeFits
end

