-- ==== Sys2Proof/Tests/Slice0.lean ====
section
/-!
SUPPORT. Tests.  Words are written out from spec/30_encoding.md, expected values are those of the spec's own tables
(spec/95_test_vectors.md and the vector rules it names).  The last part shows, for every statement with hypotheses, a
concrete state and operands that meet them, at the boundary values of each clause.
-/

namespace Sys2Proof.Tests

open Sys2Proof Sys2Proof.Machine

/-! ## WellFormed: an ill-formed term for each check -/

theorem test_wf_read_0 : Instr.wellFormed (.brRead 0#6) = false := by decide
theorem test_wf_read_33 : Instr.wellFormed (.brRead 33#6) = false := by decide
theorem test_wf_read_32 : Instr.wellFormed (.brRead 32#6) = true := by decide
theorem test_wf_peek_0 : Instr.wellFormed (.brPeek 0#6) = false := by decide
theorem test_wf_peek_33 : Instr.wellFormed (.brPeek 33#6) = false := by decide
theorem test_wf_sc_31 : Instr.wellFormed (.sc 0x1F#5) = false := by decide

/-! ## Decoding: one word for every constructor, written out from the spec's encoding -/

theorem test_dec_vNop : decode .vCmd 0x00000000 = .ok .vNop := by decide
theorem test_dec_vDecode : decode .vCmd 0x00000001 = .ok .vDecode := by decide
theorem test_dec_brInit : decode .vCmd 0x00000010 = .ok .brInit := by decide
theorem test_dec_brRead : decode .vCmd 0x00000D11 = .ok (.brRead 13#6) := by decide
theorem test_dec_brPeek : decode .vCmd 0x00002012 = .ok (.brPeek 32#6) := by decide
theorem test_dec_brAlign : decode .vCmd 0x00000013 = .ok .brAlign := by decide
theorem test_dec_brHasrem : decode .vCmd 0x00000014 = .ok .brHasrem := by decide
theorem test_dec_brRldec : decode .vCmd 0x00000015 = .ok .brRldec := by decide
theorem test_dec_nNop : decode .nCmd 0x00000000 = .ok .nNop := by decide
theorem test_dec_nDecode : decode .nCmd 0x00000001 = .ok .nDecode := by decide
theorem test_dec_softReset : decode .softReset 0xFFFFFFFE = .ok (.softReset true false) := by decide
theorem test_dec_irqStatus : decode .irqStatus 0xFFFFFFE5 = .ok (.irqStatusW1c 0b00101#5) := by decide
theorem test_dec_irqEnable : decode .irqEnable 0x00000112 = .ok (.irqEnable 0b10010#5) := by decide
theorem test_dec_vLen : decode .vLen 0x80000018 = .ok (.vLen 0x80000018#32) := by decide
theorem test_dec_nLen : decode .nLen 0x00000048 = .ok (.nLen 72#32) := by decide
theorem test_dec_sc : decode .startCode 0b00000000000000001_00011 = .ok (.sc 3#5) := by decide
theorem test_dec_eop : decode .startCode 0b00000000000000001_11111 = .ok .eop := by decide
theorem test_dec_pictureHeader : decode .pictureHeader 0b10_011_001_10101_00000000000000000000000000001001 =
    .ok (.pictureHeader 2#2 3#3 1#3 21#5 9#32) := by decide
theorem test_dec_squant : decode .sliceQuant 0b11110 = .ok (.squant 30#5) := by decide
theorem test_dec_mbcEmpty : decode .mbc 0b1 = .ok .mbcEmpty := by decide
theorem test_dec_mbcCoded : decode .mbc 0b0 = .ok .mbcCoded := by decide
theorem test_dec_mbdes : decode .mbdes 0b01000001 = .ok (.mbdes 0x41#8) := by decide
theorem test_dec_mbdiff : decode .mbdiff 0b10 = .ok (.mbdiff 2#2) := by decide
theorem test_dec_dc : decode .dc 0b0110000000 = .ok (.dc 384#10) := by decide

/- A code of the stream stands at the head of a 32-bit window; the bits after it are 0 here, or `1` where noted. -/
theorem test_dec_runZ0 : decode .run 0b1000_0000_0000_0000_0000_0000_0000_0000 = .ok .runZ0 := by decide
theorem test_dec_runZ1 : decode .run 0b0110_0000_0000_0000_0000_0000_0000_0000 = .ok .runZ1 := by decide
theorem test_dec_runZ2 : decode .run 0b0011_0000_0000_0000_0000_0000_0000_0000 = .ok (.runZ2 1#1) := by decide
theorem test_dec_runZ3 : decode .run 0b0001_1011_0000_0000_0000_0000_0000_0000 = .ok (.runZ3 2#2) := by decide
theorem test_dec_runZ4 : decode .run 0b0000_1101_1000_0000_0000_0000_0000_0000 = .ok (.runZ4 5#3) := by decide
theorem test_dec_runZ5 : decode .run 0b0000_0110_0100_0000_0000_0000_0000_0000 = .ok (.runZ5 9#4) := by decide
theorem test_dec_runZ6 : decode .run 0b0000_0011_1110_0000_0000_0000_0000_0000 = .ok (.runZ6 30#5) := by decide
theorem test_dec_runZ7 : decode .run 0b0000_0001_1000_0100_0000_0000_0000_0000 = .ok (.runZ7 33#6) := by decide
theorem test_dec_runZ8 : decode .run 0b0000_0000_1100_0001_0000_0000_0000_0000 = .ok (.runZ8 65#7) := by decide
theorem test_dec_runZ9 : decode .run 0b0000_0000_0110_0000_0100_0000_0000_0000 = .ok (.runZ9 129#8) := by decide
theorem test_dec_runZ10 : decode .run 0b0000_0000_0011_0000_0001_0000_0000_0000 = .ok (.runZ10 257#9) := by decide
theorem test_dec_runZ11 : decode .run 0b0000_0000_0001_1000_0000_0100_0000_0000 = .ok (.runZ11 513#10) := by decide
theorem test_dec_runZ12 : decode .run 0b0000_0000_0000_1100_0000_0001_0000_0000 = .ok (.runZ12 1025#11) := by decide
theorem test_dec_runZ13 : decode .run 0b0000_0000_0000_0110_0000_0000_0100_0000 = .ok (.runZ13 2049#12) := by decide
theorem test_dec_runZ14 : decode .run 0b0000_0000_0000_0011_0000_0000_0001_0000 = .ok (.runZ14 4097#13) := by decide
theorem test_dec_runZ15 : decode .run 0b0000_0000_0000_0001_1000_0000_0000_0100 = .ok (.runZ15 8193#14) := by decide
theorem test_dec_runOvf : decode .run 0b0000_0000_0000_0000_1111_1111_1111_1111 = .ok .runOvf := by decide
theorem test_dec_levelZ0 : decode .level 0b1100_0000_0000_0000_0000_0000_0000_0000 = .ok (.levelZ0 true) := by decide
theorem test_dec_eob : decode .level 0b0111_1111_0000_0000_0000_0000_0000_0000 = .ok .eob := by decide
theorem test_dec_levelZ2 : decode .level 0b0011_1000_0000_0000_0000_0000_0000_0000 = .ok (.levelZ2 1#1 true) := by decide
theorem test_dec_levelZ3 : decode .level 0b0001_1010_0000_0000_0000_0000_0000_0000 = .ok (.levelZ3 2#2 true) := by decide
theorem test_dec_levelZ4 : decode .level 0b0000_1101_0000_0000_0000_0000_0000_0000 = .ok (.levelZ4 5#3 false) := by decide
theorem test_dec_levelZ5 : decode .level 0b0000_0110_0110_0000_0000_0000_0000_0000 = .ok (.levelZ5 9#4 true) := by decide
theorem test_dec_levelZ6 : decode .level 0b0000_0011_1110_0000_0000_0000_0000_0000 = .ok (.levelZ6 30#5 false) := by decide
theorem test_dec_levelZ7 : decode .level 0b0000_0001_1000_0110_0000_0000_0000_0000 = .ok (.levelZ7 33#6 true) := by decide
theorem test_dec_levelZ8 : decode .level 0b0000_0000_1100_0001_0000_0000_0000_0000 = .ok (.levelZ8 65#7 false) := by decide
theorem test_dec_levelZ9 : decode .level 0b0000_0000_0110_0000_0110_0000_0000_0000 = .ok (.levelZ9 129#8 true) := by decide
theorem test_dec_levelZ10 : decode .level 0b0000_0000_0011_0000_0001_0000_0000_0000 = .ok (.levelZ10 257#9 false) := by
  decide
theorem test_dec_levelZ11 : decode .level 0b0000_0000_0001_1000_0000_0110_0000_0000 = .ok (.levelZ11 513#10 true) := by
  decide
theorem test_dec_levelZ12 : decode .level 0b0000_0000_0000_1100_0000_0001_0000_0000 = .ok (.levelZ12 1025#11 false) := by
  decide
theorem test_dec_levelZ13 : decode .level 0b0000_0000_0000_0110_0000_0000_0110_0000 = .ok (.levelZ13 2049#12 true) := by
  decide
theorem test_dec_levelZ14 : decode .level 0b0000_0000_0000_0011_0000_0000_0001_0000 = .ok (.levelZ14 4097#13 false) := by
  decide
theorem test_dec_levelZ15 : decode .level 0b0000_0000_0000_0001_1000_0000_0000_0110 = .ok (.levelZ15 8193#14 true) := by
  decide

/- Little-endian: the bytes `88 77 66 55 01 00 00 80 2A 00 00 00 01 00 00 00` of program P2. -/
theorem test_dec_navHeader : decode .navHeader 0x000000010000002A8000000155667788 =
    .ok (.navHeader 0x55667788#32 0x80000001#32 0x2A#32 1#32) := by decide
/- The bytes `FF FF 08 00` of program P2. -/
theorem test_dec_navRecordHeader : decode .navRecordHeader 0x0008FFFF = .ok (.navRecordHeader 0xFFFF#16 8#16) := by decide
theorem test_dec_navDemo : decode (.navRecord 40#16) 0x0000 = .ok .navDemo := by decide
theorem test_dec_navVision : decode (.navRecord 120#16) 0x0010 = .ok .navVision := by decide
theorem test_dec_navChecksum : decode (.navRecord 8#16) 0xFFFF = .ok .navChecksum := by decide
theorem test_dec_navUnknown : decode (.navRecord 8#16) 0x1234 = .ok (.navUnknown 0x1234#16) := by decide
/- A demo record of size 12 is skipped (vector N7). -/
theorem test_dec_shortDemo : decode (.navRecord 12#16) 0x0000 = .ok (.navUnknown 0#16) := by decide

/-! ## Decoding: the illegal words of spec/95_test_vectors.md part 2 section 1, and of E1 -/

theorem test_rej_N0 : decode .vCmd 0x00000011 = .error .badCount := by decide
theorem test_rej_N33 : decode .vCmd 0x00002111 = .error .badCount := by decide
theorem test_rej_rsv14 : decode .vCmd 0x00004000 = .error .reservedBits := by decide
theorem test_rej_rsv31 : decode .vCmd 0x80000001 = .error .reservedBits := by decide
theorem test_rej_op2 : decode .vCmd 0x00000002 = .error .illegalOp := by decide
theorem test_rej_nop1 : decode .vCmd 0x00000100 = .error .badCount := by decide
theorem test_rej_nop10 : decode .nCmd 0x00000010 = .error .illegalOp := by decide
theorem test_rej_E1 : decode .startCode 0b0000000000000001000000 = .error .badStartCode := by decide
theorem test_rej_level : decode .level 0b0000_0000_0000_0000_1111_1111_1111_1111 = .error .levelOverflow := by decide

/-! ## Run and level codes, dequantization, transform, colour (R265, R266, R303, R329) -/

theorem test_rl_plus3 : runLevelOf 0b1_001_10_00000000000000000000000000 = some ⟨0, 3, false, 6⟩ := by decide
theorem test_rl_z6 : runLevelOf 0b0000001_11110_10_000000000000000000 = some ⟨62, 1, false, 14⟩ := by decide
theorem test_rl_eob : runLevelOf 0b01_01_0000000000000000000000000000 = some ⟨0, 0, true, 4⟩ := by decide
/- The row of R265 printed `00000111110 01` has the length 12 of `0000011111 01`; as printed, R254 reads run 31, level 2 (log
entry 26). -/
theorem test_rl_eob31 : runLevelOf 0b0000011111_01_00000000000000000000 = some ⟨0, 0, true, 12⟩ := by decide
theorem test_rl_printed31 : runLevelOf 0b00000111110_01_0000000000000000000 = some ⟨31, 2, false, 15⟩ := by decide
theorem test_factor_31 : [0, 1, 8, 9, 7, 56, 63].map (dequantFactor (effectiveQuant 31#32)) = [3, 5, 5, 7, 17, 17, 31] := by
  decide
theorem test_factor_minus1 :
    [0, 1, 8, 9, 7, 56, 63].map (dequantFactor (effectiveQuant (-1#32))) = [0, -1, -1, -2, -7, -7, -14] := by decide
theorem test_wrap16 : wrapTo 16 (32767 * 451) = 32317 := by decide
/- R303, row 0 of the block whose only coefficient is `C[1] = 100`. -/
theorem test_idct_column : idctRow [idctColumn (0 :: 100 :: List.replicate 62 0) 0, idctColumn (0 :: 100 :: List.replicate 62 0) 1,
    [], [], [], [], [], []] 0 = [17, 15, 10, 3, -3, -10, -15, -17] := by decide
/- R329 and vectors V6 and P4. -/
theorem test_rgb_gray : rgbWord Config.reference 96 128 128 = 0x606060#32 := by decide
theorem test_rgb_zero : rgbWord Config.reference 0 0 0 = 0x008700#32 := by decide
theorem test_rgb_V6 : rgbWord Config.reference (-48) (-64) (-64) = 0x009B00#32 := by decide
theorem test_rgb_P4 : rgbWord Config.reference 96 128 192 = 0xB93260#32 := by decide

/-! ## Helpers: small states -/

/-- The state right after reset with the VDU busy with a command word. -/
def videoReady (w : Word) : State :=
  { State.reset with v := { Vdu.reset with status := { Vdu.reset.status with busy := true }, pending := some w } }

/-- The state right after reset with the NDU busy with a command word and `N_LEN` = `len`. -/
def navReady (len w : Word) : State :=
  { State.reset with
    n := { Ndu.reset with status := { Ndu.reset.status with busy := true }, pending := some w, len := len } }

/-- A host about to make one access. -/
def hostReady (acc : HostAccess) : State := { State.reset with host := { HostPort.idle with queue := [acc] } }

/-- The registers of a VDU busy in the first slice of a picture of 88 by 72 pixels, over a stream of 8 bytes. -/
def picture (c : VideoCtx) : Vdu :=
  { Vdu.reset with
    status := { Vdu.reset.status with busy := true }
    brLen := 8
    quant := 1
    width := 88
    height := 72
    sliceCount := 4
    mbPerRow := 5
    sliceIndex := 1
    gridMbs := 5
    grid := List.replicate 5 (List.replicate 6 (List.replicate 64 0))
    ctx := c }

/-- That VDU, at the start of a stream of the 64 bits of `w`. -/
def streamStart (w : Nat) (c : VideoCtx) : State :=
  { (State.reset.scheduleNext .vdu).placeStream 64 w with v := picture c, pix := ⟨true, []⟩ }

/-- That VDU, at bit `p` of the stream. -/
def streaming (w p : Nat) (c : VideoCtx) : State := (streamStart w c).brMoveTo p

/-- The place before a run code of block 0 of macroblock 0, at scan position `scan`. -/
def atRun (scan : Nat) : VideoCtx := ⟨.run, 0, 0, 1, List.replicate 64 0, scan, 0, 0⟩

/-- The place before a level code, after a run code of `len` bits. -/
def atLevel (scan run len : Nat) : VideoCtx := ⟨.level, 0, 0, 1, List.replicate 64 0, scan, run, len⟩

/-- The place before an element of this kind. -/
def at_ (p : VideoPhase) : VideoCtx := ⟨p, 0, 0, 0, [], 0, 0, 0⟩

/-- The value of a register of the outcome, 0xDEAD if there is none. -/
def outcomeReg (r : Reg) : StepOutcome State → Word
  | .next t => t.readReg r
  | _ => 0xDEAD

/-! ## One step -/

/- R152: `VIN = 78 56 34 12 EF CD AB 89`; the stream is `0x1234567889ABCDEF`. -/
theorem test_brRead : outcomeReg .vResult (exec (.brRead 20#6) (streaming 0x1234567889ABCDEF 12 (at_ .idle))) = 0x45678#32 := by
  decide
theorem test_brRead_word : outcomeReg .brWord (exec (.brRead 4#6) (streaming 0x1234567889ABCDEF 32 (at_ .idle))) =
    0x9ABCDEF0#32 := by decide
/- Program P1: `0x1ABABCDEADBEEF` and the two codes, from bit 53. -/
theorem test_brPeek : outcomeReg .vResult (exec (.brPeek 8#6) (streaming 0xD5D5E6F56DF77C55 53 (at_ .idle))) = 0x8A#32 := by
  decide
theorem test_brAlign : outcomeReg .brState (exec .brAlign (streaming 0xD5D5E6F56DF77C55 53 (at_ .idle))) = 0x218#32 := by
  decide
theorem test_brRldec : outcomeReg .vRlLevel (exec .brRldec (streaming 0xD5D5E6F56DF77C55 53 (at_ .idle))) = 5#32 := by decide
theorem test_brRldec_info : outcomeReg .vRlInfo (exec .brRldec (streaming 0xD5D5E6F56DF77C55 61 (at_ .idle))) = 0x103#32 := by
  decide
theorem test_brHasrem : outcomeReg .vResult (exec .brHasrem (streaming 0xD5D5E6F56DF77C55 61 (at_ .idle))) = 0#32 := by decide
/- R371: an illegal word gives `V_STATUS = 0x102`. -/
theorem test_bad_command : outcomeReg .vStatus (step (videoReady 2)) = 0x102#32 := by decide
theorem test_vNop : outcomeReg .vStatus (step (videoReady 0)) = 0x002#32 := by decide
theorem test_nNop_irq : outcomeReg .irqStatus (step (navReady 0 0)) = 0x08#32 := by decide
/- N0: a datagram of 15 bytes. -/
theorem test_nDecode_short : outcomeReg .nStatus (step (navReady 15 1)) = 0xB02#32 := by decide
/- R372, and the same for `V.DECODE` (R232). -/
theorem test_brInit_range : outcomeReg .vStatus (exec .brInit { videoReady 0x10 with v := { (videoReady 0x10).v with
    len := 65537 } }) = 0x202#32 := by decide
theorem test_vDecode_range : outcomeReg .vStatus (exec .vDecode { videoReady 1 with v := { (videoReady 1).v with
    len := 65537 } }) = 0x202#32 := by decide
/- `V.DECODE` of no bytes ends without a frame (R231). -/
theorem test_vDecode_empty : outcomeReg .vStatus (step (videoReady 1)) = 0x002#32 := by decide
/- R385: `IRQ_STATUS = 0x05`, write `0x04`. -/
theorem test_irqStatusW1c :
    outcomeReg .irqStatus (exec (.irqStatusW1c 0b00100#5) { State.reset with irqStatus := 0b00101#5 }) = 1#32 := by decide
theorem test_softReset : outcomeReg .brState (exec (.softReset false true) (streaming 0 7 (at_ .mbc))) = 0x20#32 := by decide
/- Program P4: `MBDIFF = 01` takes `V_QUANT` from 3 to 1; here from 1 to -1. -/
theorem test_mbdiff : outcomeReg .vQuant (exec (.mbdiff 1#2) (streaming 0 0 (at_ .mbdiff))) = 0xFFFFFFFF#32 := by decide
theorem test_squant : outcomeReg .vSliceIndex (exec (.squant 2#5) (streaming 0 0 (at_ .sliceQuant))) = 2#32 := by decide
theorem test_eop : outcomeReg .vStatus (exec .eop (streaming 0 1 (at_ .startCode))) = 0x0E#32 := by decide
theorem test_pictureHeader : outcomeReg .vWidth (exec (.pictureHeader 2#2 3#3 0#3 1#5 0#32) (streaming 0 0 (at_ .pictureHeader)))
    = 640#32 := by decide
theorem test_pictureHeader_capacity : outcomeReg .vStatus
    (exec (.pictureHeader 1#2 4#3 0#3 1#5 0#32) (streaming 0 0 (at_ .pictureHeader))) = 0x702#32 := by decide
/- V3: a level past scan position 63. -/
theorem test_zigzag : outcomeReg .vStatus (exec (.levelZ0 false) (streaming 0 0 (atLevel 63 0 1))) = 0x902#32 := by decide
theorem test_runOvf : outcomeReg .vStatus (exec .runOvf (streaming 0 0 (atRun 0))) = 0x802#32 := by decide
/- A word of the table is run where it is placed (R101, R111). -/
theorem test_fetchWord_command : step (State.reset.withFetchWord 32 0x10) = exec .brInit (State.reset.withFetchWord 32 0x10).moved :=
  rfl
theorem test_tableWord_sc : decodeTableWord 24 0x23 = some (.sc 3#5) := by decide
theorem test_tableWord_vision : decodeTableWord 16 0x0010 = some .navVision := by decide
theorem test_tableWord_run : decodeTableWord 8 0x0D = some (.runZ4 5#3) := by decide

/-! ## The invariant on these states -/

theorem streaming_vin (w p : Nat) (c : VideoCtx) :
    (streaming w p c).vin = memWrite (memWrite [] 0 (BitVec.ofNat 32 (w * 2 ^ 0 / 2 ^ 32)) 4) 4
      (BitVec.ofNat 32 (w * 2 ^ 0)) 4 := by
  unfold streaming; rw [brMoveTo_vin]; rfl

theorem streaming_vinRange (w p : Nat) (c : VideoCtx) : ∀ x ∈ (streaming w p c).vin, x.1 < 65536 := by
  intro x hx
  rw [streaming_vin] at hx
  rcases mem_memWrite _ _ _ _ x hx with h | h
  · rcases mem_memWrite _ _ _ _ x h with h | h
    · simp at h
    · omega
  · omega

theorem streaming_cursor (w p : Nat) (c : VideoCtx) (hp : p ≤ 64) : CursorOk (streaming w p c) := by
  refine cursorOk_brMoveTo (s := streamStart w c) ⟨?_, ?_, ?_⟩ p ?_
  · change Config.reference.valid = true; decide
  · change (8#32).toNat ≤ 65536; decide
  · change (0#32).toNat ≤ 32 * ((8#32).toNat / 4); decide
  · change p ≤ 32 * ((8#32).toNat / 4); exact hp

theorem streaming_at (w p : Nat) (c : VideoCtx) (hp : p ≤ 64) : (streaming w p c).brAt = p :=
  brAt_brMoveTo _ p (by omega)

theorem streaming_ext (w p : Nat) (c : VideoCtx) : (streaming w p c).brExt = 64 := by
  unfold streaming; rw [brExt_brMoveTo]; change 32 * ((8#32).toNat / 4) = 64; decide

theorem inv_streaming (w p : Nat) (c : VideoCtx) (hp : p ≤ 64)
    (hc : (c.phase = .mbc ∨ c.phase = .mbdes ∨ c.phase = .mbdiff ∨ c.phase = .dc ∨ c.phase = .run ∨ c.phase = .level) ∧
      c.mb < 5 ∧ c.blk < 6 ∧ (c.phase = .run ∨ c.phase = .level → c.coef.length = 64 ∧ c.scan ≤ 63) ∧
      (c.phase = .level → 1 ≤ c.runLen ∧ c.runLen ≤ 30)) : Inv (streaming w p c) where
  cursor := streaming_cursor w p c hp
  brState := brStateOk_of_synced
    (movedTo_brMoveTo (streamStart w c) p (by omega)).2.2
  buffers :=
    { vinForm := by rw [streaming_vin]; exact memWrite_wf _ _ _ _ (memWrite_wf _ _ _ _ rfl)
      vinRange := by
        have : (streaming w p c).cfg.vinBytes = 65536 := by unfold streaming; rw [brMoveTo_cfg]; rfl
        rw [this]; exact streaming_vinRange w p c
      ninForm := by unfold streaming; rw [brMoveTo_nin]; rfl
      ninRange := by unfold streaming; rw [brMoveTo_nin]; intro x hx; cases hx
      pixForm := by unfold streaming; rw [brMoveTo_pix]; rfl
      pixRange := by unfold streaming; rw [brMoveTo_pix]; intro x hx; cases hx
      pixWord := by unfold streaming; rw [brMoveTo_pix]; intro x hx; cases hx }
  picture := by
    refine ⟨?_, ?_, ?_, ?_, ?_, ?_, ?_, ?_, ?_, ?_⟩ <;> unfold streaming
    · simp only [brMoveTo_v_mbPerRow, brMoveTo_v_width]; change (5#32).toNat = (88#32).toNat / 16; decide
    · simp only [brMoveTo_v_sliceCount, brMoveTo_v_height]; change (4#32).toNat = (72#32).toNat / 16; decide
    · simp only [brMoveTo_v_width, brMoveTo_v_height, brMoveTo_cfg]
      change (88#32).toNat * (72#32).toNat ≤ 307200; decide
    · simp only [brMoveTo_v_gridMbs, brMoveTo_v_mbPerRow]; rfl
    · simp only [brMoveTo_v_gridMbs, brMoveTo_cfg]; change (5#32).toNat ≤ 40; decide
    · simp only [brMoveTo_v_grid, brMoveTo_v_gridMbs]; rfl
    · simp only [brMoveTo_v_grid, brMoveTo_cfg]
      intro m hm
      change m ∈ List.replicate 5 (List.replicate 6 (List.replicate 64 0)) at hm
      rw [List.eq_of_mem_replicate hm]
      refine ⟨rfl, fun b hb => ?_⟩
      rw [List.eq_of_mem_replicate hb]
      refine ⟨rfl, fun x hx => ?_⟩
      rw [List.eq_of_mem_replicate hx]
      change -(2 ^ (16 - 1)) ≤ (0 : Int) ∧ (0 : Int) < 2 ^ (16 - 1)
      decide
    · intro _; rw [brMoveTo_pix]; rfl
    · simp only [brMoveTo_v_width, brMoveTo_v_height]
      change LegalDimensions (88#32).toNat (72#32).toNat
      exact .inr ⟨1, by decide, by decide, .inl ⟨by decide, by decide⟩⟩
    · intro _; rw [brMoveTo_pix]; intro x hx; cases hx
  status := by
    have e1 : (streaming w p c).v.status = { Vdu.reset.status with busy := true } := by
      unfold streaming; rw [brMoveTo_v_status]; rfl
    have e2 : (streaming w p c).v.ctx = c := by unfold streaming; rw [brMoveTo_v_ctx]; rfl
    have e3 : (streaming w p c).n = Ndu.reset := by unfold streaming; rw [brMoveTo_n]; rfl
    refine ⟨?_, ?_, ?_, ?_, ?_, ?_, ?_, ?_⟩ <;> simp only [e1, e2, e3]
    · intro h; cases h
    · intro _; exact ⟨rfl, rfl⟩
    · intro _ h; rw [h] at hc; exact absurd hc.1 (by decide)
    · rfl
    · intro _; exact ⟨rfl, rfl⟩
    · intro h; cases h
    · intro h; cases h
    · intro h; cases h
  video := by
    have e2 : (streaming w p c).v.ctx = c := by unfold streaming; rw [brMoveTo_v_ctx]; rfl
    have e4 : (streaming w p c).v.mbPerRow = 5 := by unfold streaming; rw [brMoveTo_v_mbPerRow]; rfl
    obtain ⟨h1, h2, h3, h4, h5⟩ := hc
    refine ⟨?_, ?_, ?_, ?_, ?_, ?_⟩ <;> rw [e2]
    · intro h; rw [h] at h1; exact absurd h1 (by decide)
    · intro h; rw [h] at h1; exact absurd h1 (by decide)
    · intro _; rw [e4]; exact h2
    · intro _; exact h3
    · intro h; exact h4 (by simpa using h)
    · exact h5
  nav := by
    have e3 : (streaming w p c).n = Ndu.reset := by unfold streaming; rw [brMoveTo_n]; rfl
    refine ⟨?_, ?_, ?_, ?_⟩ <;> rw [e3]
    · intro h; exact absurd rfl h
    · intro h; exact absurd rfl h
    · intro h; cases h
    · intro h; cases h

/-- A state that differs from reset in the pending commands, `N_LEN` and the host port. -/
def waiting (vw nw : Option Word) (len : Word) (h : HostPort) : State :=
  { State.reset with
    v := { Vdu.reset with status := { Vdu.reset.status with busy := vw.isSome }, pending := vw }
    n := { Ndu.reset with status := { Ndu.reset.status with busy := nw.isSome }, pending := nw, len := len }
    host := h }

theorem inv_waiting (vw nw : Option Word) (len : Word) (h : HostPort) : Inv (waiting vw nw len h) where
  cursor := by
    refine ⟨?_, ?_, ?_⟩
    · change Config.reference.valid = true; decide
    · change (0#32).toNat ≤ 65536; decide
    · change (0#32).toNat ≤ 32 * ((0#32).toNat / 4); decide
  brState := ⟨fun _ => rfl, fun h => absurd rfl h, by
    change 1 ≤ (32#6).toNat ∧ (32#6).toNat ≤ 32; decide⟩
  buffers := by refine ⟨rfl, ?_, rfl, ?_, rfl, ?_, ?_⟩ <;> intro x hx <;> cases hx
  picture := by
    refine ⟨?_, ?_, ?_, rfl, ?_, rfl, ?_, fun h => absurd rfl h, .inl ⟨rfl, rfl⟩, fun h => absurd rfl h⟩
    · change (0#32).toNat = (0#32).toNat / 16; decide
    · change (0#32).toNat = (0#32).toNat / 16; decide
    · change (0#32).toNat * (0#32).toNat ≤ 307200; decide
    · change (0#32).toNat ≤ 40; decide
    · intro m hm; cases hm
  status := by
    refine ⟨?_, fun _ => ⟨rfl, rfl⟩, ?_, rfl, ?_, fun _ => ⟨rfl, rfl⟩, ?_, ?_⟩
    · intro h
      cases vw
      · exact ⟨rfl, rfl⟩
      · cases h
    · intro h _
      cases vw
      · cases h
      · intro h; cases h
    · intro h
      cases nw
      · exact ⟨rfl, rfl⟩
      · cases h
    · intro h _
      cases nw
      · cases h
      · intro h; cases h
    · intro h; cases h
  video := by
    have e : (waiting vw nw len h).v.ctx = VideoCtx.idle := rfl
    refine ⟨?_, ?_, ?_, ?_, ?_, ?_⟩ <;> rw [e] <;> intro h <;> exact absurd h (by decide)
  nav := by
    have e : (waiting vw nw len h).n.ctx = NavCtx.idle := rfl
    refine ⟨?_, ?_, ?_, ?_⟩ <;> rw [e] <;> intro h <;> exact absurd h (by decide)

theorem inv_videoReady (w : Word) : Inv (videoReady w) := inv_waiting (some w) none 0 HostPort.idle

theorem inv_navReady (len w : Word) : Inv (navReady len w) := inv_waiting none (some w) len HostPort.idle

/-! ## A state and operands that meet the hypotheses of each statement -/

theorem witness_DecodeEncode :
    (Instr.wellFormed (.brRead 32#6) = true ∧ 0 < 2 ^ ((Instr.ctx (.brRead 32#6)).width - (encode (.brRead 32#6)).len)) ∧
    (Instr.wellFormed (.runZ15 0#14) = true ∧
      3 < 2 ^ ((Instr.ctx (.runZ15 0#14)).width - (encode (.runZ15 0#14)).len)) := by decide

theorem witness_EncodeDecode :
    0x2011 < 2 ^ DecCtx.vCmd.width ∧ DecCtx.vCmd ≠ .softReset ∧ DecCtx.vCmd ≠ .irqStatus ∧ DecCtx.vCmd ≠ .irqEnable ∧
      (∀ size, DecCtx.vCmd ≠ .navRecord size) ∧ decode .vCmd 0x2011 = .ok (.brRead 32#6) :=
  ⟨by decide, by decide, by decide, by decide, fun _ h => (nomatch h), by decide⟩

/-- A NDU busy with a vision record. -/
def navRecordState : State :=
  { navReady 144 1 with n := { (navReady 144 1).n with ctx := ⟨.record, 16, 0x0010#16, 120#16⟩ } }

theorem witness_StepRunsDecoded :
    ((videoReady 0x10).nextAgent = .vdu ∧ (videoReady 0x10).v.status.busy = true ∧
      (videoReady 0x10).v.ctx.phase = .idle ∧ (videoReady 0x10).v.pending = some 0x10#32 ∧
      decode .vCmd 0x10 = .ok .brInit) ∧
    ((streaming 0 0 (at_ .mbc)).nextAgent = .vdu ∧ (streaming 0 0 (at_ .mbc)).v.status.busy = true ∧
      videoWindow (streaming 0 0 (at_ .mbc)) = some (.mbc, 0) ∧ decode .mbc 0 = .ok .mbcCoded) ∧
    ((navReady 0 0).nextAgent = .ndu ∧ (navReady 0 0).n.status.busy = true ∧ (navReady 0 0).n.ctx.phase = .idle ∧
      (navReady 0 0).n.pending = some 0#32 ∧ decode .nCmd 0 = .ok .nNop) ∧
    (navRecordState.nextAgent = .ndu ∧ navRecordState.n.status.busy = true ∧
      navWindow navRecordState = some (.navRecord 120#16, 0x0010) ∧
      decode (.navRecord 120#16) 0x0010 = .ok .navVision) ∧
    ((hostReady (.write 0x108 4 5)).nextAgent = .host ∧
      (hostReady (.write 0x108 4 5)).host.queue = .write 0x108 4 5 :: [] ∧
      hostInstr (hostReady (.write 0x108 4 5)).cfg (.write 0x108 4 5) = some (.vLen 5)) := by decide

theorem witness_UnitStepCompletes :
    (Inv (videoReady 1) ∧ Settled (videoReady 1) ∧ (videoReady 1).nextAgent = .vdu ∧
      (videoReady 1).v.status.busy = true) ∧
    (Inv (navReady 16 1) ∧ Settled (navReady 16 1) ∧ (navReady 16 1).nextAgent = .ndu ∧
      (navReady 16 1).n.status.busy = true) :=
  ⟨⟨inv_videoReady 1, ⟨rfl, rfl⟩, rfl, rfl⟩, ⟨inv_navReady 16 1, ⟨rfl, rfl⟩, rfl, rfl⟩⟩

theorem witness_StepKeepsSettled : Settled (videoReady 0) ∧ step (videoReady 0) = .next ((videoReady 0).complete .vdu .none) :=
  ⟨⟨rfl, rfl⟩, rfl⟩

theorem witness_StepKeepsInv : Inv (videoReady 0) ∧ step (videoReady 0) = .next ((videoReady 0).complete .vdu .none) :=
  ⟨inv_videoReady 0, rfl⟩

theorem witness_NoFault : Inv (streaming 0 64 (at_ .dc)) := inv_streaming 0 64 _ (by decide) (by decide)

/- An illegal word: `OP = 0x02` for the VDU, `OP = 0x10` for the NDU. -/
theorem witness_BadCommand :
    ((videoReady 2).nextAgent = .vdu ∧ (videoReady 2).v.status.busy = true ∧ (videoReady 2).v.ctx.phase = .idle ∧
      (videoReady 2).v.pending = some 2 ∧ ∀ i, decode .vCmd (2 : Word).toNat ≠ .ok i) ∧
    ((navReady 0 0x10).nextAgent = .ndu ∧ (navReady 0 0x10).n.status.busy = true ∧
      (navReady 0 0x10).n.ctx.phase = .idle ∧ (navReady 0 0x10).n.pending = some 0x10 ∧
      ∀ i, decode .nCmd (0x10 : Word).toNat ≠ .ok i) := by
  have e1 : decode .vCmd (2 : Word).toNat = .error .illegalOp := by decide
  have e2 : decode .nCmd (0x10 : Word).toNat = .error .illegalOp := by decide
  exact ⟨⟨rfl, rfl, rfl, rfl, fun i h => by rw [e1] at h; cases h⟩, rfl, rfl, rfl, rfl, fun i h => by rw [e2] at h; cases h⟩

theorem witness_VduStepFrame :
    (videoReady 0).nextAgent = .vdu ∧ step (videoReady 0) = .next ((videoReady 0).complete .vdu .none) := ⟨rfl, rfl⟩

theorem witness_NduStepFrame :
    (navReady 0 0).nextAgent = .ndu ∧ step (navReady 0 0) = .next ((navReady 0 0).complete .ndu .none) := ⟨rfl, rfl⟩

theorem witness_CursorMonotone :
    CursorOk (streaming 0 5 (at_ .idle)) ∧ Instr.brAlign ≠ .brInit ∧ Instr.brAlign ≠ .vDecode ∧
      (∀ n, Instr.brAlign ≠ .softReset n true) ∧
      exec .brAlign (streaming 0 5 (at_ .idle)) = .next ((streaming 0 5 (at_ .idle)).brAlign.complete .vdu .none) :=
  ⟨streaming_cursor 0 5 _ (by decide), by decide, by decide, fun _ h => (nomatch h), rfl⟩

theorem witness_ResultRegisterWriters :
    exec .brAlign (streaming 0 5 (at_ .idle)) = .next ((streaming 0 5 (at_ .idle)).brAlign.complete .vdu .none) ∧
      (∀ n, Instr.brAlign ≠ .softReset n true) ∧ Instr.brAlign ≠ .brInit ∧ (∀ n, Instr.brAlign ≠ .brRead n) ∧
      (∀ n, Instr.brAlign ≠ .brPeek n) ∧ Instr.brAlign ≠ .brHasrem ∧ Instr.brAlign ≠ .brRldec :=
  ⟨rfl, fun _ h => (nomatch h), by decide, fun _ h => (nomatch h), fun _ h => (nomatch h), by decide, by decide⟩

theorem witness_InterruptBitsPersist :
    exec .vNop { videoReady 0 with irqStatus := 0b10000#5 } =
      .next (State.complete { videoReady 0 with irqStatus := 0b10000#5 } .vdu .none) ∧
    (∀ m, Instr.vNop ≠ .irqStatusW1c m) ∧ (∀ n v, Instr.vNop ≠ .softReset n v) ∧ (∀ e, Instr.vNop ≠ .irqEnable e) ∧
    ({ videoReady 0 with irqStatus := 0b10000#5 } : State).irqStatus.getLsbD 4 = true :=
  ⟨rfl, fun _ h => (nomatch h), fun _ _ h => (nomatch h), fun _ h => (nomatch h), by decide⟩

theorem witness_LengthWrites :
    State.reset.v.status.busy = false ∧ (videoReady 0).v.status.busy = true ∧ State.reset.n.status.busy = false ∧
      (navReady 0 0).n.status.busy = true := by decide

theorem witness_CommandAcceptance :
    (hostReady (.write 0x100 4 1)).nextAgent = .host ∧
    (hostReady (.write 0x100 4 1)).host.queue =
      .write ((hostReady (.write 0x100 4 1)).cfg.vfdBase + 0x100) 4 1 :: [] ∧
    (hostReady (.write 0x200 4 1)).nextAgent = .host ∧
    (hostReady (.write 0x200 4 1)).host.queue =
      .write ((hostReady (.write 0x200 4 1)).cfg.vfdBase + 0x200) 4 1 :: [] := by decide

/-- A host about to read, with bytes in both buffers and a pixel set; the VDU may be busy. -/
def hostReading (addr width : Nat) (vw : Option Word) : State :=
  { waiting vw none 0 { HostPort.idle with queue := [.read addr width], sched := [.host] } with
    vin := [(0, 1#8), (65532, 2#8), (65533, 3#8), (65535, 4#8)], nin := [(4095, 5#8)], pix := ⟨true, [(1, 6)]⟩ }

/- The first and the last offset, a register of an idle unit, and `IRQ_STATUS` and a register of the idle NDU while the VDU
is busy; the first and the last bytes of each buffer, one byte written in a word; the first and the last pixel. -/
theorem witness_RegisterReads :
    (∀ ov ∈ [(0x000, none), (0x114, none), (0xFFC, none), (0x004, some 0), (0x21C, some (0 : Word))],
      (hostReading ov.1 4 ov.2).nextAgent = .host ∧ ov.1 < 0x1000 ∧ ov.1 % 4 = 0 ∧
      (hostReading ov.1 4 ov.2).host.queue = .read ((hostReading ov.1 4 ov.2).cfg.vfdBase + ov.1) 4 :: []) ∧
    (regAt 0x114 = some .brPos ∧ regAt 0x004 = some .irqStatus ∧ regAt 0x21C = some .nCksCalc ∧ regAt 0xFFC = none) ∧
    (ReadsExactly (hostReading 0x114 4 none) 0x114 ∧ ReadsExactly (hostReading 0x004 4 (some 0)) 0x004 ∧
      ReadsExactly (hostReading 0x21C 4 (some 0)) 0x21C) ∧
    (∀ aw ∈ [(0, 1), (65534, 2), (65532, 4)],
      (hostReading (0x100000 + aw.1) aw.2 none).nextAgent = .host ∧
      (hostReading (0x100000 + aw.1) aw.2 none).cfg.valid = true ∧ (aw.2 = 1 ∨ aw.2 = 2 ∨ aw.2 = 4) ∧
      aw.1 % aw.2 = 0 ∧ aw.1 + aw.2 ≤ Config.reference.vinBytes ∧
      (hostReading (0x100000 + aw.1) aw.2 none).host.queue = .read (0 + 0x100000 + aw.1) aw.2 :: [] ∧
      cellFind (hostReading 0 4 none).vin 0 = some 1#8 ∧ cellFind (hostReading 0 4 none).vin (65532 + 3) = some 4#8) ∧
    (∀ aw ∈ [(4095, 1), (4094, 2), (4092, 4)],
      (hostReading (0x200000 + aw.1) aw.2 none).nextAgent = .host ∧ aw.1 % aw.2 = 0 ∧
      aw.1 + aw.2 ≤ Config.reference.ninBytes ∧
      (hostReading (0x200000 + aw.1) aw.2 none).host.queue = .read (0 + 0x200000 + aw.1) aw.2 :: [] ∧
      cellFind (hostReading 0 4 none).nin 4095 = some 5#8) ∧
    (∀ p ∈ [0, 1, 307199],
      (hostReading (0x400000 + 4 * p) 4 none).nextAgent = .host ∧ p < Config.reference.pixEntries ∧
      (hostReading (0x400000 + 4 * p) 4 none).host.queue = .read (0 + 0x400000 + 4 * p) 4 :: [] ∧
      (hostReading (0x400000 + 4 * p) 4 none).v.status.busy = false ∧
      (hostReading (0x400000 + 4 * p) 4 none).pix.get p = some (if p = 1 then 6 else 0)) := by
  refine ⟨by decide, by decide, ⟨.inr (.inl (by decide)), .inl (by decide), .inr (.inr (by decide))⟩, by decide, by decide,
    by decide⟩

/- Both units idle; the first and the last reserved offset of each range. -/
theorem witness_RegisterMap :
    (State.reset.v.status.busy = false ∧ State.reset.n.status.busy = false) ∧
    ∀ off ∈ [0x010, 0x0FC, 0x15C, 0x1FC, 0x228, 0x22C, 0x254, 0x25C, 0x264, 0x27C, 0x29C, 0x2FC, 0x300, 0xFFC],
      off < 0x1000 ∧ off % 4 = 0 ∧
      ((0x00C < off ∧ off < 0x100) ∨ (0x158 < off ∧ off < 0x200) ∨ (0x224 < off ∧ off < 0x230) ∨
        (0x250 < off ∧ off < 0x260) ∨ (0x260 < off ∧ off < 0x280) ∨
        (0x280 ≤ off ∧ off < 0x300 ∧ off % 0x20 = 0x1C) ∨ 0x300 ≤ off) := by decide

/- While the VDU alone is busy: `IRQ_ENABLE`, the length registers and the first and the last register of the idle NDU read
exactly, the first and the last register the VDU writes do not; the same of the NDU; a pixel while the VDU is idle. -/
theorem witness_BusyReads :
    ((videoReady 0).v.status.busy = true ∧
      (ReadsExactly (videoReady 0) 0x008 ∧ regAt 0x008 = some .irqEnable) ∧
      (ReadsExactly (videoReady 0) 0x108 ∧ regAt 0x108 = some .vLen) ∧
      (ReadsExactly (videoReady 0) 0x204 ∧ regAt 0x204 = some .nStatus) ∧
      (ReadsExactly (videoReady 0) 0x2F8 ∧ regAt 0x2F8 = some (.nVis 3 6)) ∧
      (¬ ReadsExactly (videoReady 0) 0x10C ∧ regAt 0x10C = some .vResult) ∧
      (¬ ReadsExactly (videoReady 0) 0x158 ∧ regAt 0x158 = some .vRlInfo)) ∧
    ((navReady 0 0).n.status.busy = true ∧
      (ReadsExactly (navReady 0 0) 0x208 ∧ regAt 0x208 = some .nLen) ∧
      (ReadsExactly (navReady 0 0) 0x104 ∧ regAt 0x104 = some .vStatus) ∧
      (ReadsExactly (navReady 0 0) 0x158 ∧ regAt 0x158 = some .vRlInfo) ∧
      (¬ ReadsExactly (navReady 0 0) 0x20C ∧ regAt 0x20C = some .nMagic) ∧
      (¬ ReadsExactly (navReady 0 0) 0x2F8 ∧ regAt 0x2F8 = some (.nVis 3 6))) ∧
    ((navReady 0 0).v.status.busy = false ∧ ({ navReady 0 0 with pix := ⟨true, []⟩ } : State).pix.get 7 = some 0) := by
  refine ⟨⟨by decide, ⟨.inl (by decide), by decide⟩, ⟨.inl (by decide), by decide⟩, ⟨.inr (.inr (by decide)), by decide⟩,
    ⟨.inr (.inr (by decide)), by decide⟩, ⟨?_, by decide⟩, ⟨?_, by decide⟩⟩, ⟨by decide, ⟨.inl (by decide), by decide⟩,
    ⟨.inr (.inl (by decide)), by decide⟩, ⟨.inr (.inl (by decide)), by decide⟩, ⟨?_, by decide⟩, ⟨?_, by decide⟩⟩,
    by decide, by decide⟩
  all_goals rintro (h | ⟨_, h1, h⟩ | ⟨h1, h⟩) <;> first | omega | (revert h; decide)

theorem witness_IneffectiveWrites :
    (∀ off ∈ [0x000, 0x104, 0x27C, 0xFFC],
      (hostReady (.write off 4 7)).nextAgent = .host ∧ off < 0x1000 ∧ off % 4 = 0 ∧
      off ∉ [0x004, 0x008, 0x00C, 0x100, 0x108, 0x200, 0x208] ∧
      (hostReady (.write off 4 7)).host.queue = .write ((hostReady (.write off 4 7)).cfg.vfdBase + off) 4 7 :: []) ∧
    (∀ p ∈ [0, 307199],
      (hostReady (.write (0x400000 + 4 * p) 4 7)).nextAgent = .host ∧
      (hostReady (.write (0x400000 + 4 * p) 4 7)).cfg.valid = true ∧ p < Config.reference.pixEntries ∧
      (hostReady (.write (0x400000 + 4 * p) 4 7)).host.queue = .write (0 + 0x400000 + 4 * p) 4 7 :: []) := by decide

/- The first byte and the last bytes of each buffer. -/
theorem witness_BufferWrites :
    (∀ aw ∈ [(0, 1), (65534, 2), (65532, 4)],
      (hostReady (.write (0x100000 + aw.1) aw.2 7)).nextAgent = .host ∧
      (hostReady (.write (0x100000 + aw.1) aw.2 7)).cfg.valid = true ∧ (aw.2 = 1 ∨ aw.2 = 2 ∨ aw.2 = 4) ∧
      aw.1 % aw.2 = 0 ∧ (hostReady (.write (0x100000 + aw.1) aw.2 7)).v.status.busy = false ∧
      aw.1 + aw.2 ≤ Config.reference.vinBytes ∧
      (hostReady (.write (0x100000 + aw.1) aw.2 7)).host.queue = .write (0 + 0x100000 + aw.1) aw.2 7 :: []) ∧
    (∀ aw ∈ [(0, 1), (4094, 2), (4092, 4)],
      (hostReady (.write (0x200000 + aw.1) aw.2 7)).nextAgent = .host ∧
      (hostReady (.write (0x200000 + aw.1) aw.2 7)).cfg.valid = true ∧ (aw.2 = 1 ∨ aw.2 = 2 ∨ aw.2 = 4) ∧
      aw.1 % aw.2 = 0 ∧ (hostReady (.write (0x200000 + aw.1) aw.2 7)).n.status.busy = false ∧
      aw.1 + aw.2 ≤ Config.reference.ninBytes ∧
      (hostReady (.write (0x200000 + aw.1) aw.2 7)).host.queue = .write (0 + 0x200000 + aw.1) aw.2 7 :: []) := by decide

/- A misaligned read is refused (R75), a read of `ID` is not; a unit's turn. -/
theorem witness_RefusedAccesses :
    ((hostReady (.read 0x100002 4)).cfg.valid = true ∧ (hostReady (.read 0x100002 4)).nextAgent = .host ∧
      (hostReady (.read 0x100002 4)).host.queue = .read 0x100002 4 :: [] ∧
      step (hostReady (.read 0x100002 4)) = .refused .misaligned) ∧
    ((hostReady (.read 0 4)).nextAgent = .host ∧ (hostReady (.read 0 4)).host.queue = .read 0 4 :: []) ∧
    ((videoReady 0).cfg.valid = true ∧ (videoReady 0).nextAgent ≠ .host) :=
  ⟨⟨by decide, by decide, by decide, rfl⟩, by decide, by decide⟩

theorem witness_BrInit :
    ({ State.reset with v := { Vdu.reset with len := 65536 } } : State).v.len.toNat ≤ State.reset.cfg.vinBytes ∧
    State.reset.cfg.vinBytes < ({ State.reset with v := { Vdu.reset with len := 65537 } } : State).v.len.toNat := by
  decide

theorem witness_BrRead :
    (bitCountOk 32#6 = true ∧ CursorOk (streaming 0 32 (at_ .idle)) ∧
      (streaming 0 32 (at_ .idle)).brAt + (32#6).toNat ≤ (streaming 0 32 (at_ .idle)).brExt) ∧
    (bitCountOk 1#6 = true ∧ CursorOk (streaming 0 64 (at_ .idle)) ∧
      (streaming 0 64 (at_ .idle)).brExt < (streaming 0 64 (at_ .idle)).brAt + (1#6).toNat) :=
  ⟨⟨by decide, streaming_cursor 0 32 _ (by decide), by decide⟩, by decide, streaming_cursor 0 64 _ (by decide), by decide⟩

theorem witness_BrPeek : bitCountOk 1#6 = true ∧ bitCountOk 32#6 = true := by decide

theorem witness_BrAlign : CursorOk (streaming 0 64 (at_ .idle)) ∧ CursorOk (streaming 0 1 (at_ .idle)) :=
  ⟨streaming_cursor 0 64 _ (by decide), streaming_cursor 0 1 _ (by decide)⟩

/-- What a `BR.READ n` inside the extent answers. -/
theorem read_next (s : State) (n : BitVec 6) (hs : CursorOk s) (h : s.brAt + n.toNat ≤ s.brExt) :
    ∃ t, exec (.brRead n) s = .next t ∧ CursorOk t ∧ t.brAt = s.brAt + n.toNat ∧ t.brExt = s.brExt := by
  have hm := cursorOk_brMoveTo hs (s.brAt + n.toNat) h
  exact ⟨_, videoTake_inside h _, ⟨hm.1, hm.2, hm.3⟩, brAt_brMoveTo s _ (le_trans h hs.ext_le), brExt_brMoveTo s _⟩

theorem witness_ReadLaws :
    (∃ t u v, bitCountOk 13#6 = true ∧ bitCountOk 19#6 = true ∧ bitCountOk 32#6 = true ∧
      CursorOk (streaming 0 32 (at_ .idle)) ∧ (32#6).toNat = (13#6).toNat + (19#6).toNat ∧
      (streaming 0 32 (at_ .idle)).brAt + (32#6).toNat ≤ (streaming 0 32 (at_ .idle)).brExt ∧
      exec (.brRead 13#6) (streaming 0 32 (at_ .idle)) = .next t ∧ exec (.brRead 19#6) t = .next u ∧
      exec (.brRead 32#6) (streaming 0 32 (at_ .idle)) = .next v ∧
      exec (.brPeek 13#6) (streaming 0 32 (at_ .idle)) = .next (State.complete
        ((streaming 0 32 (at_ .idle)).setResult (BitVec.ofNat 32 ((streaming 0 32 (at_ .idle)).brPeek 13))) .vdu .none)) ∧
    (streaming 0 64 (at_ .idle)).brAt = (streaming 0 64 (at_ .idle)).brExt := by
  refine ⟨?_, by decide⟩
  have hc := streaming_cursor 0 32 (at_ .idle) (by decide)
  obtain ⟨v, ev, _⟩ := read_next _ 32#6 hc (by decide)
  obtain ⟨t, et, ct, ht, xt⟩ := read_next _ 13#6 hc (by decide)
  obtain ⟨u, eu, _⟩ := read_next t 19#6 ct (by rw [ht, xt]; decide)
  exact ⟨t, u, v, by decide, by decide, by decide, hc, by decide, by decide, et, eu, ev, rfl⟩

/-- A host about to write a word to chunk 1 of `VIN`, the cursor standing there. -/
def chunkWrite : State :=
  State.brMoveTo { hostReady (.write 0x100004 4 0x12345678) with v := { Vdu.reset with brLen := 8 } } 32

theorem witness_WordReadsBack :
    ∃ t u, CursorOk chunkWrite ∧ chunkWrite.nextAgent = .host ∧ chunkWrite.v.status.busy = false ∧
      chunkWrite.brAt % 32 = 0 ∧ chunkWrite.brAt + 32 ≤ chunkWrite.brExt ∧
      chunkWrite.host.queue = .write (chunkWrite.cfg.vfdBase + 0x100000 + chunkWrite.brAt / 8) 4 0x12345678 :: [] ∧
      step chunkWrite = .next t ∧ exec (.brRead 32#6) t = .next u := by
  obtain ⟨u, eu, _⟩ := read_next { chunkWrite.hostMoved with vin := memWrite [] 4 0x12345678 4 } 32#6
    ⟨by decide, by decide, by decide⟩ (by decide)
  exact ⟨_, u, ⟨by decide, by decide, by decide⟩, by decide, by decide, by decide, by decide, by decide, rfl, eu⟩

/- A run and a level code of 32 bits in all at the end of the extent, and one past it; an end of block; 16 zeros; a level
prefix of 2 zeros after a run code of 30 bits. -/
theorem witness_BrRldec_level :
    CursorOk (streaming 0x8000FFFF 32 (at_ .idle)) ∧ runOperands .runZ0 = some (0, 0) ∧
    levelOperands (.levelZ15 0x3FFF#14 true) = some (15, 0x3FFF, true) ∧
    specRunBits 0 + specLevelBits 15 ≤ 32 ∧ 0 < 2 ^ (32 - (specRunBits 0 + specLevelBits 15)) ∧
    (streaming 0x8000FFFF 32 (at_ .idle)).brPeek 32 =
      ((encode .runZ0).val * 2 ^ specLevelBits 15 + (encode (.levelZ15 0x3FFF#14 true)).val)
        * 2 ^ (32 - (specRunBits 0 + specLevelBits 15)) + 0 ∧
    (streaming 0x8000FFFF 32 (at_ .idle)).brAt + (specRunBits 0 + specLevelBits 15) ≤
      (streaming 0x8000FFFF 32 (at_ .idle)).brExt :=
  ⟨streaming_cursor _ 32 _ (by decide), by decide⟩

theorem witness_BrRldec_pastEnd :
    CursorOk (streaming 3 62 (at_ .idle)) ∧ runOperands .runZ0 = some (0, 0) ∧
    levelOperands (.levelZ0 false) = some (0, 0, false) ∧
    specRunBits 0 + specLevelBits 0 ≤ 32 ∧ 0 < 2 ^ (32 - (specRunBits 0 + specLevelBits 0)) ∧
    (streaming 3 62 (at_ .idle)).brPeek 32 =
      ((encode .runZ0).val * 2 ^ specLevelBits 0 + (encode (.levelZ0 false)).val)
        * 2 ^ (32 - (specRunBits 0 + specLevelBits 0)) + 0 ∧
    (streaming 3 62 (at_ .idle)).brExt < (streaming 3 62 (at_ .idle)).brAt + (specRunBits 0 + specLevelBits 0) :=
  ⟨streaming_cursor _ 62 _ (by decide), by decide⟩

theorem witness_BrRldec_eob :
    CursorOk (streaming 5 61 (at_ .idle)) ∧ runOperands .runZ0 = some (0, 0) ∧ 0 < 2 ^ (32 - (specRunBits 0 + 2)) ∧
    (streaming 5 61 (at_ .idle)).brPeek 32 = ((encode .runZ0).val * 4 + 1) * 2 ^ (32 - (specRunBits 0 + 2)) + 0 ∧
    (streaming 5 61 (at_ .idle)).brAt + (specRunBits 0 + 2) ≤ (streaming 5 61 (at_ .idle)).brExt :=
  ⟨streaming_cursor _ 61 _ (by decide), by decide⟩

theorem witness_BrRldec_overflow :
    CursorOk (streaming 0x0000FFFF00000000 0 (at_ .idle)) ∧ (streaming 0x0000FFFF00000000 0 (at_ .idle)).brPeek 32 < 2 ^ 16 ∧
    runOperands (.runZ15 5#14) = some (15, 5) ∧ 2 ≤ 32 - specRunBits 15 ∧ 32 < specRunBits 15 + specLevelBits 2 ∧
    0 < 2 ^ (32 - specRunBits 15 - 2) ∧
    (streaming 0x0001001400000000 0 (at_ .idle)).brPeek 32 =
      (encode (.runZ15 5#14)).val * 2 ^ (32 - specRunBits 15) + 0 :=
  ⟨streaming_cursor _ 0 _ (by decide), by decide⟩

theorem witness_DecodePicture :
    State.reset.cfg.valid = true ∧
    State.reset.cfg.vinBytes < ({ State.reset with v := { Vdu.reset with len := 65537 } } : State).v.len.toNat ∧
    ({ State.reset with v := { Vdu.reset with len := 65536 } } : State).v.len.toNat ≤ State.reset.cfg.vinBytes := by decide

theorem witness_StartCode :
    (CursorOk (streaming 0 42 (at_ .startCode)) ∧
      (streaming 0 40 (at_ .startCode)).alignedAt + 22 ≤ (streaming 0 40 (at_ .startCode)).brExt ∧
      (streaming 0 41 (at_ .startCode)).brExt < (streaming 0 41 (at_ .startCode)).alignedAt + 22) ∧
    ((streaming 0 0 (at_ .startCode)).nextAgent = .vdu ∧ (streaming 0 0 (at_ .startCode)).v.status.busy = true ∧
      (streaming 0 0 (at_ .startCode)).v.ctx.phase = .startCode ∧
      (∀ v, BitsAt (streaming 0 0 (at_ .startCode)).streamBit (streaming 0 0 (at_ .startCode)).alignedAt 22 v →
        v / 2 ^ 5 ≠ 1)) ∧
    (∀ p ∈ [41, 64],
      (streaming 0 p (at_ .startCode)).nextAgent = .vdu ∧ (streaming 0 p (at_ .startCode)).v.status.busy = true ∧
      (streaming 0 p (at_ .startCode)).v.ctx.phase = .startCode ∧
      (streaming 0 p (at_ .startCode)).brExt < (streaming 0 p (at_ .startCode)).alignedAt + 22) := by
  refine ⟨⟨streaming_cursor 0 42 _ (by decide), by decide, by decide⟩, ⟨by decide, by decide, by decide, fun v hv => ?_⟩,
    by decide⟩
  rw [hv.unique (bitsAt_bitsFrom _ _ _)]
  decide

theorem witness_EndOfPicture :
    CursorOk (streaming 0 40 (at_ .startCode)) ∧ CursorOk (streaming 0 41 (at_ .startCode)) ∧
    (streaming 0 40 (at_ .startCode)).alignedAt + 22 ≤ (streaming 0 40 (at_ .startCode)).brExt ∧
    (streaming 0 41 (at_ .startCode)).brExt < (streaming 0 41 (at_ .startCode)).alignedAt + 22 :=
  ⟨streaming_cursor 0 40 _ (by decide), streaming_cursor 0 41 _ (by decide), by decide, by decide⟩

/- The last place where a whole header fits; 5 macroblocks a row there already, 40 for the largest picture that fits; the
first one that does not fit. -/
theorem witness_PictureHeader :
    CursorOk (streaming 0 19 (at_ .pictureHeader)) ∧
    (streaming 0 19 (at_ .pictureHeader)).brAt + 45 ≤ (streaming 0 19 (at_ .pictureHeader)).brExt ∧
    BitVec.ofNat 32 (88 * 2 ^ ((1#3).toNat - 1) / 16) = (streaming 0 19 (at_ .pictureHeader)).v.gridMbs ∧
    BitVec.ofNat 32 (160 * 2 ^ ((3#3).toNat - 1) / 16) ≠ (streaming 0 19 (at_ .pictureHeader)).v.gridMbs ∧
    ¬ (Config.reference.pixEntries < 160 * 2 ^ ((3#3).toNat - 1) * (120 * 2 ^ ((3#3).toNat - 1)) ∨
      Config.reference.gridMaxMbs < 160 * 2 ^ ((3#3).toNat - 1) / 16) ∧
    (Config.reference.pixEntries < 88 * 2 ^ ((4#3).toNat - 1) * (72 * 2 ^ ((4#3).toNat - 1)) ∨
      Config.reference.gridMaxMbs < 88 * 2 ^ ((4#3).toNat - 1) / 16) :=
  ⟨streaming_cursor 0 19 _ (by decide), by decide⟩

theorem witness_PictureHeaderPastEnd :
    CursorOk (streaming 0 63 (at_ .pictureHeader)) ∧
    (∀ p ∈ [20, 51, 52, 56, 57, 59, 60, 62, 63, 64],
      (streaming 0 p (at_ .pictureHeader)).brExt < (streaming 0 p (at_ .pictureHeader)).brAt + 45) ∧
    (streaming 0 63 (at_ .pictureHeader)).brExt < (streaming 0 63 (at_ .pictureHeader)).brAt + 2 ∧
    (streaming 0 62 (at_ .pictureHeader)).brAt + 2 ≤ (streaming 0 62 (at_ .pictureHeader)).brExt ∧
    (streaming 0 59 (at_ .pictureHeader)).brAt + 5 ≤ (streaming 0 59 (at_ .pictureHeader)).brExt ∧
    (streaming 0 56 (at_ .pictureHeader)).brAt + 8 ≤ (streaming 0 56 (at_ .pictureHeader)).brExt ∧
    (streaming 0 51 (at_ .pictureHeader)).brAt + 13 ≤ (streaming 0 51 (at_ .pictureHeader)).brExt :=
  ⟨streaming_cursor 0 63 _ (by decide), by decide⟩

theorem witness_SliceQuant :
    CursorOk (streaming 0 59 (at_ .sliceQuant)) ∧
      (streaming 0 59 (at_ .sliceQuant)).brAt + 5 ≤ (streaming 0 59 (at_ .sliceQuant)).brExt :=
  ⟨streaming_cursor 0 59 _ (by decide), by decide⟩

/- The first macroblock, and the last one at the end of the extent. -/
theorem witness_EmptyMacroblock :
    Inv (streaming 0 0 (at_ .mbc)) ∧ Inv (streaming 0 63 ⟨.mbc, 4, 0, 0, [], 0, 0, 0⟩) ∧
      (streaming 0 63 ⟨.mbc, 4, 0, 0, [], 0, 0, 0⟩).brAt + 1 ≤ (streaming 0 63 ⟨.mbc, 4, 0, 0, [], 0, 0, 0⟩).brExt :=
  ⟨inv_streaming 0 0 _ (by decide) (by decide), inv_streaming 0 63 _ (by decide) (by decide), by decide⟩

theorem witness_CodedMacroblock :
    CursorOk (streaming 0 56 (at_ .mbdes)) ∧ (streaming 0 63 (at_ .mbc)).brAt + 1 ≤ (streaming 0 63 (at_ .mbc)).brExt ∧
    (streaming 0 56 (at_ .mbdes)).brAt + 8 ≤ (streaming 0 56 (at_ .mbdes)).brExt ∧
    (0x40#8).getLsbD 6 = true ∧ (0xBF#8).getLsbD 6 = false :=
  ⟨streaming_cursor 0 56 _ (by decide), by decide⟩

theorem witness_QuantDelta :
    CursorOk (streaming 0 62 (at_ .mbdiff)) ∧
      (streaming 0 62 (at_ .mbdiff)).brAt + 2 ≤ (streaming 0 62 (at_ .mbdiff)).brExt :=
  ⟨streaming_cursor 0 62 _ (by decide), by decide⟩

/- Block 5 of macroblock 4, with and without AC codes. -/
theorem witness_DcCoefficient :
    Inv (streaming 0 54 ⟨.dc, 4, 5, 0x20, [], 0, 0, 0⟩) ∧
    (streaming 0 54 ⟨.dc, 4, 5, 0x20, [], 0, 0, 0⟩).brAt + 10 ≤ (streaming 0 54 ⟨.dc, 4, 5, 0x20, [], 0, 0, 0⟩).brExt ∧
    (streaming 0 54 ⟨.dc, 4, 5, 0x20, [], 0, 0, 0⟩).v.ctx.des.getLsbD
      (streaming 0 54 ⟨.dc, 4, 5, 0x20, [], 0, 0, 0⟩).v.ctx.blk = true ∧
    Inv (streaming 0 0 ⟨.dc, 4, 5, 0x1F, [], 0, 0, 0⟩) ∧
    (streaming 0 0 ⟨.dc, 4, 5, 0x1F, [], 0, 0, 0⟩).v.ctx.des.getLsbD
      (streaming 0 0 ⟨.dc, 4, 5, 0x1F, [], 0, 0, 0⟩).v.ctx.blk = false :=
  ⟨inv_streaming 0 54 _ (by decide) (by decide), by decide, by decide, inv_streaming 0 0 _ (by decide) (by decide), by decide⟩

theorem witness_RunCodes : runOperands .runZ0 = some (0, 0) ∧ runOperands (.runZ15 0x3FFF#14) = some (15, 0x3FFF) := by decide

/- Scan positions 63 and 64; a pair of 32 and of 33 bits; the end of the extent and one bit past it. -/
theorem witness_LevelCodes :
    CursorOk (streaming 0 32 (atLevel 62 0 1)) ∧ levelOperands (.levelZ15 0#14 false) = some (15, 0, false) ∧
    (streaming 0 32 (atLevel 62 0 1)).v.ctx.runLen + specLevelBits 15 ≤ 32 ∧
    (streaming 0 32 (atLevel 62 0 1)).brAt + (1 + specLevelBits 15) ≤ (streaming 0 32 (atLevel 62 0 1)).brExt ∧
    (streaming 0 32 (atLevel 62 0 1)).v.ctx.scan + (streaming 0 32 (atLevel 62 0 1)).v.ctx.run + 1 ≤ 63 ∧
    63 < (streaming 0 32 (atLevel 63 0 1)).v.ctx.scan + (streaming 0 32 (atLevel 63 0 1)).v.ctx.run + 1 ∧
    32 < (streaming 0 32 (atLevel 0 1 2)).v.ctx.runLen + specLevelBits 15 ∧
    (streaming 0 33 (atLevel 62 0 1)).brExt < (streaming 0 33 (atLevel 62 0 1)).brAt + (1 + specLevelBits 15) :=
  ⟨streaming_cursor 0 32 _ (by decide), by decide⟩

/- An end of block of 32 bits, after the longest run code, at the end of the extent. -/
theorem witness_EndOfBlock :
    Inv (streaming 0 32 (atLevel 0 20000 30)) ∧ (streaming 0 32 (atLevel 0 20000 30)).v.ctx.runLen + 2 ≤ 32 ∧
    (streaming 0 32 (atLevel 0 20000 30)).brAt + ((streaming 0 32 (atLevel 0 20000 30)).v.ctx.runLen + 2) ≤
      (streaming 0 32 (atLevel 0 20000 30)).brExt :=
  ⟨inv_streaming 0 32 _ (by decide) (by decide), by decide, by decide⟩

theorem witness_ElementPastEnd :
    CursorOk (streaming 0 64 (at_ .mbc)) ∧ CursorOk (streaming 0 33 (atLevel 0 0 30)) ∧
    (∀ pn ∈ [(60, 5), (64, 1), (57, 8), (63, 2), (55, 10)],
      (streaming 0 pn.1 (at_ .mbc)).brExt < (streaming 0 pn.1 (at_ .mbc)).brAt + pn.2) ∧
    (streaming 0 33 (atLevel 0 0 30)).v.ctx.runLen ≤ 30 ∧
    (streaming 0 33 (atLevel 0 0 30)).brExt < (streaming 0 33 (atLevel 0 0 30)).brAt + (30 + 2) :=
  ⟨streaming_cursor 0 64 _ (by decide), streaming_cursor 0 33 _ (by decide), by decide⟩

/- The five outcomes: no code in the window, a code past the extent, an end of block, a level, a level past position 63. -/
theorem witness_PairIsRunLevelDecode :
    (Inv (streaming 0 0 (atRun 0)) ∧ (streaming 0 0 (atRun 0)).v.ctx.phase = .run ∧
      runLevelOf ((streaming 0 0 (atRun 0)).brPeek 32) = none) ∧
    (Inv (streaming 3 62 (atRun 0)) ∧ runLevelOf ((streaming 3 62 (atRun 0)).brPeek 32) = some ⟨0, 1, false, 3⟩ ∧
      (streaming 3 62 (atRun 0)).brExt < (streaming 3 62 (atRun 0)).brAt + 3) ∧
    (Inv (streaming 5 61 (atRun 0)) ∧ runLevelOf ((streaming 5 61 (atRun 0)).brPeek 32) = some ⟨0, 0, true, 3⟩ ∧
      (streaming 5 61 (atRun 0)).brAt + 3 ≤ (streaming 5 61 (atRun 0)).brExt) ∧
    (Inv (streaming 7 61 (atRun 62)) ∧ runLevelOf ((streaming 7 61 (atRun 62)).brPeek 32) = some ⟨0, -1, false, 3⟩ ∧
      (streaming 7 61 (atRun 62)).v.ctx.scan + 0 + 1 ≤ 63 ∧ 63 < (streaming 7 61 (atRun 63)).v.ctx.scan + 0 + 1) := by
  refine ⟨⟨?_, by decide, by decide⟩, ⟨?_, by decide, by decide⟩, ⟨?_, by decide, by decide⟩, ?_, by decide, by decide, by decide⟩
  all_goals exact inv_streaming _ _ _ (by decide) (by decide)

theorem witness_ReferenceDcOnly :
    -(2 ^ 16) ≤ (-(2 ^ 16) : Int) ∧ (65531 : Int) < 2 ^ 16 - 4 ∧ 2 ^ 16 - 4 ≤ (65532 : Int) ∧ (65535 : Int) < 2 ^ 16 ∧
      -(2 ^ 18) < (-262143 : Int) ∧ (262143 : Int) < 2 ^ 18 := by decide

theorem witness_TransformProperties :
    Config.reference.valid = true ∧ ({ Config.reference with idct := .other 3 } : Config).valid = true := by decide

theorem witness_NavLengthChecks :
    State.reset.cfg.ninBytes < (navReady 4097 1).n.len.toNat ∧ (navReady 15 1).n.len.toNat ≤ State.reset.cfg.ninBytes ∧
      (navReady 15 1).n.len.toNat < 16 := by decide

theorem witness_NavDecode :
    (navReady 16 1).cfg.valid = true ∧ 16 ≤ (navReady 16 1).n.len.toNat ∧
      (navReady 4096 1).n.len.toNat ≤ (navReady 4096 1).cfg.ninBytes := by decide

/- The record at 16 of 120 bytes fits 136 bytes exactly, and not 135. -/
theorem witness_NavHeaders :
    navRecordState.n.ctx.pos + (128#16).toNat ≤ navRecordState.n.len.toNat ∧ 128#16 ≠ 0#16 ∧
      navRecordState.n.len.toNat < navRecordState.n.ctx.pos + (129#16).toNat := by decide

end Sys2Proof.Tests
end

section
/-!
What one step does, by the agent that moves and what that agent finds (spec/00_scope.md R6, R7; spec/46_control.md R358):
the instruction decoded at the agent's place, the end of a command with `BAD_COMMAND`, or nothing.  From these and from
what each command of a unit does follow the statements about whole commands.
-/

namespace Sys2Proof.Machine

/-! ## What a busy unit finds -/

/-- Between commands the VDU is at no place of a stream. -/
theorem videoWindow_idle {s : State} (h : s.v.ctx.phase = .idle) : videoWindow s = none := by
  unfold videoWindow; rw [h]

/-- Between commands the NDU is at no place of a datagram. -/
theorem navWindow_idle {s : State} (h : s.n.ctx.phase = .idle) : navWindow s = none := by
  unfold navWindow; rw [h]

@[simp] theorem brPeek_moved (s : State) (n : Nat) : s.moved.brPeek n = s.brPeek n := rfl

theorem brMoveTo_moved (s : State) (p : Nat) : s.moved.brMoveTo p = (s.brMoveTo p).moved := by
  unfold State.brMoveTo
  by_cases h : p = 0
  · rw [if_pos h, if_pos h]; rfl
  · rw [if_neg h, if_neg h]; rfl

theorem brAlign_moved (s : State) : s.moved.brAlign = s.brAlign.moved := brMoveTo_moved s _

/-- The schedule is no part of what a unit reads. -/
@[simp] theorem videoWindow_moved (s : State) : videoWindow s.moved = videoWindow s := by
  unfold videoWindow
  rw [brAlign_moved]
  simp only [brPeek_moved]
  rfl

@[simp] theorem navWindow_moved (s : State) : navWindow s.moved = navWindow s := rfl

theorem fetchVdu_element {s : State} {c : DecCtx} {w : Nat} {i : Instr} (hb : s.v.status.busy = true)
    (hw : videoWindow s = some (c, w)) (hd : decode c w = .ok i) : fetchVdu s = .instr i s := by
  simp only [fetchVdu, hb, hw, hd, if_true]

theorem fetchVdu_word {s : State} {w : Word} {i : Instr} (hb : s.v.status.busy = true) (hp : s.v.ctx.phase = .idle)
    (hw : s.v.pending = some w) (hd : decode .vCmd w.toNat = .ok i) : fetchVdu s = .instr i s := by
  simp only [fetchVdu, hb, videoWindow_idle hp, hw, hd, if_true]

theorem fetchVdu_badWord {s : State} {w : Word} {r : Reject} (hb : s.v.status.busy = true)
    (hp : s.v.ctx.phase = .idle) (hw : s.v.pending = some w) (hd : decode .vCmd w.toNat = .error r) :
    fetchVdu s = .other (videoEnd s .badCommand) := by
  simp only [fetchVdu, hb, videoWindow_idle hp, hw, hd, if_true]

theorem fetchVdu_nothing {s : State} (hp : s.v.ctx.phase = .idle)
    (h : s.v.status.busy = false ∨ s.v.pending = none) : fetchVdu s = .other (.next s) := by
  unfold fetchVdu
  rw [videoWindow_idle hp]
  rcases h with h | h
  · simp [h]
  · simp [h]

theorem fetchNdu_form {s : State} {c : DecCtx} {w : Nat} {i : Instr} (hb : s.n.status.busy = true)
    (hw : navWindow s = some (c, w)) (hd : decode c w = .ok i) : fetchNdu s = .instr i s := by
  simp only [fetchNdu, hb, hw, hd, if_true]

theorem fetchNdu_word {s : State} {w : Word} {i : Instr} (hb : s.n.status.busy = true) (hp : s.n.ctx.phase = .idle)
    (hw : s.n.pending = some w) (hd : decode .nCmd w.toNat = .ok i) : fetchNdu s = .instr i s := by
  simp only [fetchNdu, hb, navWindow_idle hp, hw, hd, if_true]

theorem fetchNdu_badWord {s : State} {w : Word} {r : Reject} (hb : s.n.status.busy = true)
    (hp : s.n.ctx.phase = .idle) (hw : s.n.pending = some w) (hd : decode .nCmd w.toNat = .error r) :
    fetchNdu s = .other (navEnd s .badCommand) := by
  simp only [fetchNdu, hb, navWindow_idle hp, hw, hd, if_true]

theorem fetchNdu_nothing {s : State} (hp : s.n.ctx.phase = .idle)
    (h : s.n.status.busy = false ∨ s.n.pending = none) : fetchNdu s = .other (.next s) := by
  unfold fetchNdu
  rw [navWindow_idle hp]
  rcases h with h | h
  · simp [h]
  · simp [h]

/-- A step of the VDU that finds an instruction. -/
theorem step_vdu_instr {s : State} {i : Instr} (ha : s.nextAgent = .vdu) (hf : fetchVdu s.moved = .instr i s.moved) :
    step s = exec i s.moved := by
  rw [step_vdu ha, hf]

/-- A step of the VDU that finds none. -/
theorem step_vdu_other {s : State} {o : StepOutcome State} (ha : s.nextAgent = .vdu)
    (hf : fetchVdu s.moved = .other o) : step s = o := by
  rw [step_vdu ha, hf]

/-- A step of the NDU that finds an instruction. -/
theorem step_ndu_instr {s : State} {i : Instr} (ha : s.nextAgent = .ndu) (hf : fetchNdu s.moved = .instr i s.moved) :
    step s = exec i s.moved := by
  rw [step_ndu ha, hf]

/-- A step of the NDU that finds none. -/
theorem step_ndu_other {s : State} {o : StepOutcome State} (ha : s.nextAgent = .ndu)
    (hf : fetchNdu s.moved = .other o) : step s = o := by
  rw [step_ndu ha, hf]

/-- A step of the host whose next access is an operation of R104. -/
theorem step_host_instr {s : State} {acc : HostAccess} {rest : List HostAccess} {i : Instr} (ha : s.nextAgent = .host)
    (hq : s.host.queue = acc :: rest) (hi : hostInstr s.cfg acc = some i) : step s = exec i s.hostMoved := by
  rw [step_host ha hq, hi]

/-- A step of the host whose next access is no instruction. -/
theorem step_host_access {s : State} {acc : HostAccess} {rest : List HostAccess} (ha : s.nextAgent = .host)
    (hq : s.host.queue = acc :: rest) (hi : hostInstr s.cfg acc = none) : step s = hostAccess acc s.hostMoved := by
  rw [step_host ha hq, hi]

/-- Settles O5: each agent's fetch finds the decoded instruction, in a state that differs from `s` in its host port
only. -/
theorem stepRunsDecoded : Obligations.StepRunsDecoded := by
  intro s i
  refine ⟨fun w ha hb hp hw hd => ?_, fun c w ha hb hw hd => ?_, fun w ha hb hp hw hd => ?_, fun c w ha hb hw hd => ?_,
    fun acc rest ha hq hi => ?_⟩
  · exact step_vdu_instr ha (fetchVdu_word hb hp hw hd)
  · exact step_vdu_instr ha (fetchVdu_element hb ((videoWindow_moved s).trans hw) hd)
  · exact step_ndu_instr ha (fetchNdu_word hb hp hw hd)
  · exact step_ndu_instr ha (fetchNdu_form hb ((navWindow_moved s).trans hw) hd)
  · exact step_host_instr ha hq hi

/-! ## The commands of the VDU (R101) -/

/-- The instructions a command word of the VDU stands for (R101). -/
inductive VduCommand : Instr → Prop where
  | nop : VduCommand .vNop
  | decode : VduCommand .vDecode
  | init : VduCommand .brInit
  | read (n : BitVec 6) : VduCommand (.brRead n)
  | peek (n : BitVec 6) : VduCommand (.brPeek n)
  | align : VduCommand .brAlign
  | hasrem : VduCommand .brHasrem
  | rldec : VduCommand .brRldec

theorem vduCommand_of_decode {w : Nat} {i : Instr} (h : decode .vCmd w = .ok i) : VduCommand i := by
  unfold decode decodeVCmd at h
  dsimp only at h
  split at h
  · cases h
  · split at h <;> (try split at h) <;> cases h <;> constructor

/-- The VDU's command in progress at `s` has been completed at `t`, and the NDU is as it was (R89, R358). -/
structure VduPerformed (s t : State) : Prop where
  completed : Completed s t
  ndu : t.n = s.n

theorem held_setResult (s : State) (r : Word) : Held s (s.setResult r) := ⟨rfl, rfl⟩

theorem held_setRunLevel (s : State) (r : RunLevel) : Held s (s.setRunLevel r) := ⟨rfl, rfl⟩

theorem held_brStart (s : State) : Held s s.brStart := ⟨rfl, rfl⟩

/-- A command that ends after changes completion has nothing to do with. -/
theorem vduPerformed_complete {s u : State} (h : Held s u) (hn : u.n = s.n) (e : Err) :
    VduPerformed s (u.complete .vdu e) := ⟨h.completed (completed_complete u e), hn⟩

/-- A command that reads bits performs its effect on the rest of the state and ends, or ends with `READ_PAST_END`. -/
theorem vduPerformed_videoTake (s : State) (n : Nat) {f : State → State} (hf : ∀ u, Held u (f u))
    (hn : ∀ u, (f u).n = u.n) : ∃ t, videoTake s n (fun u => videoEnd (f u) .none) = .next t ∧ VduPerformed s t := by
  rcases videoTake_cases s n (fun u => videoEnd (f u) .none) with ⟨_, e⟩ | ⟨_, e⟩
  · exact ⟨_, e, vduPerformed_complete (Held.refl s) rfl _⟩
  · exact ⟨_, e, vduPerformed_complete ((held_brMoveTo s _).trans (hf _)) ((hn _).trans (by simp)) _⟩

/-- A command on the bit cursor, or `V.NOP`, answers a next state in which it is completed. -/
theorem exec_cursorCommand {i : Instr} (hi : VduCommand i) (hd : i ≠ .vDecode) (s : State) :
    ∃ t, exec i s = .next t ∧ VduPerformed s t := by
  cases hi with
  | nop => exact ⟨_, rfl, vduPerformed_complete (Held.refl s) rfl _⟩
  | decode => exact absurd rfl hd
  | init =>
    change ∃ t, execBrInit s = .next t ∧ _
    unfold execBrInit
    split
    · exact ⟨_, rfl, vduPerformed_complete (Held.refl s) rfl _⟩
    · exact ⟨_, rfl, vduPerformed_complete ((held_brStart s).trans (held_setResult _ 0)) rfl _⟩
  | read n => exact vduPerformed_videoTake s _ (fun u => held_setResult u _) fun _ => rfl
  | peek n => exact ⟨_, rfl, vduPerformed_complete (held_setResult s _) (setResult_n s _) _⟩
  | align => exact ⟨_, rfl, vduPerformed_complete (held_brMoveTo s _) (brAlign_n s) _⟩
  | hasrem => exact ⟨_, rfl, vduPerformed_complete (held_setResult s _) (setResult_n s _) _⟩
  | rldec =>
    change ∃ t, execBrRldec s = .next t ∧ _
    unfold execBrRldec
    split
    · exact ⟨_, rfl, vduPerformed_complete (Held.refl s) rfl _⟩
    · exact vduPerformed_videoTake s _ (fun u => held_setRunLevel u _) fun _ => rfl

/-- Every command of the VDU that answers a next state is completed there (R358). -/
theorem exec_vduCommand_performed {s t : State} {i : Instr} (hi : VduCommand i) (h : exec i s = .next t) :
    VduPerformed s t := by
  by_cases hd : i = .vDecode
  · subst hd
    exact ⟨completed_execVDecode h, (vduOnly_execVDecode h).ndu⟩
  · obtain ⟨u, hu, hp⟩ := exec_cursorCommand hi hd s
    cases hu.symm.trans h
    exact hp

/-- With legal parameters every command of the VDU answers a next state (R7, R211). -/
theorem exec_vduCommand_next {s : State} {i : Instr} (hi : VduCommand i) (hv : s.cfg.valid = true) :
    ∃ t, exec i s = .next t := by
  by_cases hd : i = .vDecode
  · subst hd
    exact execVDecode_next hv
  · exact (exec_cursorCommand hi hd s).imp fun _ ht => ht.1

/-- Everything a step of the VDU does between commands: it performs a command, ends an illegal word with `BAD_COMMAND`
(R371), or has nothing to do. -/
theorem step_vdu_cases {s : State} (ha : s.nextAgent = .vdu) (hp : s.v.ctx.phase = .idle) :
    (∃ i, VduCommand i ∧ step s = exec i s.moved) ∨ step s = videoEnd s.moved .badCommand ∨
    ((s.v.status.busy = false ∨ s.v.pending = none) ∧ step s = .next s.moved) := by
  by_cases hn : s.v.status.busy = false ∨ s.v.pending = none
  · exact .inr (.inr ⟨hn, step_vdu_other ha (fetchVdu_nothing hp hn)⟩)
  · rw [not_or, Bool.not_eq_false, ← ne_eq, Option.ne_none_iff_exists'] at hn
    obtain ⟨hb, w, hw⟩ := hn
    cases hd : decode .vCmd w.toNat with
    | ok i => exact .inl ⟨i, vduCommand_of_decode hd, step_vdu_instr ha (fetchVdu_word hb hp hw hd)⟩
    | error r => exact .inr (.inl (step_vdu_other ha (fetchVdu_badWord hb hp hw hd)))

/-! ## The commands of the NDU (R102) -/

/-- The instructions a command word of the NDU stands for (R102). -/
inductive NduCommand : Instr → Prop where
  | nop : NduCommand .nNop
  | decode : NduCommand .nDecode

theorem nduCommand_of_decode {w : Nat} {i : Instr} (h : decode .nCmd w = .ok i) : NduCommand i := by
  unfold decode decodeNCmd at h
  dsimp only at h
  split at h
  · cases h
  · split at h <;> (try split at h) <;> cases h <;> constructor

/-- The NDU's command in progress at `s` has been completed at `t`, and the VDU is as it was (R89, R358). -/
structure NduPerformed (s t : State) : Prop where
  busy : t.n.status.busy = false
  done : t.n.status.done = true
  pending : t.n.pending = none
  place : t.n.ctx = NavCtx.idle
  navDone : t.irqStatus.getLsbD 3 = true
  failed : t.n.status.err ≠ .none → t.irqStatus.getLsbD 4 = true
  succeeded : t.n.status.err = .none → t.irqStatus.getLsbD 4 = s.irqStatus.getLsbD 4
  vdu : t.v = s.v

theorem nduPerformed_complete (s : State) (e : Err) : NduPerformed s (s.complete .ndu e) := by
  refine ⟨rfl, rfl, rfl, rfl, ?_, fun h => ?_, fun h => ?_, rfl⟩
  · rw [completeNdu_irqStatus]
    split <;> simp [irqNavDone, irqNavErr]
  · have he : e ≠ .none := h
    rw [completeNdu_irqStatus, if_neg he]
    simp [irqNavDone, irqNavErr]
  · have he : e = .none := h
    rw [completeNdu_irqStatus, if_pos he]
    simp [irqNavDone]

/-- Results may be written before the command ends. -/
theorem NduPerformed.after {s t : State} {n : Ndu} (h : NduPerformed { s with n := n } t) : NduPerformed s t :=
  ⟨h.busy, h.done, h.pending, h.place, h.navDone, h.failed, h.succeeded, h.vdu⟩

theorem NduDone.performed {u t : State} (h : NduDone u t) : NduPerformed u t := by
  rw [show t = u.complete .ndu .none from h]
  exact nduPerformed_complete u .none

/-- A walk that has stopped has ended its command (R183). -/
theorem NavStopped.performed {u t : State} {pos : Nat} {trunc : Bool} (h : NavStopped u pos trunc t) :
    NduPerformed u t := by
  unfold NavStopped at h
  exact (NduDone.performed h).after

/-- The loop of `N.DECODE` from the header of a datagram that is long enough ends inside its bound (R171, R176). -/
theorem navLoop_performed {s : State} (hp : s.n.ctx.phase = .header) :
    ∃ t, navLoop (navBound s.n.len.toNat) s = .next t ∧ NduPerformed s t := by
  obtain ⟨u, hu, hloop⟩ := header_spec s hp
  obtain ⟨stop, trunc, m, t, -, ht, hstop⟩ :=
    navLoop_walk (2 * s.n.len.toNat + 1) s u (withHeader s.ninByte s.ninWord s.n.len.toNat s.n) s.n.ctx 16 hloop
      (by change 2 * (s.n.len.toNat - 16) + 1 ≤ _; omega)
  refine ⟨t, ?_, hstop.performed.after⟩
  rw [navBound, navLoop_succ _ s u (by rw [hp]; decide) hu, ht]

/-- A whole `N.DECODE` answers a next state in which it is completed (R7, R171, R173). -/
theorem execNDecode_performed (s : State) : ∃ t, execNDecode s = .next t ∧ NduPerformed s t := by
  have hend (e : Err) : ∃ t, navLoop (navBound s.n.len.toNat) (s.clearResults.complete .ndu e) = .next t ∧
      NduPerformed s t :=
    ⟨_, navLoop_idle _ _ rfl, (nduPerformed_complete s.clearResults e).after⟩
  unfold execNDecode navBegin
  dsimp only
  by_cases hl : s.cfg.ninBytes < s.n.len.toNat
  · rw [if_pos hl]; exact hend .lenRange
  · rw [if_neg hl]
    by_cases h16 : s.n.len.toNat < 16
    · rw [if_pos h16]; exact hend .tooShort
    · rw [if_neg h16]
      obtain ⟨t, ht, hd⟩ :=
        navLoop_performed (s := { s with n := { s.clearResults.n with ctx := ⟨.header, 0, 0, 0⟩ } }) rfl
      exact ⟨t, ht, hd.after⟩

/-- Every command of the NDU answers a next state in which it is completed (R358). -/
theorem exec_nduCommand {i : Instr} (hi : NduCommand i) (s : State) : ∃ t, exec i s = .next t ∧ NduPerformed s t := by
  cases hi with
  | nop => exact ⟨_, rfl, nduPerformed_complete s .none⟩
  | decode => exact execNDecode_performed s

/-- Everything a step of the NDU does between commands: it completes the command it has, or has nothing to do. -/
theorem step_ndu_cases {s : State} (ha : s.nextAgent = .ndu) (hp : s.n.ctx.phase = .idle) :
    (∃ t, step s = .next t ∧ NduPerformed s.moved t) ∨
    ((s.n.status.busy = false ∨ s.n.pending = none) ∧ step s = .next s.moved) := by
  by_cases hn : s.n.status.busy = false ∨ s.n.pending = none
  · exact .inr ⟨hn, step_ndu_other ha (fetchNdu_nothing hp hn)⟩
  · rw [not_or, Bool.not_eq_false, ← ne_eq, Option.ne_none_iff_exists'] at hn
    obtain ⟨hb, w, hw⟩ := hn
    left
    cases hd : decode .nCmd w.toNat with
    | ok i =>
      rw [step_ndu_instr ha (fetchNdu_word hb hp hw hd)]
      exact exec_nduCommand (nduCommand_of_decode hd) s.moved
    | error r => exact ⟨_, step_ndu_other ha (fetchNdu_badWord hb hp hw hd), nduPerformed_complete s.moved _⟩

/-! ## A command is one step -/

/-- A busy VDU between commands completes its command in one step (R7, R358, R430). -/
theorem step_vdu_performs {s : State} (h : Inv s) (hp : s.v.ctx.phase = .idle) (ha : s.nextAgent = .vdu)
    (hb : s.v.status.busy = true) : ∃ t, step s = .next t ∧ VduPerformed s.moved t := by
  rcases step_vdu_cases ha hp with ⟨i, hi, e⟩ | e | ⟨hn, -⟩
  · obtain ⟨t, ht⟩ := exec_vduCommand_next (s := s.moved) hi h.cursor.valid
    exact ⟨t, e.trans ht, exec_vduCommand_performed hi ht⟩
  · exact ⟨_, e, vduPerformed_complete (Held.refl _) rfl _⟩
  · rcases hn with hn | hn
    · exact absurd (hb.symm.trans hn) (by decide)
    · exact absurd hn (h.status.vduWord hb hp)

/-- A busy NDU between commands completes its command in one step (R7, R358, R430). -/
theorem step_ndu_performs {s : State} (h : Inv s) (hp : s.n.ctx.phase = .idle) (ha : s.nextAgent = .ndu)
    (hb : s.n.status.busy = true) : ∃ t, step s = .next t ∧ NduPerformed s.moved t := by
  rcases step_ndu_cases ha hp with ht | ⟨hn, -⟩
  · exact ht
  · rcases hn with hn | hn
    · exact absurd (hb.symm.trans hn) (by decide)
    · exact absurd hn (h.status.nduWord hb hp)

theorem Settled.of_ctx {s t : State} (h : Settled s) (hv : t.v.ctx = s.v.ctx) (hn : t.n.ctx = s.n.ctx) : Settled t :=
  ⟨by rw [hv]; exact h.1, by rw [hn]; exact h.2⟩

theorem VduPerformed.settled {s t : State} (h : VduPerformed s t) (hs : Settled s) : Settled t :=
  ⟨by rw [h.completed.place]; rfl, by rw [h.ndu]; exact hs.2⟩

theorem NduPerformed.settled {s t : State} (h : NduPerformed s t) (hs : Settled s) : Settled t :=
  ⟨by rw [h.vdu]; exact hs.1, by rw [h.place]; rfl⟩

/-- Settles O7: the one step of a busy unit performs its command, and `VduPerformed` and `NduPerformed` say how that
ends. -/
theorem unitStepCompletes : Obligations.UnitStepCompletes := by
  intro s h hs
  refine ⟨fun ha hb => ?_, fun ha hb => ?_⟩
  · obtain ⟨t, ht, hperf⟩ := step_vdu_performs h hs.1 ha hb
    have hc := hperf.completed
    exact ⟨t, ht, hc.busy, hc.done, hc.pending, hperf.settled hs, hc.vidDone, hc.failed, hc.succeeded⟩
  · obtain ⟨t, ht, hperf⟩ := step_ndu_performs h hs.2 ha hb
    exact ⟨t, ht, hperf.busy, hperf.done, hperf.pending, hperf.settled hs, hperf.navDone, hperf.failed,
      hperf.succeeded⟩

/-! ## The operations of the host (R104) -/

/-- The instructions a register write of the host stands for (R104). -/
inductive HostOperation : Instr → Prop where
  | softReset (n v : Bool) : HostOperation (.softReset n v)
  | irqStatus (m : BitVec 5) : HostOperation (.irqStatusW1c m)
  | irqEnable (e : BitVec 5) : HostOperation (.irqEnable e)
  | vLen (l : BitVec 32) : HostOperation (.vLen l)
  | nLen (l : BitVec 32) : HostOperation (.nLen l)

/-- The register decides which operation a written word is. -/
theorem hostOperation_of_decode {r : Reg} {c : DecCtx} {w : Nat} {i : Instr} (hr : r.operation = some c)
    (hd : decode c w = .ok i) : HostOperation i := by
  unfold Reg.operation at hr
  split at hr <;> cases hr <;> cases hd <;> constructor

theorem hostOperation_of_hostInstr {cfg : Config} {acc : HostAccess} {i : Instr} (h : hostInstr cfg acc = some i) :
    HostOperation i := by
  cases acc with
  | read addr width => cases h
  | write addr width w =>
    unfold hostInstr at h
    dsimp only at h
    split at h
    · split at h
      · rename_i c hc
        obtain ⟨r, -, hr⟩ := Option.bind_eq_some_iff.1 hc
        cases hd : decode c w.toNat with
        | ok j =>
          rw [hd] at h
          cases h
          exact hostOperation_of_decode hr hd
        | error e => rw [hd] at h; cases h
      · cases h
    · cases h

@[simp] theorem accept_v_ctx (s : State) (u : DecodeUnit) (w : Word) : (s.accept u w).v.ctx = s.v.ctx := by
  cases u <;> unfold State.accept <;> dsimp only <;> split <;> rfl

@[simp] theorem accept_n_ctx (s : State) (u : DecodeUnit) (w : Word) : (s.accept u w).n.ctx = s.n.ctx := by
  cases u <;> unfold State.accept <;> dsimp only <;> split <;> rfl

theorem Settled.resetIf {s : State} (h : Settled s) (b : Bool) (u : DecodeUnit) : Settled (s.resetIf b u) := by
  cases b with
  | false => exact h
  | true =>
    cases u with
    | vdu => exact ⟨rfl, h.2⟩
    | ndu => exact ⟨h.1, rfl⟩

/-- No operation of R104 brings a unit into a decode. -/
theorem Settled.hostOperation {s t : State} {i : Instr} (h : Settled s) (hi : HostOperation i)
    (ht : exec i s = .next t) : Settled t := by
  cases hi with
  | softReset n v =>
    cases ht
    exact (h.resetIf v .vdu).resetIf n .ndu
  | irqStatus m => cases ht; exact h.of_ctx rfl rfl
  | irqEnable e => cases ht; exact h.of_ctx rfl rfl
  | vLen l =>
    change execVLen l s = .next t at ht
    unfold execVLen at ht
    split at ht <;> cases ht
    exact h.of_ctx rfl rfl
  | nLen l =>
    change execNLen l s = .next t at ht
    unfold execNLen at ht
    split at ht <;> cases ht
    exact h.of_ctx rfl rfl

theorem Settled.hostWriteReg {s : State} (h : Settled s) (a : Nat) (w : Word) : Settled (s.hostWriteReg a w) := by
  unfold State.hostWriteReg
  split
  · exact h.of_ctx (by simp) (by simp)
  · exact h.of_ctx (by simp) (by simp)
  · exact h

/-- Nor does any other access of the host: a command word is accepted, not begun (R358). -/
theorem Settled.hostAccess {s t : State} {acc : HostAccess} (h : Settled s) (ht : hostAccess acc s = .next t) :
    Settled t := by
  unfold Machine.hostAccess at ht
  split at ht
  · split at ht <;> cases ht
    exact h.of_ctx rfl rfl
  · split at ht
    · cases ht
    · unfold State.hostWrite at ht
      split at ht
      · cases ht; exact h.hostWriteReg _ _
      · split at ht <;> cases ht
        exact h.of_ctx rfl rfl
      · split at ht <;> cases ht
        exact h.of_ctx rfl rfl
      · cases ht; exact h

/-! ## No step leaves a unit inside a decode, by the agent that moves -/

theorem Settled.step_host {s t : State} (h : Settled s) (ha : s.nextAgent = .host) (ht : step s = .next t) :
    Settled t := by
  cases hq : s.host.queue with
  | nil =>
    cases (step_host_idle ha hq).symm.trans ht
    exact h
  | cons acc rest =>
    cases hi : hostInstr s.cfg acc with
    | some i =>
      rw [step_host_instr ha hq hi] at ht
      exact Settled.hostOperation (s := s.hostMoved) h (hostOperation_of_hostInstr hi) ht
    | none =>
      rw [step_host_access ha hq hi] at ht
      exact Settled.hostAccess (s := s.hostMoved) h ht

theorem Settled.step_vdu {s t : State} (h : Settled s) (ha : s.nextAgent = .vdu) (ht : step s = .next t) :
    Settled t := by
  rcases step_vdu_cases ha h.1 with ⟨i, hi, e⟩ | e | ⟨-, e⟩
  · exact (exec_vduCommand_performed hi (e.symm.trans ht)).settled h
  · cases e.symm.trans ht
    exact (vduPerformed_complete (Held.refl s.moved) rfl _).settled h
  · cases e.symm.trans ht
    exact h

theorem Settled.step_ndu {s t : State} (h : Settled s) (ha : s.nextAgent = .ndu) (ht : step s = .next t) :
    Settled t := by
  rcases step_ndu_cases ha h.2 with ⟨u, e, hu⟩ | ⟨-, e⟩
  · cases e.symm.trans ht
    exact hu.settled h
  · cases e.symm.trans ht
    exact h

/-- Settles O8: by the agent that moves; a unit completes its command in the step that begins it, and the host begins
none. -/
theorem stepKeepsSettled : Obligations.StepKeepsSettled := by
  intro s t h ht
  cases ha : s.nextAgent with
  | host => exact h.step_host ha ht
  | vdu => exact h.step_vdu ha ht
  | ndu => exact h.step_ndu ha ht

end Sys2Proof.Machine
end

section
/-!
The invariant of the machine through one step (spec/00_scope.md R6), by the agent that moves and what it finds there.
-/

namespace Sys2Proof.Machine

/-! ## The operations of the host (R104) -/

theorem Inv.resetIf {s : State} (h : Inv s) (b : Bool) (u : DecodeUnit) : Inv (s.resetIf b u) := by
  cases b with
  | false => exact h
  | true => exact h.resetUnit u

/-- The invariant does not speak of `V_LEN`, which R353 lets the host write with any value. -/
theorem Inv.vLen {s : State} (h : Inv s) (l : Word) : Inv { s with v := { s.v with len := l } } := by
  obtain ⟨hcur, hbr, hbuf, hpic, hidle, hbusy, hword, hframe, hplace⟩ := h.vduOk
  obtain ⟨hnIdle, hnBusy, hnWord, hnValid, hnPlace⟩ := h.nduOk
  exact inv_of_parts
    ⟨⟨hcur.valid, hcur.len, hcur.pos⟩, ⟨hbr.start, hbr.place, hbr.bitIdx⟩, { hbuf with }, { hpic with }, hidle, hbusy,
      hword, hframe, { hplace with }⟩
    ⟨hnIdle, hnBusy, hnWord, hnValid, { hnPlace with }⟩

/-- `N_LEN` bounds the places of a walk, and an idle NDU is at none of them (R354, R432). -/
theorem Inv.nLen {s : State} (h : Inv s) (hb : s.n.status.busy = false) (l : Word) :
    Inv { s with n := { s.n with len := l } } := by
  obtain ⟨hpend, hctx⟩ := h.status.nduIdle hb
  have hphase : s.n.ctx.phase = .idle := by rw [hctx]; rfl
  refine inv_of_parts (h.vduOk.update _ s.irqStatus s.host)
    ⟨h.status.nduIdle, h.status.nduBusy, h.status.nduWord, h.status.navValid, ?_⟩
  constructor <;> intro hp <;> simp [hphase] at hp

/-- Every operation of R104 keeps the invariant. -/
theorem Inv.hostOperation {s t : State} {i : Instr} (h : Inv s) (hi : HostOperation i) (ht : exec i s = .next t) :
    Inv t := by
  cases hi with
  | softReset n v => cases ht; exact (h.resetIf v .vdu).resetIf n .ndu
  | irqStatus m => cases ht; exact h.irq _ _
  | irqEnable e => cases ht; exact h.irq _ _
  | vLen l =>
    change execVLen l s = .next t at ht
    unfold execVLen at ht
    split at ht <;> cases ht
    exact h.vLen l
  | nLen l =>
    change execNLen l s = .next t at ht
    unfold execNLen at ht
    split at ht <;> cases ht
    rename_i hb
    exact h.nLen (by simpa using hb) l

/-! ## A step inside a decode -/

/-- A busy VDU at a place of a stream performs the element it finds there. -/
theorem step_vdu_element {s : State} (ha : s.nextAgent = .vdu) (hb : s.v.status.busy = true)
    (hp : s.v.ctx.phase ≠ .idle) : step s = videoElement s.moved := by
  cases hw : videoWindow s.moved with
  | none =>
    unfold videoWindow at hw
    split at hw <;> rename_i hphase
    · exact absurd hphase hp
    all_goals cases hw
  | some p =>
    obtain ⟨c, w⟩ := p
    cases hd : decode c w with
    | ok i => rw [step_vdu_instr ha (fetchVdu_element hb hw hd), videoElement_exec hw hd]
    | error r =>
      have hf : fetchVdu s.moved = .other (videoReject r s.moved) := by
        have hb' : s.moved.v.status.busy = true := hb
        simp only [fetchVdu, hb', hw, hd, if_true]
      rw [step_vdu_other ha hf, videoElement_reject hw hd]

/-- A busy NDU at a place of a datagram performs the form it finds there. -/
theorem step_ndu_form {s : State} (ha : s.nextAgent = .ndu) (hb : s.n.status.busy = true)
    (hp : s.n.ctx.phase ≠ .idle) : step s = navForm s.moved := by
  cases hw : navWindow s.moved with
  | none =>
    unfold navWindow at hw
    split at hw <;> rename_i hphase
    · exact absurd hphase hp
    all_goals cases hw
  | some p =>
    obtain ⟨c, w⟩ := p
    obtain ⟨i, hd⟩ := navWindow_decode hw
    rw [step_ndu_instr ha (fetchNdu_form hb hw hd), navForm_exec hw hd]

/-! ## Each agent's step -/

theorem Inv.step_host {s t : State} (h : Inv s) (ha : s.nextAgent = .host) (ht : step s = .next t) : Inv t := by
  cases hq : s.host.queue with
  | nil =>
    cases (step_host_idle ha hq).symm.trans ht
    exact h.host _
  | cons acc rest =>
    have hm : Inv s.hostMoved := h.host _
    cases hi : hostInstr s.cfg acc with
    | some i =>
      rw [step_host_instr ha hq hi] at ht
      exact hm.hostOperation (hostOperation_of_hostInstr hi) ht
    | none =>
      rw [step_host_access ha hq hi] at ht
      exact hm.hostAccess ht

theorem Inv.step_vdu {s t : State} (h : Inv s) (ha : s.nextAgent = .vdu) (ht : step s = .next t) : Inv t := by
  have hm : Inv s.moved := h.host _
  by_cases hb : s.v.status.busy = true
  · by_cases hp : s.v.ctx.phase = .idle
    · obtain ⟨w, hw⟩ := Option.ne_none_iff_exists'.1 (h.status.vduWord hb hp)
      cases hd : decode .vCmd w.toNat with
      | ok i =>
        rw [step_vdu_instr ha (fetchVdu_word hb hp hw hd)] at ht
        exact (hm.running hb).command hd ht
      | error r =>
        rw [step_vdu_other ha (fetchVdu_badWord hb hp hw hd)] at ht
        exact (hm.running hb).videoEnd ht
    · rw [step_vdu_element ha hb hp] at ht
      exact hm.videoElement ht
  · have hidle := Bool.eq_false_iff.2 hb
    have hp : s.v.ctx.phase = .idle := by rw [(h.status.vduIdle hidle).2]; rfl
    cases (step_vdu_other ha (fetchVdu_nothing hp (.inl hidle))).symm.trans ht
    exact hm

theorem Inv.step_ndu {s t : State} (h : Inv s) (ha : s.nextAgent = .ndu) (ht : step s = .next t) : Inv t := by
  have hm : Inv s.moved := h.host _
  by_cases hb : s.n.status.busy = true
  · by_cases hp : s.n.ctx.phase = .idle
    · obtain ⟨w, hw⟩ := Option.ne_none_iff_exists'.1 (h.status.nduWord hb hp)
      cases hd : decode .nCmd w.toNat with
      | ok i =>
        rw [step_ndu_instr ha (fetchNdu_word hb hp hw hd)] at ht
        exact hm.navCommand hb hd ht
      | error r =>
        rw [step_ndu_other ha (fetchNdu_badWord hb hp hw hd)] at ht
        exact inv_navEnd hm.vduOk hm.status.navValid ht
    · rw [step_ndu_form ha hb hp] at ht
      exact hm.navForm ht
  · have hidle := Bool.eq_false_iff.2 hb
    have hp : s.n.ctx.phase = .idle := by rw [(h.status.nduIdle hidle).2]; rfl
    cases (step_ndu_other ha (fetchNdu_nothing hp (.inl hidle))).symm.trans ht
    exact hm

/-- Settles O12: by the agent that moves.  The host writes registers and buffers; a unit performs its command word, or
the element or form at its place, or has nothing to do. -/
theorem stepKeepsInv : Obligations.StepKeepsInv := by
  intro s t h ht
  cases ha : s.nextAgent with
  | host => exact h.step_host ha ht
  | vdu => exact h.step_vdu ha ht
  | ndu => exact h.step_ndu ha ht

end Sys2Proof.Machine
end

section
/-!
What every instruction does to the cursor and to the result registers (spec/10_state.md R28, R30, R45), by the class of
the instruction: a command of a unit, an operation of the host, an element of the stream or a form of a datagram.
-/

namespace Sys2Proof.Machine

/-! ## The classes of the instructions -/

/-- Where an instruction stands: in a command word (R101, R102), in a register write (R104), in the stream or in a
datagram. -/
inductive InstrClass (i : Instr) : Prop where
  | vduCommand (h : VduCommand i)
  | nduCommand (h : NduCommand i)
  | hostOperation (h : HostOperation i)
  | element (h : exec i = performElement i)
  | form (h : exec i = performForm i)

theorem instrClass (i : Instr) : InstrClass i := by
  cases i
  case vNop | vDecode | brInit | brRead | brPeek | brAlign | brHasrem | brRldec => exact .vduCommand (by constructor)
  case nNop | nDecode => exact .nduCommand (by constructor)
  case softReset | irqStatusW1c | irqEnable | vLen | nLen => exact .hostOperation (by constructor)
  case navHeader | navRecordHeader | navDemo | navVision | navChecksum | navUnknown => exact .form rfl
  all_goals exact .element rfl

theorem nduOnly_exec {s t : State} {i : Instr} (hi : NduCommand i) (h : exec i s = .next t) : NduOnly s t := by
  cases hi with
  | nop => exact nduOnly_navEnd h
  | decode => exact nduOnly_execNDecode h

/-- How a command ends that reads bits and then does `f`: with `READ_PAST_END`, or with `f` done behind the bits. -/
theorem videoTake_done {s t : State} {n : Nat} {f : State → State}
    (h : videoTake s n (fun u => videoEnd (f u) .none) = .next t) :
    t = s.complete .vdu .readPastEnd ∨
    (s.brAt + n ≤ s.brExt ∧ t = (f (s.brMoveTo (s.brAt + n))).complete .vdu .none) := by
  rcases videoTake_cases s n (fun u => videoEnd (f u) .none) with ⟨-, e⟩ | ⟨hle, e⟩
  · cases e.symm.trans h; exact .inl rfl
  · cases e.symm.trans h; exact .inr ⟨hle, rfl⟩

/-- How `BR.RLDEC` ends: with an error, or with the triple of the window recorded behind its bits (R254, R258). -/
theorem execBrRldec_done {s t : State} (h : execBrRldec s = .next t) :
    (∃ e, t = s.complete .vdu e) ∨
    ∃ r : RunLevel, s.brAt + r.len ≤ s.brExt ∧
      t = ((s.brMoveTo (s.brAt + r.len)).setRunLevel r).complete .vdu .none := by
  unfold execBrRldec at h
  split at h
  · cases h; exact .inl ⟨_, rfl⟩
  · next r _ => exact (videoTake_done h).imp (fun e => ⟨_, e⟩) fun e => ⟨r, e⟩

/-- How `BR.INIT` ends: with `LEN_RANGE`, or with a new cursor and a cleared result (R142). -/
theorem execBrInit_done {s t : State} (h : execBrInit s = .next t) :
    t = s.complete .vdu .lenRange ∨ t = (s.brStart.setResult 0).complete .vdu .none := by
  unfold execBrInit at h
  split at h <;> cases h
  · exact .inl rfl
  · exact .inr rfl

/-! ## The cursor (R30, R360) -/

/-- What leaves `BR_LEN` and `BR_POS` alone leaves the cursor where it is. -/
theorem onward_of_eq {s t : State} (hcfg : t.cfg = s.cfg) (hlen : t.v.brLen = s.v.brLen)
    (hpos : t.v.brPos = s.v.brPos) : Onward s t where
  brLen := hlen
  cursor hs := by
    have hat : t.brAt = s.brAt := by rw [State.brAt, State.brAt, hpos]
    have hext : t.brExt = s.brExt := by rw [State.brExt, State.brExt, hlen]
    exact ⟨⟨hcfg ▸ hs.valid, by rw [hlen, hcfg]; exact hs.len, by rw [hat, hext]; exact hs.pos⟩, hat.ge⟩

theorem NduOnly.onward {s t : State} (h : NduOnly s t) : Onward s t :=
  onward_of_eq h.cfg (by rw [h.vdu]) (by rw [h.vdu])

theorem onward_setResult (s : State) (r : Word) : Onward s (s.setResult r) := onward_of_eq rfl rfl rfl

theorem onward_setRunLevel (s : State) (r : RunLevel) : Onward s (s.setRunLevel r) := onward_of_eq rfl rfl rfl

theorem Onward.complete {s u : State} (h : Onward s u) (e : Err) : Onward s (u.complete .vdu e) :=
  h.trans (stays_complete u e).onward

theorem onward_consume {s : State} {n : Nat} (h : s.brAt + n ≤ s.brExt) : Onward s (s.brMoveTo (s.brAt + n)) :=
  (stays_brMoveTo s _ (Nat.le_add_right _ _) fun _ => h).onward

/-- A command on the cursor that does not start one (R142, R210). -/
theorem onward_vduCommand {s t : State} {i : Instr} (hi : VduCommand i) (hinit : i ≠ .brInit) (hdecode : i ≠ .vDecode)
    (h : exec i s = .next t) : Onward s t := by
  cases hi with
  | nop => exact (stays_videoEnd h).onward
  | decode => exact absurd rfl hdecode
  | init => exact absurd rfl hinit
  | read n =>
    rcases videoTake_done h with rfl | ⟨hle, rfl⟩
    · exact (stays_complete s _).onward
    · exact ((onward_consume hle).trans (onward_setResult _ _)).complete _
  | peek n => cases h; exact (onward_setResult s _).complete _
  | align => exact ((stays_brAlign s).trans (stays_videoEnd h)).onward
  | hasrem => cases h; exact (onward_setResult s _).complete _
  | rldec =>
    rcases execBrRldec_done h with ⟨e, rfl⟩ | ⟨r, hle, rfl⟩
    · exact (stays_complete s e).onward
    · exact ((onward_consume hle).trans (onward_setRunLevel _ _)).complete _

/-- An operation of the host leaves the VDU's registers but `V_LEN` alone, unless it resets the VDU (R350, R353). -/
theorem hostOperation_vdu {s t : State} {i : Instr} (hi : HostOperation i) (hreset : ∀ n, i ≠ .softReset n true)
    (h : exec i s = .next t) : t.cfg = s.cfg ∧ t.v = { s.v with len := t.v.len } := by
  cases hi with
  | softReset n v =>
    cases v with
    | true => exact absurd rfl (hreset n)
    | false => cases n <;> cases h <;> exact ⟨rfl, rfl⟩
  | irqStatus m => cases h; exact ⟨rfl, rfl⟩
  | irqEnable e => cases h; exact ⟨rfl, rfl⟩
  | vLen l =>
    change execVLen l s = .next t at h
    unfold execVLen at h
    split at h <;> cases h
    exact ⟨rfl, rfl⟩
  | nLen l =>
    change execNLen l s = .next t at h
    unfold execNLen at h
    split at h <;> cases h
    exact ⟨rfl, rfl⟩

/-- Every instruction but those that start or reset the cursor moves it on or leaves it. -/
theorem onward_exec {s t : State} {i : Instr} (hinit : i ≠ .brInit) (hdecode : i ≠ .vDecode)
    (hreset : ∀ n, i ≠ .softReset n true) (h : exec i s = .next t) : Onward s t := by
  cases instrClass i with
  | vduCommand hi => exact onward_vduCommand hi hinit hdecode h
  | nduCommand hi => exact (nduOnly_exec hi h).onward
  | hostOperation hi =>
    obtain ⟨hcfg, hv⟩ := hostOperation_vdu hi hreset h
    exact onward_of_eq hcfg (by rw [hv]) (by rw [hv])
  | element he => rw [he] at h; exact (stays_performElement i h).onward
  | form he => rw [he] at h; exact (nduOnly_performForm i h).onward

/-- Settles O17: `onward_exec`, for a cursor inside its extent. -/
theorem cursorMonotone : Obligations.CursorMonotone := by
  intro s t i hs hinit hdecode hreset h
  have ho := onward_exec hinit hdecode hreset h
  exact ⟨(ho.cursor hs).2, ho.brLen⟩

/-! ## The result registers (R28, R45, R148) -/

/-- `V_RL_RUN`, `V_RL_LEVEL` and `V_RL_INFO` are as they were. -/
structure RunLevelKept (s t : State) : Prop where
  run : t.v.rlRun = s.v.rlRun
  level : t.v.rlLevel = s.v.rlLevel
  len : t.v.rlLen = s.v.rlLen
  last : t.v.rlLast = s.v.rlLast

/-- All result registers are as they were. -/
structure ResultsKept (s t : State) : Prop where
  result : t.v.result = s.v.result
  runLevel : RunLevelKept s t

theorem VduOnly.resultsKept {s t : State} (h : VduOnly s t) : ResultsKept s t :=
  ⟨h.result, h.rlRun, h.rlLevel, h.rlLen, h.rlLast⟩

/-- The result registers are among those that only the VDU and a reset of it write, and `V_LEN` is none of them. -/
theorem resultsKept_of_vdu {s t : State} (h : t.v = { s.v with len := t.v.len }) : ResultsKept s t := by
  constructor
  · rw [h]
  · constructor <;> rw [h]

theorem NduOnly.resultsKept {s t : State} (h : NduOnly s t) : ResultsKept s t :=
  resultsKept_of_vdu (by rw [h.vdu])

/-- The commands that write `V_RESULT` (R28). -/
inductive WritesResult : Instr → Prop where
  | init : WritesResult .brInit
  | read (n : BitVec 6) : WritesResult (.brRead n)
  | peek (n : BitVec 6) : WritesResult (.brPeek n)
  | hasrem : WritesResult .brHasrem

/-- A command that writes `V_RESULT` leaves `V_RL_*` alone (R148). -/
theorem WritesResult.runLevelKept {s t : State} {i : Instr} (hi : WritesResult i) (h : exec i s = .next t) :
    RunLevelKept s t := by
  cases hi with
  | init => rcases execBrInit_done h with rfl | rfl <;> constructor <;> simp
  | read n => rcases videoTake_done h with rfl | ⟨-, rfl⟩ <;> constructor <;> simp
  | peek n => cases h; constructor <;> simp
  | hasrem => cases h; constructor <;> simp

/-- `BR.RLDEC` leaves `V_RESULT` alone (R148). -/
theorem execBrRldec_result {s t : State} (h : execBrRldec s = .next t) : t.v.result = s.v.result := by
  rcases execBrRldec_done h with ⟨e, rfl⟩ | ⟨r, -, rfl⟩ <;> simp

/-- Every instruction writes `V_RESULT` alone, or is `BR.RLDEC`, or leaves all the result registers as they were. -/
theorem exec_results {s t : State} {i : Instr} (hreset : ∀ n, i ≠ .softReset n true) (h : exec i s = .next t) :
    WritesResult i ∨ i = .brRldec ∨ ResultsKept s t := by
  cases instrClass i with
  | vduCommand hi =>
    cases hi with
    | nop => exact .inr (.inr (stays_videoEnd h).only.resultsKept)
    | decode => exact .inr (.inr (vduOnly_execVDecode h).resultsKept)
    | align => exact .inr (.inr ((stays_brAlign s).trans (stays_videoEnd h)).only.resultsKept)
    | rldec => exact .inr (.inl rfl)
    | init => exact .inl .init
    | read n => exact .inl (.read n)
    | peek n => exact .inl (.peek n)
    | hasrem => exact .inl .hasrem
  | nduCommand hi => exact .inr (.inr (nduOnly_exec hi h).resultsKept)
  | hostOperation hi => exact .inr (.inr (resultsKept_of_vdu (hostOperation_vdu hi hreset h).2))
  | element he => rw [he] at h; exact .inr (.inr (stays_performElement i h).only.resultsKept)
  | form he => rw [he] at h; exact .inr (.inr (nduOnly_performForm i h).resultsKept)

/-- Settles O18: by `exec_results`, the commands that write one kind of result register leaving the other kind alone. -/
theorem resultRegisterWriters : Obligations.ResultRegisterWriters := by
  intro s t i h hreset
  refine ⟨fun hinit hread hpeek hhasrem => ?_, fun hrldec => ?_⟩
  · rcases exec_results hreset h with hw | rfl | hk
    · cases hw with
      | init => exact absurd rfl hinit
      | read n => exact absurd rfl (hread n)
      | peek n => exact absurd rfl (hpeek n)
      | hasrem => exact absurd rfl hhasrem
    · exact execBrRldec_result h
    · exact hk.result
  · have hk : RunLevelKept s t := by
      rcases exec_results hreset h with hw | hr | hk
      · exact hw.runLevelKept h
      · exact absurd hr hrldec
      · exact hk.runLevel
    exact ⟨hk.run, hk.level, hk.len, hk.last⟩

end Sys2Proof.Machine
end

section
/-!
The register map as the host reads it while both units are idle (spec/10_state.md R20 to R60): which register stands at
an offset, and the word of each register that is put together from its fields.
-/

namespace Sys2Proof.Machine

/-! ## The register at an offset -/

/-- While both units are idle every register reads as itself (R355). -/
theorem hostReadReg_idle {s : State} (hv : s.v.status.busy = false) (hn : s.n.status.busy = false) (r : Reg)
    (any : Word) : s.hostReadReg r any = s.readReg r := by
  have hu : ∀ u, s.busy u = false
    | .vdu => hv
    | .ndu => hn
  unfold State.hostReadReg
  split
  · rw [hv]; rfl
  · rw [hn]; rfl
  · split <;> simp [hu]

theorem hostRead_reg_idle {s : State} {off : Nat} {r : Reg} (hv : s.v.status.busy = false)
    (hn : s.n.status.busy = false) (width : Nat) (any : Word) (h : regAt off = some r) :
    s.hostRead .reg off width any = s.readReg r := by
  simp only [State.hostRead, h, hostReadReg_idle hv hn]

theorem hostRead_reg_reserved (s : State) {off : Nat} (width : Nat) (any : Word) (h : regAt off = none) :
    s.hostRead .reg off width any = 0 := by
  simp only [State.hostRead, h]

/-- Field `f` of vision slot `t` (R59). -/
theorem regAt_vision {t f : Nat} (ht : t < 4) (hf : f < 7) : regAt (0x280 + 0x20 * t + 4 * f) = some (.nVis t f) := by
  have et : (0x280 + 0x20 * t + 4 * f - 0x280) / 0x20 = t := by omega
  have ef : (0x280 + 0x20 * t + 4 * f) % 0x20 / 4 = f := by omega
  rw [regAt, if_pos (by omega), et, ef]

/-- Outside the vision slots a register is one of the table (R21 to R58). -/
theorem regAt_eq_none {off : Nat} (hvis : ¬ (0x280 ≤ off ∧ off < 0x300 ∧ off % 4 = 0 ∧ off % 0x20 < 0x1C))
    (htab : ∀ c ∈ regTable, c.1 ≠ off) : regAt off = none := by
  rw [regAt, if_neg hvis]
  cases hc : cellFind regTable off with
  | none => rfl
  | some r => exact absurd rfl (htab _ (cellFind_mem regTable off r hc))

/-- The gaps of the register map below `0x1000` (R60). -/
def ReservedOffset (off : Nat) : Prop :=
  (0x00C < off ∧ off < 0x100) ∨ (0x158 < off ∧ off < 0x200) ∨ (0x224 < off ∧ off < 0x230) ∨
  (0x250 < off ∧ off < 0x260) ∨ (0x260 < off ∧ off < 0x280) ∨
  (0x280 ≤ off ∧ off < 0x300 ∧ off % 0x20 = 0x1C) ∨ 0x300 ≤ off

theorem regTable_not_reserved : ∀ c ∈ regTable, ¬ ReservedOffset c.1 := by
  unfold ReservedOffset; decide

theorem regAt_reserved {off : Nat} (h : ReservedOffset off) : regAt off = none := by
  refine regAt_eq_none (fun hvis => ?_) fun c hc e => regTable_not_reserved c hc (e ▸ h)
  unfold ReservedOffset at h
  omega

/-! ## The words put together from fields -/

/-- A group of bits before another, as a number. -/
theorem toNat_append_add {m n : Nat} (x : BitVec m) (y : BitVec n) :
    (x ++ y).toNat = x.toNat * 2 ^ n + y.toNat := by
  rw [BitVec.toNat_append, ← Nat.shiftLeft_add_eq_or_of_lt y.isLt, Nat.shiftLeft_eq]

theorem Err.code_lt (e : Err) : e.code < 2 ^ 8 := by cases e <;> decide

/-- Reserved bits above a field read as 0 (R20). -/
theorem zeroExtend_eq_zero_append {m n : Nat} (x : BitVec n) : x.zeroExtend (m + n) = 0#m ++ x := by
  apply BitVec.eq_of_toNat_eq
  rw [toNat_append_add, BitVec.toNat_setWidth, BitVec.toNat_ofNat, Nat.zero_mod, Nat.zero_mul, Nat.zero_add]
  exact Nat.mod_eq_of_lt (lt_of_lt_of_le x.isLt (Nat.pow_le_pow_right (by decide) (Nat.le_add_left n m)))

/-- `V_STATUS` bit by bit (R26). -/
theorem VStatus.word_bits (t : VStatus) :
    t.word = 0#16 ++ BitVec.ofNat 8 t.err.code ++ 0#3 ++ BitVec.ofBool t.rejected ++ BitVec.ofBool t.frameValid
      ++ BitVec.ofBool t.picComplete ++ BitVec.ofBool t.done ++ BitVec.ofBool t.busy := by
  have hcode := t.err.code_lt
  have hbit := Bool.toNat_le
  have := hbit t.rejected; have := hbit t.frameValid; have := hbit t.picComplete; have := hbit t.done
  have := hbit t.busy
  apply BitVec.eq_of_toNat_eq
  simp only [VStatus.word, toNat_append_add, BitVec.toNat_ofBool, BitVec.toNat_ofNat]
  omega

/-- `N_STATUS` bit by bit (R49). -/
theorem NStatus.word_bits (t : NStatus) :
    t.word = 0#16 ++ BitVec.ofNat 8 t.err.code ++ BitVec.ofBool t.rejected ++ BitVec.ofBool t.visSeen
      ++ BitVec.ofBool t.cksSeen ++ BitVec.ofBool t.demoSeen ++ BitVec.ofBool t.trunc ++ BitVec.ofBool t.valid
      ++ BitVec.ofBool t.done ++ BitVec.ofBool t.busy := by
  have hcode := t.err.code_lt
  have hbit := Bool.toNat_le
  have := hbit t.rejected; have := hbit t.visSeen; have := hbit t.cksSeen; have := hbit t.demoSeen
  have := hbit t.trunc; have := hbit t.valid; have := hbit t.done; have := hbit t.busy
  apply BitVec.eq_of_toNat_eq
  simp only [NStatus.word, toNat_append_add, BitVec.toNat_ofBool, BitVec.toNat_ofNat]
  omega

/-- `BR_STATE` by its fields (R31). -/
theorem Vdu.brStateWord_fields (v : Vdu) : v.brStateWord = 0#2 ++ v.brChunk ++ 0#2 ++ v.brBitIdx := by
  have := v.brChunk.isLt
  have := v.brBitIdx.isLt
  apply BitVec.eq_of_toNat_eq
  simp only [Vdu.brStateWord, toNat_append_add, BitVec.toNat_ofNat]
  omega

/-- `V_RL_INFO` by its fields (R45). -/
theorem Vdu.rlInfoWord_fields (v : Vdu) : v.rlInfoWord = 0#23 ++ BitVec.ofBool v.rlLast ++ 0#2 ++ v.rlLen := by
  have := v.rlLen.isLt
  have := Bool.toNat_le v.rlLast
  apply BitVec.eq_of_toNat_eq
  simp only [Vdu.rlInfoWord, toNat_append_add, BitVec.toNat_ofBool, BitVec.toNat_ofNat]
  omega

/-- Settles O25: offset by offset; the registers with reserved bits through the lemmas on their words. -/
theorem registerMap : Obligations.RegisterMap := by
  intro s any hv hn rd bit
  have reg {off : Nat} (r : Reg) (h : regAt off = some r) : rd off = s.readReg r := hostRead_reg_idle hv hn 4 any h
  refine ⟨reg .id rfl, (reg .irqStatus rfl).trans (zeroExtend_eq_zero_append (m := 27) _),
    (reg .irqEnable rfl).trans (zeroExtend_eq_zero_append (m := 27) _), reg .softReset rfl, reg .vCmd rfl, reg .nCmd rfl,
    (reg .vStatus rfl).trans s.v.status.word_bits,
    reg .vLen rfl, reg .vResult rfl, reg .brWord rfl, reg .brPos rfl,
    (reg .brState rfl).trans s.v.brStateWord_fields, reg .brLen rfl,
    (reg .vFormat rfl).trans (zeroExtend_eq_zero_append (m := 30) _),
    (reg .vRes rfl).trans (zeroExtend_eq_zero_append (m := 29) _),
    (reg .vPtype rfl).trans (zeroExtend_eq_zero_append (m := 29) _),
    reg .vQuant rfl, reg .vFrameIndex rfl, reg .vWidth rfl, reg .vHeight rfl, reg .vSliceCount rfl, reg .vMbPerRow rfl,
    reg .vSliceIndex rfl, reg .vGridMbs rfl, reg .vErrPos rfl, reg .vRlRun rfl, reg .vRlLevel rfl,
    (reg .vRlInfo rfl).trans s.v.rlInfoWord_fields,
    (reg .nStatus rfl).trans s.n.status.word_bits,
    reg .nLen rfl, reg .nMagic rfl, reg .nState rfl, reg .nSeq rfl, reg .nVisionDef rfl, reg .nCksCalc rfl,
    reg .nCksRx rfl, reg .nEndPos rfl, reg .nDemoCtrlState rfl, reg .nDemoBattery rfl, reg .nDemoTheta rfl,
    reg .nDemoPhi rfl, reg .nDemoPsi rfl, reg .nDemoAltitude rfl, reg .nDemoVx rfl, reg .nDemoVy rfl, reg .nDemoVz rfl,
    reg .nVisCount rfl, fun t ht f hf => reg (.nVis t f) (regAt_vision ht hf), fun off _ _ hres => ?_⟩
  exact hostRead_reg_reserved s 4 any (regAt_reserved hres)

end Sys2Proof.Machine
end

section
/-!
The two units touch disjoint state (spec/20_memory.md R89): what the step of one unit does, what it leaves alone, and that
it neither reads nor disturbs what belongs to the other unit, so that the two steps may happen in either order.
-/

namespace Sys2Proof.Machine

/-! ## What a unit's step does, as a function of the state -/

/-- The VDU's move: nothing while it is idle, else its command word, or the element at its place in a decode. -/
def vduAct (s : State) : StepOutcome State :=
  if s.v.status.busy = true then
    if s.v.ctx.phase = .idle then
      match s.v.pending with
      | none => .next s
      | some w =>
        match decode .vCmd w.toNat with
        | .ok i => exec i s
        | .error _ => videoEnd s .badCommand
    else videoElement s
  else .next s

/-- The NDU's move. -/
def nduAct (s : State) : StepOutcome State :=
  if s.n.status.busy = true then
    if s.n.ctx.phase = .idle then
      match s.n.pending with
      | none => .next s
      | some w =>
        match decode .nCmd w.toNat with
        | .ok i => exec i s
        | .error _ => navEnd s .badCommand
    else navForm s
  else .next s

theorem fetchVdu_notBusy {s : State} (h : s.v.status.busy = false) : fetchVdu s = .other (.next s) := by
  simp [fetchVdu, h]

theorem fetchNdu_notBusy {s : State} (h : s.n.status.busy = false) : fetchNdu s = .other (.next s) := by
  simp [fetchNdu, h]

@[simp] theorem moved_v (s : State) : s.moved.v = s.v := rfl
@[simp] theorem moved_n (s : State) : s.moved.n = s.n := rfl

/-- A step of the VDU uses up the schedule entry and is the VDU's move. -/
theorem step_eq_vduAct {s : State} (ha : s.nextAgent = .vdu) : step s = vduAct s.moved := by
  cases hb : s.v.status.busy with
  | false => simp [step_vdu_other ha (fetchVdu_notBusy hb), vduAct, hb]
  | true =>
    by_cases hp : s.v.ctx.phase = .idle
    · cases hw : s.v.pending with
      | none => simp [step_vdu_other ha (fetchVdu_nothing hp (.inr hw)), vduAct, hp, hw]
      | some w =>
        cases hd : decode .vCmd w.toNat with
        | ok i => simp [step_vdu_instr ha (fetchVdu_word hb hp hw hd), vduAct, hb, hp, hw, hd]
        | error r => simp [step_vdu_other ha (fetchVdu_badWord hb hp hw hd), vduAct, hb, hp, hw, hd]
    · simp [step_vdu_element ha hb hp, vduAct, hb, hp]

/-- A step of the NDU uses up the schedule entry and is the NDU's move. -/
theorem step_eq_nduAct {s : State} (ha : s.nextAgent = .ndu) : step s = nduAct s.moved := by
  cases hb : s.n.status.busy with
  | false => simp [step_ndu_other ha (fetchNdu_notBusy hb), nduAct, hb]
  | true =>
    by_cases hp : s.n.ctx.phase = .idle
    · cases hw : s.n.pending with
      | none => simp [step_ndu_other ha (fetchNdu_nothing hp (.inr hw)), nduAct, hp, hw]
      | some w =>
        cases hd : decode .nCmd w.toNat with
        | ok i => simp [step_ndu_instr ha (fetchNdu_word hb hp hw hd), nduAct, hb, hp, hw, hd]
        | error r => simp [step_ndu_other ha (fetchNdu_badWord hb hp hw hd), nduAct, hb, hp, hw, hd]
    · simp [step_ndu_form ha hb hp, nduAct, hb, hp]

/-- A property of every way the VDU can move is one of its move. -/
theorem vduAct_induction {s : State} {P : StepOutcome State → Prop} (hnext : P (.next s))
    (hcommand : ∀ i, VduCommand i → P (exec i s)) (hend : P (videoEnd s .badCommand)) (helement : P (videoElement s)) :
    P (vduAct s) := by
  unfold vduAct
  split
  · split
    · split
      · exact hnext
      · split
        · next i hd => exact hcommand i (vduCommand_of_decode hd)
        · exact hend
    · exact helement
  · exact hnext

/-- A property of every way the NDU can move is one of its move. -/
theorem nduAct_induction {s : State} {P : StepOutcome State → Prop} (hnext : P (.next s))
    (hcommand : ∀ i, NduCommand i → P (exec i s)) (hend : P (navEnd s .badCommand)) (hform : P (navForm s)) :
    P (nduAct s) := by
  unfold nduAct
  split
  · split
    · split
      · exact hnext
      · split
        · next i hd => exact hcommand i (nduCommand_of_decode hd)
        · exact hend
    · exact hform
  · exact hnext

/-! ## What a unit's step leaves alone -/

/-- `t` differs from `s` in nothing but what R89 gives the VDU, and interrupt bits of the VDU are only set. -/
structure VduLocal (s t : State) : Prop where
  cfg : t.cfg = s.cfg
  irqEnable : t.irqEnable = s.irqEnable
  irqKept : ∀ k, s.irqStatus.getLsbD k = true → t.irqStatus.getLsbD k = true
  navBits : t.irqStatus &&& 0b11000#5 = s.irqStatus &&& 0b11000#5
  ndu : t.n = s.n
  vin : t.vin = s.vin
  nin : t.nin = s.nin
  host : t.host = s.host

theorem VduOnly.vduLocal {s t : State} (h : VduOnly s t) : VduLocal s t :=
  ⟨h.cfg, h.irqEnable, h.irqKept, h.navBits, h.ndu, h.vin, h.nin, h.host⟩

theorem VduLocal.trans {s t u : State} (h : VduLocal s t) (g : VduLocal t u) : VduLocal s u where
  cfg := g.cfg.trans h.cfg
  irqEnable := g.irqEnable.trans h.irqEnable
  irqKept k hk := g.irqKept k (h.irqKept k hk)
  navBits := g.navBits.trans h.navBits
  ndu := g.ndu.trans h.ndu
  vin := g.vin.trans h.vin
  nin := g.nin.trans h.nin
  host := g.host.trans h.host

/-- The VDU's registers may change at will. -/
theorem vduLocal_update (s : State) (v : Vdu) : VduLocal s { s with v := v } :=
  ⟨rfl, rfl, fun _ h => h, rfl, rfl, rfl, rfl, rfl⟩

theorem vduLocal_brMoveTo (s : State) (p : Nat) : VduLocal s (s.brMoveTo p) := by
  unfold State.brMoveTo
  split
  · exact vduLocal_update s _
  · exact vduLocal_update s _

theorem vduLocal_complete (s : State) (e : Err) : VduLocal s (s.complete .vdu e) := (stays_complete s e).only.vduLocal

/-- Every command of the VDU stays inside the VDU. -/
theorem vduLocal_exec {s t : State} {i : Instr} (hi : VduCommand i) (h : exec i s = .next t) : VduLocal s t := by
  have hupdate (v : Vdu) (e : Err) : VduLocal s (State.complete { s with v := v } .vdu e) :=
    (vduLocal_update s v).trans (vduLocal_complete _ e)
  have hmoved (p : Nat) (v : Vdu) (e : Err) : VduLocal s (State.complete { s.brMoveTo p with v := v } .vdu e) :=
    ((vduLocal_brMoveTo s p).trans (vduLocal_update _ v)).trans (vduLocal_complete _ e)
  cases hi with
  | nop => cases h; exact vduLocal_complete s _
  | decode => exact (vduOnly_execVDecode h).vduLocal
  | init =>
    rcases execBrInit_done h with rfl | rfl
    · exact vduLocal_complete s _
    · exact hupdate _ _
  | read n =>
    rcases videoTake_done h with rfl | ⟨-, rfl⟩
    · exact vduLocal_complete s _
    · exact hmoved _ _ _
  | peek n => cases h; exact hupdate _ _
  | align => cases h; exact (vduLocal_brMoveTo s _).trans (vduLocal_complete _ _)
  | hasrem => cases h; exact hupdate _ _
  | rldec =>
    rcases execBrRldec_done h with ⟨e, rfl⟩ | ⟨r, -, rfl⟩
    · exact vduLocal_complete s e
    · exact hmoved _ _ _

/-- The VDU's move stays inside the VDU. -/
theorem vduLocal_vduAct {s t : State} (h : vduAct s = .next t) : VduLocal s t := by
  revert h
  refine vduAct_induction (P := fun o => o = .next t → VduLocal s t) ?_ ?_ ?_ ?_
  · rintro ⟨⟩; exact vduLocal_update s s.v
  · exact fun i hi h => vduLocal_exec hi h
  · rintro ⟨⟩; exact vduLocal_complete s _
  · exact fun h => (stays_videoElement h).only.vduLocal

/-- The NDU's move stays inside the NDU. -/
theorem nduOnly_nduAct {s t : State} (h : nduAct s = .next t) : NduOnly s t := by
  revert h
  refine nduAct_induction (P := fun o => o = .next t → NduOnly s t) ?_ ?_ ?_ ?_
  · rintro ⟨⟩; exact NduOnly.refl s
  · exact fun i hi h => nduOnly_exec hi h
  · exact fun h => nduOnly_navEnd h
  · exact fun h => nduOnly_navForm h

/-- Settles O14: the VDU's move stays inside the VDU, and the schedule is no part of the frame. -/
theorem vduStepFrame : Obligations.VduStepFrame := by
  intro s t ha h
  rw [step_eq_vduAct ha] at h
  have hl := vduLocal_vduAct h
  have hhost : t.host = s.moved.host := hl.host
  exact ⟨hl.cfg, hl.irqEnable, hl.navBits, hl.ndu, keepsBuffers_of_eq hl.vin hl.nin, by rw [hhost]; rfl,
    by rw [hhost]; rfl, by rw [hhost]; rfl⟩

/-- Settles O15: the NDU's move stays inside the NDU. -/
theorem nduStepFrame : Obligations.NduStepFrame := by
  intro s t ha h
  rw [step_eq_nduAct ha] at h
  have hl := nduOnly_nduAct h
  have hhost : t.host = s.moved.host := hl.host
  exact ⟨hl.cfg, hl.irqEnable, hl.videoBits, hl.vdu, keepsMemory_of_eq hl.vin hl.nin hl.pix, by rw [hhost]; rfl,
    by rw [hhost]; rfl, by rw [hhost]; rfl⟩

end Sys2Proof.Machine
end

section
/-!
The two units' steps in either order (spec/20_memory.md R89): an operation of one unit neither reads nor disturbs the
other unit's registers, the interrupt bits or the host's port, so it does the same on a state in which those have been
changed.
-/

namespace Sys2Proof.Machine

/-! ## Operations in sequence -/

/-- Go on with a next state; a stop stays a stop. -/
def andThen (o : StepOutcome State) (k : State → StepOutcome State) : StepOutcome State :=
  match o with
  | .next t => k t
  | .fault f => .fault f
  | .refused r => .refused r

@[simp] theorem andThen_next (t : State) (k : State → StepOutcome State) : andThen (.next t) k = k t := rfl

/-- Change the next state, if there is one. -/
def mapNext (g : State → State) (o : StepOutcome State) : StepOutcome State := andThen o fun t => .next (g t)

@[simp] theorem mapNext_next (g : State → State) (t : State) : mapNext g (.next t) = .next (g t) := rfl

/-- Two steps of the machine. -/
theorem run_two (s : State) : Host.Core.run Sys2Proof.core 2 s = andThen (step s) step := by
  have hstep : Host.Core.step Sys2Proof.core = step := rfl
  simp only [Host.Core.run, hstep]
  cases step s with
  | next t => simp only [andThen_next]; cases step t <;> rfl
  | fault f => rfl
  | refused r => rfl

/-! ## Operations that do not see a part of the state -/

/-- `f` does not see what `graft s r` puts into `s` from `r`: it does the same with it and leaves it in place.  Nor does
it refuse, which only a host access does (R75). -/
structure Oblivious (graft : State → State → State) (f : State → StepOutcome State) : Prop where
  not_refused : ∀ s r, f s ≠ .refused r
  graft : ∀ s r, f (graft s r) = mapNext (graft · r) (f s)

namespace Oblivious

variable {graft : State → State → State} {f k : State → StepOutcome State}

/-- An update of what the graft leaves alone. -/
theorem update {g : State → State} (hg : ∀ s r, g (graft s r) = graft (g s) r) :
    Oblivious graft fun s => .next (g s) :=
  ⟨fun _ _ h => (nomatch h), fun s r => by rw [hg, mapNext_next]⟩

theorem skip : Oblivious graft .next := update (g := fun s => s) fun _ _ => rfl

theorem fault (e : Fault) : Oblivious graft fun _ => .fault e := ⟨fun _ _ h => (nomatch h), fun _ _ => rfl⟩

/-- An update before what follows. -/
theorem after (hk : Oblivious graft k) {g : State → State} (hg : ∀ s r, g (graft s r) = graft (g s) r) :
    Oblivious graft fun s => k (g s) :=
  ⟨fun s r => hk.not_refused (g s) r, fun s r => by rw [hg, hk.graft]⟩

/-- One operation, then another from the state it leaves. -/
theorem andThen (hf : Oblivious graft f) (hk : Oblivious graft k) :
    Oblivious graft fun s => Machine.andThen (f s) k where
  not_refused s r h := by
    cases hs : f s with
    | next t => rw [hs] at h; exact hk.not_refused t r h
    | fault e => rw [hs] at h; cases h
    | refused e => exact hf.not_refused s e hs
  graft s r := by
    rw [hf.graft]
    cases f s with
    | next t => exact hk.graft t r
    | fault e => rfl
    | refused e => rfl

/-- A branch on a value that the graft leaves alone. -/
theorem branch {α : Type} {F : α → State → StepOutcome State} {m : State → α} (hF : ∀ a, Oblivious graft (F a))
    (hm : ∀ s r, m (graft s r) = m s) : Oblivious graft fun s => F (m s) s :=
  ⟨fun s r => (hF (m s)).not_refused s r, fun s r => by rw [hm, (hF (m s)).graft]⟩

/-- A branch on a test that the graft leaves alone. -/
theorem ite {p : State → Prop} [∀ s, Decidable (p s)] (hf : Oblivious graft f) (hk : Oblivious graft k)
    (hp : ∀ s r, p (graft s r) ↔ p s) : Oblivious graft fun s => if p s then f s else k s where
  not_refused s r := by split; exacts [hf.not_refused s r, hk.not_refused s r]
  graft s r := by
    by_cases h : p s
    · rw [if_pos h, if_pos ((hp s r).2 h), hf.graft]
    · rw [if_neg h, if_neg (mt (hp s r).1 h), hk.graft]

end Oblivious

/-! ## The VDU does not see the NDU -/

/-- `s` with the NDU's registers and the host's port of `r`, and with the interrupt bits of `r` set as well. -/
def State.withNduOf (s r : State) : State :=
  { s with n := r.n, irqStatus := s.irqStatus ||| r.irqStatus, host := r.host }

theorem or_or_comm (a b c : BitVec 5) : (a ||| b) ||| c = (a ||| c) ||| b := by
  rw [BitVec.or_assoc, BitVec.or_comm b c, BitVec.or_assoc]

theorem brMoveTo_withNduOf (s r : State) (p : Nat) : (s.withNduOf r).brMoveTo p = (s.brMoveTo p).withNduOf r := by
  unfold State.brMoveTo
  by_cases h : p = 0
  · rw [if_pos h, if_pos h]; rfl
  · rw [if_neg h, if_neg h]; rfl

theorem brAlign_withNduOf (s r : State) : (s.withNduOf r).brAlign = s.brAlign.withNduOf r := brMoveTo_withNduOf s r _

theorem brStart_withNduOf (s r : State) : (s.withNduOf r).brStart = s.brStart.withNduOf r :=
  brMoveTo_withNduOf { s with v := { s.v with brLen := s.v.len } } r 0

theorem complete_withNduOf (s r : State) (e : Err) :
    (s.withNduOf r).complete .vdu e = (s.complete .vdu e).withNduOf r := by
  simp only [State.complete, State.raiseIrq, State.withNduOf, or_or_comm]

theorem emitFrame_withNduOf (s r : State) : (s.withNduOf r).emitFrame = s.emitFrame.withNduOf r := by
  simp only [State.emitFrame, State.raiseIrq, State.withNduOf, or_or_comm]

theorem setDimensions_withNduOf (s r : State) (w h : Nat) :
    (s.withNduOf r).setDimensions w h = (s.setDimensions w h).withNduOf r := by
  unfold State.setDimensions
  dsimp only
  by_cases hm : BitVec.ofNat 32 (w / 16) = s.v.gridMbs
  · have hm' : BitVec.ofNat 32 (w / 16) = (s.withNduOf r).v.gridMbs := hm
    rw [if_pos hm, if_pos hm']; rfl
  · have hm' : ¬ BitVec.ofNat 32 (w / 16) = (s.withNduOf r).v.gridMbs := hm
    rw [if_neg hm, if_neg hm']; rfl

theorem videoWindow_withNduOf (s r : State) : videoWindow (s.withNduOf r) = videoWindow s := by
  unfold videoWindow
  rw [brAlign_withNduOf]
  rfl

/-- What the VDU's operations have in common. -/
abbrev VduOp (f : State → StepOutcome State) : Prop := Oblivious State.withNduOf f

theorem vduOp_videoEnd (e : Err) : VduOp fun s => videoEnd s e := .update fun s r => complete_withNduOf s r e

theorem vduOp_videoTake {n : Nat} {k : State → StepOutcome State} (hk : VduOp k) : VduOp fun s => videoTake s n k := by
  have h : (fun s => videoTake s n k) =
      fun s => if s.brAt + n ≤ s.brExt then k (s.brMoveTo (s.brAt + n)) else videoEnd s .readPastEnd := by
    funext s
    rcases videoTake_cases s n k with ⟨hlt, e⟩ | ⟨hle, e⟩
    · rw [e, if_neg (by omega)]
    · rw [e, if_pos hle]
  rw [h]
  exact .ite (hk.after fun s r => brMoveTo_withNduOf s r _) (vduOp_videoEnd _) fun _ _ => Iff.rfl

/-! ### The control between elements -/

theorem vduOp_videoAtHeader : VduOp videoAtHeader :=
  .ite (.update fun _ _ => rfl) (vduOp_videoEnd _) fun _ _ => Iff.rfl

theorem vduOp_videoEndSlice : VduOp videoEndSlice :=
  .ite (vduOp_videoEnd _) (vduOp_videoAtHeader.after fun _ _ => rfl) fun _ _ => Iff.rfl

theorem vduOp_videoMacroblock (j : Nat) : VduOp fun s => videoMacroblock s j :=
  .ite (.update fun _ _ => rfl) vduOp_videoEndSlice fun _ _ => Iff.rfl

theorem vduOp_nextMacroblock : VduOp fun s => videoMacroblock s (s.v.ctx.mb + 1) :=
  .branch (F := fun j s => videoMacroblock s j) vduOp_videoMacroblock fun _ _ => rfl

theorem vduOp_videoBlock (k : Nat) : VduOp fun s => videoBlock s k :=
  .ite (.update fun _ _ => rfl) vduOp_nextMacroblock fun _ _ => Iff.rfl

/-- The samples of the block at hand stored in the grid (R228, R293). -/
def State.storeBlock (s : State) : State :=
  let c := s.v.ctx
  let samples := idctStore s.cfg (dequantize s.cfg s.v.quant c.coef)
  { s with v := { s.v with grid := s.v.grid.set c.mb ((s.v.grid.getD c.mb []).set c.blk samples) } }

theorem videoEndBlock_eq (s : State) : videoEndBlock s = videoBlock s.storeBlock (s.v.ctx.blk + 1) := rfl

theorem vduOp_videoEndBlock : VduOp videoEndBlock := by
  rw [funext videoEndBlock_eq]
  exact .branch (F := fun k s => videoBlock s.storeBlock k) (fun k => (vduOp_videoBlock k).after fun _ _ => rfl)
    fun _ _ => rfl

theorem vduOp_videoSlice : VduOp videoSlice := (vduOp_videoMacroblock 0).after fun _ _ => rfl

theorem vduOp_pictureDimensions (f : BitVec 2) (r : BitVec 3) : VduOp fun s => pictureDimensions s f r := by
  unfold pictureDimensions
  cases baseDimensions f with
  | none => exact vduOp_videoEnd _
  | some d =>
    obtain ⟨w, h⟩ := d
    dsimp only
    by_cases hr : r = 0
    · simp only [if_pos hr]; exact vduOp_videoEnd _
    · simp only [if_neg hr]
      exact .ite (vduOp_videoEnd _) (vduOp_videoSlice.after fun s r => setDimensions_withNduOf s r _ _)
        fun _ _ => Iff.rfl

theorem vduOp_takePair {n : Nat} {k : State → StepOutcome State} (hk : VduOp k) : VduOp fun s => takePair n s k :=
  .ite (vduOp_videoEnd _)
    (.branch (F := fun n s => videoTake s n k) (fun _ => vduOp_videoTake hk) fun _ _ => rfl) fun _ _ => Iff.rfl

theorem vduOp_videoStartCode {k : State → StepOutcome State} (hk : VduOp k) : VduOp fun s => videoStartCode s k :=
  (vduOp_videoTake hk).after brAlign_withNduOf

/-! ### The elements -/

/-- What an element of the stream does, up to its operands. -/
inductive ElementOp : (State → StepOutcome State) → Prop where
  | startSlice : ElementOp startSlice
  | endPicture : ElementOp endPicture
  | pictureHeader (f : BitVec 2) (r p : BitVec 3) (q : BitVec 5) (i : BitVec 32) :
    ElementOp (readPictureHeader f r p q i)
  | sliceQuant (q : BitVec 5) : ElementOp (readSliceQuant q)
  | emptyMacroblock : ElementOp emptyMacroblock
  | codedMacroblock : ElementOp codedMacroblock
  | presence (d : BitVec 8) : ElementOp (readPresence d)
  | quantDelta (d : BitVec 2) : ElementOp (readQuantDelta d)
  | dc (d : BitVec 10) : ElementOp (readDc d)
  | run (z t : Nat) : ElementOp (inspectRun z t)
  | overflow : ElementOp windowOverflow
  | level (z m : Nat) (negative : Bool) : ElementOp (storeLevel z m negative)
  | endOfBlock : ElementOp endOfBlock
  | noElement : ElementOp .next

theorem performElement_op (i : Instr) : ElementOp (performElement i) := by
  cases i
  case sc => exact .startSlice
  case eop => exact .endPicture
  case pictureHeader => exact .pictureHeader _ _ _ _ _
  case squant => exact .sliceQuant _
  case mbcEmpty => exact .emptyMacroblock
  case mbcCoded => exact .codedMacroblock
  case mbdes => exact .presence _
  case mbdiff => exact .quantDelta _
  case dc => exact .dc _
  case runOvf => exact .overflow
  case eob => exact .endOfBlock
  case runZ0 | runZ1 | runZ2 | runZ3 | runZ4 | runZ5 | runZ6 | runZ7 | runZ8 | runZ9 | runZ10 | runZ11 | runZ12 | runZ13
      | runZ14 | runZ15 => exact .run _ _
  case levelZ0 | levelZ2 | levelZ3 | levelZ4 | levelZ5 | levelZ6 | levelZ7 | levelZ8 | levelZ9 | levelZ10 | levelZ11
      | levelZ12 | levelZ13 | levelZ14 | levelZ15 => exact .level _ _ _
  all_goals exact .noElement

theorem vduOp_element {f : State → StepOutcome State} (h : ElementOp f) : VduOp f := by
  cases h with
  | startSlice => exact vduOp_videoStartCode (.update fun _ _ => rfl)
  | endPicture =>
    have hemit := (vduOp_videoEnd .none).after emitFrame_withNduOf
    exact vduOp_videoStartCode (hemit.after fun _ _ => rfl)
  | pictureHeader f r p q i =>
    have hdim := (vduOp_pictureDimensions f r).after
      (g := fun s => { s with v := { s.v with frameIndex := i } }) fun _ _ => rfl
    have hquant := (vduOp_videoTake (n := 32) hdim).after
      (g := fun s => { s with v := { s.v with quant := q.zeroExtend 32 } }) fun _ _ => rfl
    have htype := (vduOp_videoTake (n := 5) hquant).after
      (g := fun s => { s with v := { s.v with ptype := p } }) fun _ _ => rfl
    have hres := (vduOp_videoTake (n := 3) htype).after
      (g := fun s => { s with v := { s.v with res := r } }) fun _ _ => rfl
    have hformat := (vduOp_videoTake (n := 3) hres).after
      (g := fun s => { s with v := { s.v with format := f } }) fun _ _ => rfl
    exact vduOp_videoTake hformat
  | sliceQuant q => exact vduOp_videoTake (vduOp_videoSlice.after fun _ _ => rfl)
  | emptyMacroblock => exact vduOp_videoTake vduOp_nextMacroblock
  | codedMacroblock => exact vduOp_videoTake (.update fun _ _ => rfl)
  | presence d =>
    exact vduOp_videoTake (.ite (.update fun _ _ => rfl) ((vduOp_videoBlock 0).after fun _ _ => rfl) fun _ _ => Iff.rfl)
  | quantDelta d => exact vduOp_videoTake ((vduOp_videoBlock 0).after fun _ _ => rfl)
  | dc d =>
    exact vduOp_videoTake (.ite (.update fun _ _ => rfl) (vduOp_videoEndBlock.after fun _ _ => rfl) fun _ _ => Iff.rfl)
  | run z t => exact .update fun _ _ => rfl
  | overflow => exact vduOp_videoEnd _
  | level z m negative =>
    exact vduOp_takePair (.ite (vduOp_videoEnd _) (.update fun _ _ => rfl) fun _ _ => Iff.rfl)
  | endOfBlock => exact vduOp_takePair vduOp_videoEndBlock
  | noElement => exact .skip

theorem vduOp_videoReject (e : Reject) : VduOp (videoReject e) := by
  cases e with
  | badStartCode => exact vduOp_videoStartCode (vduOp_videoEnd _)
  | levelOverflow => exact vduOp_videoEnd _
  | illegalOp => exact vduOp_videoEnd _
  | badCount => exact vduOp_videoEnd _
  | reservedBits => exact vduOp_videoEnd _

theorem vduOp_videoElement : VduOp videoElement := by
  refine .branch (m := videoWindow) (F := fun o s => match o with
    | none => .next s
    | some (c, w) => match decode c w with
      | .ok i => performElement i s
      | .error e => videoReject e s) (fun o => ?_) videoWindow_withNduOf
  cases o with
  | none => exact .skip
  | some p =>
    dsimp only
    cases decode p.1 p.2 with
    | ok i => exact vduOp_element (performElement_op i)
    | error e => exact vduOp_videoReject e

/-! ### The commands -/

theorem videoLoop_succ_eq (n : Nat) (s : State) :
    videoLoop (n + 1) s = if s.v.ctx.phase = .idle then .next s else andThen (videoElement s) (videoLoop n) := by
  rw [videoLoop]
  split
  · rfl
  · cases videoElement s <;> rfl

theorem vduOp_videoLoop (n : Nat) : VduOp (videoLoop n) := by
  induction n with
  | zero => exact .ite .skip (.fault _) fun _ _ => Iff.rfl
  | succ n ih =>
    rw [funext (videoLoop_succ_eq n)]
    exact .ite .skip (vduOp_videoElement.andThen ih) fun _ _ => Iff.rfl

theorem vduOp_videoBegin : VduOp videoBegin := by
  have hindex := vduOp_videoAtHeader.after (g := fun s => { s with v := { s.v with sliceIndex := 0 } }) fun _ _ => rfl
  have hstart := hindex.after brStart_withNduOf
  exact .ite ((vduOp_videoEnd _).after fun _ _ => rfl) (hstart.after fun _ _ => rfl) fun _ _ => Iff.rfl

theorem execVDecode_eq (s : State) :
    execVDecode s = andThen (videoBegin s) fun t => videoLoop (videoBound t.brExt) t := by
  unfold execVDecode
  cases videoBegin s <;> rfl

theorem vduOp_execVDecode : VduOp execVDecode := by
  rw [funext execVDecode_eq]
  exact vduOp_videoBegin.andThen
    (.branch (F := fun e s => videoLoop (videoBound e) s) (fun _ => vduOp_videoLoop _) fun _ _ => rfl)

/-- A command that ends with a word of the stream as its result. -/
theorem vduOp_setResult {m : State → Word} (hm : ∀ s r, m (s.withNduOf r) = m s) :
    VduOp fun s => videoEnd (s.setResult (m s)) .none :=
  .branch (F := fun w s => videoEnd (s.setResult w) .none) (fun _ => (vduOp_videoEnd _).after fun _ _ => rfl) hm

theorem vduOp_command {i : Instr} (hi : VduCommand i) : VduOp (exec i) := by
  cases hi with
  | nop => exact vduOp_videoEnd _
  | decode => exact vduOp_execVDecode
  | init =>
    exact .ite (vduOp_videoEnd _)
      ((vduOp_videoEnd _).after fun s r => by rw [brStart_withNduOf]; rfl) fun _ _ => Iff.rfl
  | read n =>
    exact .branch (m := fun s => s.brValue n.toNat)
      (F := fun v s => videoTake s n.toNat fun t => videoEnd (t.setResult (BitVec.ofNat 32 v)) .none)
      (fun _ => vduOp_videoTake ((vduOp_videoEnd _).after fun _ _ => rfl)) fun _ _ => rfl
  | peek n => exact vduOp_setResult fun _ _ => rfl
  | align => exact (vduOp_videoEnd _).after brAlign_withNduOf
  | hasrem => exact vduOp_setResult fun _ _ => rfl
  | rldec =>
    refine .branch (graft := State.withNduOf) (m := fun s => runLevelOf (s.brPeek 32)) (F := fun o s => match o with
      | none => videoEnd s .vlcOverflow
      | some r => videoTake s r.len fun t => videoEnd (t.setRunLevel r) .none) (fun o => ?_) fun _ _ => rfl
    cases o with
    | none => exact vduOp_videoEnd _
    | some r => exact vduOp_videoTake ((vduOp_videoEnd _).after fun _ _ => rfl)

theorem vduOp_vduAct : VduOp vduAct := by
  refine .ite (.ite ?_ vduOp_videoElement fun _ _ => Iff.rfl) .skip fun _ _ => Iff.rfl
  refine .branch (graft := State.withNduOf) (m := fun s => s.v.pending) (F := fun o s => match o with
    | none => .next s
    | some w => match decode .vCmd w.toNat with
      | .ok i => exec i s
      | .error _ => videoEnd s .badCommand) (fun o => ?_) fun _ _ => rfl
  cases o with
  | none => exact .skip
  | some w =>
    dsimp only
    cases hd : decode .vCmd w.toNat with
    | ok i => exact vduOp_command (vduCommand_of_decode hd)
    | error e => exact vduOp_videoEnd _

/-! ## The NDU does not see the VDU -/

/-- `s` with the VDU's registers and pixels and the host's port of `r`, and with the interrupt bits of `r` set as well. -/
def State.withVduOf (s r : State) : State :=
  { s with v := r.v, pix := r.pix, irqStatus := s.irqStatus ||| r.irqStatus, host := r.host }

/-- What the NDU's operations have in common. -/
abbrev NduOp (f : State → StepOutcome State) : Prop := Oblivious State.withVduOf f

theorem nduOp_navEnd (e : Err) : NduOp fun s => navEnd s e :=
  .update fun s r => by simp only [State.complete, State.raiseIrq, State.withVduOf, or_or_comm]

theorem nduOp_navFinish (pos : Nat) (trunc : Bool) : NduOp fun s => navFinish s pos trunc :=
  (nduOp_navEnd _).after fun _ _ => rfl

theorem nduOp_navAt (pos : Nat) : NduOp fun s => navAt s pos :=
  .ite (.branch (F := fun b s => navFinish s pos b) (nduOp_navFinish pos) fun _ _ => rfl) (.update fun _ _ => rfl)
    fun _ _ => Iff.rfl

theorem nduOp_navNext : NduOp navNext :=
  .branch (F := fun pos s => navAt s pos) nduOp_navAt fun _ _ => rfl

theorem nduOp_readRecordHeader (tag size : BitVec 16) : NduOp (readRecordHeader tag size) :=
  .ite (.branch (F := fun pos s => navFinish s pos true) (fun _ => nduOp_navFinish _ _) fun _ _ => rfl)
    (.update fun _ _ => rfl) fun _ _ => Iff.rfl

theorem nduOp_performForm (i : Instr) : NduOp (performForm i) := by
  cases i
  case navHeader => exact (nduOp_navAt 16).after fun _ _ => rfl
  case navRecordHeader => exact nduOp_readRecordHeader _ _
  case navDemo => exact nduOp_navNext.after fun _ _ => rfl
  case navVision => exact nduOp_navNext.after fun _ _ => rfl
  case navChecksum => exact nduOp_navNext.after fun _ _ => rfl
  case navUnknown => exact nduOp_navNext
  all_goals exact .skip

theorem nduOp_navForm : NduOp navForm := by
  refine .branch (graft := State.withVduOf) (m := navWindow) (F := fun o s => match o with
    | none => .next s
    | some (c, w) => match decode c w with
      | .ok i => performForm i s
      | .error _ => navEnd s .badCommand) (fun o => ?_) fun _ _ => rfl
  cases o with
  | none => exact .skip
  | some p =>
    dsimp only
    cases decode p.1 p.2 with
    | ok i => exact nduOp_performForm i
    | error e => exact nduOp_navEnd _

theorem navLoop_succ_eq (n : Nat) (s : State) :
    navLoop (n + 1) s = if s.n.ctx.phase = .idle then .next s else andThen (navForm s) (navLoop n) := by
  rw [navLoop]
  split
  · rfl
  · cases navForm s <;> rfl

theorem nduOp_navLoop (n : Nat) : NduOp (navLoop n) := by
  induction n with
  | zero => exact .ite .skip (.fault _) fun _ _ => Iff.rfl
  | succ n ih =>
    rw [funext (navLoop_succ_eq n)]
    exact .ite .skip (nduOp_navForm.andThen ih) fun _ _ => Iff.rfl

theorem nduOp_navBegin : NduOp navBegin :=
  .ite ((nduOp_navEnd _).after fun _ _ => rfl)
    (.ite ((nduOp_navEnd _).after fun _ _ => rfl) (.update fun _ _ => rfl) fun _ _ => Iff.rfl) fun _ _ => Iff.rfl

theorem execNDecode_eq (s : State) :
    execNDecode s = andThen (navBegin s) (navLoop (navBound s.n.len.toNat)) := by
  unfold execNDecode
  cases navBegin s <;> rfl

theorem nduOp_execNDecode : NduOp execNDecode := by
  rw [funext execNDecode_eq]
  exact .branch (F := fun l s => andThen (navBegin s) (navLoop (navBound l)))
    (fun _ => nduOp_navBegin.andThen (nduOp_navLoop _)) fun _ _ => rfl

theorem nduOp_command {i : Instr} (hi : NduCommand i) : NduOp (exec i) := by
  cases hi with
  | nop => exact nduOp_navEnd _
  | decode => exact nduOp_execNDecode

theorem nduOp_nduAct : NduOp nduAct := by
  refine .ite (.ite ?_ nduOp_navForm fun _ _ => Iff.rfl) .skip fun _ _ => Iff.rfl
  refine .branch (graft := State.withVduOf) (m := fun s => s.n.pending) (F := fun o s => match o with
    | none => .next s
    | some w => match decode .nCmd w.toNat with
      | .ok i => exec i s
      | .error _ => navEnd s .badCommand) (fun o => ?_) fun _ _ => rfl
  cases o with
  | none => exact .skip
  | some w =>
    dsimp only
    cases hd : decode .nCmd w.toNat with
    | ok i => exact nduOp_command (nduCommand_of_decode hd)
    | error e => exact nduOp_navEnd _

/-! ## Either order -/

/-- Setting interrupt bits that are set already. -/
theorem or_eq_of_kept {a b : BitVec 5} (h : ∀ k, b.getLsbD k = true → a.getLsbD k = true) : a ||| b = a := by
  apply BitVec.eq_of_getLsbD_eq
  intro k _
  rw [BitVec.getLsbD_or, Bool.or_eq_left_iff_imp]
  exact h k

/-- What the VDU has done to `s` is the VDU's part of the state it ended in. -/
theorem VduLocal.eq_withVduOf {s t : State} (h : VduLocal s t) : t = s.withVduOf t := by
  have hirq : s.irqStatus ||| t.irqStatus = t.irqStatus := by rw [BitVec.or_comm, or_eq_of_kept h.irqKept]
  obtain ⟨hcfg, hen, -, -, hn, hvin, hnin, -⟩ := h
  rw [State.withVduOf, hirq, ← hcfg, ← hen, ← hn, ← hvin, ← hnin]

/-- What the NDU has done to `s` is the NDU's part of the state it ended in. -/
theorem NduOnly.eq_withNduOf {s t : State} (h : NduOnly s t) : t = s.withNduOf t := by
  have hirq : s.irqStatus ||| t.irqStatus = t.irqStatus := by rw [BitVec.or_comm, or_eq_of_kept h.irqKept]
  obtain ⟨hcfg, hen, -, -, hv, hvin, hnin, hpix, -, -⟩ := h
  rw [State.withNduOf, hirq, ← hcfg, ← hen, ← hv, ← hvin, ← hnin, ← hpix]

/-- The two units' results put together, by either of them. -/
theorem withNduOf_eq_withVduOf {s t u : State} (ht : VduLocal s t) (hu : NduOnly s u) :
    t.withNduOf u = u.withVduOf t := by
  have hhost : u.host = t.host := hu.host.trans ht.host.symm
  rw [State.withNduOf, State.withVduOf, hu.cfg.trans ht.cfg.symm, hu.irqEnable.trans ht.irqEnable.symm,
    hu.vin.trans ht.vin.symm, hu.nin.trans ht.nin.symm, hhost, BitVec.or_comm]

/-- The two units' moves in either order (R89). -/
theorem vduAct_nduAct_comm (s : State) : andThen (vduAct s) nduAct = andThen (nduAct s) vduAct := by
  have hvn (t : State) (ht : vduAct s = .next t) : nduAct t = mapNext (·.withVduOf t) (nduAct s) := by
    conv_lhs => rw [(vduLocal_vduAct ht).eq_withVduOf]
    exact nduOp_nduAct.graft s t
  have hnv (u : State) (hu : nduAct s = .next u) : vduAct u = mapNext (·.withNduOf u) (vduAct s) := by
    conv_lhs => rw [(nduOnly_nduAct hu).eq_withNduOf]
    exact vduOp_vduAct.graft s u
  cases ht : vduAct s with
  | next t =>
    rw [andThen_next, hvn t ht]
    cases hu : nduAct s with
    | next u =>
      rw [mapNext_next, andThen_next, hnv u hu, ht, mapNext_next,
        withNduOf_eq_withVduOf (vduLocal_vduAct ht) (nduOnly_nduAct hu)]
    | fault e => rfl
    | refused e => rfl
  | fault e =>
    cases hu : nduAct s with
    | next u => rw [andThen_next, hnv u hu, ht]; rfl
    | fault e' => cases e; cases e'; rfl
    | refused r => exact absurd hu (nduOp_nduAct.not_refused s r)
  | refused r => exact absurd ht (vduOp_vduAct.not_refused s r)

/-- The schedule is no part of what the VDU does. -/
theorem vduAct_moved (s : State) : vduAct s.moved = mapNext State.moved (vduAct s) := by
  have hs : s.moved = s.withNduOf s.moved := by
    rw [State.withNduOf]; exact congrArg (fun b => { s.moved with irqStatus := b }) (BitVec.or_self).symm
  rw [hs, vduOp_vduAct.graft]
  cases ht : vduAct s with
  | next t =>
    have hl := vduLocal_vduAct ht
    have hirq : t.irqStatus ||| s.moved.irqStatus = t.irqStatus := or_eq_of_kept hl.irqKept
    rw [mapNext_next, mapNext_next, State.withNduOf, hirq, State.moved, State.moved, hl.ndu, hl.host]
  | fault e => rfl
  | refused e => rfl

/-- The schedule is no part of what the NDU does. -/
theorem nduAct_moved (s : State) : nduAct s.moved = mapNext State.moved (nduAct s) := by
  have hs : s.moved = s.withVduOf s.moved := by
    rw [State.withVduOf]; exact congrArg (fun b => { s.moved with irqStatus := b }) (BitVec.or_self).symm
  rw [hs, nduOp_nduAct.graft]
  cases ht : nduAct s with
  | next t =>
    have hl := nduOnly_nduAct ht
    have hirq : t.irqStatus ||| s.moved.irqStatus = t.irqStatus := or_eq_of_kept hl.irqKept
    rw [mapNext_next, mapNext_next, State.withVduOf, hirq, State.moved, State.moved, hl.vdu, hl.pix, hl.host]
  | fault e => rfl
  | refused e => rfl

/-- A VDU step, then one of the NDU, are their moves with both schedule entries used up. -/
theorem step_vdu_ndu {s : State} {rest : List Agent} (h : s.host.sched = .vdu :: .ndu :: rest) :
    andThen (step s) step = andThen (vduAct s.moved.moved) nduAct := by
  have ha : s.nextAgent = .vdu := by rw [State.nextAgent, h]
  rw [step_eq_vduAct ha, vduAct_moved s.moved]
  cases ht : vduAct s.moved with
  | next t =>
    have hsched : t.host.sched = .ndu :: rest := by rw [(vduLocal_vduAct ht).host, State.moved, h]; rfl
    exact step_eq_nduAct (by rw [State.nextAgent, hsched])
  | fault e => rfl
  | refused e => rfl

/-- An NDU step, then one of the VDU. -/
theorem step_ndu_vdu {s : State} {rest : List Agent} (h : s.host.sched = .ndu :: .vdu :: rest) :
    andThen (step s) step = andThen (nduAct s.moved.moved) vduAct := by
  have ha : s.nextAgent = .ndu := by rw [State.nextAgent, h]
  rw [step_eq_nduAct ha, nduAct_moved s.moved]
  cases ht : nduAct s.moved with
  | next t =>
    have hsched : t.host.sched = .vdu :: rest := by rw [(nduOnly_nduAct ht).host, State.moved, h]; rfl
    exact step_eq_vduAct (by rw [State.nextAgent, hsched])
  | fault e => rfl
  | refused e => rfl

/-- Settles O16: both runs are the two units' moves on the state without the two schedule entries, and the moves
commute. -/
theorem unitsCommute : Obligations.UnitsCommute := by
  intro s rest
  rw [run_two, run_two, step_vdu_ndu rfl, step_ndu_vdu rfl]
  exact vduAct_nduAct_comm _

end Sys2Proof.Machine
end

section
/-!
Which host accesses are refused (spec/20_memory.md R70 to R75, spec/70_reset_and_hazards.md R431, R432), and what a write
to a buffer stores there, for the host that reads it back (R73, R76) and for the unit that consumes it (R77).
-/

namespace Sys2Proof.Machine

/-! ## The accesses the address map allows -/

/-- The offset of a space from `VFD_BASE` (R71). -/
def Space.base : Space → Nat
  | .reg => 0
  | .vin => 0x100000
  | .nin => 0x200000
  | .pix => 0x400000

theorem spaceAt_base {cfg : Config} {addr a : Nat} {sp : Space} (h : spaceAt cfg addr = some (sp, a)) :
    addr = cfg.vfdBase + sp.base + a := by
  unfold spaceAt at h
  dsimp only at h
  split at h
  · cases h
  · split at h
    · cases h; simp only [Space.base]; omega
    · split at h
      · cases h; simp only [Space.base]; omega
      · split at h
        · cases h; simp only [Space.base]; omega
        · split at h
          · cases h; simp only [Space.base]; omega
          · cases h

theorem spaceAt_of_base {cfg : Config} (hv : cfg.valid = true) {a : Nat} {sp : Space} (h : a < sp.bytes cfg) :
    spaceAt cfg (cfg.vfdBase + sp.base + a) = some (sp, a) := by
  cases sp with
  | reg => exact spaceAt_reg h
  | vin => exact spaceAt_vin hv h
  | nin => exact spaceAt_nin hv h
  | pix => exact spaceAt_pix hv h

/-- An access of this width at byte `a` of a space obeys the rules of the space (R72 to R75). -/
structure Fits (cfg : Config) (sp : Space) (a width : Nat) : Prop where
  allowed : sp.allows width = true
  aligned : a % width = 0
  inside : a + width ≤ sp.bytes cfg

theorem Space.allows_pos {sp : Space} {width : Nat} (h : sp.allows width = true) : 0 < width := by
  cases sp <;> simp [Space.allows] at h <;> omega

/-- The accesses the address map resolves are those that fit their space. -/
theorem resolveAccess_eq_ok {cfg : Config} (hv : cfg.valid = true) {addr width a : Nat} {sp : Space} :
    resolveAccess cfg addr width = .ok (sp, a) ↔ addr = cfg.vfdBase + sp.base + a ∧ Fits cfg sp a width := by
  constructor
  · intro h
    unfold resolveAccess at h
    split at h
    · cases h
    · next sp' a' hs =>
      split at h
      · cases h
      · next hw =>
        split at h
        · cases h
        · next hm =>
          split at h
          · cases h
          · next hb =>
            cases h
            exact ⟨spaceAt_base hs, by simpa using hw, by simpa using hm, by omega⟩
  · rintro ⟨rfl, hw, hm, hb⟩
    have := Space.allows_pos hw
    exact resolveAccess_ok (spaceAt_of_base hv (by omega)) hw hm hb

/-- An offset lies in a space as `InSpace` says exactly when the access fits that space. -/
theorem inSpace_iff {cfg : Config} {addr width : Nat} :
    cfg.vfdBase ≤ addr ∧ InSpace cfg (addr - cfg.vfdBase) width ↔
      ∃ sp a, addr = cfg.vfdBase + sp.base + a ∧ Fits cfg sp a width := by
  constructor
  · rintro ⟨hle, ⟨rfl, hm, hb⟩ | ⟨hw, hm, hlo, hb⟩ | ⟨hw, hm, hlo, hb⟩ | ⟨rfl, hm, hlo, hb⟩⟩
    · exact ⟨.reg, addr - cfg.vfdBase, by simp only [Space.base]; omega, rfl, hm, hb⟩
    · refine ⟨.vin, addr - cfg.vfdBase - 0x100000, by simp only [Space.base]; omega, (allows_buffer hw).1, ?_, ?_⟩
      · rcases hw with rfl | rfl | rfl <;> omega
      · simp only [Space.bytes]; omega
    · refine ⟨.nin, addr - cfg.vfdBase - 0x200000, by simp only [Space.base]; omega, (allows_buffer hw).2, ?_, ?_⟩
      · rcases hw with rfl | rfl | rfl <;> omega
      · simp only [Space.bytes]; omega
    · refine ⟨.pix, addr - cfg.vfdBase - 0x400000, by simp only [Space.base]; omega, rfl, ?_, ?_⟩
      · omega
      · simp only [Space.bytes]; omega
  · rintro ⟨sp, a, rfl, hw, hm, hb⟩
    refine ⟨by omega, ?_⟩
    rw [Nat.add_assoc, Nat.add_sub_cancel_left]
    cases sp with
    | reg =>
      simp only [Space.allows, Space.base, Space.bytes, beq_iff_eq] at hw hm hb ⊢
      subst hw
      exact .inl ⟨rfl, by omega, by omega⟩
    | vin =>
      simp only [Space.allows, Space.base, Space.bytes, Bool.or_eq_true, beq_iff_eq, or_assoc] at hw hm hb ⊢
      exact .inr (.inl ⟨hw, by rcases hw with rfl | rfl | rfl <;> omega, by omega, by omega⟩)
    | nin =>
      simp only [Space.allows, Space.base, Space.bytes, Bool.or_eq_true, beq_iff_eq, or_assoc] at hw hm hb ⊢
      exact .inr (.inr (.inl ⟨hw, by rcases hw with rfl | rfl | rfl <;> omega, by omega, by omega⟩))
    | pix =>
      simp only [Space.allows, Space.base, Space.bytes, beq_iff_eq] at hw hm hb ⊢
      subst hw
      exact .inr (.inr (.inr ⟨rfl, by omega, by omega, by omega⟩))

/-- The address map refuses an access, or it lies in a space. -/
theorem resolveAccess_cases {cfg : Config} (hv : cfg.valid = true) (addr width : Nat) :
    (∃ r, resolveAccess cfg addr width = .error r ∧
      ¬ (cfg.vfdBase ≤ addr ∧ InSpace cfg (addr - cfg.vfdBase) width)) ∨
    ∃ sp a, resolveAccess cfg addr width = .ok (sp, a) ∧ addr = cfg.vfdBase + sp.base + a ∧ Fits cfg sp a width := by
  cases h : resolveAccess cfg addr width with
  | error r =>
    refine .inl ⟨r, rfl, fun hin => ?_⟩
    obtain ⟨sp, a, hfit⟩ := inSpace_iff.1 hin
    cases ((resolveAccess_eq_ok hv).2 hfit).symm.trans h
  | ok p => exact .inr ⟨p.1, p.2, rfl, (resolveAccess_eq_ok hv).1 h⟩

/-! ## What a step with a host access does -/

theorem step_read_error {s : State} {addr width : Nat} {rest : List HostAccess} {r : Refusal} (ha : s.nextAgent = .host)
    (hq : s.host.queue = .read addr width :: rest) (hr : resolveAccess s.cfg addr width = .error r) :
    step s = .refused r := by
  have hr' : resolveAccess s.hostMoved.cfg addr width = .error r := hr
  rw [step_host_access ha hq rfl, hostAccess, hr']

theorem step_write_error {s : State} {addr width : Nat} {w : Word} {rest : List HostAccess} {r : Refusal}
    (ha : s.nextAgent = .host) (hq : s.host.queue = .write addr width w :: rest)
    (hr : resolveAccess s.cfg addr width = .error r) : step s = .refused r := by
  have hr' : resolveAccess s.hostMoved.cfg addr width = .error r := hr
  rw [step_host_access ha hq (hostInstr_of_error w hr), hostAccess, hr']

/-- A write that is no operation of R104. -/
theorem step_write {s : State} {addr width a : Nat} {sp : Space} {w : Word} {rest : List HostAccess}
    (ha : s.nextAgent = .host) (hq : s.host.queue = .write addr width w :: rest)
    (hi : hostInstr s.cfg (.write addr width w) = none) (hr : resolveAccess s.cfg addr width = .ok (sp, a)) :
    step s = s.hostMoved.hostWrite sp a width w := by
  have hr' : resolveAccess s.hostMoved.cfg addr width = .ok (sp, a) := hr
  rw [step_host_access ha hq hi, hostAccess, hr']

/-- A write to an allowed place that is refused all the same: to a buffer or a length register of a busy unit (R75, R431,
R432). -/
def Blocked (s : State) : Space → Nat → Prop
  | .reg, a => (a = 0x108 ∧ s.v.status.busy = true) ∨ (a = 0x208 ∧ s.n.status.busy = true)
  | .vin, _ => s.v.status.busy = true
  | .nin, _ => s.n.status.busy = true
  | .pix, _ => False

/-- The step made an access, or refused it because of a busy unit. -/
theorem refused_ite {b : Bool} {r : Refusal} {t : State} :
    (∃ e, (if b = true then Host.Outcome.refused r else .next t : StepOutcome State) = .refused e) ↔ b = true := by
  cases b with
  | false => exact ⟨fun ⟨_, h⟩ => (nomatch h), fun h => (nomatch h)⟩
  | true => exact ⟨fun _ => rfl, fun _ => ⟨r, rfl⟩⟩

theorem not_refused_next {t : State} {p : Prop} (hp : ¬ p) :
    (∃ e, (Host.Outcome.next t : StepOutcome State) = .refused e) ↔ p :=
  ⟨fun ⟨_, h⟩ => (nomatch h), fun h => absurd h hp⟩

/-- Of the writes to a register, only those to a length register of a busy unit are refused. -/
theorem step_writeReg_refused {s : State} {a : Nat} {w : Word} {rest : List HostAccess} (ha : s.nextAgent = .host)
    (hq : s.host.queue = .write (s.cfg.vfdBase + a) 4 w :: rest) (hlt : a < 0x1000) (hm : a % 4 = 0) :
    (∃ r, step s = .refused r) ↔ Blocked s .reg a := by
  have hi := hostInstr_reg (cfg := s.cfg) w hlt hm
  by_cases hop : a ∈ [0x004, 0x008, 0x00C, 0x108, 0x208]
  · simp only [List.mem_cons, List.not_mem_nil, or_false] at hop
    unfold Blocked
    rcases hop with rfl | rfl | rfl | rfl | rfl
    · rw [step_host_instr (i := .irqStatusW1c (BitVec.ofNat 5 w.toNat)) ha hq hi]
      exact not_refused_next (by omega)
    · rw [step_host_instr (i := .irqEnable (BitVec.ofNat 5 w.toNat)) ha hq hi]
      exact not_refused_next (by omega)
    · rw [step_host_instr (i := .softReset (w.toNat.testBit 1) (w.toNat.testBit 0)) ha hq hi]
      exact not_refused_next (by omega)
    · rw [step_host_instr (i := .vLen (BitVec.ofNat 32 w.toNat)) ha hq hi]
      exact refused_ite.trans (by simp [State.hostMoved])
    · rw [step_host_instr (i := .nLen (BitVec.ofNat 32 w.toNat)) ha hq hi]
      exact refused_ite.trans (by simp [State.hostMoved])
  · rw [operation_regAt hop] at hi
    rw [step_write ha hq hi (resolveAccess_reg hlt hm)]
    refine not_refused_next ?_
    unfold Blocked
    simp only [List.mem_cons, List.not_mem_nil, or_false] at hop
    omega

/-- Of the writes to an allowed place, only those that a busy unit forbids are refused. -/
theorem step_write_refused {s : State} {addr width a : Nat} {sp : Space} {w : Word} {rest : List HostAccess}
    (ha : s.nextAgent = .host) (hq : s.host.queue = .write addr width w :: rest)
    (hr : resolveAccess s.cfg addr width = .ok (sp, a)) (haddr : addr = s.cfg.vfdBase + sp.base + a)
    (hfit : Fits s.cfg sp a width) : (∃ r, step s = .refused r) ↔ Blocked s sp a := by
  cases sp with
  | reg =>
    obtain ⟨hw, hm, hb⟩ := hfit
    obtain rfl : width = 4 := by simpa [Space.allows] using hw
    rw [haddr] at hq
    exact step_writeReg_refused ha hq (by simp only [Space.bytes] at hb; omega) hm
  | vin => rw [step_write ha hq (hostInstr_of_space w hr (by decide)) hr]; exact refused_ite
  | nin => rw [step_write ha hq (hostInstr_of_space w hr (by decide)) hr]; exact refused_ite
  | pix => rw [step_write ha hq (hostInstr_of_space w hr (by decide)) hr]; exact not_refused_next id

/-- What a busy unit forbids, by the address as `Allowed` writes it. -/
theorem allowed_write_iff {s : State} (hv : s.cfg.valid = true) {width a : Nat} {sp : Space} (w : Word)
    (hfit : Fits s.cfg sp a width) :
    Allowed s (.write (s.cfg.vfdBase + sp.base + a) width w) ↔ ¬ Blocked s sp a := by
  obtain ⟨-, hvin, hnin, -⟩ := Config.valid_facts hv
  have hin := inSpace_iff.2 ⟨sp, a, rfl, hfit⟩
  have hpos := Space.allows_pos hfit.allowed
  have hb := hfit.inside
  unfold Allowed
  dsimp only
  rw [← and_assoc, and_iff_right hin]
  cases sp <;> simp only [Space.base, Space.bytes, Blocked] at hb ⊢
  all_goals grind

/-- A host step is refused exactly when its access is not allowed. -/
theorem step_host_refused {s : State} (hv : s.cfg.valid = true) {acc : HostAccess} {rest : List HostAccess}
    (ha : s.nextAgent = .host) (hq : s.host.queue = acc :: rest) : (∃ r, step s = .refused r) ↔ ¬ Allowed s acc := by
  cases acc with
  | read addr width =>
    rcases resolveAccess_cases hv addr width with ⟨r, hr, hout⟩ | ⟨sp, a, hr, hfit⟩
    · rw [step_read_error ha hq hr]
      exact iff_of_true ⟨r, rfl⟩ hout
    · obtain ⟨t, ht, -⟩ := step_read ha hq hr
      rw [ht]
      exact not_refused_next (not_not_intro (inSpace_iff.2 ⟨sp, a, hfit⟩))
  | write addr width w =>
    rcases resolveAccess_cases hv addr width with ⟨r, hr, hout⟩ | ⟨sp, a, hr, rfl, hfit⟩
    · rw [step_write_error ha hq hr]
      exact iff_of_true ⟨r, rfl⟩ fun hallowed => hout ⟨hallowed.1, hallowed.2.1⟩
    · rw [step_write_refused ha hq hr rfl hfit, allowed_write_iff hv w hfit, not_not]

/-- Settles O29: `step_host_refused` for the host; the moves of the units are among the operations that never refuse. -/
theorem refusedAccesses : Obligations.RefusedAccesses := by
  intro s hv
  refine ⟨fun acc rest ha hq => step_host_refused hv ha hq, fun hne r => ?_⟩
  cases ha : s.nextAgent with
  | host => exact absurd ha hne
  | vdu => rw [step_eq_vduAct ha]; exact vduOp_vduAct.not_refused _ r
  | ndu => rw [step_eq_nduAct ha]; exact nduOp_nduAct.not_refused _ r

/-! ## What a write stores -/

/-- Byte `k` of a word as a group of its bits (R76). -/
theorem wordByte_eq_extractLsb' (w : Word) (k : Nat) : wordByte w k = w.extractLsb' (8 * k) 8 := by
  apply BitVec.eq_of_toNat_eq
  rw [wordByte, BitVec.toNat_ofNat, BitVec.extractLsb'_toNat, Nat.shiftRight_eq_div_pow]

/-- A byte inside the written word, whatever an unwritten byte reads as. -/
theorem getD_memWrite_inside (m : Memory) (a : Nat) (w : Word) (width : Nat) (d : Byte) {k : Nat} (h : k < width) :
    (cellFind (memWrite m a w width) (a + k)).getD d = wordByte w k := by
  rw [cellFind_memWrite, if_pos (by omega), Nat.add_sub_cancel_left, Option.getD_some]

/-- A byte outside the written word. -/
theorem cellFind_memWrite_outside (m : Memory) (a : Nat) (w : Word) (width : Nat) {b : Nat}
    (h : b < a ∨ a + width ≤ b) : cellFind (memWrite m a w width) b = cellFind m b := by
  rw [cellFind_memWrite, if_neg (by omega)]

/-- The host reads back the bytes it has written (R73). -/
theorem hostReadBytes_memWrite (m : Memory) (any : Word) (a : Nat) (w : Word) {width : Nat} (h : width ≤ 4) :
    (hostReadBytes (memWrite m a w width) any a width).toNat = w.toNat % 2 ^ (8 * width) := by
  have hle : leRead (fun b => hostByte (memWrite m a w width) (wordByte any (b - a)) b) a width =
      w.toNat % 2 ^ (8 * width) := by
    rw [leRead_wordByte w.toNat a width _ 0 fun b hb => ?_]
    · simp
    · rw [Nat.zero_add]; exact getD_memWrite_inside m a w width _ hb
  have hpow : 2 ^ (8 * width) ≤ 2 ^ 32 := Nat.pow_le_pow_right (by decide) (by omega)
  have hlt : w.toNat % 2 ^ (8 * width) < 2 ^ (8 * width) := Nat.mod_lt _ (by positivity)
  rw [hostReadBytes, hle, BitVec.toNat_ofNat, Nat.mod_eq_of_lt (lt_of_lt_of_le hlt hpow)]

/-- A write to `VIN` while the VDU is idle. -/
theorem step_write_vin {s : State} {a width : Nat} {w : Word} {rest : List HostAccess} (ha : s.nextAgent = .host)
    (hv : s.cfg.valid = true) (hw : width = 1 ∨ width = 2 ∨ width = 4) (hm : a % width = 0)
    (hidle : s.v.status.busy = false) (hb : a + width ≤ s.cfg.vinBytes)
    (hq : s.host.queue = .write (s.cfg.vfdBase + 0x100000 + a) width w :: rest) :
    step s = .next { s.hostMoved with vin := memWrite s.vin a w width } := by
  have hr := resolveAccess_vin hv hw hm hb
  have hidle' : ¬ s.hostMoved.v.status.busy = true := ne_true_of_eq_false hidle
  rw [step_write ha hq (hostInstr_of_space w hr (by decide)) hr, State.hostWrite, if_neg hidle']
  rfl

/-- A write to `NIN` while the NDU is idle. -/
theorem step_write_nin {s : State} {a width : Nat} {w : Word} {rest : List HostAccess} (ha : s.nextAgent = .host)
    (hv : s.cfg.valid = true) (hw : width = 1 ∨ width = 2 ∨ width = 4) (hm : a % width = 0)
    (hidle : s.n.status.busy = false) (hb : a + width ≤ s.cfg.ninBytes)
    (hq : s.host.queue = .write (s.cfg.vfdBase + 0x200000 + a) width w :: rest) :
    step s = .next { s.hostMoved with nin := memWrite s.nin a w width } := by
  have hr := resolveAccess_nin hv hw hm hb
  have hidle' : ¬ s.hostMoved.n.status.busy = true := ne_true_of_eq_false hidle
  rw [step_write ha hq (hostInstr_of_space w hr (by decide)) hr, State.hostWrite, if_neg hidle']
  rfl

/-- Settles O28: the step is one `memWrite`, and the laws of `memWrite` say how each byte reads after it. -/
theorem bufferWrites : Obligations.BufferWrites := by
  intro s a width w rest ha hv hw hm
  have hw4 : width ≤ 4 := by omega
  refine ⟨fun hidle hb hq => ⟨_, step_write_vin ha hv hw hm hidle hb hq, rfl, fun k hk => ?_, fun b hout => ?_,
      fun _ => rfl, fun _ => rfl, fun any => hostReadBytes_memWrite s.vin any a w hw4⟩,
    fun hidle hb hq => ⟨_, step_write_nin ha hv hw hm hidle hb hq, rfl, fun k hk => ?_, fun b hout => ?_,
      fun _ => rfl, fun _ => rfl, fun any => hostReadBytes_memWrite s.nin any a w hw4⟩⟩
  · rw [← wordByte_eq_extractLsb']; exact getD_memWrite_inside s.vin a w width _ hk
  · rw [State.vinByte, cellFind_memWrite_outside s.vin a w width hout]; rfl
  · rw [← wordByte_eq_extractLsb']; exact getD_memWrite_inside s.nin a w width _ hk
  · rw [State.ninByte, cellFind_memWrite_outside s.nin a w width hout]; rfl

/-! ## A word of the stream -/

/-- The 32 bits of a chunk, in the order of the stream, are its word (R77). -/
theorem brValue_chunk {s : State} {c : Nat} (h : s.brAt = 32 * c) : s.brValue 32 = s.vinChunk c := by
  have hchunk : BitsAt s.streamBit (32 * c) 32 (s.vinChunk c) := by
    refine ⟨leRead_lt s.vinByte (4 * c) 4, fun j hj => ?_⟩
    have hc : (32 * c + j) / 32 = c := by omega
    have hbit : (32 * c + j) % 32 = j := by omega
    rw [State.streamBit, hc, hbit]
  rw [State.brValue, h]
  exact (bitsAt_bitsFrom s.streamBit (32 * c) 32).unique hchunk

/-- A chunk that has been written as one word is that word (R76, R77). -/
theorem vinChunk_of_memWrite {s : State} {m : Memory} {c : Nat} {w : Word} (h : s.vin = memWrite m (4 * c) w 4) :
    s.vinChunk c = w.toNat := by
  rw [State.vinChunk, leRead_wordByte w.toNat (4 * c) 4 _ 0 fun b hb => ?_]
  · rw [Nat.mul_zero, pow_zero, Nat.div_one]; exact Nat.mod_eq_of_lt w.isLt
  · rw [State.vinByte, h, Nat.zero_add]; exact getD_memWrite_inside m (4 * c) w 4 _ hb

/-- What `BR.READ n` answers inside the extent (R143). -/
theorem execBrRead_result {s t : State} {n : BitVec 6} (h : exec (.brRead n) s = .next t)
    (hle : s.brAt + n.toNat ≤ s.brExt) : t.v.result = BitVec.ofNat 32 (s.brValue n.toNat) := by
  cases (videoTake_inside hle _).symm.trans h
  rfl

/-- Settles O37: the write makes the chunk at the cursor the word, and the read returns the bits of that chunk. -/
theorem wordReadsBack : Obligations.WordReadsBack := by
  intro s t u w rest hs ha hidle hmod hle hq ht hu
  obtain ⟨c, hc⟩ : ∃ c, s.brAt = 32 * c := ⟨s.brAt / 32, by omega⟩
  have haddr : s.brAt / 8 = 4 * c := by omega
  have hfit : 4 * c + 4 ≤ s.cfg.vinBytes := by
    have hext : 32 * c + 32 ≤ 32 * (s.v.brLen.toNat / 4) := hc ▸ hle
    have hlen := hs.len
    omega
  rw [haddr] at hq
  have e : t = { s.hostMoved with vin := memWrite s.vin (4 * c) w 4 } :=
    Host.Outcome.next.inj (ht.symm.trans (step_write_vin ha hs.valid (.inr (.inr rfl)) (by omega) hidle hfit hq))
  have hat : t.brAt = 32 * c := by rw [e]; exact hc
  have hext : t.brAt + 32 ≤ t.brExt := by rw [e]; exact hle
  have hvin : t.vin = memWrite s.vin (4 * c) w 4 := by rw [e]
  calc u.v.result = BitVec.ofNat 32 (t.brValue 32) := execBrRead_result hu hext
    _ = BitVec.ofNat 32 w.toNat := by rw [brValue_chunk hat, vinChunk_of_memWrite hvin]
    _ = w := by rw [BitVec.ofNat_toNat, BitVec.setWidth_eq]

end Sys2Proof.Machine
end

section
/-!
The decoder and the encoder agree (spec/30_encoding.md R100 to R133): the bits at a place are read as an instruction
exactly when they begin with that instruction's code.  The codes of fixed length follow field by field; the run and level
codes (R120, R121) turn on one fact, that the number of leading zeros of a window fixes the range of its first bits.
-/

namespace Sys2Proof.Machine

/-! ## The code at the head of a place -/

/-- Every well-formed instruction's code fits its place, and its value fits its length. -/
theorem encode_fits (i : Instr) : Laws.EncodeFits.Statement i := by
  open Laws.EncodeFits in
  cases i
  exacts [vNop, vDecode, brInit, brRead _, brPeek _, brAlign, brHasrem, brRldec, nNop, nDecode, softReset _ _,
    irqStatusW1c _, irqEnable _, vLen _, nLen _, sc _, eop, pictureHeader _ _ _ _ _, squant _, mbcEmpty, mbcCoded,
    mbdes _, mbdiff _, dc _, runZ0, runZ1, runZ2 _, runZ3 _, runZ4 _, runZ5 _, runZ6 _, runZ7 _, runZ8 _, runZ9 _,
    runZ10 _, runZ11 _, runZ12 _, runZ13 _, runZ14 _, runZ15 _, runOvf, levelZ0 _, eob, levelZ2 _ _, levelZ3 _ _,
    levelZ4 _ _, levelZ5 _ _, levelZ6 _ _, levelZ7 _ _, levelZ8 _ _, levelZ9 _ _, levelZ10 _ _, levelZ11 _ _,
    levelZ12 _ _, levelZ13 _ _, levelZ14 _ _, levelZ15 _ _, navHeader _ _ _ _, navRecordHeader _ _, navDemo,
    navVision, navChecksum, navUnknown _]

/-- The bits `w` of the instruction's own place begin with its code. -/
def HeadedBy (i : Instr) (w : Nat) : Prop :=
  w / 2 ^ (i.ctx.width - (encode i).len) = (encode i).val

theorem headedBy_codeWindow {i : Instr} {rest : Nat} (hr : rest < 2 ^ (i.ctx.width - (encode i).len)) :
    HeadedBy i (codeWindow i rest) := by
  rw [HeadedBy, codeWindow, Nat.add_comm, Nat.add_mul_div_right _ _ (Nat.two_pow_pos _), Nat.div_eq_of_lt hr,
    Nat.zero_add]

theorem HeadedBy.exists_codeWindow {i : Instr} {w : Nat} (h : HeadedBy i w) :
    ∃ rest, rest < 2 ^ (i.ctx.width - (encode i).len) ∧ codeWindow i rest = w :=
  ⟨w % 2 ^ (i.ctx.width - (encode i).len), Nat.mod_lt _ (Nat.two_pow_pos _), by
    rw [codeWindow, ← h, Nat.div_add_mod']⟩

/-- Where the code fills its place, the bits are the code. -/
theorem headedBy_full {i : Instr} {w : Nat} (hlen : (encode i).len = i.ctx.width) :
    HeadedBy i w ↔ w = (encode i).val := by
  rw [HeadedBy, hlen, Nat.sub_self, pow_zero, Nat.div_one]

theorem codeWindow_lt {i : Instr} {rest : Nat} (hwf : i.wellFormed = true)
    (hr : rest < 2 ^ (i.ctx.width - (encode i).len)) : codeWindow i rest < 2 ^ i.ctx.width := by
  obtain ⟨hlen, hval⟩ := encode_fits i hwf
  calc codeWindow i rest < ((encode i).val + 1) * 2 ^ (i.ctx.width - (encode i).len) := by
        rw [codeWindow, Nat.add_mul, Nat.one_mul]; exact Nat.add_lt_add_left hr _
    _ ≤ 2 ^ (encode i).len * 2 ^ (i.ctx.width - (encode i).len) := Nat.mul_le_mul_right _ hval
    _ = 2 ^ i.ctx.width := by rw [← Nat.pow_add, Nat.add_sub_cancel' hlen]

/-- The bits `w` at place `c` are the code of a well-formed instruction of that place, followed by other bits. -/
structure Spells (c : DecCtx) (w : Nat) (i : Instr) : Prop where
  place : i.ctx = c
  wellFormed : i.wellFormed = true
  head : HeadedBy i w

/-- A code that fills its place. -/
theorem spells_full {c : DecCtx} {i : Instr} {w : Nat} (hplace : i.ctx = c) (hwf : i.wellFormed = true)
    (hlen : (encode i).len = c.width) (hw : w = (encode i).val) : Spells c w i :=
  ⟨hplace, hwf, (headedBy_full (hlen.trans (congrArg _ hplace.symm))).2 hw⟩

theorem Spells.eq_code {c : DecCtx} {i : Instr} {w : Nat} (h : Spells c w i) (hlen : (encode i).len = i.ctx.width) :
    w = (encode i).val := (headedBy_full hlen).1 h.head

/-! ## Whole words and single fields -/

/-- A field is read back from its value. -/
theorem ofNat_toNat_eq {n : Nat} (x : BitVec n) : BitVec.ofNat n x.toNat = x := by
  rw [BitVec.ofNat_toNat, BitVec.setWidth_eq]

/-- A field whose value is `x` is read as `x`. -/
theorem ofNat_bitField {w lo n : Nat} {x : BitVec n} (h : bitField w lo n = x.toNat) :
    BitVec.ofNat n (bitField w lo n) = x := by
  rw [h, ofNat_toNat_eq]

theorem toNat_ofNat_bitField (w lo n : Nat) : (BitVec.ofNat n (bitField w lo n)).toNat = w / 2 ^ lo % 2 ^ n := by
  rw [BitVec.toNat_ofNat, bitField, Nat.mod_mod]

/-- A place that holds one field of its own width. -/
theorem spells_field {c : DecCtx} {w n : Nat} {f : BitVec n → Instr} (hplace : ∀ x, (f x).ctx = c)
    (hwf : ∀ x, (f x).wellFormed = true) (hcode : ∀ x, encode (f x) = ⟨n, x.toNat⟩) (hc : c.width = n)
    (hw : w < 2 ^ n) : Spells c w (f (BitVec.ofNat n w)) :=
  spells_full (hplace _) (hwf _) (by rw [hcode, hc]) (by rw [hcode, BitVec.toNat_ofNat, Nat.mod_eq_of_lt hw])

theorem decode_softReset_encode : ∀ n v : Bool,
    decode .softReset (encode (.softReset n v)).val = .ok (.softReset n v) := by
  decide

/-! ## Command words (R100 to R103) -/

/-- The fields of a command word (R100). -/
theorem bitField_commandCode {op n : Nat} (hop : op < 256) (hn : n < 64) :
    bitField (commandCode op n).val 0 8 = op ∧ bitField (commandCode op n).val 8 6 = n ∧
      bitField (commandCode op n).val 14 18 = 0 := by
  simp only [bitField, commandCode]
  omega

/-- The one word with these fields. -/
theorem eq_commandCode_iff {w op n : Nat} (hop : op < 256) (hn : n < 64) :
    w = (commandCode op n).val ↔ w / 2 ^ 14 = 0 ∧ w % 256 = op ∧ w / 256 % 64 = n := by
  simp only [commandCode]
  omega

/-- A word is put together from its fields. -/
theorem eq_commandCode {w op n : Nat} (hw : w < 2 ^ 32) (hrsv : bitField w 14 18 = 0) (hop : bitField w 0 8 = op)
    (hn : bitField w 8 6 = n) : w = (commandCode op n).val := by
  simp only [bitField] at hrsv hop hn
  exact (eq_commandCode_iff (by omega) (by omega)).2 ⟨by omega, by omega, by omega⟩

theorem bitCountOk_iff {n : BitVec 6} : bitCountOk n = true ↔ 1 ≤ n.toNat ∧ n.toNat ≤ 32 := by
  simp [bitCountOk]

theorem decodeVCmd_brRead {n : BitVec 6} (h : bitCountOk n = true) :
    decodeVCmd (commandCode 0x11 n.toNat).val = .ok (.brRead n) := by
  obtain ⟨hop, hn, hrsv⟩ := bitField_commandCode (op := 0x11) (by decide) n.isLt
  simp [decodeVCmd, hop, hn, hrsv, bitCountOk_iff.1 h]

theorem decodeVCmd_brPeek {n : BitVec 6} (h : bitCountOk n = true) :
    decodeVCmd (commandCode 0x12 n.toNat).val = .ok (.brPeek n) := by
  obtain ⟨hop, hn, hrsv⟩ := bitField_commandCode (op := 0x12) (by decide) n.isLt
  simp [decodeVCmd, hop, hn, hrsv, bitCountOk_iff.1 h]

/-- A command without a count. -/
theorem spells_plainCommand {c : DecCtx} {w op : Nat} {i j : Instr} (hplace : j.ctx = c) (hwf : j.wellFormed = true)
    (hcode : encode j = commandCode op 0) (hc : c.width = 32) (hw : w < 2 ^ 32) (hrsv : bitField w 14 18 = 0)
    (hop : bitField w 0 8 = op) (h : (if bitField w 8 6 = 0 then .ok j else .error Reject.badCount) = Except.ok i) :
    Spells c w i := by
  split at h <;> cases h
  next hn => exact spells_full hplace hwf (by rw [hcode, hc, commandCode]) (hcode ▸ eq_commandCode hw hrsv hop hn)

/-- A command with the count of its word. -/
theorem spells_countedCommand {c : DecCtx} {w op : Nat} {i : Instr} {f : BitVec 6 → Instr} (hplace : ∀ n, (f n).ctx = c)
    (hwf : ∀ n, (f n).wellFormed = bitCountOk n) (hcode : ∀ n, encode (f n) = commandCode op n.toNat)
    (hc : c.width = 32) (hw : w < 2 ^ 32) (hrsv : bitField w 14 18 = 0) (hop : bitField w 0 8 = op)
    (h : (if 1 ≤ bitField w 8 6 ∧ bitField w 8 6 ≤ 32 then .ok (f (BitVec.ofNat 6 (bitField w 8 6)))
      else .error Reject.badCount) = Except.ok i) : Spells c w i := by
  split at h <;> cases h
  next hr =>
    have hn : (BitVec.ofNat 6 (bitField w 8 6)).toNat = bitField w 8 6 := by
      rw [toNat_ofNat_bitField, bitField]
    refine spells_full (hplace _) ?_ (by rw [hcode, hc, commandCode]) (hcode _ ▸ eq_commandCode hw hrsv hop hn.symm)
    rwa [hwf, bitCountOk_iff, hn]

theorem spells_of_decodeVCmd {w : Nat} {i : Instr} (hw : w < 2 ^ 32) (h : decodeVCmd w = .ok i) :
    Spells .vCmd w i := by
  unfold decodeVCmd at h
  dsimp only at h
  split at h
  · cases h
  next hrsv =>
  rw [not_not] at hrsv
  split at h
  next hop => exact spells_plainCommand rfl rfl rfl rfl hw hrsv hop h
  next hop => exact spells_plainCommand rfl rfl rfl rfl hw hrsv hop h
  next hop => exact spells_plainCommand rfl rfl rfl rfl hw hrsv hop h
  next hop => exact spells_countedCommand (fun _ => rfl) (fun _ => rfl) (fun _ => rfl) rfl hw hrsv hop h
  next hop => exact spells_countedCommand (fun _ => rfl) (fun _ => rfl) (fun _ => rfl) rfl hw hrsv hop h
  next hop => exact spells_plainCommand rfl rfl rfl rfl hw hrsv hop h
  next hop => exact spells_plainCommand rfl rfl rfl rfl hw hrsv hop h
  next hop => exact spells_plainCommand rfl rfl rfl rfl hw hrsv hop h
  next => cases h

theorem spells_of_decodeNCmd {w : Nat} {i : Instr} (hw : w < 2 ^ 32) (h : decodeNCmd w = .ok i) :
    Spells .nCmd w i := by
  unfold decodeNCmd at h
  dsimp only at h
  split at h
  · cases h
  next hrsv =>
  rw [not_not] at hrsv
  split at h
  next hop => exact spells_plainCommand rfl rfl rfl rfl hw hrsv hop h
  next hop => exact spells_plainCommand rfl rfl rfl rfl hw hrsv hop h
  next => cases h

/-! ## Headers and records (R111 to R114, R128 to R133) -/

theorem sliceNumberOk_iff {s : BitVec 5} : sliceNumberOk s = true ↔ s.toNat ≠ 0x1F := by
  rw [sliceNumberOk, bne_iff_ne, ne_eq, ← BitVec.toNat_inj]
  rfl

theorem decodeStartCode_sc {s : BitVec 5} (h : sliceNumberOk s = true) :
    decodeStartCode (encode (.sc s)).val = .ok (.sc s) := by
  have hs := s.isLt
  have hpre : bitField (2 ^ 5 + s.toNat) 5 17 = 1 := by rw [bitField]; omega
  have hnum : bitField (2 ^ 5 + s.toNat) 0 5 = s.toNat := by rw [bitField]; omega
  rw [encode, decodeStartCode, hpre, hnum, if_neg (by decide), if_neg (sliceNumberOk_iff.1 h), ofNat_toNat_eq]

theorem spells_of_decodeStartCode {w : Nat} {i : Instr} (hw : w < 2 ^ 22) (h : decodeStartCode w = .ok i) :
    Spells .startCode w i := by
  unfold decodeStartCode at h
  split at h
  · cases h
  next hpre =>
  rw [not_not, bitField] at hpre
  split at h <;> cases h
  next heop =>
    rw [bitField] at heop
    exact spells_full rfl rfl rfl (show w = 2 ^ 5 + 0x1F by omega)
  next hnum =>
    have hs : (BitVec.ofNat 5 (bitField w 0 5)).toNat = w % 2 ^ 5 := by
      rw [toNat_ofNat_bitField, pow_zero, Nat.div_one]
    refine spells_full rfl (sliceNumberOk_iff.2 ?_) rfl ?_
    · rw [hs]; rw [bitField] at hnum; omega
    · rw [encode, hs]; change w = 2 ^ 5 + w % 2 ^ 5; omega

theorem decodePictureHeader_encode (f : BitVec 2) (r t : BitVec 3) (q : BitVec 5) (i : BitVec 32) :
    decodePictureHeader (encode (.pictureHeader f r t q i)).val = .pictureHeader f r t q i := by
  have hf := f.isLt
  have hr := r.isLt
  have ht := t.isLt
  have hq := q.isLt
  have hi := i.isLt
  unfold decodePictureHeader
  congr 1
  all_goals
    apply ofNat_bitField
    simp only [bitField, encode]
    omega

theorem spells_decodePictureHeader {w : Nat} (hw : w < 2 ^ 45) : Spells .pictureHeader w (decodePictureHeader w) := by
  refine spells_full rfl rfl rfl ?_
  simp only [decodePictureHeader, encode, toNat_ofNat_bitField]
  omega

theorem decodeNavHeader_encode (a b c d : BitVec 32) :
    decodeNavHeader (encode (.navHeader a b c d)).val = .navHeader a b c d := by
  have ha := a.isLt
  have hb := b.isLt
  have hc := c.isLt
  have hd := d.isLt
  unfold decodeNavHeader
  congr 1
  all_goals
    apply ofNat_bitField
    simp only [bitField, encode]
    omega

theorem spells_decodeNavHeader {w : Nat} (hw : w < 2 ^ 128) : Spells .navHeader w (decodeNavHeader w) := by
  refine spells_full rfl rfl rfl ?_
  simp only [decodeNavHeader, encode, toNat_ofNat_bitField]
  omega

theorem decode_navRecordHeader_encode (tag size : BitVec 16) :
    decode .navRecordHeader (encode (.navRecordHeader tag size)).val = .ok (.navRecordHeader tag size) := by
  have ht := tag.isLt
  have htag : BitVec.ofNat 16 (tag.toNat + size.toNat * 2 ^ 16) = tag := by
    apply BitVec.eq_of_toNat_eq
    rw [BitVec.toNat_ofNat, Nat.add_mul_mod_self_right, Nat.mod_eq_of_lt ht]
  have hsize : (tag.toNat + size.toNat * 2 ^ 16) / 2 ^ 16 = size.toNat := by omega
  simp only [decode, encode, htag, hsize, ofNat_toNat_eq]

theorem spells_navRecordHeader {w : Nat} (hw : w < 2 ^ 32) :
    Spells .navRecordHeader w (.navRecordHeader (BitVec.ofNat 16 w) (BitVec.ofNat 16 (w / 2 ^ 16))) := by
  refine spells_full rfl rfl rfl ?_
  simp only [encode, BitVec.toNat_ofNat]
  omega

/-- A record of 4 bytes, shorter than every layout, is skipped whatever its tag (R178). -/
theorem decodeNavRecord_short (tag : BitVec 16) : decodeNavRecord 4#16 tag.toNat = .navUnknown tag := by
  have htag : bitField tag.toNat 0 16 = tag.toNat := by
    rw [bitField, pow_zero, Nat.div_one, Nat.mod_eq_of_lt tag.isLt]
  simp [decodeNavRecord, htag]

/-! ## Leading zeros and the first bits of a window (R11) -/

/-- A window has `z` leading zeros exactly when its first `z + n + 1` bits have the value of a one and `n` bits after it. -/
theorem clz32_eq_iff_head {w z n : Nat} (hw : w < 2 ^ 32) (hn : z + n + 1 ≤ 32) :
    clz32 w = z ↔ 2 ^ n ≤ w / 2 ^ (32 - (z + n + 1)) ∧ w / 2 ^ (32 - (z + n + 1)) < 2 * 2 ^ n := by
  rw [Nat.le_div_iff_mul_le (Nat.two_pow_pos _), Nat.div_lt_iff_lt_mul (Nat.two_pow_pos _), ← Nat.pow_add,
    ← pow_succ', ← Nat.pow_add, show n + (32 - (z + n + 1)) = 31 - z by omega,
    show n + 1 + (32 - (z + n + 1)) = 32 - z by omega]
  constructor
  · rintro rfl
    have h0 : w ≠ 0 := by rintro rfl; rw [clz32_zero] at hn; omega
    exact (clz32_bounds h0 hw).2
  · exact fun ⟨h1, h2⟩ => clz32_of_range (by omega) h1 h2

/-- A window has 16 or more leading zeros exactly when its first 16 bits are 0. -/
theorem le_clz32_iff_head {w : Nat} (hw : w < 2 ^ 32) : 16 ≤ clz32 w ↔ w / 2 ^ 16 = 0 := by
  constructor
  · intro h
    by_cases h0 : w = 0
    · rw [h0, Nat.zero_div]
    · have hlt : w < 2 ^ 16 := lt_of_lt_of_le (clz32_bounds h0 hw).2.2 (Nat.pow_le_pow_right (by decide) (by omega))
      exact Nat.div_eq_of_lt hlt
  · exact fun h => le_clz32 (by decide) (by omega)

/-- The bits after the leading one of a number. -/
theorem eq_add_mod_of_range {h p : Nat} (h1 : p ≤ h) (h2 : h < 2 * p) : h = p + h % p := by
  rw [Nat.mod_eq_sub_mod h1, Nat.mod_eq_of_lt (by omega)]
  omega

/-! ## Run codes (R120, R124) -/

/-- The run code with `z` zeros whose further bits are the low bits of `t`. -/
def runInstr (z t : Nat) : Instr :=
  match z with
  | 0 => .runZ0
  | 1 => .runZ1
  | 2 => .runZ2 (BitVec.ofNat 1 t)
  | 3 => .runZ3 (BitVec.ofNat 2 t)
  | 4 => .runZ4 (BitVec.ofNat 3 t)
  | 5 => .runZ5 (BitVec.ofNat 4 t)
  | 6 => .runZ6 (BitVec.ofNat 5 t)
  | 7 => .runZ7 (BitVec.ofNat 6 t)
  | 8 => .runZ8 (BitVec.ofNat 7 t)
  | 9 => .runZ9 (BitVec.ofNat 8 t)
  | 10 => .runZ10 (BitVec.ofNat 9 t)
  | 11 => .runZ11 (BitVec.ofNat 10 t)
  | 12 => .runZ12 (BitVec.ofNat 11 t)
  | 13 => .runZ13 (BitVec.ofNat 12 t)
  | 14 => .runZ14 (BitVec.ofNat 13 t)
  | 15 => .runZ15 (BitVec.ofNat 14 t)
  | _ => .runOvf

theorem decodeRun_eq_runInstr {w : Nat} (hz : clz32 w ≤ 15) :
    decodeRun w = runInstr (clz32 w) (w / 2 ^ (32 - specRunBits (clz32 w))) := by
  unfold decodeRun
  generalize clz32 w = z at hz
  interval_cases z <;> rfl

theorem decodeRun_overflow {w : Nat} (hz : 16 ≤ clz32 w) : decodeRun w = .runOvf := by
  unfold decodeRun
  obtain ⟨k, hk⟩ := Nat.exists_eq_add_of_le' hz
  rw [hk]
  rfl

theorem runOperands_runInstr {z : Nat} (t : Nat) (hz : z ≤ 15) :
    runOperands (runInstr z t) = some (z, t % 2 ^ (z - 1)) := by
  interval_cases z <;> simp [runInstr, runOperands, Nat.mod_one]

theorem runInstr_of_runOperands {i : Instr} {z t : Nat} (h : runOperands i = some (z, t)) : runInstr z t = i := by
  cases i <;> cases h
  all_goals simp [runInstr]

theorem runInstr_mod {z : Nat} (t : Nat) (hz : z ≤ 15) : runInstr z (t % 2 ^ (z - 1)) = runInstr z t :=
  runInstr_of_runOperands (runOperands_runInstr t hz)

theorem ctx_of_runOperands {i : Instr} {z t : Nat} (h : runOperands i = some (z, t)) : i.ctx = .run := by
  cases i <;> cases h <;> rfl

theorem wellFormed_of_runOperands {i : Instr} {z t : Nat} (h : runOperands i = some (z, t)) :
    i.wellFormed = true := by
  cases i <;> cases h <;> rfl

/-- A run code is `z` zeros, a one and `z - 1` bits, for every `z`. -/
theorem specRunBits_eq (z : Nat) : specRunBits z = z + (z - 1) + 1 := by
  match z with
  | 0 | 1 => rfl
  | k + 2 => simp only [specRunBits]; omega

/-- The bits that a run code heads. -/
theorem headedBy_runCode {i : Instr} {z t : Nat} (h : runOperands i = some (z, t)) (w : Nat) :
    HeadedBy i w ↔ w / 2 ^ (32 - specRunBits z) = 2 ^ (z - 1) + t := by
  obtain ⟨-, -, ht, hlen, hval, -⟩ := runOperands_cases h
  have hval' : (encode i).val = 2 ^ (z - 1) + t := by
    rw [hval]
    split
    · next hz => rw [ht hz, show z - 1 = 0 by omega]; rfl
    · rfl
  rw [HeadedBy, ctx_of_runOperands h, hlen, hval', DecCtx.width]

theorem decodeRun_of_headedBy {i : Instr} {z t w : Nat} (h : runOperands i = some (z, t)) (hw : w < 2 ^ 32)
    (hh : HeadedBy i w) : decodeRun w = i := by
  obtain ⟨hz, ht, ht0, -⟩ := runOperands_cases h
  rw [headedBy_runCode h] at hh
  have hlt : t < 2 ^ (z - 1) := by
    by_cases h2 : 2 ≤ z
    · exact ht h2
    · rw [ht0 (by omega)]; exact Nat.two_pow_pos _
  have hc : clz32 w = z := by
    rw [clz32_eq_iff_head hw (n := z - 1) (by omega), ← specRunBits_eq, hh]
    omega
  calc decodeRun w = runInstr z (2 ^ (z - 1) + t) := by
        rw [decodeRun_eq_runInstr (by omega), hc, hh]
    _ = runInstr z t := by rw [← runInstr_mod _ hz, Nat.add_mod_left, runInstr_mod _ hz]
    _ = i := runInstr_of_runOperands h

theorem spells_decodeRun {w : Nat} (hw : w < 2 ^ 32) : Spells .run w (decodeRun w) := by
  by_cases hz : clz32 w ≤ 15
  · rw [decodeRun_eq_runInstr hz]
    have hop := runOperands_runInstr (w / 2 ^ (32 - specRunBits (clz32 w))) hz
    refine ⟨ctx_of_runOperands hop, wellFormed_of_runOperands hop, (headedBy_runCode hop w).2 ?_⟩
    obtain ⟨hge, hlt⟩ := (clz32_eq_iff_head hw (n := clz32 w - 1) (by omega)).1 rfl
    rw [← specRunBits_eq] at hge hlt
    exact eq_add_mod_of_range hge hlt
  · rw [decodeRun_overflow (by omega)]
    exact ⟨rfl, rfl, (le_clz32_iff_head hw).1 (by omega)⟩

theorem decodeRun_runOvf {w : Nat} (hw : w < 2 ^ 32) (h : HeadedBy .runOvf w) : decodeRun w = .runOvf :=
  decodeRun_overflow ((le_clz32_iff_head hw).2 h)

/-- At the place of a run code the decoder reads the 32 bits of the window. -/
theorem decode_run {w : Nat} (hw : w < 2 ^ 32) : decode .run w = .ok (decodeRun w) := by
  rw [decode, Nat.mod_eq_of_lt hw]

theorem decode_runCode {i : Instr} {z t rest : Nat} (h : runOperands i = some (z, t))
    (hr : rest < 2 ^ (i.ctx.width - (encode i).len)) : decode i.ctx (codeWindow i rest) = .ok i := by
  have hctx := ctx_of_runOperands h
  have hw : codeWindow i rest < 2 ^ 32 := by
    have := codeWindow_lt (wellFormed_of_runOperands h) hr
    rwa [hctx] at this
  rw [hctx, decode_run hw, decodeRun_of_headedBy h hw (headedBy_codeWindow hr)]

/-! ## Level codes (R121, R122) -/

/-- The level code with `z` zeros whose magnitude bits are the low bits of `m`; one zero is the end of block. -/
def levelInstr (z m : Nat) (s : Bool) : Instr :=
  match z with
  | 0 => .levelZ0 s
  | 2 => .levelZ2 (BitVec.ofNat 1 m) s
  | 3 => .levelZ3 (BitVec.ofNat 2 m) s
  | 4 => .levelZ4 (BitVec.ofNat 3 m) s
  | 5 => .levelZ5 (BitVec.ofNat 4 m) s
  | 6 => .levelZ6 (BitVec.ofNat 5 m) s
  | 7 => .levelZ7 (BitVec.ofNat 6 m) s
  | 8 => .levelZ8 (BitVec.ofNat 7 m) s
  | 9 => .levelZ9 (BitVec.ofNat 8 m) s
  | 10 => .levelZ10 (BitVec.ofNat 9 m) s
  | 11 => .levelZ11 (BitVec.ofNat 10 m) s
  | 12 => .levelZ12 (BitVec.ofNat 11 m) s
  | 13 => .levelZ13 (BitVec.ofNat 12 m) s
  | 14 => .levelZ14 (BitVec.ofNat 13 m) s
  | 15 => .levelZ15 (BitVec.ofNat 14 m) s
  | _ => .eob

theorem decodeLevel_eq_levelInstr {w : Nat} (hz : clz32 w ≤ 15) :
    decodeLevel w = .ok (levelInstr (clz32 w) (w / 2 ^ (32 - 2 * clz32 w)) (w.testBit (32 - specLevelBits (clz32 w)))) := by
  unfold decodeLevel
  generalize clz32 w = z at hz
  interval_cases z <;> rfl

theorem decodeLevel_overflow {w : Nat} (hz : 16 ≤ clz32 w) : decodeLevel w = .error .levelOverflow := by
  unfold decodeLevel
  obtain ⟨k, hk⟩ := Nat.exists_eq_add_of_le' hz
  rw [hk]
  rfl

theorem levelOperands_levelInstr {z : Nat} (m : Nat) (s : Bool) (hz : z ≤ 15) (h1 : z ≠ 1) :
    levelOperands (levelInstr z m s) = some (z, m % 2 ^ (z - 1), s) := by
  interval_cases z
  · simp [levelInstr, levelOperands, Nat.mod_one]
  · exact absurd rfl h1
  all_goals simp [levelInstr, levelOperands]

theorem levelInstr_of_levelOperands {i : Instr} {z m : Nat} {s : Bool} (h : levelOperands i = some (z, m, s)) :
    levelInstr z m s = i := by
  cases i <;> cases h
  all_goals simp [levelInstr]

theorem levelInstr_mod {z : Nat} (m : Nat) (s : Bool) (hz : z ≤ 15) (h1 : z ≠ 1) :
    levelInstr z (m % 2 ^ (z - 1)) s = levelInstr z m s :=
  levelInstr_of_levelOperands (levelOperands_levelInstr m s hz h1)

theorem ctx_of_levelOperands {i : Instr} {z m : Nat} {s : Bool} (h : levelOperands i = some (z, m, s)) :
    i.ctx = .level := by
  cases i <;> cases h <;> rfl

theorem wellFormed_of_levelOperands {i : Instr} {z m : Nat} {s : Bool} (h : levelOperands i = some (z, m, s)) :
    i.wellFormed = true := by
  cases i <;> cases h <;> rfl

/-- A level code is `z` zeros, a one, `z - 1` bits and the sign, for every `z` but that of the end of block. -/
theorem specLevelBits_eq {z : Nat} (h1 : z ≠ 1) : specLevelBits z = z + (z - 1 + 1) + 1 := by
  match z with
  | 0 => rfl
  | 1 => exact absurd rfl h1
  | k + 2 => simp only [specLevelBits]; omega

/-- The bits that a level code heads. -/
theorem headedBy_levelCode {i : Instr} {z m : Nat} {s : Bool} (h : levelOperands i = some (z, m, s)) (w : Nat) :
    HeadedBy i w ↔ w / 2 ^ (32 - specLevelBits z) = (2 ^ (z - 1) + m) * 2 + s.toNat := by
  obtain ⟨-, -, -, hm, hlen, hval, -⟩ := levelOperands_cases h
  have hval' : (encode i).val = (2 ^ (z - 1) + m) * 2 + s.toNat := by
    rw [hval]
    split
    · next hz => rw [hm hz, hz]; omega
    · rfl
  rw [HeadedBy, ctx_of_levelOperands h, hlen, hval', DecCtx.width]

/-- The magnitude bits stand before the sign, the last bit of the code. -/
theorem div_head_div_two {w z : Nat} (hz : z ≤ 15) (h1 : z ≠ 1) :
    w / 2 ^ (32 - specLevelBits z) / 2 % 2 ^ (z - 1) = w / 2 ^ (32 - 2 * z) % 2 ^ (z - 1) := by
  rcases z with _ | z
  · simp [Nat.mod_one]
  · rw [Nat.div_div_eq_div_mul, ← pow_succ, specLevelBits_eq h1,
      show 32 - (z + 1 + (z + 1 - 1 + 1) + 1) + 1 = 32 - 2 * (z + 1) by omega]

theorem decodeLevel_of_headedBy {i : Instr} {z m w : Nat} {s : Bool} (h : levelOperands i = some (z, m, s))
    (hw : w < 2 ^ 32) (hh : HeadedBy i w) : decodeLevel w = .ok i := by
  obtain ⟨hz, h1, hm, hm0, -⟩ := levelOperands_cases h
  rw [headedBy_levelCode h] at hh
  have hs : s.toNat ≤ 1 := Bool.toNat_le s
  have hlt : m < 2 ^ (z - 1) := by
    by_cases h2 : 2 ≤ z
    · exact hm h2
    · rw [hm0 (by omega)]; exact Nat.two_pow_pos _
  have hc : clz32 w = z := by
    rw [clz32_eq_iff_head hw (n := z - 1 + 1) (by omega), ← specLevelBits_eq h1, hh, pow_succ]
    omega
  have hmag : w / 2 ^ (32 - 2 * z) % 2 ^ (z - 1) = m := by
    rw [← div_head_div_two hz h1, hh, show ((2 ^ (z - 1) + m) * 2 + s.toNat) / 2 = 2 ^ (z - 1) + m by omega,
      Nat.add_mod_left, Nat.mod_eq_of_lt hlt]
  have hsign : w.testBit (32 - specLevelBits z) = s := by
    rw [Nat.testBit_eq_decide_div_mod_eq, hh]
    cases s <;> simp [Nat.add_mod]
  rw [decodeLevel_eq_levelInstr (by omega), hc, hsign, ← levelInstr_mod _ _ hz h1, hmag,
    levelInstr_of_levelOperands h]

theorem spells_of_decodeLevel {w : Nat} {i : Instr} (hw : w < 2 ^ 32) (h : decodeLevel w = .ok i) :
    Spells .level w i := by
  have hz : clz32 w ≤ 15 := by
    by_contra hz
    rw [decodeLevel_overflow (by omega)] at h
    cases h
  rw [decodeLevel_eq_levelInstr hz] at h
  cases h
  by_cases h1 : clz32 w = 1
  · rw [h1]
    obtain ⟨hge, hlt⟩ := (clz32_eq_iff_head hw (n := 0) (by decide)).1 h1
    exact ⟨rfl, rfl, show w / 2 ^ 30 = 1 by omega⟩
  · have hop := levelOperands_levelInstr (w / 2 ^ (32 - 2 * clz32 w)) (w.testBit (32 - specLevelBits (clz32 w))) hz h1
    refine ⟨ctx_of_levelOperands hop, wellFormed_of_levelOperands hop, (headedBy_levelCode hop w).2 ?_⟩
    obtain ⟨hge, hlt⟩ := (clz32_eq_iff_head hw (n := clz32 w - 1 + 1) (by omega)).1 rfl
    rw [← specLevelBits_eq h1, pow_succ] at hge hlt
    rw [← div_head_div_two hz h1, Nat.toNat_testBit,
      ← eq_add_mod_of_range (h := w / 2 ^ (32 - specLevelBits (clz32 w)) / 2) (by omega) (by omega)]
    omega

theorem decodeLevel_eob {w : Nat} (hw : w < 2 ^ 32) (h : HeadedBy .eob w) : decodeLevel w = .ok .eob := by
  have hhead : w / 2 ^ 30 = 1 := h
  have hc : clz32 w = 1 := (clz32_eq_iff_head hw (n := 0) (by decide)).2 ⟨by omega, by omega⟩
  rw [decodeLevel_eq_levelInstr (by omega), hc]
  rfl

theorem decode_level {w : Nat} (hw : w < 2 ^ 32) : decode .level w = decodeLevel w := by
  rw [decode, Nat.mod_eq_of_lt hw]

theorem decode_levelCode {i : Instr} {z m rest : Nat} {s : Bool} (h : levelOperands i = some (z, m, s))
    (hr : rest < 2 ^ (i.ctx.width - (encode i).len)) : decode i.ctx (codeWindow i rest) = .ok i := by
  have hctx := ctx_of_levelOperands h
  have hw : codeWindow i rest < 2 ^ 32 := by
    have := codeWindow_lt (wellFormed_of_levelOperands h) hr
    rwa [hctx] at this
  rw [hctx, decode_level hw, decodeLevel_of_headedBy h hw (headedBy_codeWindow hr)]

/-! ## Decoding what has been encoded -/

/-- Where an instruction's code fills its place. -/
theorem codeWindow_full {i : Instr} {rest : Nat} (hlen : (encode i).len = i.ctx.width)
    (hr : rest < 2 ^ (i.ctx.width - (encode i).len)) : codeWindow i rest = (encode i).val :=
  (headedBy_full hlen).1 (headedBy_codeWindow hr)

/-- An instruction whose code fills its place is read back from its code. -/
theorem decode_fullCode {i : Instr} {rest : Nat} (hlen : (encode i).len = i.ctx.width)
    (hr : rest < 2 ^ (i.ctx.width - (encode i).len)) (h : decode i.ctx (encode i).val = .ok i) :
    decode i.ctx (codeWindow i rest) = .ok i := by
  rw [codeWindow_full hlen hr, h]

/-- Settles O1: the run and level codes by the leading zeros of their window, every other code by its fields. -/
theorem decodeEncode : Obligations.DecodeEncode := by
  intro i rest hwf hr
  cases i with
  | runZ0 | runZ1 | runZ2 | runZ3 | runZ4 | runZ5 | runZ6 | runZ7 | runZ8 | runZ9 | runZ10 | runZ11 | runZ12 | runZ13
  | runZ14 | runZ15 => exact decode_runCode rfl hr
  | runOvf =>
    have hw := codeWindow_lt hwf hr
    exact (decode_run hw).trans (congrArg _ (decodeRun_runOvf hw (headedBy_codeWindow hr)))
  | levelZ0 | levelZ2 | levelZ3 | levelZ4 | levelZ5 | levelZ6 | levelZ7 | levelZ8 | levelZ9 | levelZ10 | levelZ11
  | levelZ12 | levelZ13 | levelZ14 | levelZ15 => exact decode_levelCode rfl hr
  | eob =>
    have hw := codeWindow_lt hwf hr
    exact (decode_level hw).trans (decodeLevel_eob hw (headedBy_codeWindow hr))
  | vNop | vDecode | brInit | brAlign | brHasrem | brRldec | nNop | nDecode | eop | mbcEmpty | mbcCoded | navDemo
  | navVision | navChecksum => exact decode_fullCode rfl hr (by decide)
  | brRead n => exact decode_fullCode rfl hr (decodeVCmd_brRead hwf)
  | brPeek n => exact decode_fullCode rfl hr (decodeVCmd_brPeek hwf)
  | softReset n v => exact decode_fullCode rfl hr (decode_softReset_encode n v)
  | irqStatusW1c x | irqEnable x | vLen x | nLen x | squant x | mbdes x | mbdiff x | dc x =>
    exact decode_fullCode rfl hr (by simp only [decode, encode, Instr.ctx, ofNat_toNat_eq])
  | sc s => exact decode_fullCode rfl hr (decodeStartCode_sc hwf)
  | pictureHeader f r t q i =>
    exact decode_fullCode rfl hr (congrArg Except.ok (decodePictureHeader_encode f r t q i))
  | navHeader a b c d => exact decode_fullCode rfl hr (congrArg Except.ok (decodeNavHeader_encode a b c d))
  | navRecordHeader tag size => exact decode_fullCode rfl hr (decode_navRecordHeader_encode tag size)
  | navUnknown tag => exact decode_fullCode rfl hr (congrArg Except.ok (decodeNavRecord_short tag))

/-! ## Encoding what has been decoded -/

theorem spells_mbc {w : Nat} (hw : w < 2 ^ 1) : Spells .mbc w (if w % 2 = 1 then .mbcEmpty else .mbcCoded) := by
  split
  · exact spells_full rfl rfl rfl (show w = 1 by omega)
  · exact spells_full rfl rfl rfl (show w = 0 by omega)

/-- Where no bit is ignored, what the decoder reads is spelled by the bits it read. -/
theorem spells_of_decode {c : DecCtx} {w : Nat} {i : Instr} (hw : w < 2 ^ c.width) (hreset : c ≠ .softReset)
    (hstatus : c ≠ .irqStatus) (henable : c ≠ .irqEnable) (hrecord : ∀ size, c ≠ .navRecord size)
    (h : decode c w = .ok i) : Spells c w i := by
  cases c with
  | softReset => exact absurd rfl hreset
  | irqStatus => exact absurd rfl hstatus
  | irqEnable => exact absurd rfl henable
  | navRecord size => exact absurd rfl (hrecord size)
  | vCmd => exact spells_of_decodeVCmd hw h
  | nCmd => exact spells_of_decodeNCmd hw h
  | startCode => exact spells_of_decodeStartCode hw h
  | vLen | nLen | sliceQuant | mbdes | mbdiff | dc =>
    cases h; exact spells_field (fun _ => rfl) (fun _ => rfl) (fun _ => rfl) rfl hw
  | mbc => cases h; exact spells_mbc hw
  | pictureHeader => cases h; exact spells_decodePictureHeader hw
  | navHeader => cases h; exact spells_decodeNavHeader hw
  | navRecordHeader => cases h; exact spells_navRecordHeader hw
  | run =>
    rw [decode_run hw] at h
    cases h
    exact spells_decodeRun hw
  | level =>
    rw [decode_level hw] at h
    exact spells_of_decodeLevel hw h

/-- Settles O2: the bits after the code are the ones that follow it. -/
theorem encodeDecode : Obligations.EncodeDecode := by
  intro c w i hw hreset hstatus henable hrecord h
  obtain ⟨rfl, hwf, hhead⟩ := spells_of_decode hw hreset hstatus henable hrecord h
  exact ⟨rfl, hwf, hhead.exists_codeWindow⟩

/-! ## The legal command words (R101 to R103) -/

theorem decode_vCmd_iff {w : Nat} (hw : w < 2 ^ 32) :
    (∃ i, decode .vCmd w = .ok i) ↔
      (∃ op ∈ [0x00, 0x01, 0x10, 0x13, 0x14, 0x15], w = (commandCode op 0).val) ∨
      ∃ op ∈ [0x11, 0x12], ∃ n, (1 ≤ n ∧ n ≤ 32) ∧ w = (commandCode op n).val := by
  constructor
  · rintro ⟨i, h⟩
    have hs := spells_of_decodeVCmd hw h
    have hwf := hs.wellFormed
    cases vduCommand_of_decode h with
    | nop => exact .inl ⟨0x00, by decide, hs.eq_code rfl⟩
    | decode => exact .inl ⟨0x01, by decide, hs.eq_code rfl⟩
    | init => exact .inl ⟨0x10, by decide, hs.eq_code rfl⟩
    | read n => exact .inr ⟨0x11, by decide, n.toNat, bitCountOk_iff.1 hwf, hs.eq_code rfl⟩
    | peek n => exact .inr ⟨0x12, by decide, n.toNat, bitCountOk_iff.1 hwf, hs.eq_code rfl⟩
    | align => exact .inl ⟨0x13, by decide, hs.eq_code rfl⟩
    | hasrem => exact .inl ⟨0x14, by decide, hs.eq_code rfl⟩
    | rldec => exact .inl ⟨0x15, by decide, hs.eq_code rfl⟩
  · rintro (⟨op, hop, rfl⟩ | ⟨op, hop, n, hn, rfl⟩)
    · simp only [List.mem_cons, List.not_mem_nil, or_false] at hop
      rcases hop with rfl | rfl | rfl | rfl | rfl | rfl
      exacts [⟨.vNop, rfl⟩, ⟨.vDecode, rfl⟩, ⟨.brInit, rfl⟩, ⟨.brAlign, rfl⟩, ⟨.brHasrem, rfl⟩, ⟨.brRldec, rfl⟩]
    · obtain ⟨m, rfl⟩ : ∃ m : BitVec 6, m.toNat = n := ⟨BitVec.ofNat 6 n, by rw [BitVec.toNat_ofNat]; omega⟩
      simp only [List.mem_cons, List.not_mem_nil, or_false] at hop
      rcases hop with rfl | rfl
      · exact ⟨_, decodeVCmd_brRead (bitCountOk_iff.2 hn)⟩
      · exact ⟨_, decodeVCmd_brPeek (bitCountOk_iff.2 hn)⟩

theorem decode_nCmd_iff {w : Nat} (hw : w < 2 ^ 32) :
    (∃ i, decode .nCmd w = .ok i) ↔ ∃ op ∈ [0x00, 0x01], w = (commandCode op 0).val := by
  constructor
  · rintro ⟨i, h⟩
    have hs := spells_of_decodeNCmd hw h
    cases nduCommand_of_decode h with
    | nop => exact ⟨0x00, by decide, hs.eq_code rfl⟩
    | decode => exact ⟨0x01, by decide, hs.eq_code rfl⟩
  · rintro ⟨op, hop, rfl⟩
    simp only [List.mem_cons, List.not_mem_nil, or_false] at hop
    rcases hop with rfl | rfl
    exacts [⟨.nNop, rfl⟩, ⟨.nDecode, rfl⟩]

/-- A word with no count and one of these operation codes. -/
theorem exists_plainCommand_iff {w : Nat} {ops : List Nat} (hops : ∀ op ∈ ops, op < 256) :
    (∃ op ∈ ops, w = (commandCode op 0).val) ↔ w / 2 ^ 14 = 0 ∧ w % 256 ∈ ops ∧ w / 256 % 64 = 0 := by
  constructor
  · rintro ⟨op, hop, he⟩
    obtain ⟨hrsv, rfl, hn⟩ := (eq_commandCode_iff (hops op hop) (by decide)).1 he
    exact ⟨hrsv, hop, hn⟩
  · rintro ⟨hrsv, hop, hn⟩
    exact ⟨_, hop, (eq_commandCode_iff (hops _ hop) (by decide)).2 ⟨hrsv, rfl, hn⟩⟩

/-- A word with a count in range and one of these operation codes. -/
theorem exists_countedCommand_iff {w : Nat} {ops : List Nat} (hops : ∀ op ∈ ops, op < 256) :
    (∃ op ∈ ops, ∃ n, (1 ≤ n ∧ n ≤ 32) ∧ w = (commandCode op n).val) ↔
      w / 2 ^ 14 = 0 ∧ w % 256 ∈ ops ∧ 1 ≤ w / 256 % 64 ∧ w / 256 % 64 ≤ 32 := by
  constructor
  · rintro ⟨op, hop, n, hn, he⟩
    obtain ⟨hrsv, rfl, rfl⟩ := (eq_commandCode_iff (hops op hop) (by omega)).1 he
    exact ⟨hrsv, hop, hn⟩
  · rintro ⟨hrsv, hop, hn⟩
    exact ⟨_, hop, _, hn, (eq_commandCode_iff (hops _ hop) (by omega)).2 ⟨hrsv, rfl, rfl⟩⟩

/-- Settles O3: a word is decoded when it is the code of a command, and a code is known by its three fields. -/
theorem legalCommandWords : Obligations.LegalCommandWords := by
  intro w
  rw [decode_vCmd_iff w.isLt, decode_nCmd_iff w.isLt, exists_plainCommand_iff (by decide),
    exists_plainCommand_iff (by decide), exists_countedCommand_iff (by decide), and_or_left]
  exact ⟨Iff.rfl, Iff.rfl⟩

/-! ## Words of the spec, and words the host writes -/

/-- Settles O4: each word is the code of its instruction followed by other bits, which `decodeEncode` reads back. -/
theorem sampleWords : Obligations.SampleWords :=
  ⟨decodeEncode (.brRead 20#6) 0 rfl (by decide), decodeEncode .nDecode 0 rfl (by decide),
    decodeEncode (.softReset true false) 0 rfl (by decide), decodeEncode (.sc 0#5) 0 rfl (by decide),
    decodeEncode .eop 0 rfl (by decide), decodeEncode (.pictureHeader 1#2 1#3 2#3 31#5 7#32) 0 rfl (by decide),
    decodeEncode (.runZ3 3#2) 0x2000000 rfl (by decide), decodeEncode (.levelZ2 0#1 true) 0 rfl (by decide),
    decodeEncode .eob 0 rfl (by decide), decodeEncode (.navRecordHeader 0xFFFF#16 8#16) 0 rfl (by decide)⟩

/-- A 32-bit write to the register at `off` of R104 is what the decoder of that register reads. -/
theorem hostInstr_operation {cfg : Config} {off : Nat} {c : DecCtx} {i : Instr} (w : Word) (h : off < 0x1000)
    (hm : off % 4 = 0) (hc : (regAt off).bind Reg.operation = some c) (hd : decode c w.toNat = .ok i) :
    hostInstr cfg (.write (cfg.vfdBase + off) 4 w) = some i := by
  rw [hostInstr_reg w h hm, hc]
  dsimp only
  rw [hd]
  rfl

/-- The reserved bits of a word are dropped by reading its low bits (R22, R23). -/
theorem ofNat_toNat_eq_extractLsb' (w : Word) (n : Nat) : BitVec.ofNat n w.toNat = w.extractLsb' 0 n := by
  apply BitVec.eq_of_toNat_eq
  rw [BitVec.toNat_ofNat, BitVec.extractLsb'_toNat, Nat.shiftRight_zero]

/-- Settles O6: the register chooses the decoder, which keeps the low bits of the word. -/
theorem hostOperations : Obligations.HostOperations := by
  intro cfg w
  refine ⟨hostInstr_operation w (by decide) rfl rfl ?_, hostInstr_operation w (by decide) rfl rfl ?_,
    hostInstr_operation w (by decide) rfl rfl rfl, hostInstr_operation w (by decide) rfl rfl ?_,
    hostInstr_operation w (by decide) rfl rfl ?_⟩
  · exact congrArg (Except.ok ∘ Instr.irqStatusW1c) (ofNat_toNat_eq_extractLsb' w 5)
  · exact congrArg (Except.ok ∘ Instr.irqEnable) (ofNat_toNat_eq_extractLsb' w 5)
  · exact congrArg (Except.ok ∘ Instr.vLen) (ofNat_toNat_eq w)
  · exact congrArg (Except.ok ∘ Instr.nLen) (ofNat_toNat_eq w)

end Sys2Proof.Machine
end

section
/-!
The bit reader's commands (spec/40_bitreader.md R141 to R149): each of them ends the command behind one change of the
cursor or of `V_RESULT`, or with an error and no change.  The laws of consecutive reads follow from what one read does.
-/

namespace Sys2Proof.Machine

/-! ## How a command ends, with memory kept -/

/-- The end without an error behind changes that kept memory. -/
theorem videoEnd_none_keeps {s u : State} (h : KeepsMemory s u) :
    ∃ t, videoEnd u .none = .next t ∧ VduDone u t ∧ KeepsMemory s t := by
  obtain ⟨t, hend, hdone⟩ := videoEnd_none u
  exact ⟨t, hend, hdone, h.trans (VduEnded.keepsMemory hdone)⟩

/-- The end with an error, nothing having changed before. -/
theorem videoEnd_err_keeps (s : State) {e : Err} (h : e ≠ .none) :
    ∃ t, videoEnd s e = .next t ∧ VduFailed s e t ∧ KeepsMemory s t := by
  obtain ⟨t, hend, hfail⟩ := videoEnd_err s e h
  exact ⟨t, hend, hfail, hfail.2.keepsMemory⟩

theorem keepsMemory_setResult (s : State) (r : Word) : KeepsMemory s (s.setResult r) := keepsMemory_of_eq rfl rfl rfl

/-- Bits past the extent: `READ_PAST_END` before anything else is done (R143, R373). -/
theorem videoTake_pastEnd {s : State} {n : Nat} (h : s.brExt < s.brAt + n) (k : State → StepOutcome State) :
    ∃ t, videoTake s n k = .next t ∧ VduFailed s .readPastEnd t ∧ KeepsMemory s t := by
  rw [videoTake_outside h]
  exact videoEnd_err_keeps s (by decide)

/-! ## Commands without a count -/

/-- Settles O30: both are the end of a command and nothing before it. -/
theorem nops : Obligations.Nops := by
  intro s
  refine ⟨videoEnd_none_keeps (keepsMemory_of_eq rfl rfl rfl), ?_⟩
  obtain ⟨t, hend, hdone⟩ := navEnd_none s
  exact ⟨t, hend, hdone, NduEnded.keepsMemory hdone⟩

/-- `BR.INIT` over more bytes than the buffer has (R142). -/
theorem exec_brInit_outOfRange {s : State} (h : s.cfg.vinBytes < s.v.len.toNat) :
    exec .brInit s = videoEnd s .lenRange := if_pos h

/-- `BR.INIT` over bytes of the buffer (R142). -/
theorem exec_brInit_inRange {s : State} (h : s.v.len.toNat ≤ s.cfg.vinBytes) :
    exec .brInit s = videoEnd (State.brMoveTo { s with v := { s.v with brLen := s.v.len, result := 0 } } 0) .none :=
  if_neg (Nat.not_lt.2 h)

/-- Settles O31: the length check decides between `LEN_RANGE` and a cursor moved to 0. -/
theorem brInit : Obligations.BrInit := by
  intro s
  refine ⟨fun hin => ?_, fun hout => ?_⟩
  · rw [exec_brInit_inRange hin]
    have hstart : KeepsMemory s { s with v := { s.v with brLen := s.v.len, result := 0 } } :=
      keepsMemory_of_eq rfl rfl rfl
    exact ⟨_, (videoEnd_none_keeps (hstart.trans (keepsMemory_brMoveTo _ 0))).imp fun t ht =>
      ⟨movedTo_brMoveTo _ 0 (Nat.zero_le _), ht⟩⟩
  · rw [exec_brInit_outOfRange hout]
    exact videoEnd_err_keeps s (by decide)

/-- Settles O34: the aligned place is inside the extent, so the cursor's registers have room for it. -/
theorem brAlign : Obligations.BrAlign := by
  intro s hs
  have hle : s.alignedAt ≤ s.brExt := alignedAt_le hs
  have hmoved : MovedTo s s.alignedAt s.brAlign := by
    rw [brAlign_eq]; exact movedTo_brMoveTo s _ (hle.trans hs.ext_le)
  obtain ⟨t, hend, hdone, hkeep⟩ := videoEnd_none_keeps hmoved.keepsMemory
  exact ⟨s.brAlign, t, hmoved, hmoved.2.1.trans_le hle, hend, hdone, hkeep⟩

/-- Settles O35: `BR_HasRemaining` is the test of R146, and its answer goes to `V_RESULT`. -/
theorem brHasrem : Obligations.BrHasrem := by
  intro s
  obtain ⟨t, hend, hdone, hkeep⟩ :=
    videoEnd_none_keeps (keepsMemory_setResult s (if s.brHasRemaining then 1 else 0))
  refine ⟨if s.brHasRemaining then 1 else 0, t, ?_, hend, hdone, hkeep⟩
  by_cases hrem : s.brHasRemaining = true
  · exact .inl ⟨if_pos hrem, (brHasRemaining_iff s).1 hrem⟩
  · exact .inr ⟨if_neg hrem, fun hbytes => hrem ((brHasRemaining_iff s).2 hbytes)⟩

/-! ## Reading and peeking -/

/-- `BR.READ n` inside the extent (R143). -/
theorem exec_brRead_inside {s : State} {n : BitVec 6} (h : s.brAt + n.toNat ≤ s.brExt) :
    exec (.brRead n) s =
      videoEnd ((s.brMoveTo (s.brAt + n.toNat)).setResult (BitVec.ofNat 32 (s.brValue n.toNat))) .none :=
  videoTake_inside h _

/-- Settles O32: the extent decides between the bits with the cursor behind them and `READ_PAST_END`. -/
theorem brRead : Obligations.BrRead := by
  intro n s _ hs
  refine ⟨fun hin => ?_, fun hout => videoTake_pastEnd hout _⟩
  obtain ⟨t, hend, hdone, hkeep⟩ := videoEnd_none_keeps
    ((keepsMemory_brMoveTo s (s.brAt + n.toNat)).trans
      (keepsMemory_setResult _ (BitVec.ofNat 32 (s.brValue n.toNat))))
  exact ⟨s.brMoveTo (s.brAt + n.toNat), s.brValue n.toNat, t, took_brMoveTo hs _ hin, bitsAt_bitsFrom _ _ _,
    (exec_brRead_inside hin).trans hend, hdone, hkeep⟩

/-- Settles O33: `BR_Peek` is the number of the bits a peek sees. -/
theorem brPeek : Obligations.BrPeek := by
  intro n s _
  obtain ⟨t, hend, hdone, hkeep⟩ :=
    videoEnd_none_keeps (keepsMemory_setResult s (BitVec.ofNat 32 (s.brPeek n.toNat)))
  refine ⟨s.brPeek n.toNat, t, ?_, hend, hdone, hkeep⟩
  rw [State.brPeek_eq]
  exact bitsAt_bitsFrom _ _ _

/-! ## Reads in sequence (R149) -/

/-- The bytes the VDU reads are a function of `VIN` (R77). -/
theorem vinByte_congr {s t : State} (h : t.vin = s.vin) : t.vinByte = s.vinByte := by
  funext a
  rw [State.vinByte, State.vinByte, h]

/-- The bits of the stream are a function of `VIN` (R77). -/
theorem streamBit_congr {s t : State} (h : t.vin = s.vin) : t.streamBit = s.streamBit := by
  funext k
  rw [State.streamBit, State.streamBit, State.vinChunk, State.vinChunk, vinByte_congr h]

/-- `BR_WORD` is a function of the cursor and `VIN` (R140). -/
theorem Synced.brWord_eq {s t : State} (hs : Synced s) (ht : Synced t) (hat : t.brAt = s.brAt) (hvin : t.vin = s.vin) :
    t.v.brWord = s.v.brWord := by
  by_cases h0 : s.brAt = 0
  · obtain ⟨-, -, hsw⟩ := hs.1 h0
    obtain ⟨-, -, htw⟩ := ht.1 (hat.trans h0)
    rw [htw, hsw]
  · obtain ⟨hsc, hsb, hsw⟩ := hs.2 h0
    obtain ⟨htc, htb, htw⟩ := ht.2 fun h => h0 (hat.symm.trans h)
    have hchunk : t.v.brChunk.toNat = s.v.brChunk.toNat := by rw [htc, hsc, hat]
    have hbit : t.v.brBitIdx.toNat = s.v.brBitIdx.toNat := by rw [htb, hsb, hat, hchunk]
    exact BitVec.eq_of_toNat_eq (by rw [htw, hsw, hbit, hchunk, vinByte_congr hvin])

/-- What `BR.READ n` has done to the cursor and to `V_RESULT` where it did not fault. -/
structure HasRead (s : State) (n : Nat) (t : State) : Prop where
  cursor : t.brAt = s.brAt + n
  synced : Synced t
  vin : t.vin = s.vin
  cursorOk : CursorOk t
  extent : t.brExt = s.brExt
  value : t.v.result.toNat = s.brValue n

theorem hasRead_of_exec {s t : State} {n : BitVec 6} (hs : CursorOk s) (hn : bitCountOk n = true)
    (hin : s.brAt + n.toNat ≤ s.brExt) (h : exec (.brRead n) s = .next t) : HasRead s n.toNat t := by
  have hfit : s.brValue n.toNat < 2 ^ 32 :=
    (bitsFrom_lt _ _ _).trans_le (Nat.pow_le_pow_right (by decide) (bitCountOk_iff.1 hn).2)
  have hres := execBrRead_result h hin
  obtain ⟨-, hcursor, hsynced⟩ := took_brMoveTo hs n.toNat hin
  have hok := cursorOk_brMoveTo hs _ hin
  cases (exec_brRead_inside hin).symm.trans h
  exact {
    cursor := hcursor
    synced := hsynced
    vin := brMoveTo_vin s _
    cursorOk := ⟨hok.valid, hok.len, hok.pos⟩
    extent := brExt_brMoveTo s _
    value := by rw [hres, BitVec.toNat_ofNat, Nat.mod_eq_of_lt hfit] }

/-- Two reads in sequence make the number of one read of their sum, and leave the same cursor (R149). -/
theorem HasRead.append {s t u v : State} {a b : Nat} (hs : HasRead s a t) (ht : HasRead t b u)
    (hv : HasRead s (a + b) v) :
    t.v.result.toNat * 2 ^ b + u.v.result.toNat = v.v.result.toNat ∧ u.v.brPos = v.v.brPos ∧
      u.v.brWord = v.v.brWord := by
  have hat : u.brAt = v.brAt := by rw [ht.cursor, hs.cursor, hv.cursor, Nat.add_assoc]
  have hvin : u.vin = v.vin := by rw [ht.vin, hs.vin, hv.vin]
  refine ⟨?_, BitVec.eq_of_toNat_eq hat, hv.synced.brWord_eq ht.synced hat hvin⟩
  calc t.v.result.toNat * 2 ^ b + u.v.result.toNat
      = bitsFrom s.streamBit s.brAt a * 2 ^ b + bitsFrom s.streamBit (s.brAt + a) b := by
        rw [hs.value, ht.value, State.brValue, State.brValue, hs.cursor, streamBit_congr hs.vin]
    _ = bitsFrom s.streamBit s.brAt (a + b) := (bitsFrom_add _ _ _ _).symm
    _ = v.v.result.toNat := hv.value.symm

/-- What `BR.PEEK n` answers (R144). -/
theorem execBrPeek_result {s t : State} {n : BitVec 6} (h : exec (.brPeek n) s = .next t) :
    t.v.result = BitVec.ofNat 32 (s.brPeek n.toNat) := by
  cases h; rfl

/-- At the end of the extent every bit a peek sees is 0 (R144). -/
theorem State.brPeek_atEnd {s : State} (h : s.brAt = s.brExt) (n : Nat) : s.brPeek n = 0 := by
  rw [State.brPeek_eq]
  exact bitsFrom_zero _ _ _ fun k hk _ => if_neg (Nat.not_lt.2 (h ▸ hk))

/-- Settles O36: by what one read does, from the start and from the place the first read has left. -/
theorem readLaws : Obligations.ReadLaws := by
  intro a b c s ha hb hc hs
  refine ⟨fun t u v hsum hin ht hu hv => ?_, fun t u hin ht hu => ?_, fun t hend ht => ?_⟩
  · have hfirst : HasRead s a.toNat t := hasRead_of_exec hs ha (by omega) ht
    have hsecond : HasRead t b.toNat u :=
      hasRead_of_exec hfirst.cursorOk hb (by rw [hfirst.cursor, hfirst.extent]; omega) hu
    exact hfirst.append hsecond (hsum ▸ hasRead_of_exec hs hc hin hv)
  · rw [execBrPeek_result ht, State.brPeek_inside s _ hin, execBrRead_result hu hin]
  · rw [execBrPeek_result ht, State.brPeek_atEnd hend]; rfl

/-! ## Elements past the extent (R143, R373) -/

/-- A pair of codes that fits the window is consumed as one group of bits (R254). -/
theorem takePair_fits {s : State} {n : Nat} (h : s.v.ctx.runLen + n ≤ 32) (k : State → StepOutcome State) :
    takePair n s k = videoTake s (s.v.ctx.runLen + n) k := if_neg (Nat.not_lt.2 h)

/-- Settles O52: each of these elements consumes its bits before it does anything else. -/
theorem elementPastEnd : Obligations.ElementPastEnd := by
  intro i n s _ hi hout
  have htake : ∃ k, exec i s = videoTake s n k := by
    rcases hi with ⟨⟨q, rfl⟩, rfl⟩ | ⟨rfl, rfl⟩ | ⟨rfl, rfl⟩ | ⟨⟨d, rfl⟩, rfl⟩ | ⟨⟨d, rfl⟩, rfl⟩ | ⟨⟨d, rfl⟩, rfl⟩ |
      ⟨rfl, hrun, rfl⟩
    on_goal 7 => exact ⟨videoEndBlock, takePair_fits (by omega) _⟩
    all_goals exact ⟨_, rfl⟩
  obtain ⟨k, hk⟩ := htake
  rw [hk]
  exact videoTake_pastEnd hout k

end Sys2Proof.Machine
end

section
/-!
The NavData decode unit (spec/41_navdata.md R171 to R183): each form of a datagram ends in one arrival of the walk, and
`N.DECODE` is the whole walk.  With it the unit's every move answers a next state, and so, under the invariant, does the
VDU's: no step ends in the model's fault.
-/

namespace Sys2Proof.Machine

/-! ## Results and memory -/

/-- The end with an error behind changes to the registers of the NDU: memory is kept. -/
theorem navEnd_err_keeps (s : State) (n : Ndu) {e : Err} (h : e ≠ .none) :
    ∃ t, navEnd { s with n := n } e = .next t ∧ KeepsMemory s t ∧ NduFailed { s with n := n } e t := by
  obtain ⟨t, hend, hfail⟩ := navEnd_err { s with n := n } e h
  exact ⟨t, hend, (keepsMemory_of_eq rfl rfl rfl).trans hfail.2.keepsMemory, hfail⟩

/-- The walk goes on, or stops, behind changes to the registers of the NDU: memory is kept. -/
theorem navLoop_keeps {s : State} {n : Ndu} {pos : Nat} {o : StepOutcome State}
    (h : ∃ t, o = .next t ∧ NavLoop { s with n := n } pos t) :
    ∃ t, o = .next t ∧ KeepsMemory s t ∧ NavLoop { s with n := n } pos t := by
  obtain ⟨t, ht, hloop⟩ := h
  exact ⟨t, ht, (keepsMemory_of_eq rfl rfl rfl).trans hloop.keepsMemory, hloop⟩

/-- So it is where the walk has stopped. -/
theorem NavStopped.keepsMemory_of_registers {s t : State} {n : Ndu} {pos : Nat} {trunc : Bool}
    (h : NavStopped { s with n := n } pos trunc t) : KeepsMemory s t :=
  (keepsMemory_of_eq rfl rfl rfl).trans h.keepsMemory

/-! ## Headers (R174 to R177) -/

/-- Everything a datagram's header does. -/
theorem readNavHeader_spec (magic status sequence visionDefined : Word) (s : State) :
    ∃ t, readNavHeader magic status sequence visionDefined s = .next t ∧
      NavLoop { s with n := { s.n with
        magic := magic, state := status, seq := sequence, visionDef := visionDefined
        cksCalc := BitVec.ofNat 32
          (((List.range (s.n.len.toNat - 8)).map fun k => (s.ninByte k).toNat).sum) } } 16 t := by
  unfold readNavHeader
  rw [navChecksum_eq]
  exact navAt_spec _ 16

/-- A record header with a size of 0, or of a record past the datagram's end, stops the walk (R177 (b)). -/
theorem readRecordHeader_stops {tag size : BitVec 16} {s : State}
    (h : size = 0#16 ∨ s.n.len.toNat < s.n.ctx.pos + size.toNat) :
    readRecordHeader tag size s = navFinish s s.n.ctx.pos true := if_pos h

/-- Any other record header leads to its record (R176). -/
theorem readRecordHeader_goesOn {tag size : BitVec 16} {s : State}
    (h : ¬ (size = 0#16 ∨ s.n.len.toNat < s.n.ctx.pos + size.toNat)) :
    readRecordHeader tag size s = .next { s with n := { s.n with ctx := ⟨.record, s.n.ctx.pos, tag, size⟩ } } :=
  if_neg h

/-- Everything a record header does. -/
theorem readRecordHeader_spec (tag size : BitVec 16) (s : State) :
    ∃ t, readRecordHeader tag size s = .next t ∧ KeepsMemory s t ∧
      (size = 0#16 ∨ s.n.len.toNat < s.n.ctx.pos + size.toNat → NavStopped s s.n.ctx.pos true t) ∧
      (size ≠ 0#16 → s.n.ctx.pos + size.toNat ≤ s.n.len.toNat →
        t = { s with n := { s.n with ctx := ⟨.record, s.n.ctx.pos, tag, size⟩ } }) := by
  by_cases h : size = 0#16 ∨ s.n.len.toNat < s.n.ctx.pos + size.toNat
  · obtain ⟨t, ht, hstop⟩ := navFinish_spec s s.n.ctx.pos true
    exact ⟨t, (readRecordHeader_stops h).trans ht, hstop.keepsMemory, fun _ => hstop,
      fun hsize hfit => absurd h (not_or.2 ⟨hsize, Nat.not_lt.2 hfit⟩)⟩
  · exact ⟨_, readRecordHeader_goesOn h, keepsMemory_of_eq rfl rfl rfl, fun hbad => absurd hbad h, fun _ _ => rfl⟩

/-- Settles O58: the header arrives at 16 with its registers written; a record header stops the walk or leads to its
record. -/
theorem navHeaders : Obligations.NavHeaders := fun s =>
  ⟨fun a b c d => navLoop_keeps (readNavHeader_spec a b c d s), fun tag size => readRecordHeader_spec tag size s⟩

/-! ## Records (R178 to R182) -/

/-- Settles O59: each record writes its registers, and the walk arrives at the record's end. -/
theorem navRecords : Obligations.NavRecords := fun s =>
  ⟨navLoop_keeps (demoRecord_spec s), navLoop_keeps (visionRecord_spec s), navLoop_keeps (checksumRecord_spec s),
    fun _ => navLoop_keeps (navAt_spec s _)⟩

/-! ## The whole command (R171 to R173) -/

/-- A datagram longer than the buffer (R173 (1)). -/
theorem navBegin_lenRange {s : State} (h : s.cfg.ninBytes < s.n.len.toNat) :
    navBegin s = navEnd { s with n := cleared s.n } .lenRange := if_pos h

/-- A datagram shorter than its header (R173 (2)). -/
theorem navBegin_tooShort {s : State} (h : s.n.len.toNat ≤ s.cfg.ninBytes) (h16 : s.n.len.toNat < 16) :
    navBegin s = navEnd { s with n := cleared s.n } .tooShort := (if_neg (Nat.not_lt.2 h)).trans (if_pos h16)

/-- Any other datagram: the results are cleared and the header is expected (R172). -/
theorem navBegin_header {s : State} (h : s.n.len.toNat ≤ s.cfg.ninBytes) (h16 : 16 ≤ s.n.len.toNat) :
    navBegin s = .next { s with n := { cleared s.n with ctx := ⟨.header, 0, 0, 0⟩ } } :=
  (if_neg (Nat.not_lt.2 h)).trans (if_neg (Nat.not_lt.2 h16))

/-- The command is its loop from the state its beginning leaves. -/
theorem execNDecode_of_begin {s u : State} (h : navBegin s = .next u) :
    execNDecode s = navLoop (navBound s.n.len.toNat) u := by
  unfold execNDecode
  rw [h]

/-- A command whose beginning has ended it is over. -/
theorem execNDecode_of_navEnd {s u : State} {e : Err} (h : navBegin s = navEnd u e) : execNDecode s = navEnd u e :=
  (execNDecode_of_begin h).trans (navLoop_idle _ _ rfl)

/-- Settles O56: both checks stand before the loop, behind the clearing of the results. -/
theorem navLengthChecks : Obligations.NavLengthChecks := by
  intro s
  refine ⟨fun hlen => ?_, fun hlen h16 => ?_⟩
  · obtain ⟨t, ht, hend⟩ := navEnd_err_keeps s (cleared s.n) (e := .lenRange) (by decide)
    exact ⟨t, (execNDecode_of_navEnd (navBegin_lenRange hlen)).trans ht, hend⟩
  · obtain ⟨t, ht, hend⟩ := navEnd_err_keeps s (cleared s.n) (e := .tooShort) (by decide)
    exact ⟨t, (execNDecode_of_navEnd (navBegin_tooShort hlen h16)).trans ht, hend⟩

/-- The loop of `N.DECODE` from the header with the registers `n` is the walk from 16 with the header's registers
written (R174 to R177). -/
theorem navLoop_header (s : State) (n : Ndu) :
    ∃ stop trunc m t,
      NavWalk s.ninByte s.ninWord n.len.toNat 16 (withHeader s.ninByte s.ninWord n.len.toNat n) stop trunc m ∧
      navLoop (navBound n.len.toNat) { s with n := { n with ctx := ⟨.header, 0, 0, 0⟩ } } = .next t ∧
      NavStopped { s with n := m } stop trunc t := by
  obtain ⟨u, hu, hloop⟩ := header_spec { s with n := { n with ctx := ⟨.header, 0, 0, 0⟩ } } rfl
  obtain ⟨stop, trunc, m, t, hwalk, ht, hstop⟩ :=
    navLoop_walk (2 * n.len.toNat + 1) s u (withHeader s.ninByte s.ninWord n.len.toNat n) ⟨.header, 0, 0, 0⟩ 16
      hloop (by change 2 * (n.len.toNat - 16) + 1 ≤ _; omega)
  exact ⟨stop, trunc, m, t, hwalk, (navLoop_succ _ _ u (by simp) hu).trans ht, hstop⟩

/-- Settles O57: behind the length checks the command is its loop, and the loop is the walk of R171. -/
theorem navDecode : Obligations.NavDecode := by
  intro s _ h16 hlen
  obtain ⟨stop, trunc, m, t, hwalk, ht, hstop⟩ := navLoop_header s (cleared s.n)
  exact ⟨stop, trunc, m, t, hwalk, (execNDecode_of_begin (navBegin_header hlen h16)).trans ht, hstop,
    hstop.keepsMemory_of_registers⟩

/-! ## No step ends in a fault -/

/-- At every place of a datagram its form answers a next state. -/
theorem navForm_next (s : State) : ∃ t, navForm s = .next t := by
  cases hp : s.n.ctx.phase with
  | idle => exact ⟨s, by rw [navForm, navWindow_idle hp]⟩
  | header => exact (header_spec s hp).imp fun _ ht => ht.1
  | recordHeader => rw [recordHeader_spec s hp]; exact (readRecordHeader_spec _ _ s).imp fun _ ht => ht.1
  | record => exact (record_spec s hp).imp fun _ ht => ht.1

/-- With the cursor inside its extent the VDU's place in a decode has an element that answers a next state. -/
theorem videoElement_next {s : State} (h : CursorOk s) : ∃ t, videoElement s = .next t := by
  by_cases hp : s.v.ctx.phase = .idle
  · exact ⟨s, by rw [videoElement, videoWindow_idle hp]⟩
  · exact (videoElement_progress h hp).imp fun _ ht => ht.1

/-- The NDU's move answers a next state, whatever the state (R176). -/
theorem nduAct_next (s : State) : ∃ t, nduAct s = .next t :=
  nduAct_induction (P := fun o => ∃ t, o = .next t) ⟨s, rfl⟩
    (fun _ hi => (exec_nduCommand hi s).imp fun _ ht => ht.1) ⟨_, rfl⟩ (navForm_next s)

/-- The VDU's move answers a next state (R211). -/
theorem vduAct_next {s : State} (h : CursorOk s) : ∃ t, vduAct s = .next t :=
  vduAct_induction (P := fun o => ∃ t, o = .next t) ⟨s, rfl⟩
    (fun _ hi => exec_vduCommand_next hi h.valid) ⟨_, rfl⟩ (videoElement_next h)

theorem HostOperation.not_fault {i : Instr} (hi : HostOperation i) (s : State) (f : Fault) : exec i s ≠ .fault f := by
  cases hi with
  | softReset n v => exact nofun
  | irqStatus m => exact nofun
  | irqEnable e => exact nofun
  | vLen l =>
    change execVLen l s ≠ .fault f
    unfold execVLen
    split <;> exact nofun
  | nLen l =>
    change execNLen l s ≠ .fault f
    unfold execNLen
    split <;> exact nofun

theorem hostWrite_not_fault (s : State) (sp : Space) (a width : Nat) (w : Word) (f : Fault) :
    s.hostWrite sp a width w ≠ .fault f := by
  cases sp with
  | reg => exact nofun
  | pix => exact nofun
  | vin => unfold State.hostWrite; dsimp only; split <;> exact nofun
  | nin => unfold State.hostWrite; dsimp only; split <;> exact nofun

theorem hostAccess_not_fault (acc : HostAccess) (s : State) (f : Fault) : hostAccess acc s ≠ .fault f := by
  cases acc with
  | read addr width => unfold hostAccess; dsimp only; split <;> exact nofun
  | write addr width w =>
    unfold hostAccess
    dsimp only
    split
    · exact nofun
    · exact hostWrite_not_fault s _ _ _ w f

/-- The host's accesses are made or refused, whatever the state (R75). -/
theorem step_host_not_fault {s : State} (ha : s.nextAgent = .host) (f : Fault) : step s ≠ .fault f := by
  cases hq : s.host.queue with
  | nil => rw [step_host_idle ha hq]; exact nofun
  | cons acc rest =>
    cases hi : hostInstr s.cfg acc with
    | some i => rw [step_host_instr ha hq hi]; exact (hostOperation_of_hostInstr hi).not_fault _ f
    | none => rw [step_host_access ha hq hi]; exact hostAccess_not_fault acc _ f

/-- Settles O13: by the agent that moves.  A unit's move answers a next state, the loops of a decode ending inside their
bound; the host has no loop. -/
theorem noFault : Obligations.NoFault := by
  intro s f h
  have hm : Inv s.moved := h.host _
  cases ha : s.nextAgent with
  | host => exact step_host_not_fault ha f
  | vdu => obtain ⟨t, ht⟩ := vduAct_next hm.cursor; rw [step_eq_vduAct ha, ht]; exact nofun
  | ndu => obtain ⟨t, ht⟩ := nduAct_next s.moved; rw [step_eq_nduAct ha, ht]; exact nofun

end Sys2Proof.Machine
end

section
/-!
The picture layer of `V.DECODE` (spec/42_video_picture.md R210 to R232).  Each element consumes its bits, changes a few
registers and enters one of the decoder's loops, or ends the command; a whole `V.DECODE` is the chain of its elements.
-/

namespace Sys2Proof.Machine

/-! ## Answers, with memory kept -/

/-- Whatever the end of a command with an error answers, the command has failed there. -/
theorem vduFailed_of_videoEnd {s t : State} {e : Err} (he : e ≠ .none) (h : videoEnd s e = .next t) :
    VduFailed s e t := by
  obtain ⟨t', ht', hfail⟩ := videoEnd_err s e he
  cases ht'.symm.trans h
  exact hfail

/-- Whatever the first arrival at a slice's macroblocks answers, the loop is there and memory is kept. -/
theorem macroblockLoop_of_start {s t : State} (h : videoMacroblock s 0 = .next t) :
    MacroblockLoop s 0 t ∧ KeepsMemory s t := by
  obtain ⟨t', ht', hloop⟩ := videoMacroblock_start s
  cases ht'.symm.trans h
  exact hloop

/-- Block 0 of a macroblock follows at once (R224). -/
theorem videoBlock_start (s : State) : ∃ t, videoBlock s 0 = .next t ∧ BlockLoop s 0 t ∧ KeepsMemory s t :=
  ⟨_, if_pos (by decide), ⟨fun _ => rfl, fun h => absurd h (by decide)⟩, keepsMemory_of_eq rfl rfl rfl⟩

/-! ## Start codes (R212 to R214) -/

theorem movedTo_brAlign {s : State} (hs : CursorOk s) : MovedTo s s.alignedAt s.brAlign := by
  rw [brAlign_eq]
  exact movedTo_brMoveTo s _ ((alignedAt_le hs).trans hs.ext_le)

theorem brExt_brAlign (s : State) : s.brAlign.brExt = s.brExt := brExt_brMoveTo s _

/-- The 22 bits lie inside the extent: the cursor is behind them. -/
theorem videoStartCode_inside {s : State} (hs : CursorOk s) (h : s.alignedAt + 22 ≤ s.brExt)
    (k : State → StepOutcome State) : videoStartCode s k = k (s.brMoveTo (s.alignedAt + 22)) := by
  have hat : s.brAlign.brAt = s.alignedAt := (movedTo_brAlign hs).2.1
  rw [videoStartCode, videoTake_inside (by rw [hat, brExt_brAlign]; exact h), hat, brAlign_eq, brMoveTo_brMoveTo]

theorem movedTo_startCode {s : State} (hs : CursorOk s) (h : s.alignedAt + 22 ≤ s.brExt) :
    MovedTo s (s.alignedAt + 22) (s.brMoveTo (s.alignedAt + 22)) := movedTo_brMoveTo s _ (h.trans hs.ext_le)

/-- The extent cuts the 22 bits off: `READ_PAST_END` after the alignment, whatever the code would have been. -/
theorem videoStartCode_pastEnd {s : State} (hs : CursorOk s) (h : s.brExt < s.alignedAt + 22)
    (k : State → StepOutcome State) :
    ∃ u t, MovedTo s s.alignedAt u ∧ videoStartCode s k = .next t ∧ VduFailed u .readPastEnd t ∧ KeepsMemory s t := by
  have hmoved := movedTo_brAlign hs
  obtain ⟨t, ht, hfail, hkeep⟩ :=
    videoTake_pastEnd (s := s.brAlign) (n := 22) (by rw [hmoved.2.1, brExt_brAlign]; exact h) k
  exact ⟨s.brAlign, t, hmoved, ht, hfail, hmoved.keepsMemory.trans hkeep⟩

/-- The bits a start code is decoded from. -/
theorem videoWindow_startCode {s : State} (hp : s.v.ctx.phase = .startCode) :
    videoWindow s = some (.startCode, s.brAlign.brPeek 22) := by rw [videoWindow, hp]

/-- Whatever the bits at a header boundary are, they are consumed as a start code first. -/
theorem videoElement_startCode {s : State} (hp : s.v.ctx.phase = .startCode) :
    ∃ k, videoElement s = videoStartCode s k := by
  rw [videoElement, videoWindow_startCode hp]
  dsimp only [decode]
  unfold decodeStartCode
  split_ifs
  all_goals exact ⟨_, rfl⟩

/-- Inside the extent the bits looked at after the alignment are those of the stream. -/
theorem bitsAt_brAlign_brPeek {s : State} (hs : CursorOk s) {n : Nat} (h : s.alignedAt + n ≤ s.brExt) :
    BitsAt s.streamBit s.alignedAt n (s.brAlign.brPeek n) := by
  have hat : s.brAlign.brAt = s.alignedAt := (movedTo_brAlign hs).2.1
  rw [State.brPeek_inside _ _ (by rw [hat, brExt_brAlign]; exact h), State.brValue, hat,
    streamBit_congr (brAlign_vin s)]
  exact bitsAt_bitsFrom _ _ _

/-- Bits whose upper 17 are not 1 are no start code (R213). -/
theorem decodeStartCode_wrong {w : Nat} (hw : w < 2 ^ 22) (h : w / 2 ^ 5 ≠ 1) :
    decodeStartCode w = .error .badStartCode := by
  refine if_pos ?_
  unfold bitField
  omega

/-- A wrong start code ends the command with `BAD_START_CODE` behind its 22 bits (R213). -/
theorem videoElement_badStartCode {s : State} (hs : CursorOk s) (hp : s.v.ctx.phase = .startCode)
    (hin : s.alignedAt + 22 ≤ s.brExt) (hbad : ∀ v, BitsAt s.streamBit s.alignedAt 22 v → v / 2 ^ 5 ≠ 1) :
    videoElement s = videoEnd (s.brMoveTo (s.alignedAt + 22)) .badStartCode := by
  have hbits := bitsAt_brAlign_brPeek hs hin
  rw [videoElement_reject (videoWindow_startCode hp) (decodeStartCode_wrong hbits.1 (hbad _ hbits))]
  exact videoStartCode_inside hs hin _

theorem CursorOk.moved {s : State} (h : CursorOk s) : CursorOk s.moved := ⟨h.valid, h.len, h.pos⟩

/-- The step at a header boundary is the element there. -/
theorem step_startCode {s : State} (ha : s.nextAgent = .vdu) (hb : s.v.status.busy = true)
    (hp : s.v.ctx.phase = .startCode) : step s = videoElement s.moved :=
  step_vdu_element ha hb (by rw [hp]; decide)

/-- `SC` with its bits inside the extent (R212). -/
theorem exec_sc_inside {s : State} (hs : CursorOk s) (h : s.alignedAt + 22 ≤ s.brExt) (k : BitVec 5) :
    exec (.sc k) s = .next ((s.brMoveTo (s.alignedAt + 22)).atElement
      (if s.v.sliceIndex = 0 then .pictureHeader else .sliceQuant)) := by
  rw [← brMoveTo_v_sliceIndex s (s.alignedAt + 22)]
  exact videoStartCode_inside hs h _

/-- Settles O40: the extent decides first; inside it, the 17 bits. -/
theorem startCode : Obligations.StartCode := by
  intro s hs
  refine ⟨fun k hin => ?_, fun k hout => videoStartCode_pastEnd hs hout _, fun ha hb hp hin hbad => ?_,
    fun ha hb hp hout => ?_⟩
  · exact ⟨_, movedTo_startCode hs hin, keepsMemory_brMoveTo s _, exec_sc_inside hs hin k⟩
  · rw [step_startCode ha hb hp, videoElement_badStartCode (s := s.moved) hs.moved hp hin hbad]
    obtain ⟨t, ht, hfail, hkeep⟩ :=
      videoEnd_err_keeps (s.moved.brMoveTo (s.alignedAt + 22)) (e := .badStartCode) (by decide)
    exact ⟨_, t, movedTo_startCode hs.moved hin, ht, hfail, (keepsMemory_brMoveTo s.moved _).trans hkeep⟩
  · obtain ⟨k, hk⟩ := videoElement_startCode (s := s.moved) hp
    rw [step_startCode ha hb hp, hk]
    exact videoStartCode_pastEnd hs.moved hout k

/-- The end of a picture: both flags rise, and `FRAME` with `VID_DONE` (R214, R230). -/
theorem emitFrame_ends (u : State) :
    ∃ t, videoEnd (State.emitFrame { u with v := { u.v with
        status := { u.v.status with picComplete := true } } }) .none = .next t ∧
      VduEnded { u with v := { u.v with
        status := { u.v.status with picComplete := true, frameValid := true } } } .none 0b00101#5 t ∧
      KeepsMemory u t := by
  refine ⟨_, rfl, ?_, keepsMemory_of_eq rfl rfl rfl⟩
  have hbits : (u.irqStatus ||| irqFrame) ||| irqVidDone = u.irqStatus ||| 0b00101#5 := BitVec.or_assoc _ _ _
  rw [VduEnded, ← hbits]
  rfl

/-- Settles O41: the frame is emitted behind the 22 bits, or they are past the end. -/
theorem endOfPicture : Obligations.EndOfPicture := by
  intro s hs
  refine ⟨fun hin => ?_, fun hout => videoStartCode_pastEnd hs hout _⟩
  obtain ⟨t, ht, hend, hkeep⟩ := emitFrame_ends (s.brMoveTo (s.alignedAt + 22))
  exact ⟨_, t, movedTo_startCode hs hin, (videoStartCode_inside hs hin _).trans ht,
    (keepsMemory_brMoveTo s _).trans hkeep, hend⟩

/-! ## Fields stored between reads (R215) -/

/-- The cursor's registers written. -/
def Vdu.withCursor (v : Vdu) (p : Word) (c : BitVec 22) (b : BitVec 6) (w : Word) : Vdu :=
  { v with brPos := p, brChunk := c, brBitIdx := b, brWord := w }

/-- A change of the VDU's registers that has nothing to do with the cursor. -/
structure CursorFree (g : Vdu → Vdu) : Prop where
  commutes : ∀ v p c b w, g (Vdu.withCursor v p c b w) = (g v).withCursor p c b w
  brLen : ∀ v, (g v).brLen = v.brLen

/-- `n` bits consumed, and the registers changed by `g`. -/
def State.taken (s : State) (n : Nat) (g : Vdu → Vdu) : State :=
  { s.brMoveTo (s.brAt + n) with v := g (s.brMoveTo (s.brAt + n)).v }

theorem CursorFree.brPos {g : Vdu → Vdu} (hg : CursorFree g) (v : Vdu) : (g v).brPos = v.brPos := by
  have h : g v = (g v).withCursor v.brPos v.brChunk v.brBitIdx v.brWord := hg.commutes v _ _ _ _
  rw [h]; rfl

/-- A move of the cursor writes its four registers, with values the other registers have no part in (R147). -/
theorem brMoveTo_writes (s : State) (p : Nat) :
    ∃ a c b w, ∀ v : Vdu, State.brMoveTo { s with v := v } p = { s with v := v.withCursor a c b w } := by
  let u := (s.brMoveTo p).v
  refine ⟨u.brPos, u.brChunk, u.brBitIdx, u.brWord, fun v => ?_⟩
  unfold u State.brMoveTo
  split <;> rfl

theorem CursorFree.brMoveTo {g : Vdu → Vdu} (hg : CursorFree g) (s : State) (p : Nat) :
    State.brMoveTo { s with v := g s.v } p = { s.brMoveTo p with v := g (s.brMoveTo p).v } := by
  obtain ⟨a, c, b, w, hmove⟩ := brMoveTo_writes s p
  have hs : s.brMoveTo p = { s with v := s.v.withCursor a c b w } := hmove s.v
  rw [hmove, hs, hg.commutes]

section
variable {s : State} {n : Nat} {g : Vdu → Vdu}

theorem brAt_taken (hs : CursorOk s) (hg : CursorFree g) (h : s.brAt + n ≤ s.brExt) :
    (s.taken n g).brAt = s.brAt + n :=
  (congrArg BitVec.toNat (hg.brPos _)).trans (brAt_brMoveTo s _ (h.trans hs.ext_le))

theorem brExt_taken (hg : CursorFree g) : (s.taken n g).brExt = s.brExt := by
  have hlen : (s.taken n g).v.brLen = s.v.brLen := (hg.brLen _).trans (brMoveTo_v_brLen s _)
  rw [State.brExt, State.brExt, hlen]

theorem keepsMemory_taken : KeepsMemory s (s.taken n g) :=
  keepsMemory_of_eq (brMoveTo_vin s _) (brMoveTo_nin s _) (brMoveTo_pix s _)

/-- Two reads with a store between them are one read and the store. -/
theorem videoTake_taken (hs : CursorOk s) (hg : CursorFree g) {m : Nat} (h : s.brAt + (n + m) ≤ s.brExt)
    (k : State → StepOutcome State) : videoTake (s.taken n g) m k = k (s.taken (n + m) g) := by
  have hat := brAt_taken hs hg (n := n) (by omega)
  rw [videoTake_inside (by rw [hat, brExt_taken hg]; omega), hat, Nat.add_assoc, State.taken, hg.brMoveTo,
    brMoveTo_brMoveTo]
  rfl

/-- The bits after a store are cut off: the command fails with what has been stored (R387, R390). -/
theorem videoTake_taken_pastEnd (hs : CursorOk s) (hg : CursorFree g) {m : Nat} (hin : s.brAt + n ≤ s.brExt)
    (hout : s.brExt < s.brAt + (n + m)) (k : State → StepOutcome State) :
    ∃ u t, videoTake (s.taken n g) m k = .next t ∧ KeepsMemory s t ∧ Took s n u ∧
      VduFailed { u with v := g u.v } .readPastEnd t := by
  have hat := brAt_taken hs hg hin
  obtain ⟨t, ht, hfail, hkeep⟩ :=
    videoTake_pastEnd (s := s.taken n g) (n := m) (by rw [hat, brExt_taken hg]; omega) k
  exact ⟨s.brMoveTo (s.brAt + n), t, ht, keepsMemory_taken.trans hkeep, took_brMoveTo hs n hin, hfail⟩

end

/-! ## The picture header (R215 to R221) -/

/-! The first fields of a picture header stored, up to each of the five. -/

/-- `V_FORMAT` stored. -/
def storeFormat (f : BitVec 2) (v : Vdu) : Vdu := { v with format := f }

/-- `V_RES` stored too. -/
def storeRes (f : BitVec 2) (r : BitVec 3) (v : Vdu) : Vdu := { v with format := f, res := r }

/-- `V_PTYPE` stored too. -/
def storePtype (f : BitVec 2) (r ty : BitVec 3) (v : Vdu) : Vdu := { v with format := f, res := r, ptype := ty }

/-- `V_QUANT` stored too. -/
def storeQuant (f : BitVec 2) (r ty : BitVec 3) (q : BitVec 5) (v : Vdu) : Vdu :=
  { v with format := f, res := r, ptype := ty, quant := q.zeroExtend 32 }

/-- All five fields stored. -/
def storeHeader (f : BitVec 2) (r ty : BitVec 3) (q : BitVec 5) (x : BitVec 32) (v : Vdu) : Vdu :=
  { v with format := f, res := r, ptype := ty, quant := q.zeroExtend 32, frameIndex := x }

section
variable (f : BitVec 2) (r ty : BitVec 3) (q : BitVec 5) (x : BitVec 32)

theorem cursorFree_storeFormat : CursorFree (storeFormat f) := ⟨fun _ _ _ _ _ => rfl, fun _ => rfl⟩
theorem cursorFree_storeRes : CursorFree (storeRes f r) := ⟨fun _ _ _ _ _ => rfl, fun _ => rfl⟩
theorem cursorFree_storePtype : CursorFree (storePtype f r ty) := ⟨fun _ _ _ _ _ => rfl, fun _ => rfl⟩
theorem cursorFree_storeQuant : CursorFree (storeQuant f r ty q) := ⟨fun _ _ _ _ _ => rfl, fun _ => rfl⟩

/-! What is left of `PictureHeader()` before each field but the first. -/

/-- From `PFRAME` on. -/
def readFrameIndex (s : State) : StepOutcome State :=
  videoTake s 32 fun t => pictureDimensions { t with v := { t.v with frameIndex := x } } f r

/-- From `PQUANT` on. -/
def readQuant (s : State) : StepOutcome State :=
  videoTake s 5 fun t => readFrameIndex f r x { t with v := { t.v with quant := q.zeroExtend 32 } }

/-- From `PTYPE` on. -/
def readPtype (s : State) : StepOutcome State :=
  videoTake s 3 fun t => readQuant f r q x { t with v := { t.v with ptype := ty } }

/-- From `PRES` on. -/
def readRes (s : State) : StepOutcome State :=
  videoTake s 3 fun t => readPtype f r ty q x { t with v := { t.v with res := r } }

variable {s : State}

theorem exec_pictureHeader_format (h : s.brAt + 2 ≤ s.brExt) :
    exec (.pictureHeader f r ty q x) s = readRes f r ty q x (s.taken 2 (storeFormat f)) := videoTake_inside h _

theorem exec_pictureHeader_res (hs : CursorOk s) (h : s.brAt + 5 ≤ s.brExt) :
    exec (.pictureHeader f r ty q x) s = readPtype f r ty q x (s.taken 5 (storeRes f r)) :=
  (exec_pictureHeader_format f r ty q x (by omega)).trans
    (videoTake_taken hs (cursorFree_storeFormat f) h _)

theorem exec_pictureHeader_ptype (hs : CursorOk s) (h : s.brAt + 8 ≤ s.brExt) :
    exec (.pictureHeader f r ty q x) s = readQuant f r q x (s.taken 8 (storePtype f r ty)) :=
  (exec_pictureHeader_res f r ty q x hs (by omega)).trans
    (videoTake_taken hs (cursorFree_storeRes f r) h _)

theorem exec_pictureHeader_quant (hs : CursorOk s) (h : s.brAt + 13 ≤ s.brExt) :
    exec (.pictureHeader f r ty q x) s = readFrameIndex f r x (s.taken 13 (storeQuant f r ty q)) :=
  (exec_pictureHeader_ptype f r ty q x hs (by omega)).trans
    (videoTake_taken hs (cursorFree_storePtype f r ty) h _)

theorem exec_pictureHeader_inside (hs : CursorOk s) (h : s.brAt + 45 ≤ s.brExt) :
    exec (.pictureHeader f r ty q x) s = pictureDimensions (s.taken 45 (storeHeader f r ty q x)) f r :=
  (exec_pictureHeader_quant f r ty q x hs (by omega)).trans
    (videoTake_taken hs (cursorFree_storeQuant f r ty q) h _)

end

/-- Settles O43: by the field the extent cuts off; the fields before it are stored. -/
theorem pictureHeaderPastEnd : Obligations.PictureHeaderPastEnd := by
  intro f r ty q x s hs hout
  have hcases : s.brExt < s.brAt + 2 ∨ (s.brAt + 2 ≤ s.brExt ∧ s.brExt < s.brAt + 5) ∨
      (s.brAt + 5 ≤ s.brExt ∧ s.brExt < s.brAt + 8) ∨ (s.brAt + 8 ≤ s.brExt ∧ s.brExt < s.brAt + 13) ∨
      s.brAt + 13 ≤ s.brExt := by omega
  rcases hcases with h2 | ⟨h2, h5⟩ | ⟨h5, h8⟩ | ⟨h8, h13⟩ | h13
  · obtain ⟨t, ht, hfail, hkeep⟩ := videoTake_pastEnd h2 _
    exact ⟨t, ht, hkeep, fun _ => hfail, fun _ _ => by omega, fun _ _ => by omega, fun _ _ => by omega,
      fun _ => by omega⟩
  · obtain ⟨u, t, ht, hkeep, hfail⟩ := videoTake_taken_pastEnd (m := 3) hs (cursorFree_storeFormat f) h2 h5 _
    exact ⟨t, (exec_pictureHeader_format f r ty q x h2).trans ht, hkeep, fun _ => by omega, fun _ _ => ⟨u, hfail⟩,
      fun _ _ => by omega, fun _ _ => by omega, fun _ => by omega⟩
  · obtain ⟨u, t, ht, hkeep, hfail⟩ := videoTake_taken_pastEnd (m := 3) hs (cursorFree_storeRes f r) h5 h8 _
    exact ⟨t, (exec_pictureHeader_res f r ty q x hs h5).trans ht, hkeep, fun _ => by omega, fun _ _ => by omega,
      fun _ _ => ⟨u, hfail⟩, fun _ _ => by omega, fun _ => by omega⟩
  · obtain ⟨u, t, ht, hkeep, hfail⟩ := videoTake_taken_pastEnd (m := 5) hs (cursorFree_storePtype f r ty) h8 h13 _
    exact ⟨t, (exec_pictureHeader_ptype f r ty q x hs h8).trans ht, hkeep, fun _ => by omega, fun _ _ => by omega,
      fun _ _ => by omega, fun _ _ => ⟨u, hfail⟩, fun _ => by omega⟩
  · obtain ⟨u, t, ht, hkeep, hfail⟩ := videoTake_taken_pastEnd (m := 32) hs (cursorFree_storeQuant f r ty q) h13 hout _
    exact ⟨t, (exec_pictureHeader_quant f r ty q x hs h13).trans ht, hkeep, fun _ => by omega, fun _ _ => by omega,
      fun _ _ => by omega, fun _ _ => by omega, fun _ => ⟨u, hfail⟩⟩

/-! ## The dimensions (R217 to R221) -/

/-- `PFORMAT` 0 and 3 are illegal (R217). -/
theorem baseDimensions_illegal {f : BitVec 2} (h : f = 0#2 ∨ f = 3#2) : baseDimensions f = none := by
  rcases h with rfl | rfl <;> rfl

/-- The other two give the base dimensions (R217). -/
theorem baseDimensions_legal {f : BitVec 2} (h : f = 1#2 ∨ f = 2#2) :
    baseDimensions f = some (if f = 1#2 then 88 else 160, if f = 1#2 then 72 else 120) := by
  rcases h with rfl | rfl <;> rfl

section
variable {u : State} {f : BitVec 2} {r : BitVec 3} {bw bh : Nat}

theorem pictureDimensions_badFormat (h : baseDimensions f = none) :
    pictureDimensions u f r = videoEnd u .badFormat := by
  rw [pictureDimensions, h]

theorem pictureDimensions_badResolution (h : baseDimensions f = some (bw, bh)) (hr : r = 0#3) :
    pictureDimensions u f r = videoEnd u .badResolution := by
  rw [pictureDimensions, h]
  exact if_pos hr

theorem pictureDimensions_capacity (h : baseDimensions f = some (bw, bh)) (hr : r ≠ 0#3)
    (hbig : u.cfg.pixEntries < bw * 2 ^ (r.toNat - 1) * (bh * 2 ^ (r.toNat - 1)) ∨
      u.cfg.gridMaxMbs < bw * 2 ^ (r.toNat - 1) / 16) :
    pictureDimensions u f r = videoEnd u .capacity := by
  rw [pictureDimensions, h]
  exact (if_neg hr).trans (if_pos hbig)

theorem pictureDimensions_fits (h : baseDimensions f = some (bw, bh)) (hr : r ≠ 0#3)
    (hbig : ¬ (u.cfg.pixEntries < bw * 2 ^ (r.toNat - 1) * (bh * 2 ^ (r.toNat - 1)) ∨
      u.cfg.gridMaxMbs < bw * 2 ^ (r.toNat - 1) / 16)) :
    pictureDimensions u f r =
      videoSlice (u.setDimensions (bw * 2 ^ (r.toNat - 1)) (bh * 2 ^ (r.toNat - 1))) := by
  rw [pictureDimensions, h]
  exact (if_neg hr).trans (if_neg hbig)

end

/-- The registers of R218 and R220 written, and the slice counted (R223). -/
def State.sized (u : State) (w h : Nat) : State :=
  { u with v := { u.v with
    width := BitVec.ofNat 32 w, height := BitVec.ofNat 32 h, sliceCount := BitVec.ofNat 32 (h / 16),
    mbPerRow := BitVec.ofNat 32 (w / 16), sliceIndex := u.v.sliceIndex + 1 } }

/-- The same macroblock count: the grid and the pixels are kept (R221). -/
theorem videoSlice_sameGrid {u : State} {w h : Nat} (he : BitVec.ofNat 32 (w / 16) = u.v.gridMbs) :
    videoSlice (u.setDimensions w h) = videoMacroblock (u.sized w h) 0 := by
  rw [State.setDimensions, if_pos he]
  rfl

/-- Another macroblock count: a new grid of zeros and a cleared `PIX` (R221). -/
theorem videoSlice_newGrid {u : State} {w h : Nat} (hne : BitVec.ofNat 32 (w / 16) ≠ u.v.gridMbs)
    (hw : w / 16 < 2 ^ 32) :
    videoSlice (u.setDimensions w h) = videoMacroblock { u.sized w h with
      v := { (u.sized w h).v with
        gridMbs := BitVec.ofNat 32 (w / 16)
        grid := List.replicate (w / 16) (List.replicate 6 (List.replicate 64 0)) }
      pix := ⟨true, []⟩ } 0 := by
  rw [State.setDimensions, if_neg hne, State.realloc]
  have hcount : (BitVec.ofNat 32 (w / 16)).toNat = w / 16 := by rw [BitVec.toNat_ofNat, Nat.mod_eq_of_lt hw]
  dsimp only
  rw [hcount]
  rfl

/-- A resolution shift of 3 bits keeps the counts small (R218). -/
theorem shiftedWidth_lt {r : BitVec 3} {bw : Nat} (hbw : bw ≤ 160) :
    bw * 2 ^ (r.toNat - 1) / 16 < 2 ^ 32 := by
  have hr : r.toNat - 1 ≤ 6 := by omega
  have hp : 2 ^ (r.toNat - 1) ≤ 2 ^ 6 := Nat.pow_le_pow_right (by decide) hr
  have : bw * 2 ^ (r.toNat - 1) ≤ 160 * 2 ^ 6 := Nat.mul_le_mul hbw hp
  omega

/-- Settles O42: the fields are stored, then each check of R215 to R220 that fails ends the command, and a picture that
passes them all starts its first slice. -/
theorem pictureHeader : Obligations.PictureHeader := by
  intro f r ty q x s hs hin
  obtain ⟨t, ht⟩ := pictureDimensions_next (s.taken 45 (storeHeader f r ty q x)) f r
  have hexec := (exec_pictureHeader_inside f r ty q x hs hin).trans ht
  have honly := (stays_readPictureHeader hexec).only
  have hcfg : (s.taken 45 (storeHeader f r ty q x)).cfg = s.cfg := brMoveTo_cfg s _
  have hgrid : (s.taken 45 (storeHeader f r ty q x)).v.gridMbs = s.v.gridMbs := brMoveTo_v_gridMbs s _
  have hpix : (s.taken 45 (storeHeader f r ty q x)).pix = s.pix := brMoveTo_pix s _
  refine ⟨s.brMoveTo (s.brAt + 45), t, took_brMoveTo hs 45 hin, hexec, keepsBuffers_of_eq honly.vin honly.nin,
    fun hf => ?_, fun hf hr => ?_, fun hf hr hbig => ?_, fun hf hr hfit hsame => ?_, fun hf hr hfit hnew => ?_⟩
  · exact vduFailed_of_videoEnd (by decide) ((pictureDimensions_badFormat (baseDimensions_illegal hf)).symm.trans ht)
  · exact vduFailed_of_videoEnd (by decide)
      ((pictureDimensions_badResolution (baseDimensions_legal hf) hr).symm.trans ht)
  · exact vduFailed_of_videoEnd (by decide)
      ((pictureDimensions_capacity (baseDimensions_legal hf) hr (hcfg ▸ hbig)).symm.trans ht)
  · rw [pictureDimensions_fits (baseDimensions_legal hf) hr (hcfg ▸ hfit),
      videoSlice_sameGrid (hsame.trans hgrid.symm)] at ht
    obtain ⟨hloop, hkeep⟩ := macroblockLoop_of_start ht
    exact ⟨hloop, fun p => (hkeep.2 p).trans (congrArg (·.get p) hpix)⟩
  · rw [pictureDimensions_fits (baseDimensions_legal hf) hr (hcfg ▸ hfit),
      videoSlice_newGrid (fun he => hnew (he.trans hgrid)) (shiftedWidth_lt (by split <;> decide))] at ht
    obtain ⟨hloop, hkeep⟩ := macroblockLoop_of_start ht
    exact ⟨hloop, hkeep.2⟩

/-! ## The quantizers and the macroblocks (R222 to R229) -/

/-- Settles O44: the loop over the slice's macroblocks starts behind the field. -/
theorem sliceQuant : Obligations.SliceQuant := by
  intro q s hs hin
  obtain ⟨t, ht, hloop, hkeep⟩ := videoMacroblock_start
    (s.taken 5 fun v => { v with quant := q.zeroExtend 32, sliceIndex := v.sliceIndex + 1 })
  exact ⟨_, t, took_brMoveTo hs 5 hin, (videoTake_inside hin _).trans ht, keepsMemory_taken.trans hkeep, hloop⟩

/-- `MBC` = 1 inside the extent (R229). -/
theorem exec_mbcEmpty_inside {s : State} (h : s.brAt + 1 ≤ s.brExt) :
    exec .mbcEmpty s = videoMacroblock (s.brMoveTo (s.brAt + 1)) (s.v.ctx.mb + 1) := by
  rw [← brMoveTo_v_ctx s (s.brAt + 1)]
  exact videoTake_inside h _

/-- Settles O45: the loop over the macroblocks goes on; composing a slice writes neither a buffer nor the grid. -/
theorem Element.emptyMacroblock : Obligations.EmptyMacroblock := by
  intro s hinv hin
  obtain ⟨t, ht, hloop⟩ := videoMacroblock_spec (hinv.composeOk.brMoveTo (s.brAt + 1)) (s.v.ctx.mb + 1)
  exact ⟨_, t, took_brMoveTo hinv.cursor 1 hin, (exec_mbcEmpty_inside hin).trans ht, hloop,
    (keepsMemory_brMoveTo s _).1.trans hloop.keepsBuffers, hloop.grid.trans (brMoveTo_v_grid s _)⟩

/-- The bitmap kept (R226). -/
def storePresence (d : BitVec 8) (v : Vdu) : Vdu := { v with ctx := { v.ctx with des := d } }

/-- `MBDES` inside the extent (R226). -/
theorem exec_mbdes_inside {s : State} {d : BitVec 8} (h : s.brAt + 8 ≤ s.brExt) :
    exec (.mbdes d) s =
      if d.getLsbD 6 then .next ((s.taken 8 (storePresence d)).atElement .mbdiff)
      else videoBlock (s.taken 8 (storePresence d)) 0 := videoTake_inside h _

/-- Settles O46: bit 6 of the bitmap decides what follows it. -/
theorem Element.codedMacroblock : Obligations.CodedMacroblock := by
  intro s hs
  refine ⟨fun hin => ⟨_, took_brMoveTo hs 1 hin, keepsMemory_brMoveTo s _, videoTake_inside hin _⟩, fun d hin => ?_⟩
  have hkept : KeepsMemory s (s.taken 8 (storePresence d)) := keepsMemory_taken
  cases hd : d.getLsbD 6 with
  | true =>
    exact ⟨_, (s.taken 8 (storePresence d)).atElement .mbdiff, took_brMoveTo hs 8 hin,
      hkept.trans (keepsMemory_of_eq rfl rfl rfl),
      (exec_mbdes_inside hin).trans (if_pos hd), fun _ => rfl, nofun⟩
  | false =>
    obtain ⟨t, ht, hloop, hkeep⟩ := videoBlock_start (s.taken 8 (storePresence d))
    exact ⟨_, t, took_brMoveTo hs 8 hin, hkept.trans hkeep,
      (exec_mbdes_inside hin).trans ((if_neg (by rw [hd]; decide)).trans ht), nofun, fun _ => hloop⟩

/-- The four changes of the quantizer (R118, R227). -/
theorem quantDelta_eq (d : BitVec 2) :
    quantDelta d = BitVec.ofInt 32 (if d = 0#2 then -1 else if d = 1#2 then -2 else if d = 2#2 then 2 else 3) := by
  revert d; decide

/-- Settles O47: block 0 follows behind the changed quantizer. -/
theorem Element.quantDelta : Obligations.QuantDelta := by
  intro d s hs hin
  rw [← quantDelta_eq d]
  obtain ⟨t, ht, hloop, hkeep⟩ := videoBlock_start
    (s.taken 2 fun v => { v with quant := v.quant + Machine.quantDelta d })
  exact ⟨_, t, took_brMoveTo hs 2 hin, (videoTake_inside hin _).trans ht, keepsMemory_taken.trans hkeep, hloop⟩

/-! ## The whole command (R210, R211, R231, R232) -/

/-- The flags of the picture cleared (R210). -/
def State.flagsCleared (s : State) : State :=
  { s with v := { s.v with status := { s.v.status with picComplete := false, frameValid := false } } }

/-- A stream longer than the buffer (R232). -/
theorem videoBegin_lenRange {s : State} (h : s.cfg.vinBytes < s.v.len.toNat) :
    videoBegin s = videoEnd s.flagsCleared .lenRange := if_pos h

/-- Any other stream: a cursor at its first bit, and the first loop test (R210). -/
theorem videoBegin_inRange {s : State} (h : s.v.len.toNat ≤ s.cfg.vinBytes) :
    videoBegin s = videoAtHeader (State.brMoveTo { s with v := { s.v with
      status := { s.v.status with picComplete := false, frameValid := false }
      brLen := s.v.len, sliceIndex := 0 } } 0) := if_neg (Nat.not_lt.2 h)

/-- The command is its loop from the state its beginning leaves. -/
theorem execVDecode_of_begin {s u : State} (h : videoBegin s = .next u) :
    execVDecode s = videoLoop (videoBound u.brExt) u := by
  rw [execVDecode_eq, h]; rfl

/-- A command whose beginning has ended it is over. -/
theorem execVDecode_of_videoEnd {s u : State} {e : Err} (h : videoBegin s = videoEnd u e) :
    execVDecode s = videoEnd u e := (execVDecode_of_begin h).trans (videoLoop_idle _ _ rfl)

/-- The cursor over a stream that fits the buffer. -/
theorem cursorOk_started {s : State} (hv : s.cfg.valid = true) (hlen : s.v.brLen.toNat ≤ s.cfg.vinBytes) :
    CursorOk (s.brMoveTo 0) := ⟨hv, hlen, Nat.zero_le _⟩

/-- Settles O39: the length check ends the command at once, or the loop performs the elements and ends inside its
bound. -/
theorem decodePicture : Obligations.DecodePicture := by
  intro s hv
  refine ⟨fun hlen => ?_, fun hlen => ?_⟩
  · obtain ⟨t, ht, hfail, hkeep⟩ := videoEnd_err_keeps s.flagsCleared (e := .lenRange) (by decide)
    exact ⟨t, (execVDecode_of_videoEnd (videoBegin_lenRange hlen)).trans ht,
      (keepsMemory_of_eq rfl rfl rfl).trans hkeep, hfail⟩
  · obtain ⟨v, hbegin, hboundary⟩ := videoAtHeader_spec (State.brMoveTo { s with v := { s.v with
      status := { s.v.status with picComplete := false, frameValid := false }
      brLen := s.v.len, sliceIndex := 0 } } 0)
    have hcursor : CursorOk v := ((stays_videoAtHeader hbegin).onward.cursor (cursorOk_started hv hlen)).1
    obtain ⟨t, hloop, hrun⟩ := videoLoop_next hcursor (elementsLeft_le v)
    have hexec : execVDecode s = .next t :=
      (execVDecode_of_begin ((videoBegin_inRange hlen).trans hbegin)).trans hloop
    have hdone := completed_execVDecode hexec
    have honly := vduOnly_execVDecode hexec
    exact ⟨_, v, t, movedTo_brMoveTo _ 0 (Nat.zero_le _), hboundary, hrun, hexec, hdone.place, hdone.busy, hdone.done,
      keepsBuffers_of_eq honly.vin honly.nin, honly.ndu, honly.host⟩

end Sys2Proof.Machine
end

section
/-!
The block layer of `V.DECODE` (spec/43_video_block.md R250 to R262): what each of its elements consumes, stores and expects
next.
-/

namespace Sys2Proof.Machine

/-! ## `DC` (R250, R251) -/

/-- The coefficients of a new block, and a run code expected (R250, R251). -/
def startBlock (d : BitVec 10) (v : Vdu) : Vdu :=
  { v with ctx := { v.ctx with phase := .run, coef := (d.toNat : Int) :: List.replicate 63 0, scan := 0 } }

/-- `DC` inside the extent: the block's bit of `MBDES` decides between its AC codes and its end (R251). -/
theorem exec_dc_inside {s : State} {d : BitVec 10} (h : s.brAt + 10 ≤ s.brExt) :
    exec (.dc d) s =
      if s.v.ctx.des.getLsbD s.v.ctx.blk then .next (s.taken 10 (startBlock d))
      else videoEndBlock (s.taken 10 (startBlock d)) := by
  rw [← brMoveTo_v_ctx s (s.brAt + 10)]
  exact videoTake_inside h _

/-- Consuming bits, and a change of registers that a composition does not look at. -/
theorem ComposeOk.taken_startBlock {s : State} (h : ComposeOk s) (n : Nat) (d : BitVec 10) :
    ComposeOk (s.taken n (startBlock d)) :=
  ⟨(h.brMoveTo (s.brAt + n)).rising, (h.brMoveTo (s.brAt + n)).width⟩

/-- Settles O48: a block without AC codes is finished behind its `DC`. -/
theorem dcCoefficient : Obligations.DcCoefficient := by
  intro d s hinv hin
  have htook := took_brMoveTo hinv.cursor 10 hin
  have hkept : KeepsBuffers s (s.taken 10 (startBlock d)) := keepsMemory_taken.1
  cases hbit : s.v.ctx.des.getLsbD s.v.ctx.blk with
  | true => exact ⟨_, _, htook, (exec_dc_inside hin).trans (if_pos hbit), hkept, fun _ => rfl, nofun⟩
  | false =>
    obtain ⟨t, ht, hstored⟩ := videoEndBlock_spec (hinv.composeOk.taken_startBlock 10 d)
    exact ⟨_, t, htook, (exec_dc_inside hin).trans ((if_neg (by rw [hbit]; decide)).trans ht),
      hkept.trans hstored.keepsBuffers, nofun, fun _ => hstored⟩

/-! ## Run codes (R254, R255) -/

/-- A run and the length of its code noted, and a level code expected. -/
def State.runNoted (s : State) (run len : Nat) : State :=
  { s with v := { s.v with ctx := { s.v.ctx with phase := .level, run := run, runLen := len } } }

/-- A run code notes what it stands for and nothing else (R255). -/
theorem exec_runCode {i : Instr} {z e : Nat} (h : runOperands i = some (z, e)) (s : State) :
    exec i s = .next (s.runNoted (specRun z e) (specRunBits z)) := by
  obtain ⟨-, -, -, -, -, hexec⟩ := runOperands_cases h
  rw [hexec, inspectRun, runValue_eq, runLength_eq]
  rfl

theorem keepsMemory_runNoted (s : State) (run len : Nat) : KeepsMemory s (s.runNoted run len) :=
  keepsMemory_of_eq rfl rfl rfl

/-- Settles O49: a run code consumes nothing, and neither does a window that begins with 16 zeros. -/
theorem runCodes : Obligations.RunCodes := fun s =>
  ⟨fun _ _ _ h => ⟨_, exec_runCode h s, keepsMemory_runNoted s _ _, rfl⟩, videoEnd_err_keeps s (by decide)⟩

/-! ## Level codes (R253, R256) -/

/-- A level written at scan position `pos`, and the next run code expected (R253, R262). -/
def State.levelPlaced (u : State) (pos : Nat) (level : Int) : State :=
  { u with v := { u.v with ctx := { u.v.ctx with
    phase := .run, scan := pos, coef := u.v.ctx.coef.set (zigzag.getD pos 0) level } } }

/-- A level behind the run noted: placed, or past the last scan position (R253). -/
def placeLevel (level : Int) (u : State) : StepOutcome State :=
  if 63 < u.v.ctx.scan + u.v.ctx.run + 1 then videoEnd u .zigzagOverflow
  else .next (u.levelPlaced (u.v.ctx.scan + u.v.ctx.run + 1) level)

/-- Everything `placeLevel` does. -/
theorem placeLevel_spec (level : Int) (u : State) :
    ∃ t, placeLevel level u = .next t ∧ KeepsMemory u t ∧
      (u.v.ctx.scan + u.v.ctx.run + 1 ≤ 63 → t = u.levelPlaced (u.v.ctx.scan + u.v.ctx.run + 1) level) ∧
      (63 < u.v.ctx.scan + u.v.ctx.run + 1 → VduFailed u .zigzagOverflow t) := by
  by_cases h : 63 < u.v.ctx.scan + u.v.ctx.run + 1
  · obtain ⟨t, ht, hfail, hkeep⟩ := videoEnd_err_keeps u (e := .zigzagOverflow) (by decide)
    exact ⟨t, (if_pos h).trans ht, hkeep, fun hle => absurd h (Nat.not_lt.2 hle), fun _ => hfail⟩
  · exact ⟨_, if_neg h, keepsMemory_of_eq rfl rfl rfl, fun _ => rfl, fun hlt => absurd hlt h⟩

/-- A level code consumes the pair and places its level (R254, R256). -/
theorem exec_levelCode {i : Instr} {z m : Nat} {neg : Bool} (h : levelOperands i = some (z, m, neg)) (s : State) :
    exec i s = takePair (specLevelBits z) s (placeLevel (specLevel z m neg)) := by
  obtain ⟨-, -, -, -, -, -, hexec⟩ := levelOperands_cases h
  rw [hexec, ← levelLength_eq, ← levelValue_eq]
  rfl

/-- A pair of codes longer than the window is `VLC_OVERFLOW` before anything is consumed (R259). -/
theorem takePair_tooLong {s : State} {n : Nat} (h : 32 < s.v.ctx.runLen + n) (k : State → StepOutcome State) :
    ∃ t, takePair n s k = .next t ∧ VduFailed s .vlcOverflow t ∧ KeepsMemory s t := by
  rw [takePair, if_pos h]
  exact videoEnd_err_keeps s (by decide)

/-- A pair of codes past the extent is `READ_PAST_END`, with nothing consumed (R143). -/
theorem takePair_pastEnd {s : State} {n : Nat} (h : s.v.ctx.runLen + n ≤ 32)
    (hout : s.brExt < s.brAt + (s.v.ctx.runLen + n)) (k : State → StepOutcome State) :
    ∃ t, takePair n s k = .next t ∧ VduFailed s .readPastEnd t ∧ KeepsMemory s t := by
  rw [takePair_fits h]
  exact videoTake_pastEnd hout k

/-- A pair of codes inside the window and the extent is consumed as one (R254). -/
theorem takePair_inside {s : State} {n : Nat} (h : s.v.ctx.runLen + n ≤ 32)
    (hin : s.brAt + (s.v.ctx.runLen + n) ≤ s.brExt) (k : State → StepOutcome State) :
    takePair n s k = k (s.brMoveTo (s.brAt + (s.v.ctx.runLen + n))) :=
  (takePair_fits h k).trans (videoTake_inside hin k)

/-- Settles O50: by the length of the pair, then the extent, then the scan position. -/
theorem levelCodes : Obligations.LevelCodes := by
  intro i z m neg s hs hi len pos
  have hexec := exec_levelCode hi s
  refine ⟨fun hfit hin => ?_, fun hlong => ?_, fun hfit hout => ?_⟩
  · obtain ⟨t, ht, hkeep, hplaced, hfail⟩ := placeLevel_spec (specLevel z m neg) (s.brMoveTo (s.brAt + len))
    have hpos : (s.brMoveTo (s.brAt + len)).v.ctx.scan + (s.brMoveTo (s.brAt + len)).v.ctx.run + 1 = pos := by
      rw [brMoveTo_v_ctx]
    rw [hpos] at hplaced hfail
    exact ⟨_, t, took_brMoveTo hs len hin, hexec.trans ((takePair_inside hfit hin _).trans ht),
      (keepsMemory_brMoveTo s _).trans hkeep, hplaced, hfail⟩
  · rw [hexec]
    exact takePair_tooLong hlong _
  · rw [hexec]
    exact takePair_pastEnd hfit hout _

/-! ## The end of a block (R257, R260) -/

/-- Settles O51: the block is stored behind the two codes. -/
theorem Element.endOfBlock : Obligations.EndOfBlock := by
  intro s hinv hfit hin
  obtain ⟨t, ht, hstored⟩ := videoEndBlock_spec (hinv.composeOk.brMoveTo (s.brAt + (s.v.ctx.runLen + 2)))
  rw [brMoveTo_v_ctx] at hstored
  exact ⟨_, t, took_brMoveTo hinv.cursor _ hin, (takePair_inside hfit hin _).trans ht,
    (keepsMemory_brMoveTo s _).1.trans hstored.keepsBuffers, hstored⟩

end Sys2Proof.Machine
end

section
/-!
A run code with the level code behind it is what `RunLevelDecode` reads (spec/43_video_block.md R254 to R259), for
`BR.RLDEC` as for the two elements of a block.
-/

namespace Sys2Proof.Machine

/-! ## Two codes at the head of a window -/

section
variable {a b x y rest : Nat}

/-- Two codes in sequence are one code and what is left of the window behind it. -/
theorem window_append (h : a + b ≤ 32) :
    (x * 2 ^ b + y) * 2 ^ (32 - (a + b)) + rest = x * 2 ^ (32 - a) + (y * 2 ^ (32 - (a + b)) + rest) := by
  have hpow : 2 ^ (32 - a) = 2 ^ b * 2 ^ (32 - (a + b)) := by rw [← Nat.pow_add]; congr 1; omega
  rw [hpow]
  ring

theorem window_append_lt (h : a + b ≤ 32) (hy : y < 2 ^ b) (hr : rest < 2 ^ (32 - (a + b))) :
    y * 2 ^ (32 - (a + b)) + rest < 2 ^ (32 - a) := by
  calc y * 2 ^ (32 - (a + b)) + rest < (y + 1) * 2 ^ (32 - (a + b)) := by rw [Nat.add_mul, Nat.one_mul]; omega
    _ ≤ 2 ^ b * 2 ^ (32 - (a + b)) := Nat.mul_le_mul_right _ hy
    _ = 2 ^ (32 - a) := by rw [← Nat.pow_add]; congr 1; omega

/-- A code at the head of what the code before it left of the window stands behind that code. -/
theorem window_of_headedBy_shift {j : Instr} (hj : j.ctx = .level) (h : a + (encode j).len ≤ 32)
    (hh : HeadedBy j (rest * 2 ^ a)) :
    ∃ rest', rest' < 2 ^ (32 - (a + (encode j).len)) ∧ x * 2 ^ (32 - a) + rest =
      (x * 2 ^ (encode j).len + (encode j).val) * 2 ^ (32 - (a + (encode j).len)) + rest' := by
  have hpow : 2 ^ (32 - (encode j).len) = 2 ^ (32 - (a + (encode j).len)) * 2 ^ a := by
    rw [← Nat.pow_add]; congr 1; omega
  have hhead : rest / 2 ^ (32 - (a + (encode j).len)) = (encode j).val := by
    rw [← hh, hj, DecCtx.width, hpow, Nat.mul_div_mul_right _ _ (Nat.two_pow_pos a)]
  refine ⟨rest % 2 ^ (32 - (a + (encode j).len)), Nat.mod_lt _ (Nat.two_pow_pos _), ?_⟩
  rw [window_append h, ← hhead, Nat.div_add_mod']

end

/-- Behind a run code, `RunLevelDecode` is its level half (R254). -/
theorem runLevelOf_runCode {i : Instr} {z e rest : Nat} (hi : runOperands i = some (z, e))
    (hr : rest < 2 ^ (32 - specRunBits z)) :
    runLevelOf ((encode i).val * 2 ^ (32 - specRunBits z) + rest) =
      levelHalf ((encode i).val * 2 ^ (32 - specRunBits z) + rest) (specRunBits z) (specRun z e) := by
  rw [runLevelOf_eq, runHalf_code hi hr]

/-- A run code and a level code at the head of a window (R254). -/
theorem runLevelOf_level {i j : Instr} {z e z2 m rest : Nat} {neg : Bool} (hi : runOperands i = some (z, e))
    (hj : levelOperands j = some (z2, m, neg)) (hfit : specRunBits z + specLevelBits z2 ≤ 32)
    (hr : rest < 2 ^ (32 - (specRunBits z + specLevelBits z2))) :
    runLevelOf (((encode i).val * 2 ^ specLevelBits z2 + (encode j).val)
        * 2 ^ (32 - (specRunBits z + specLevelBits z2)) + rest) =
      some ⟨specRun z e, specLevel z2 m neg, false, specRunBits z + specLevelBits z2⟩ := by
  obtain ⟨-, -, -, -, hlen, -⟩ := levelOperands_cases hj
  have hval : (encode j).val < 2 ^ specLevelBits z2 := hlen ▸ (encode_fits j (wellFormed_of_levelOperands hj)).2
  rw [window_append hfit, runLevelOf_runCode hi (window_append_lt hfit hval hr), ← window_append hfit]
  exact levelHalf_code _ hj hfit hr

/-- A run code and an end of block at the head of a window (R257). -/
theorem runLevelOf_eob {i : Instr} {z e rest : Nat} (hi : runOperands i = some (z, e))
    (hfit : specRunBits z + 2 ≤ 32) (hr : rest < 2 ^ (32 - (specRunBits z + 2))) :
    runLevelOf (((encode i).val * 4 + 1) * 2 ^ (32 - (specRunBits z + 2)) + rest) =
      some ⟨0, 0, true, specRunBits z + 2⟩ := by
  have happend : ((encode i).val * 4 + 1) * 2 ^ (32 - (specRunBits z + 2)) + rest =
      (encode i).val * 2 ^ (32 - specRunBits z) + (1 * 2 ^ (32 - (specRunBits z + 2)) + rest) := window_append hfit
  rw [happend, runLevelOf_runCode hi (window_append_lt hfit (by decide) hr), ← happend]
  exact levelHalf_eob _ hfit hr

/-- Too many zeros before the level code for what the run code left of the window (R259). -/
theorem levelHalf_tooLong {w len : Nat} (run : Nat) (h2 : 2 ≤ clz32 (w * 2 ^ len % 2 ^ 32))
    (hlong : 32 < len + (2 * clz32 (w * 2 ^ len % 2 ^ 32) + 1)) : levelHalf w len run = none := by
  unfold levelHalf
  dsimp only
  generalize clz32 (w * 2 ^ len % 2 ^ 32) = z2 at h2 hlong
  rw [if_neg (by omega : ¬ z2 = 1), if_neg (by omega : ¬ z2 = 0), if_pos (by omega : len + z2 + 1 + z2 > 32), ite_self]

/-! ## `BR.RLDEC` (R258) -/

/-- No pair of codes in the window (R259). -/
theorem exec_brRldec_none {s : State} (h : runLevelOf (s.brPeek 32) = none) :
    exec .brRldec s = videoEnd s .vlcOverflow := by
  change execBrRldec s = _
  rw [execBrRldec, h]

/-- A pair of codes in the window is consumed, then recorded (R258). -/
theorem exec_brRldec_some {s : State} {r : RunLevel} (h : runLevelOf (s.brPeek 32) = some r) :
    exec .brRldec s = videoTake s r.len fun t => videoEnd (t.setRunLevel r) .none := by
  change execBrRldec s = _
  rw [execBrRldec, h]

/-- A pair of codes inside the extent. -/
theorem brRldec_inside {s : State} {r : RunLevel} (hs : CursorOk s) (h : runLevelOf (s.brPeek 32) = some r)
    (hin : s.brAt + r.len ≤ s.brExt) :
    ∃ u t, Took s r.len u ∧ exec .brRldec s = .next t ∧ KeepsMemory s t ∧ VduDone (u.setRunLevel r) t := by
  have hkept : KeepsMemory s ((s.brMoveTo (s.brAt + r.len)).setRunLevel r) :=
    (keepsMemory_brMoveTo s _).trans (keepsMemory_of_eq rfl rfl rfl)
  obtain ⟨t, ht, hdone, hkeep⟩ := videoEnd_none_keeps hkept
  exact ⟨_, t, took_brMoveTo hs _ hin, (exec_brRldec_some h).trans ((videoTake_inside hin _).trans ht), hkeep, hdone⟩

/-- A pair of codes past the extent. -/
theorem brRldec_pastEnd {s : State} {r : RunLevel} (h : runLevelOf (s.brPeek 32) = some r)
    (hout : s.brExt < s.brAt + r.len) :
    ∃ t, exec .brRldec s = .next t ∧ VduFailed s .readPastEnd t ∧ KeepsMemory s t := by
  rw [exec_brRldec_some h]
  exact videoTake_pastEnd hout _

/-- A window without a pair of codes. -/
theorem brRldec_overflow {s : State} (h : runLevelOf (s.brPeek 32) = none) :
    ∃ t, exec .brRldec s = .next t ∧ VduFailed s .vlcOverflow t ∧ KeepsMemory s t := by
  rw [exec_brRldec_none h]
  exact videoEnd_err_keeps s (by decide)

/-- Settles O38: what `RunLevelDecode` reads from each of these windows decides what the command does. -/
theorem brRldec : Obligations.BrRldec := by
  intro s hs
  refine ⟨fun i j z e z2 m rest neg hi hj hfit hr hw => ?_, fun i z e rest hi hr hw hin => ?_, fun hsmall => ?_,
    fun i z e z2 rest hi h2 hz hlong hr hw => ?_⟩
  · have hread := (congrArg runLevelOf hw).trans (runLevelOf_level hi hj hfit hr)
    exact ⟨brRldec_inside hs hread, brRldec_pastEnd hread⟩
  · obtain ⟨hz, -⟩ := runOperands_cases hi
    have hfit : specRunBits z + 2 ≤ 32 := by rw [specRunBits_eq]; omega
    exact brRldec_inside hs ((congrArg runLevelOf hw).trans (runLevelOf_eob hi hfit hr)) hin
  · exact brRldec_overflow (runLevelOf_small hsmall)
  · have hrest : rest < 2 ^ (32 - specRunBits z) :=
      hr.trans_le (Nat.pow_le_pow_right (by decide) (Nat.sub_le _ _))
    refine brRldec_overflow ((congrArg runLevelOf hw).trans ((runLevelOf_runCode hi hrest).trans ?_))
    exact levelHalf_overflow _ (by omega) h2 hz hlong hr

/-! ## The pair of elements (R254, log entry 5) -/

/-- What stands at the head of a 32-bit window, as the run place and the level place read it one after the other, with
what `RunLevelDecode` reads from the whole window. -/
inductive PairRead (w : Nat) : Prop where
  /-- No run code (R124). -/
  | noRun (hrun : decode .run w = .ok .runOvf) (hpair : runLevelOf w = none)
  /-- A run code, and no level code behind it (R123). -/
  | noLevel {i : Instr} {z e : Nat} (hi : runOperands i = some (z, e)) (hrun : decode .run w = .ok i)
      (hlevel : decode .level (w * 2 ^ specRunBits z % 2 ^ 32) = .error .levelOverflow) (hpair : runLevelOf w = none)
  /-- Two codes longer than the window (R259). -/
  | tooLong {i j : Instr} {z e z2 m : Nat} {neg : Bool} (hi : runOperands i = some (z, e))
      (hrun : decode .run w = .ok i) (hj : levelOperands j = some (z2, m, neg))
      (hlevel : decode .level (w * 2 ^ specRunBits z % 2 ^ 32) = .ok j)
      (hlong : 32 < specRunBits z + specLevelBits z2) (hpair : runLevelOf w = none)
  /-- A run code and an end of block (R257). -/
  | endOfBlock {i : Instr} {z e : Nat} (hi : runOperands i = some (z, e)) (hrun : decode .run w = .ok i)
      (hlevel : decode .level (w * 2 ^ specRunBits z % 2 ^ 32) = .ok .eob) (hfit : specRunBits z + 2 ≤ 32)
      (hpair : runLevelOf w = some ⟨0, 0, true, specRunBits z + 2⟩)
  /-- A run code and a level code (R254). -/
  | level {i j : Instr} {z e z2 m : Nat} {neg : Bool} (hi : runOperands i = some (z, e))
      (hrun : decode .run w = .ok i) (hj : levelOperands j = some (z2, m, neg))
      (hlevel : decode .level (w * 2 ^ specRunBits z % 2 ^ 32) = .ok j)
      (hfit : specRunBits z + specLevelBits z2 ≤ 32)
      (hpair : runLevelOf w = some ⟨specRun z e, specLevel z2 m neg, false, specRunBits z + specLevelBits z2⟩)

/-- A window is a run code and what is left of it, or begins with 16 zeros (R120, R124). -/
theorem decode_run_cases {w : Nat} (hw : w < 2 ^ 32) :
    (w < 2 ^ 16 ∧ decode .run w = .ok .runOvf) ∨
    ∃ i z e rest, runOperands i = some (z, e) ∧ decode .run w = .ok i ∧ rest < 2 ^ (32 - specRunBits z) ∧
      w = (encode i).val * 2 ^ (32 - specRunBits z) + rest := by
  rw [decode_run hw]
  by_cases hz : clz32 w ≤ 15
  · right
    have hop := runOperands_runInstr (w / 2 ^ (32 - specRunBits (clz32 w))) hz
    obtain ⟨-, -, -, hlen, -⟩ := runOperands_cases hop
    rw [← decodeRun_eq_runInstr hz] at hop hlen
    obtain ⟨hplace, -, hhead⟩ := spells_decodeRun hw
    obtain ⟨rest, hr, hcode⟩ := hhead.exists_codeWindow
    rw [hplace, hlen, DecCtx.width] at hr
    rw [codeWindow, hplace, hlen, DecCtx.width] at hcode
    exact ⟨_, _, _, rest, hop, rfl, hr, hcode.symm⟩
  · left
    have h16 := (le_clz32_iff_head hw).1 (by omega)
    exact ⟨by omega, congrArg _ (decodeRun_overflow (by omega))⟩

/-- What is left of a window is a level code, an end of block, or begins with 16 zeros (R121 to R123). -/
theorem decode_level_cases {w : Nat} (hw : w < 2 ^ 32) :
    (16 ≤ clz32 w ∧ decode .level w = .error .levelOverflow) ∨ (decode .level w = .ok .eob ∧ HeadedBy .eob w) ∨
    ∃ j z2 m neg, levelOperands j = some (z2, m, neg) ∧ clz32 w = z2 ∧ decode .level w = .ok j ∧ HeadedBy j w := by
  rw [decode_level hw]
  by_cases hz : clz32 w ≤ 15
  · right
    have hdec := decodeLevel_eq_levelInstr hz
    have hhead := (spells_of_decodeLevel hw hdec).head
    by_cases h1 : clz32 w = 1
    · rw [h1] at hdec hhead
      exact .inl ⟨hdec, hhead⟩
    · exact .inr ⟨_, _, _, _, levelOperands_levelInstr _ _ hz h1, rfl, hdec, hhead⟩
  · exact .inl ⟨by omega, decodeLevel_overflow (by omega)⟩

/-- Every window is one of the five. -/
theorem pairRead {w : Nat} (hw : w < 2 ^ 32) : PairRead w := by
  rcases decode_run_cases hw with ⟨hsmall, hrun⟩ | ⟨i, z, e, rest, hi, hrun, hr, rfl⟩
  · exact .noRun hrun (runLevelOf_small hsmall)
  obtain ⟨hz, -⟩ := runOperands_cases hi
  have hlen : specRunBits z ≤ 30 := by rw [specRunBits_eq]; omega
  have hpair := runLevelOf_runCode hi hr
  have hshift := window_shift (val := (encode i).val) (by omega) hr
  have hlt := Nat.mod_lt (((encode i).val * 2 ^ (32 - specRunBits z) + rest) * 2 ^ specRunBits z) (Nat.two_pow_pos 32)
  rcases decode_level_cases hlt with ⟨h16, hlevel⟩ | ⟨hlevel, hhead⟩ | ⟨j, z2, m, neg, hj, hz2, hlevel, hhead⟩
  · exact .noLevel hi hrun hlevel (hpair.trans (levelHalf_tooLong _ (by omega) (by omega)))
  · rw [hshift] at hhead
    have hfit : specRunBits z + 2 ≤ 32 := by omega
    obtain ⟨rest', hr', hcode⟩ := window_of_headedBy_shift (x := (encode i).val) rfl hfit hhead
    exact .endOfBlock hi hrun hlevel hfit ((congrArg runLevelOf hcode).trans (runLevelOf_eob hi hfit hr'))
  · obtain ⟨-, h1, -, -, hjlen, -⟩ := levelOperands_cases hj
    by_cases hfit : specRunBits z + specLevelBits z2 ≤ 32
    · rw [hshift] at hhead
      obtain ⟨rest', hr', hcode⟩ :=
        window_of_headedBy_shift (x := (encode i).val) (ctx_of_levelOperands hj) (by rw [hjlen]; exact hfit) hhead
      rw [hjlen] at hr' hcode
      exact .level hi hrun hj hlevel hfit ((congrArg runLevelOf hcode).trans (runLevelOf_level hi hj hfit hr'))
    · rw [not_le] at hfit
      have hbits := specLevelBits_eq h1
      exact .tooLong hi hrun hj hlevel hfit (hpair.trans (levelHalf_tooLong _ (by omega) (by omega)))

/-- The state behind the pair, where `RunLevelDecode` reads `r` (R253, R257, R259). -/
def PairDone (s : State) (r : RunLevel) (t : State) : Prop :=
  (s.brExt < s.brAt + r.len → VduFailed s .readPastEnd t) ∧
  (s.brAt + r.len ≤ s.brExt → ∃ run len v, Took (s.runNoted run len) r.len v ∧
    (r.last = true → BlockStored v s.v.ctx.coef t) ∧
    (r.last = false → s.v.ctx.scan + r.run + 1 ≤ 63 →
      t = { v with v := { v.v with ctx := { v.v.ctx with
        phase := .run
        scan := s.v.ctx.scan + r.run + 1
        coef := s.v.ctx.coef.set (zigzag.getD (s.v.ctx.scan + r.run + 1) 0) r.level } } }) ∧
    (r.last = false → 63 < s.v.ctx.scan + r.run + 1 → VduFailed v .zigzagOverflow t))

/-- The state behind the pair, whatever `RunLevelDecode` reads from the window. -/
def PairOutcome (s t : State) : Prop :=
  (runLevelOf (s.brPeek 32) = none → VduFailed s .vlcOverflow t) ∧
  ∀ r, runLevelOf (s.brPeek 32) = some r → PairDone s r t

section
variable {s t : State} {run len : Nat}

theorem PairOutcome.of_none (hpair : runLevelOf (s.brPeek 32) = none) (h : VduFailed s .vlcOverflow t) :
    PairOutcome s t :=
  ⟨fun _ => h, fun _ hr => nomatch hpair.symm.trans hr⟩

theorem PairOutcome.of_some {r : RunLevel} (hpair : runLevelOf (s.brPeek 32) = some r) (h : PairDone s r t) :
    PairOutcome s t :=
  ⟨fun hn => (nomatch hpair.symm.trans hn), fun _ hr => Option.some.inj (hpair.symm.trans hr) ▸ h⟩

/-- The end of a command forgets the run noted (log entry 5). -/
theorem VduFailed.of_runNoted {e : Err} (h : VduFailed (s.runNoted run len) e t) : VduFailed s e t := h

/-- A pair whose last code is past the extent. -/
theorem PairDone.of_pastEnd {r : RunLevel} (hout : s.brExt < s.brAt + r.len)
    (h : VduFailed (s.runNoted run len) .readPastEnd t) : PairDone s r t :=
  ⟨fun _ => h.of_runNoted, fun hin => absurd hout (Nat.not_lt.2 hin)⟩

/-- An end of block behind a run code of `len` bits (R257). -/
theorem exec_eob_runNoted (h : Inv (s.runNoted run len)) (hfit : len + 2 ≤ 32) :
    ∃ t, exec .eob (s.runNoted run len) = .next t ∧ PairDone s ⟨0, 0, true, len + 2⟩ t := by
  by_cases hin : s.brAt + (len + 2) ≤ s.brExt
  · obtain ⟨v, t, htook, ht, -, hstored⟩ := Element.endOfBlock _ h hfit hin
    exact ⟨t, ht, fun hout => absurd hin (Nat.not_le.2 hout),
      fun _ => ⟨run, len, v, htook, fun _ => hstored, nofun, nofun⟩⟩
  · obtain ⟨t, ht, hfail, -⟩ := takePair_pastEnd (s := s.runNoted run len) hfit (Nat.not_le.1 hin) videoEndBlock
    exact ⟨t, ht, .of_pastEnd (Nat.not_le.1 hin) hfail⟩

/-- A level code behind a run code of `len` bits (R253). -/
theorem exec_level_runNoted {j : Instr} {z m : Nat} {neg : Bool} (h : CursorOk (s.runNoted run len))
    (hj : levelOperands j = some (z, m, neg)) (hfit : len + specLevelBits z ≤ 32) :
    ∃ t, exec j (s.runNoted run len) = .next t ∧
      PairDone s ⟨run, specLevel z m neg, false, len + specLevelBits z⟩ t := by
  obtain ⟨hinside, -, hpastEnd⟩ := levelCodes j z m neg _ h hj
  by_cases hin : s.brAt + (len + specLevelBits z) ≤ s.brExt
  · obtain ⟨v, t, htook, ht, -, hplaced, hfail⟩ := hinside hfit hin
    have hcoef : v.v.ctx.coef = (s.runNoted run len).v.ctx.coef := by rw [htook.1]
    rw [hcoef] at hplaced
    exact ⟨t, ht, fun hout => absurd hin (Nat.not_le.2 hout),
      fun _ => ⟨run, len, v, htook, nofun, fun _ => hplaced, fun _ => hfail⟩⟩
  · obtain ⟨t, ht, hfail, -⟩ := hpastEnd hfit (Nat.not_le.1 hin)
    exact ⟨t, ht, .of_pastEnd (Nat.not_le.1 hin) hfail⟩

theorem videoWindow_run (hp : s.v.ctx.phase = .run) : videoWindow s = some (.run, s.brPeek 32) := by
  rw [videoWindow, hp]

/-- The level place looks at the same window, without the run code. -/
theorem videoWindow_runNoted (s : State) (run len : Nat) :
    videoWindow (s.runNoted run len) = some (.level, s.brPeek 32 * 2 ^ len % 2 ^ 32) := rfl

theorem videoElement_runCode {i : Instr} {z e : Nat} (hp : s.v.ctx.phase = .run) (hi : runOperands i = some (z, e))
    (hrun : decode .run (s.brPeek 32) = .ok i) :
    videoElement s = .next (s.runNoted (specRun z e) (specRunBits z)) :=
  (videoElement_exec (videoWindow_run hp) hrun).trans (exec_runCode hi s)

/-- A run code leads to the level place, where the pair is decided. -/
theorem pair_of_runNoted (hu : videoElement s = .next (s.runNoted run len))
    (ht : videoElement (s.runNoted run len) = .next t) (h : PairOutcome s t) :
    ∃ u t, videoElement s = .next u ∧ (u.v.ctx.phase = .level → videoElement u = .next t) ∧
      (u.v.ctx.phase ≠ .level → t = u) ∧ PairOutcome s t :=
  ⟨_, t, hu, fun _ => ht, fun hne => absurd rfl hne, h⟩

end

/-- Settles O53: by what stands at the head of the window; behind a run code, by what the level place reads. -/
theorem pairIsRunLevelDecode : Obligations.PairIsRunLevelDecode := by
  intro s hinv hp
  have hw : s.brPeek 32 < 2 ^ 32 := bitsFrom_lt _ _ _
  cases pairRead hw with
  | noRun hrun hpair =>
    obtain ⟨t, ht, hfail, -⟩ := videoEnd_err_keeps s (e := .vlcOverflow) (by decide)
    have hidle : t.v.ctx.phase = .idle := by rw [hfail.2]
    exact ⟨t, t, (videoElement_exec (videoWindow_run hp) hrun).trans ht,
      fun hlevel => (nomatch hidle.symm.trans hlevel), fun _ => rfl, PairOutcome.of_none hpair hfail⟩
  | noLevel hi hrun hlevel hpair =>
    have hu := videoElement_runCode hp hi hrun
    obtain ⟨t, ht, hfail, -⟩ := videoEnd_err_keeps (s.runNoted _ _) (e := .vlcOverflow) (by decide)
    exact pair_of_runNoted hu ((videoElement_reject (videoWindow_runNoted s _ _) hlevel).trans ht)
      (.of_none hpair hfail.of_runNoted)
  | tooLong hi hrun hj hlevel hlong hpair =>
    have hu := videoElement_runCode hp hi hrun
    obtain ⟨-, htooLong, -⟩ := levelCodes _ _ _ _ _ (hinv.videoElement hu).cursor hj
    obtain ⟨t, ht, hfail, -⟩ := htooLong hlong
    exact pair_of_runNoted hu ((videoElement_exec (videoWindow_runNoted s _ _) hlevel).trans ht)
      (.of_none hpair hfail.of_runNoted)
  | endOfBlock hi hrun hlevel hfit hpair =>
    have hu := videoElement_runCode hp hi hrun
    obtain ⟨t, ht, hdone⟩ := exec_eob_runNoted (hinv.videoElement hu) hfit
    exact pair_of_runNoted hu ((videoElement_exec (videoWindow_runNoted s _ _) hlevel).trans ht)
      (.of_some hpair hdone)
  | level hi hrun hj hlevel hfit hpair =>
    have hu := videoElement_runCode hp hi hrun
    obtain ⟨t, ht, hdone⟩ := exec_level_runNoted (hinv.videoElement hu).cursor hj hfit
    exact pair_of_runNoted hu ((videoElement_exec (videoWindow_runNoted s _ _) hlevel).trans ht)
      (.of_some hpair hdone)

end Sys2Proof.Machine
end

section
/-!
The scan table and the reference transform on written-out blocks (R262, R294 to R303).
-/

namespace Sys2Proof.Machine

/-! ## The scan table (R262) -/

/-- No raster index has two scan positions. -/
theorem nodup_zigzag : zigzag.Nodup := by decide

/-- Every raster index has a scan position. -/
theorem mem_zigzag : ∀ i < 64, i ∈ zigzag := by decide

/-- Every raster index has one scan position. -/
theorem existsUnique_scanPosition {i : Nat} (hi : i < 64) :
    ∃ pos < 64, zigzag.getD pos 0 = i ∧ ∀ q < 64, zigzag.getD q 0 = i → q = pos := by
  obtain ⟨pos, hpos, hval⟩ := List.mem_iff_getElem.1 (mem_zigzag i hi)
  refine ⟨pos, hpos, (List.getD_eq_getElem _ _ hpos).trans hval, fun q hq hqval => ?_⟩
  have hq' : q < zigzag.length := hq
  rw [List.getD_eq_getElem _ _ hq', ← hval] at hqval
  exact (nodup_zigzag.getElem_inj_iff).1 hqval

/-! ## The vectors of R303 -/

/-- The block of 64 coefficients with these at their raster indices and 0 elsewhere. -/
def sparseBlock (cells : List (Nat × Int)) : Block := (List.range 64).map fun i => (cells.lookup i).getD 0

/-- Row `r` of the samples of a block. -/
def referenceRow (coef : Block) (r : Nat) : List Int := ((idctReference coef).drop (8 * r)).take 8

/-- One coefficient in the first row: every row is the same. -/
theorem referenceRow_horizontal :
    ∀ r < 8, referenceRow (sparseBlock [(1, 100)]) r = [17, 15, 10, 3, -3, -10, -15, -17] := by decide

/-- One coefficient in the first column: every row is constant. -/
theorem referenceRow_vertical :
    ∀ r < 8, referenceRow (sparseBlock [(8, 100)]) r =
      List.replicate 8 ([17, 15, 10, 3, -3, -10, -15, -17].getD r 0) := by decide

theorem idctReference_oneAc :
    idctReference (sparseBlock [(0, 800), (9, -64)]) =
      [85, 87, 91, 97, 103, 109, 113, 115, 87, 89, 93, 97, 103, 107, 111, 113,
       91, 93, 95, 98, 102, 105, 107, 109, 97, 97, 98, 99, 101, 102, 103, 103,
       103, 103, 102, 101, 99, 98, 97, 97, 109, 107, 105, 102, 98, 95, 93, 91,
       113, 111, 107, 103, 97, 93, 89, 87, 115, 113, 109, 103, 97, 91, 87, 85] := by decide

theorem idctReference_twoAc :
    idctReference (sparseBlock [(0, 768), (1, 15), (9, -4)]) =
      [98, 97, 97, 96, 96, 95, 95, 94, 98, 98, 97, 96, 96, 95, 94, 94,
       98, 98, 97, 96, 96, 95, 94, 94, 98, 98, 97, 96, 96, 95, 94, 94,
       99, 98, 98, 97, 95, 94, 94, 93, 99, 99, 98, 97, 95, 94, 93, 93,
       99, 99, 98, 97, 95, 94, 93, 93, 100, 99, 98, 97, 95, 94, 93, 92] := by decide

/-- The extreme block: sums of pass 2 wrap at 32 bits (R300). -/
theorem referenceRow_extreme :
    referenceRow (List.replicate 64 32767) 0 = [-682, 3163, 313, -1018, -6040, -2608, -868, 6826] ∧
      referenceRow (List.replicate 64 32767) 7 = [6826, -1862, 1476, -519, 798, -78, 463, 204] := by decide

/-- Settles O60: the table by its members, the vectors by evaluating the transform. -/
theorem scanAndTransformVectors : Obligations.ScanAndTransformVectors :=
  ⟨rfl, fun _ => existsUnique_scanPosition, referenceRow_horizontal, referenceRow_vertical, idctReference_oneAc,
    idctReference_twoAc, referenceRow_extreme⟩

end Sys2Proof.Machine
end

section
/-!
The reference transform as a form of R292, and every form on a DC-only block (spec/44_video_idct.md R290 to R302).
-/

namespace Sys2Proof.Machine

/-! ## Wrapping and descaling (R11, R299, R300) -/

/-- A value that fits its signed width is kept. -/
theorem wrapTo_of_inSigned {bits : Nat} (h : 1 ≤ bits) {v : Int} (hv : InSigned bits v) : wrapTo bits v = v := by
  have e : ((2 ^ bits : Nat) : Int) = 2 * 2 ^ (bits - 1) := by
    push_cast
    rw [← pow_succ', Nat.sub_add_cancel h]
  obtain ⟨hlo, hhi⟩ := hv
  exact Int.bmod_eq_of_le_mul_two (by omega) (by omega)

@[simp] theorem wrapTo_zero (bits : Nat) : wrapTo bits 0 = 0 := Int.zero_bmod

/-- Dropping the low `n` bits of a value that fits `m + n` signed bits leaves one that fits `m`. -/
theorem inSigned_ediv_two_pow {m n : Nat} (hm : 1 ≤ m) {w : Int} (hw : InSigned (m + n) w) :
    InSigned m (w / 2 ^ n) := by
  have hpos : (0 : Int) < 2 ^ n := by positivity
  have e : (2 : Int) ^ (m + n - 1) = 2 ^ (m - 1) * 2 ^ n := by rw [← pow_add]; congr 1; omega
  obtain ⟨hlo, hhi⟩ := hw
  rw [e] at hlo hhi
  exact ⟨(Int.le_ediv_iff_mul_le hpos).2 (by rw [Int.neg_mul]; exact hlo), (Int.ediv_lt_iff_lt_mul hpos).2 hhi⟩

/-- A wrap before a shift is the narrower wrap after it. -/
theorem wrapTo_ediv_two_pow {m : Nat} (n : Nat) (hm : 1 ≤ m) (y : Int) :
    wrapTo (m + n) y / 2 ^ n = wrapTo m (y / 2 ^ n) := by
  have hsplit : wrapTo (m + n) y / 2 ^ n = y / 2 ^ n - (2 ^ m : Nat) * y.bdiv (2 ^ (m + n)) := by
    have e : ((2 ^ (m + n) : Nat) : Int) = 2 ^ n * (2 ^ m : Nat) := by push_cast; ring
    unfold wrapTo
    rw [Int.bmod_eq_self_sub_mul_bdiv, e, mul_assoc, Int.sub_mul_ediv_left _ _ (by positivity)]
  have hfits := inSigned_ediv_two_pow hm (inSigned_wrapTo (m + n) (by omega) y)
  calc wrapTo (m + n) y / 2 ^ n
      = wrapTo m (wrapTo (m + n) y / 2 ^ n) := (wrapTo_of_inSigned hm hfits).symm
    _ = wrapTo m (y / 2 ^ n) := by rw [hsplit]; exact Int.sub_mul_bmod_self_left _ _ _

/-- `descale` with the wrap behind the shift. -/
theorem descale_eq_wrapTo {n : Nat} (hn : n < 32) (x : Int) :
    descale x n = wrapTo (32 - n) ((x + 2 ^ (n - 1)) / 2 ^ n) := by
  rw [descale, ← wrapTo_ediv_two_pow n (by omega), Nat.sub_add_cancel hn.le]

/-! ## The 1-D kernel of a form (R292) -/

/-- The exact sum of products behind output `i` of a form's kernel. -/
def formSum (f : TransformForm) (v : Nat → Int) (i : Nat) : Int :=
  f.dc * v 0 + ((List.range 7).map fun j => f.ac i (j + 1) * v (j + 1)).sum

/-- Nothing but input 0 is nonzero. -/
def dcOnly (v : Nat → Int) : Bool := (List.range 7).all fun j => v (j + 1) == 0

theorem dcOnly_iff {v : Nat → Int} : dcOnly v = true ↔ ∀ j < 7, v (j + 1) = 0 := by
  simp only [dcOnly, List.all_eq_true, List.mem_range, beq_iff_eq]

theorem formSum_of_dcOnly (f : TransformForm) {v : Nat → Int} (h : dcOnly v = true) (i : Nat) :
    formSum f v i = f.dc * v 0 := by
  have hzero : ((List.range 7).map fun j => f.ac i (j + 1) * v (j + 1)).sum = 0 := by
    refine List.sum_eq_zero fun x hx => ?_
    obtain ⟨j, hj, rfl⟩ := List.mem_map.1 hx
    rw [dcOnly_iff.1 h j (List.mem_range.1 hj), mul_zero]
  rw [formSum, hzero, add_zero]

/-- The kernel of a form by its outputs. -/
theorem formKernel_eq_map (f : TransformForm) (pass n : Nat) (v : Nat → Int) :
    formKernel f pass n v = (List.range 8).map fun i => formDescale f pass n (dcOnly v) (formSum f v i) := rfl

theorem formKernel_of_dcOnly (f : TransformForm) (pass n : Nat) {v : Nat → Int} (h : dcOnly v = true) :
    formKernel f pass n v = List.replicate 8 (formDescale f pass n true (f.dc * v 0)) := by
  simp only [formKernel_eq_map, h, formSum_of_dcOnly f h, List.map_const', List.length_range]

@[simp] theorem formDescale_zero (f : TransformForm) (pass n : Nat) (dcOnly : Bool) :
    formDescale f pass n dcOnly 0 = 0 := by simp [formDescale]

/-! ## A DC-only block (R291) -/

theorem getD_map_range {α : Type} (g : Nat → α) (d : α) {n i : Nat} (hi : i < n) :
    ((List.range n).map g).getD i d = g i := by simp [hi]

theorem dcBlock_getD (c : Int) (i : Nat) : (c :: List.replicate 63 0).getD i 0 = if i = 0 then c else 0 := by
  cases i with
  | zero => rfl
  | succ i => exact List.getElem?_getD_replicate_default_eq 0 63 i

theorem formIndex_eq_zero (f : TransformForm) (a b : Nat) : formIndex f a b = 0 ↔ a = 0 ∧ b = 0 := by
  unfold formIndex
  split <;> omega

/-- Line `b` of pass 1: only the first entry of the first line is nonzero. -/
theorem formKernel_dcBlock (f : TransformForm) (n b : Nat) (c : Int) :
    (formKernel f 1 n fun r => (c :: List.replicate 63 0).getD (formIndex f r b) 0) =
      List.replicate 8 (if b = 0 then formDescale f 1 n true (f.dc * c) else 0) := by
  have hdc : (dcOnly fun r => (c :: List.replicate 63 0).getD (formIndex f r b) 0) = true := dcOnly_iff.2 fun j _ => by
    simp only [dcBlock_getD, formIndex_eq_zero, Nat.add_one_ne_zero, false_and, if_false]
  rw [formKernel_of_dcOnly f 1 n hdc]
  simp only [dcBlock_getD, formIndex_eq_zero, true_and]
  split <;> simp only [mul_zero, formDescale_zero]

/-- Line `r` of the workspace behind a DC-only block: its first entry is that of pass 1, the others are 0. -/
theorem dcWorkspace_entry {r c : Nat} (hr : r < 8) (hc : c < 8) (y : Int) :
    (((List.range 8).map fun b => List.replicate 8 (if b = 0 then y else 0)).getD c []).getD r 0 =
      if c = 0 then y else 0 := by
  rw [getD_map_range _ _ hc, List.getD_replicate _ hr]

/-- Every form has the DC-only property, whatever its constants (R291). -/
theorem formApply_dcBlock (f : TransformForm) (c : Int) :
    formApply f (c :: List.replicate 63 0) = List.replicate 64
      (formDescale f 2 (13 + f.pass1Bits + f.normBits) true
        (f.dc * formDescale f 1 (13 - f.pass1Bits) true (f.dc * c))) := by
  unfold formApply
  simp only [formKernel_dcBlock]
  generalize formDescale f 1 _ true (f.dc * c) = y
  have hline : ∀ r ∈ List.range 8, (formKernel f 2 (13 + f.pass1Bits + f.normBits) fun c =>
      (((List.range 8).map fun b => List.replicate 8 (if b = 0 then y else 0)).getD c []).getD r 0) =
        List.replicate 8 (formDescale f 2 (13 + f.pass1Bits + f.normBits) true (f.dc * y)) := by
    intro r hr
    have hr := List.mem_range.1 hr
    rw [formKernel_of_dcOnly]
    · rw [dcWorkspace_entry hr (by omega), if_pos rfl]
    · refine dcOnly_iff.2 fun j hj => ?_
      rw [dcWorkspace_entry hr (by omega), if_neg (by omega)]
  rw [List.map_congr_left hline]
  refine List.eq_replicate_iff.2 ⟨by simp, fun x hx => ?_⟩
  obtain ⟨i, hi, rfl⟩ := List.mem_map.1 hx
  have hi := List.mem_range.1 hi
  split
  · rw [getD_map_range _ _ (by omega), List.getD_replicate _ (by omega)]
  · rw [getD_map_range _ _ (by omega), List.getD_replicate _ (by omega)]

/-! ## The reference transform as a form (R294 to R300) -/

/-- The constants of R295 multiplied out: the kernel's exact sums are those of the form. -/
theorem idctKernel_eq_map (v : Nat → Int) (n : Nat) :
    idctKernel (v 0) (v 1) (v 2) (v 3) (v 4) (v 5) (v 6) (v 7) n =
      (List.range 8).map fun i => descale (formSum transformReference v i) n := by
  simp only [idctKernel, formSum, transformReference, referenceConstants, List.range, List.range.loop, List.map_cons,
    List.map_nil, List.sum_cons, List.sum_nil, List.getD_cons_zero, List.getD_cons_succ, List.cons.injEq, and_true,
    Nat.reduceAdd, Nat.reduceSub]
  refine ⟨?_, ?_, ?_, ?_, ?_, ?_, ?_, ?_⟩ <;> congr 1 <;> ring

/-- Half up: the addend before the shift is the carry behind it (R299). -/
theorem add_half_ediv_two_pow {n : Nat} (hn : 1 ≤ n) (x : Int) :
    (x + 2 ^ (n - 1)) / 2 ^ n =
      x / 2 ^ n + if x % 2 ^ n ≠ 0 ∧ decide (2 ^ (n - 1) ≤ x % 2 ^ n) = true then 1 else 0 := by
  have hpos : (0 : Int) < 2 ^ (n - 1) := by positivity
  have e : (2 : Int) ^ n = 2 * 2 ^ (n - 1) := by rw [← pow_succ', Nat.sub_add_cancel hn]
  rw [e]
  generalize (2 : Int) ^ (n - 1) = b at hpos ⊢
  have hx := Int.mul_ediv_add_emod x (2 * b)
  have hr0 := Int.emod_nonneg x (show 2 * b ≠ 0 by omega)
  have hr1 := Int.emod_lt_of_pos x (show 0 < 2 * b by omega)
  have hshift : (x + b) / (2 * b) = x / (2 * b) + (x % (2 * b) + b) / (2 * b) := by
    rw [← Int.mul_add_ediv_left _ _ (show 2 * b ≠ 0 by omega)]
    congr 1
    linarith
  have hcarry : (x % (2 * b) + b) / (2 * b) = if b ≤ x % (2 * b) then 1 else 0 := by
    split
    · exact (Int.ediv_eq_iff_of_pos (by omega)).2 ⟨by omega, by omega⟩
    · exact Int.ediv_eq_zero_of_lt (by omega) (by omega)
  rw [hshift, hcarry]
  congr 1
  refine if_congr ?_ rfl rfl
  simp only [decide_eq_true_eq]
  omega

/-- A form that rounds half up and keeps what is left of 32 bits descales as R299 and R300 say. -/
theorem formDescale_eq_descale {f : TransformForm} {pass n : Nat} {dcOnly : Bool} (h1 : 1 ≤ n) (hn : n < 32) {x : Int}
    (hround : f.roundsUp pass x = decide (2 ^ (n - 1) ≤ x % 2 ^ n)) (hwidth : f.width pass dcOnly = 32 - n) :
    formDescale f pass n dcOnly x = descale x n := by
  rw [descale_eq_wrapTo hn, add_half_ediv_two_pow h1, formDescale, hround, hwidth]

/-- The shift of the fast path drops no bit. -/
theorem formDescale_reference_fastPath (x : Int) :
    formDescale transformReference 1 11 true (8192 * x) = wrapTo 32 (x * 4) := by
  have hq : 8192 * x / 2 ^ 11 = x * 4 := by omega
  have hr : 8192 * x % 2 ^ 11 = 0 := by omega
  unfold formDescale
  rw [hq, hr, if_neg (fun h => h.1 rfl), add_zero]
  rfl

/-- Pass 1 of the reference: the fast path is the form on a DC-only column, the kernel the form on any other (R297). -/
theorem idctColumn_eq_formKernel (coef : Block) (c : Nat) :
    idctColumn coef c = formKernel transformReference 1 11 fun r => coef.getD (8 * r + c) 0 := by
  unfold idctColumn
  dsimp only
  split
  next hac =>
    obtain ⟨h1, h2, h3, h4, h5, h6, h7⟩ := hac
    rw [formKernel_of_dcOnly]
    · exact congrArg _ (formDescale_reference_fastPath _).symm
    · refine dcOnly_iff.2 fun j hj => ?_
      interval_cases j <;> assumption
  next hac =>
    have hnot : (dcOnly fun r => coef.getD (8 * r + c) 0) = false := Bool.eq_false_iff.2 fun h =>
      have hz := dcOnly_iff.1 h
      hac ⟨hz 0 (by decide), hz 1 (by decide), hz 2 (by decide), hz 3 (by decide), hz 4 (by decide), hz 5 (by decide),
        hz 6 (by decide)⟩
    rw [formKernel_eq_map, hnot]
    refine (idctKernel_eq_map (fun r => coef.getD (8 * r + c) 0) 11).trans (List.map_congr_left fun i _ => ?_)
    exact (formDescale_eq_descale (by decide) (by decide) rfl rfl).symm

/-- Pass 2 of the reference: every row goes through the kernel (R298). -/
theorem idctRow_eq_formKernel (columns : List (List Int)) (r : Nat) :
    idctRow columns r = formKernel transformReference 2 18 fun c => (columns.getD c []).getD r 0 := by
  refine (idctKernel_eq_map (fun c => (columns.getD c []).getD r 0) 18).trans ?_
  exact List.map_congr_left fun i _ => (formDescale_eq_descale (by decide) (by decide) rfl rfl).symm

/-- Eight rows of eight outputs, read off in raster order. -/
theorem flatMap_rows (out : Nat → Nat → Int) :
    ((List.range 8).flatMap fun r => (List.range 8).map (out r)) =
      (List.range 64).map fun i =>
        (((List.range 8).map fun r => (List.range 8).map (out r)).getD (i / 8) []).getD (i % 8) 0 := rfl

theorem flatMap_formKernel (f : TransformForm) (pass n : Nat) (row : Nat → Nat → Int) :
    ((List.range 8).flatMap fun r => formKernel f pass n (row r)) =
      (List.range 64).map fun i =>
        (((List.range 8).map fun r => formKernel f pass n (row r)).getD (i / 8) []).getD (i % 8) 0 := by
  simp only [formKernel_eq_map]
  exact flatMap_rows fun r i => formDescale f pass n (dcOnly (row r)) (formSum f (row r) i)

/-- The reference transform is the form, for every block (R294 to R300). -/
theorem idctReference_eq_formApply (coef : Block) : idctReference coef = formApply transformReference coef := by
  unfold idctReference
  dsimp only
  rw [funext (idctColumn_eq_formKernel coef), funext (idctRow_eq_formKernel _)]
  exact flatMap_formKernel transformReference 2 18 _

/-! ## The obligations -/

/-- A DC coefficient that fits the workspace gives `(c + 4) >> 3` wrapped to the 14 bits that pass 2 leaves of 32 (R297 to
R300, R302). -/
theorem idctReference_dcBlock {c : Int} (hc : InSigned 32 (c * 4)) :
    idctReference (c :: List.replicate 63 0) = List.replicate 64 (wrapTo 14 ((c + 4) / 8)) := by
  have hfirst : formDescale transformReference 1 11 true (8192 * c) = c * 4 :=
    (formDescale_reference_fastPath c).trans (wrapTo_of_inSigned (by decide) hc)
  have hsecond : formDescale transformReference 2 18 true (8192 * (c * 4)) = wrapTo 14 ((c + 4) / 8) := by
    rw [formDescale_eq_descale (by decide) (by decide) rfl rfl, descale_eq_wrapTo (by decide)]
    congr 1
    omega
  rw [idctReference_eq_formApply, formApply_dcBlock, ← hsecond, ← hfirst]
  rfl

/-- The kernel on a column with nothing but its first entry (R297). -/
theorem idctKernel_dcOnly (c : Int) (n : Nat) :
    idctKernel c 0 0 0 0 0 0 0 n = List.replicate 8 (descale (c * 2 ^ 13) n) := by
  simp [idctKernel]

/-- Settles O54: the quotient of R302 fits 14 bits, but for the top of the range, where it is 8192. -/
theorem referenceDcOnly : Obligations.ReferenceDcOnly := by
  intro c
  refine ⟨fun hlo hhi => ?_, fun hlo hhi => ?_, fun hlo hhi => ?_⟩
  · rw [idctReference_dcBlock ⟨by omega, by omega⟩, wrapTo_of_inSigned (by decide) ⟨by omega, by omega⟩]
  · have hquot : (c + 4) / 8 = 8192 := by omega
    rw [idctReference_dcBlock ⟨by omega, by omega⟩, hquot]
    rfl
  · have hquot : (c * 2 ^ 13 + 2 ^ (11 - 1)) / 2 ^ 11 = 4 * c := by omega
    rw [idctKernel_dcOnly, descale_eq_wrapTo (by decide), hquot,
      wrapTo_of_inSigned (by decide) ⟨by omega, by omega⟩]

/-- Every configured transform is a form. -/
theorem exists_idctApply_eq_formApply (choice : IdctChoice) :
    ∃ f : TransformForm, ∀ coef, idctApply choice coef = formApply f coef := by
  cases choice with
  | reference => exact ⟨transformReference, idctReference_eq_formApply⟩
  | other k => exact ⟨Config.transformForm k, fun _ => rfl⟩

/-- Settles O55: what holds of every form holds of the configured transform. -/
theorem transformProperties : Obligations.TransformProperties := by
  intro cfg hvalid
  obtain ⟨f, hf⟩ := exists_idctApply_eq_formApply cfg.idct
  have hsample : 1 ≤ cfg.sampleBits := by have := Config.valid_facts hvalid; omega
  refine ⟨⟨f, hf⟩, fun href coef => ?_, fun c => ⟨_, (hf _).trans (formApply_dcBlock f c)⟩,
    fun coef => ⟨idctApply_length _ _, fun x hx => ?_⟩⟩
  · rw [href]
    exact idctReference_eq_formApply coef
  · obtain ⟨y, -, rfl⟩ := List.mem_map.1 hx
    exact inSigned_wrapTo _ hsample y

end Sys2Proof.Machine
end

section
/-!
The control registers as the host sees them (spec/46_control.md): which unit a register belongs to and when a read of it
is exact, the bytes a read of a buffer returns, the writes that act at once, and the writes that do nothing.
-/

namespace Sys2Proof.Machine

/-! ## Which unit a register belongs to -/

/-- The unit whose command may write a register, the status registers among them (R26, R49, R433). -/
def Reg.unit : Reg → Option DecodeUnit
  | .vStatus => some .vdu
  | .nStatus => some .ndu
  | r => r.writer

/-- Where the registers a unit's command may write stand (R25 to R59): in the unit's part of the map, at none of the
offsets that only the host writes. -/
def UnitOffset (u : DecodeUnit) (off : Nat) : Prop :=
  off ∉ [0x000, 0x004, 0x008, 0x00C, 0x100, 0x108, 0x200, 0x208] ∧
    match u with
    | .vdu => 0x100 ≤ off ∧ off < 0x200
    | .ndu => 0x200 ≤ off

/-- A register is a word of a vision slot or one of the table (R21 to R59). -/
theorem regAt_cases {off : Nat} {r : Reg} (h : regAt off = some r) :
    (0x280 ≤ off ∧ ∃ t f, r = .nVis t f) ∨ (off, r) ∈ regTable := by
  unfold regAt at h
  split at h
  · next hvis =>
    cases h
    exact .inl ⟨hvis.1, _, _, rfl⟩
  · exact .inr (cellFind_mem regTable off r h)

theorem regTable_unit : ∀ c ∈ regTable, ∀ u ∈ c.2.unit, UnitOffset u c.1 := by
  have htable : ∀ c ∈ regTable,
      (c.2.unit = some .vdu → UnitOffset .vdu c.1) ∧ (c.2.unit = some .ndu → UnitOffset .ndu c.1) := by
    unfold UnitOffset; decide
  intro c hc u hu
  cases u with
  | vdu => exact (htable c hc).1 hu
  | ndu => exact (htable c hc).2 hu

theorem regAt_unit {off : Nat} {r : Reg} {u : DecodeUnit} (h : regAt off = some r) (hu : r.unit = some u) :
    UnitOffset u off := by
  rcases regAt_cases h with ⟨hlo, t, f, rfl⟩ | hmem
  · cases hu
    have hlo' : 0x200 ≤ off := by omega
    refine ⟨?_, hlo'⟩
    simp only [List.mem_cons, List.not_mem_nil, or_false]
    omega
  · exact regTable_unit _ hmem u hu

/-- The command registers stand at their two offsets alone (R25, R48). -/
theorem regAt_command {off : Nat} {r : Reg} (h : regAt off = some r) (hr : r = .vCmd ∨ r = .nCmd) :
    off = 0x100 ∨ off = 0x200 := by
  have htable : ∀ c ∈ regTable, c.2 = .vCmd ∨ c.2 = .nCmd → c.1 = 0x100 ∨ c.1 = 0x200 := by decide
  rcases regAt_cases h with ⟨-, t, f, rfl⟩ | hmem
  · exact absurd hr (by simp)
  · exact htable _ hmem hr

/-! ## Reads (R72 to R74, R355, R356) -/

/-- A register reads as itself while the unit it belongs to, if there is one, is idle. -/
theorem hostReadReg_of_idle {s : State} {r : Reg} (h : ∀ u, r.unit = some u → s.busy u = false) (any : Word) :
    s.hostReadReg r any = s.readReg r := by
  unfold State.hostReadReg
  split
  · have hidle : s.v.status.busy = false := h .vdu rfl
    rw [hidle]; rfl
  · have hidle : s.n.status.busy = false := h .ndu rfl
    rw [hidle]; rfl
  · next hv hn =>
    split
    · next u hu =>
      have hunit : r.unit = r.writer := by
        unfold Reg.unit
        split
        · exact absurd rfl hv
        · exact absurd rfl hn
        · rfl
      rw [h u (hunit.trans hu)]; rfl
    · rfl

/-- The offsets whose reads are exact are those of no unit and those of an idle one (R433). -/
theorem ReadsExactly.idle {s : State} {off : Nat} {u : DecodeUnit} (h : ReadsExactly s off) (hu : UnitOffset u off) :
    s.busy u = false := by
  obtain ⟨hnot, hrange⟩ := hu
  rcases h with hmem | ⟨hlo, hhi, hidle⟩ | ⟨hlo, hidle⟩
  · exact absurd hmem hnot
  · cases u with
    | vdu => exact hidle
    | ndu => exact absurd hrange (by omega)
  · cases u with
    | vdu => exact absurd hrange.2 (by omega)
    | ndu => exact hidle

theorem hostRead_reg_exact {s : State} {off : Nat} {r : Reg} (width : Nat) (any : Word) (hr : regAt off = some r)
    (h : ReadsExactly s off) : s.hostRead .reg off width any = s.readReg r := by
  simp only [State.hostRead, hr]
  exact hostReadReg_of_idle (fun _ hu => h.idle (regAt_unit hr hu)) any

/-- A read of a buffer sets no bit above its bytes (R73). -/
theorem hostReadBytes_lt (m : Memory) (any : Word) (a width : Nat) :
    (hostReadBytes m any a width).toNat < 2 ^ (8 * width) := by
  rw [hostReadBytes, BitVec.toNat_ofNat]
  exact lt_of_le_of_lt (Nat.mod_le _ _) (leRead_lt _ _ _)

/-- Byte `k` of a read of a buffer is the byte at the `k`-th address (R73, R76). -/
theorem hostReadBytes_byte (m : Memory) (any : Word) (a : Nat) {k width : Nat} (hk : k < width) (hw : width ≤ 4) :
    (hostReadBytes m any a width).extractLsb' (8 * k) 8 = hostByte m (wordByte any k) (a + k) := by
  have hpow : 2 ^ (8 * width) ≤ 2 ^ 32 := Nat.pow_le_pow_right (by decide) (by omega)
  apply BitVec.eq_of_toNat_eq
  rw [← wordByte_eq_extractLsb', wordByte, hostReadBytes, BitVec.toNat_ofNat, BitVec.toNat_ofNat,
    Nat.mod_eq_of_lt (lt_of_lt_of_le (leRead_lt _ a width) hpow)]
  exact (leRead_byte _ a width k hk).trans (by rw [Nat.add_sub_cancel_left])

/-- A byte that has been written is returned at its place, whatever the free value of the read is (R73, R413). -/
theorem hostReadBytes_written (m : Memory) (any : Word) (a : Nat) {k width : Nat} {b : Byte} (hk : k < width)
    (hw : width ≤ 4) (hb : cellFind m (a + k) = some b) :
    (hostReadBytes m any a width).extractLsb' (8 * k) 8 = b := by
  rw [hostReadBytes_byte m any a hk hw, hostByte, hb, Option.getD_some]

/-- A pixel that holds a word reads as it while the VDU is idle (R74). -/
theorem hostRead_pix_idle {s : State} {p : Nat} {w : Word} (hidle : s.v.status.busy = false)
    (hw : s.pix.get p = some w) (width : Nat) (any : Word) : s.hostRead .pix (4 * p) width any = w := by
  have hp : 4 * p / 4 = p := by omega
  rw [State.hostRead, hp, hw, if_neg (ne_true_of_eq_false hidle), Option.getD_some]

/-- Settles O24: the step is `step_read`, and each space says what its word holds. -/
theorem registerReads : Obligations.RegisterReads := by
  intro s rest ha
  refine ⟨fun off hlt hm hq => ?_, fun a width hv hw hm => ⟨fun hb hq => ?_, fun hb hq => ?_⟩, fun p hv hp hq => ?_⟩
  · obtain ⟨t, ht, hread, hdata⟩ := step_read ha hq (resolveAccess_reg hlt hm)
    have hexact (r : Reg) (hr : regAt off = some r) (he : ReadsExactly s off) : t.host.data = s.readReg r :=
      hdata.trans (hostRead_reg_exact 4 _ hr he)
    refine ⟨t, ht, hread, ?_, fun hr => hdata.trans (hostRead_reg_reserved s 4 _ hr), hexact⟩
    rintro rfl
    exact hexact .id rfl (.inl (by decide))
  · obtain ⟨t, ht, hread, hdata⟩ := step_read ha hq (resolveAccess_vin hv hw hm hb)
    refine ⟨t, ht, hread, ?_, fun k hk b hbyte => ?_⟩ <;> rw [hdata]
    · exact hostReadBytes_lt s.vin _ a width
    · exact hostReadBytes_written s.vin _ a hk (by omega) hbyte
  · obtain ⟨t, ht, hread, hdata⟩ := step_read ha hq (resolveAccess_nin hv hw hm hb)
    refine ⟨t, ht, hread, ?_, fun k hk b hbyte => ?_⟩ <;> rw [hdata]
    · exact hostReadBytes_lt s.nin _ a width
    · exact hostReadBytes_written s.nin _ a hk (by omega) hbyte
  · obtain ⟨t, ht, hread, hdata⟩ := step_read ha hq (resolveAccess_pix hv hp)
    exact ⟨t, ht, hread, fun hidle w hw => hdata.trans (hostRead_pix_idle hidle hw 4 _)⟩

/-! ## `SOFT_RESET` (R350, R412) -/

section
variable (s : State) (b : Bool) (u : DecodeUnit)

@[simp] theorem resetIf_cfg : (s.resetIf b u).cfg = s.cfg := by cases b <;> cases u <;> rfl
@[simp] theorem resetIf_irqEnable : (s.resetIf b u).irqEnable = s.irqEnable := by cases b <;> cases u <;> rfl
@[simp] theorem resetIf_vin : (s.resetIf b u).vin = s.vin := by cases b <;> cases u <;> rfl
@[simp] theorem resetIf_nin : (s.resetIf b u).nin = s.nin := by cases b <;> cases u <;> rfl
@[simp] theorem resetIf_pix : (s.resetIf b u).pix = s.pix := by cases b <;> cases u <;> rfl
@[simp] theorem resetIf_host : (s.resetIf b u).host = s.host := by cases b <;> cases u <;> rfl
@[simp] theorem resetIfVdu_v : (s.resetIf b .vdu).v = if b then Vdu.reset else s.v := by cases b <;> rfl
@[simp] theorem resetIfVdu_n : (s.resetIf b .vdu).n = s.n := by cases b <;> rfl
@[simp] theorem resetIfNdu_v : (s.resetIf b .ndu).v = s.v := by cases b <;> rfl
@[simp] theorem resetIfNdu_n : (s.resetIf b .ndu).n = if b then Ndu.reset else s.n := by cases b <;> rfl

/-- A reset of the VDU keeps the interrupt bits of the NDU (R22, R412). -/
@[simp] theorem resetIfVdu_irqStatus :
    (s.resetIf b .vdu).irqStatus = s.irqStatus &&& (if b then 0b11000#5 else 0b11111#5) := by
  cases b with
  | false => exact BitVec.and_allOnes.symm
  | true => rfl

/-- A reset of the NDU keeps the interrupt bits of the VDU (R22, R412). -/
@[simp] theorem resetIfNdu_irqStatus :
    (s.resetIf b .ndu).irqStatus = s.irqStatus &&& (if b then 0b00111#5 else 0b11111#5) := by
  cases b with
  | false => exact BitVec.and_allOnes.symm
  | true => rfl

end

/-- Settles O20: the reset of the one unit, then of the other, field by field. -/
theorem softReset : Obligations.SoftReset := by
  intro n v s
  refine ⟨(s.resetIf v .vdu).resetIf n .ndu, rfl, by simp, by simp, ?_, by simp, by simp, by simp, by simp,
    keepsMemory_of_eq (by simp) (by simp) (by simp)⟩
  rw [resetIfNdu_irqStatus, resetIfVdu_irqStatus, BitVec.and_assoc]

/-! ## The interrupt registers (R351, R352, R386) -/

/-- The output is 1 when some bit is both pending and enabled. -/
theorem irqOutput_iff (s : State) :
    s.irqOutput = true ↔ ∃ k < 5, s.irqStatus.getLsbD k = true ∧ s.irqEnable.getLsbD k = true := by
  rw [State.irqOutput, bne_iff_ne, ne_eq, BitVec.eq_of_getLsbD_eq_iff]
  simp

/-- Settles O21: the bits of the mask one by one, and `irqOutput_iff` in the state after the write. -/
theorem interruptWrites : Obligations.InterruptWrites := by
  intro m s
  refine ⟨⟨_, rfl, keepsMemory_of_eq rfl rfl rfl, rfl, fun k hk => ?_, irqOutput_iff _⟩,
    ⟨_, rfl, keepsMemory_of_eq rfl rfl rfl, rfl, irqOutput_iff _⟩⟩
  simp [hk]

/-! ## The length registers (R353, R354, R432) -/

theorem exec_vLen (l : BitVec 32) (s : State) :
    exec (.vLen l) s =
      if s.v.status.busy then .refused .lengthBusy else .next { s with v := { s.v with len := l } } := rfl

theorem exec_nLen (l : BitVec 32) (s : State) :
    exec (.nLen l) s =
      if s.n.status.busy then .refused .lengthBusy else .next { s with n := { s.n with len := l } } := rfl

/-- Settles O22: `BUSY` of the register's own unit decides. -/
theorem lengthWrites : Obligations.LengthWrites := by
  intro l s
  refine ⟨fun hidle => ⟨_, ?_, rfl, keepsMemory_of_eq rfl rfl rfl⟩, fun hbusy => ?_,
    fun hidle => ⟨_, ?_, rfl, keepsMemory_of_eq rfl rfl rfl⟩, fun hbusy => ?_⟩
  · rw [exec_vLen, if_neg (ne_true_of_eq_false hidle)]
  · rw [exec_vLen, if_pos hbusy]
  · rw [exec_nLen, if_neg (ne_true_of_eq_false hidle)]
  · rw [exec_nLen, if_pos hbusy]

/-! ## The command registers (R358, R359, R383) -/

/-- A write to a register that is no operation of R104. -/
theorem step_writeReg {s : State} {off : Nat} {w : Word} {rest : List HostAccess} (ha : s.nextAgent = .host)
    (hlt : off < 0x1000) (hm : off % 4 = 0) (hop : off ∉ [0x004, 0x008, 0x00C, 0x108, 0x208])
    (hq : s.host.queue = .write (s.cfg.vfdBase + off) 4 w :: rest) :
    step s = .next (s.hostMoved.hostWriteReg off w) := by
  have hi : hostInstr s.cfg (.write (s.cfg.vfdBase + off) 4 w) = none := by
    rw [hostInstr_reg w hlt hm, operation_regAt hop]
  rw [step_write ha hq hi (resolveAccess_reg hlt hm), State.hostWrite]

theorem accept_vdu_eq (s : State) (w : Word) :
    s.accept .vdu w = { s with v := { s.v with
      status := if s.v.status.busy then { s.v.status with rejected := true }
        else { s.v.status with busy := true, done := false, rejected := false, err := .none }
      pending := if s.v.status.busy then s.v.pending else some w } } := by
  rw [State.accept]
  split <;> rfl

theorem accept_ndu_eq (s : State) (w : Word) :
    s.accept .ndu w = { s with n := { s.n with
      status := if s.n.status.busy then { s.n.status with rejected := true }
        else { s.n.status with busy := true, done := false, rejected := false, err := .none }
      pending := if s.n.status.busy then s.n.pending else some w } } := by
  rw [State.accept]
  split <;> rfl

/-- Settles O23: the step is `accept` of the unit, which looks at no other unit. -/
theorem commandAcceptance : Obligations.CommandAcceptance := by
  intro s w rest ha
  refine ⟨fun hq => ⟨s.hostMoved.accept .vdu w, ?_, keepsMemory_of_eq (accept_vin ..) (accept_nin ..) (accept_pix ..),
      accept_vdu_eq s.hostMoved w⟩,
    fun hq => ⟨s.hostMoved.accept .ndu w, ?_, keepsMemory_of_eq (accept_vin ..) (accept_nin ..) (accept_pix ..),
      accept_ndu_eq s.hostMoved w⟩⟩
  · exact step_writeReg ha (by decide) rfl (by decide) hq
  · exact step_writeReg ha (by decide) rfl (by decide) hq

/-! ## Writes without an effect (R357, R74) -/

/-- A register that is no command register is left as it is. -/
theorem hostWriteReg_of_not_command (s : State) {off : Nat} (w : Word) (hv : off ≠ 0x100) (hn : off ≠ 0x200) :
    s.hostWriteReg off w = s := by
  unfold State.hostWriteReg
  split
  · next h => exact absurd (regAt_command h (.inl rfl)) (by omega)
  · next h => exact absurd (regAt_command h (.inr rfl)) (by omega)
  · rfl

/-- Settles O27: such a register is neither an operation of R104 nor a command register, and a write to `PIX` is none. -/
theorem ineffectiveWrites : Obligations.IneffectiveWrites := by
  intro s w rest ha
  refine ⟨fun off hlt hm hoff hq => ?_, fun p hv hp hq => ?_⟩
  · simp only [List.mem_cons, List.not_mem_nil, or_false, not_or] at hoff
    obtain ⟨hStatus, hEnable, hReset, hvCmd, hvLen, hnCmd, hnLen⟩ := hoff
    have hop : off ∉ [0x004, 0x008, 0x00C, 0x108, 0x208] := by simp [*]
    rw [step_writeReg ha hlt hm hop hq, hostWriteReg_of_not_command _ w hvCmd hnCmd]
  · have hr := resolveAccess_pix hv hp
    rw [step_write ha hq (hostInstr_of_space w hr (by decide)) hr, State.hostWrite]

end Sys2Proof.Machine
end

section
/-!
Errors and interrupts (spec/60_exceptions.md R371, R385): how a command word that stands for no instruction ends, and what
every instruction does to the interrupt registers.
-/

namespace Sys2Proof.Machine

/-! ## An illegal command word (R371) -/

/-- A word that stands for no instruction is rejected. -/
theorem decode_rejects {c : DecCtx} {w : Nat} (h : ∀ i, decode c w ≠ .ok i) : ∃ r, decode c w = .error r := by
  cases hd : decode c w with
  | ok i => exact absurd hd (h i)
  | error r => exact ⟨r, rfl⟩

/-- Settles O9: a rejected word is fetched as the end of its command with `BAD_COMMAND`, and that end keeps memory. -/
theorem badCommand : Obligations.BadCommand := by
  intro s w
  have hmoved : KeepsMemory s s.moved := keepsMemory_of_eq rfl rfl rfl
  refine ⟨fun ha hb hp hw hbad => ?_, fun ha hb hp hw hbad => ?_⟩
  · obtain ⟨r, hd⟩ := decode_rejects hbad
    obtain ⟨t, hend, hfail⟩ := videoEnd_err s.moved .badCommand (by decide)
    have hstep := step_vdu_other ha (fetchVdu_badWord (s := s.moved) hb hp hw hd)
    have hcode : t.v.status.err = .badCommand := by rw [hfail.2]
    exact ⟨t, hstep.trans hend, hfail, by rw [hcode]; rfl, hmoved.trans hfail.2.keepsMemory⟩
  · obtain ⟨r, hd⟩ := decode_rejects hbad
    obtain ⟨t, hend, hfail⟩ := navEnd_err s.moved .badCommand (by decide)
    have hstep := step_ndu_other ha (fetchNdu_badWord (s := s.moved) hb hp hw hd)
    have hcode : t.n.status.err = .badCommand := by rw [hfail.2]
    exact ⟨t, hstep.trans hend, hfail, by rw [hcode]; rfl, hmoved.trans hfail.2.keepsMemory⟩

/-! ## The interrupt registers (R352, R385) -/

/-- Bits of `IRQ_STATUS` may have been set, none cleared, and `IRQ_ENABLE` is as it was. -/
structure InterruptsKept (s t : State) : Prop where
  status : ∀ k, s.irqStatus.getLsbD k = true → t.irqStatus.getLsbD k = true
  enable : t.irqEnable = s.irqEnable

theorem VduLocal.interruptsKept {s t : State} (h : VduLocal s t) : InterruptsKept s t := ⟨h.irqKept, h.irqEnable⟩

theorem NduOnly.interruptsKept {s t : State} (h : NduOnly s t) : InterruptsKept s t := ⟨h.irqKept, h.irqEnable⟩

/-- What leaves both registers alone. -/
theorem interruptsKept_of_eq {s t : State} (hstatus : t.irqStatus = s.irqStatus) (henable : t.irqEnable = s.irqEnable) :
    InterruptsKept s t := ⟨fun k hk => by rw [hstatus]; exact hk, henable⟩

/-- The operations of R104 that write an interrupt register (R350 to R352, R412). -/
inductive WritesInterrupts : Instr → Prop where
  | softReset (n v : Bool) : WritesInterrupts (.softReset n v)
  | irqStatus (m : BitVec 5) : WritesInterrupts (.irqStatusW1c m)
  | irqEnable (e : BitVec 5) : WritesInterrupts (.irqEnable e)

/-- Every instruction is one of those operations, or clears no interrupt bit and writes no enable. -/
theorem exec_interrupts {s t : State} {i : Instr} (h : exec i s = .next t) :
    WritesInterrupts i ∨ InterruptsKept s t := by
  cases instrClass i with
  | vduCommand hi => exact .inr (vduLocal_exec hi h).interruptsKept
  | nduCommand hi => exact .inr (nduOnly_exec hi h).interruptsKept
  | hostOperation hi =>
    cases hi with
    | softReset n v => exact .inl (.softReset n v)
    | irqStatus m => exact .inl (.irqStatus m)
    | irqEnable e => exact .inl (.irqEnable e)
    | vLen l =>
      rw [exec_vLen] at h
      split at h <;> cases h
      exact .inr (interruptsKept_of_eq rfl rfl)
    | nLen l =>
      rw [exec_nLen] at h
      split at h <;> cases h
      exact .inr (interruptsKept_of_eq rfl rfl)
  | element he => rw [he] at h; exact .inr (stays_performElement i h).only.vduLocal.interruptsKept
  | form he => rw [he] at h; exact .inr (nduOnly_performForm i h).interruptsKept

/-- Settles O19: by `exec_interrupts`; of the operations it names, `IRQ_ENABLE`'s write keeps `IRQ_STATUS`, and the other two
keep `IRQ_ENABLE`. -/
theorem interruptBitsPersist : Obligations.InterruptBitsPersist := by
  intro s t i h
  refine ⟨fun hw1c hreset => ?_, fun henable => ?_⟩
  · rcases exec_interrupts h with hw | hk
    · cases hw with
      | softReset n v => exact absurd rfl (hreset n v)
      | irqStatus m => exact absurd rfl (hw1c m)
      | irqEnable e => cases h; exact fun k hk => hk
    · exact hk.status
  · rcases exec_interrupts h with hw | hk
    · cases hw with
      | softReset n v => cases h; simp
      | irqStatus m => cases h; rfl
      | irqEnable e => exact absurd rfl (henable e)
    · exact hk.enable

end Sys2Proof.Machine
end

section
/-!
Power-on reset and the reads of a busy unit (spec/70_reset_and_hazards.md): what the state after reset holds, and what the
host sees of a unit whose command is in progress.
-/

namespace Sys2Proof.Machine

/-! ## Power-on reset (R410, R411, R413, R414) -/

@[simp] theorem Ndu.slot_reset (t : Nat) : Ndu.reset.slot t = VisionSlot.zero := by
  unfold Ndu.slot; split <;> rfl

@[simp] theorem VisionSlot.field_zero (f : Nat) : VisionSlot.zero.field f = 0 := by
  unfold VisionSlot.field; split <;> rfl

/-- Settles O10: register by register; a vision word is a field of a cleared slot. -/
theorem resetRegisters : Obligations.ResetRegisters := by
  refine ⟨fun r => ?_, rfl, rfl, rfl⟩
  cases r with
  | nVis t f =>
    calc (State.reset.n.slot t).field f
        = VisionSlot.zero.field f := congrArg (VisionSlot.field · f) (Ndu.slot_reset t)
      _ = 0 := VisionSlot.field_zero f
  | _ => rfl

/-- No byte and no pixel is written (R413). -/
theorem buffersOk_reset : BuffersOk State.reset where
  vinForm := rfl
  vinRange _ hc := absurd hc List.not_mem_nil
  ninForm := rfl
  ninRange _ hc := absurd hc List.not_mem_nil
  pixForm := rfl
  pixRange _ hc := absurd hc List.not_mem_nil
  pixWord _ hc := absurd hc List.not_mem_nil

/-- There is no picture, and the grid is empty (R411). -/
theorem pictureOk_reset : PictureOk State.reset where
  mbPerRow := rfl
  sliceCount := rfl
  fits := Nat.zero_le _
  gridMbs := rfl
  gridFits := Nat.zero_le _
  gridLength := rfl
  gridShape _ hm := absurd hm List.not_mem_nil
  pixCleared hne := absurd rfl hne
  dimensions := .inl ⟨rfl, rfl⟩
  pixInside hne := absurd rfl hne

/-- Between commands nothing is asked of the place inside a video decode. -/
theorem videoPlaceOk_of_idle {s : State} (h : s.v.ctx.phase = .idle) : VideoPlaceOk s := by
  constructor <;> rw [h] <;> intro hp <;> exact absurd hp (by decide)

/-- Between commands nothing is asked of the place inside a NavData walk. -/
theorem navPlaceOk_of_idle {s : State} (h : s.n.ctx.phase = .idle) : NavPlaceOk s := by
  constructor <;> rw [h] <;> intro hp <;> exact absurd hp (by decide)

/-- The VDU is idle, with its cursor at the start of an empty extent (R142, R411). -/
theorem vduOk_reset : VduOk State.reset where
  cursor := ⟨by decide, Nat.zero_le _, Nat.zero_le _⟩
  brState := ⟨fun _ => rfl, fun hne => absurd rfl hne, by decide⟩
  buffers := buffersOk_reset
  picture := pictureOk_reset
  idle _ := ⟨rfl, rfl⟩
  busy hbusy := absurd hbusy (by decide)
  word hbusy := absurd hbusy (by decide)
  frame := rfl
  video := videoPlaceOk_of_idle rfl

/-- The NDU is idle, with no result out (R411). -/
theorem nduOk_reset : NduOk State.reset where
  idle _ := ⟨rfl, rfl⟩
  busy hbusy := absurd hbusy (by decide)
  word hbusy := absurd hbusy (by decide)
  navValid hvalid := absurd hvalid (by decide)
  nav := navPlaceOk_of_idle rfl

/-- Settles O11: the invariant is that of the two units. -/
theorem resetInv : Obligations.ResetInv := ⟨inv_of_parts vduOk_reset nduOk_reset, rfl, rfl⟩

/-! ## What a busy unit's command may write (R433) -/

/-- A unit whose register is not read exactly is busy. -/
theorem busy_of_not_readsExactly {s : State} {off : Nat} {u : DecodeUnit} (h : ¬ ReadsExactly s off)
    (hu : UnitOffset u off) : s.busy u = true := by
  obtain ⟨-, hrange⟩ := hu
  by_contra hb
  have hidle : s.busy u = false := Bool.eq_false_iff.2 hb
  cases u with
  | vdu => exact h (.inr (.inl ⟨hrange.1, hrange.2, hidle⟩))
  | ndu => exact h (.inr (.inr ⟨hrange, hidle⟩))

theorem Reg.unit_of_writer {r : Reg} {u : DecodeUnit} (h : r.writer = some u) : r.unit = some u := by
  unfold Reg.unit
  split
  · cases h
  · cases h
  · exact h

/-- The registers that are not always exact, the two status registers apart, are those that some command writes. -/
theorem regAt_writer {s : State} {off : Nat} {r : Reg} (hr : regAt off = some r) (h : ¬ ReadsExactly s off)
    (hv : off ≠ 0x104) (hn : off ≠ 0x204) : ∃ u, r.writer = some u := by
  have htable : ∀ c ∈ regTable, c.1 ∉ [0x000, 0x004, 0x008, 0x00C, 0x100, 0x108, 0x200, 0x208] →
      c.1 ≠ 0x104 → c.1 ≠ 0x204 → c.2.writer.isSome = true := by decide
  rcases regAt_cases hr with ⟨-, t, f, rfl⟩ | hmem
  · exact ⟨.ndu, rfl⟩
  · exact Option.isSome_iff_exists.1 (htable _ hmem (fun hlist => h (.inl hlist)) hv hn)

/-- A register that a busy unit's command may write reads as the free value. -/
theorem hostReadReg_of_busy {s : State} {r : Reg} {u : DecodeUnit} (hw : r.writer = some u) (hb : s.busy u = true)
    (any : Word) : s.hostReadReg r any = any := by
  unfold State.hostReadReg
  split
  · cases hw
  · cases hw
  · rw [hw]; exact if_pos hb

theorem hostRead_reg_free {s : State} {off : Nat} {r : Reg} (width : Nat) (any : Word) (hr : regAt off = some r)
    (h : ¬ ReadsExactly s off) (hv : off ≠ 0x104) (hn : off ≠ 0x204) : s.hostRead .reg off width any = any := by
  obtain ⟨u, hw⟩ := regAt_writer hr h hv hn
  have hb : s.busy u = true := busy_of_not_readsExactly h (regAt_unit hr (Reg.unit_of_writer hw))
  simp only [State.hostRead, hr]
  exact hostReadReg_of_busy hw hb any

theorem hostRead_pix_busy {s : State} (hb : s.v.status.busy = true) (a width : Nat) (any : Word) :
    s.hostRead .pix a width any = any := if_pos hb

/-! ## The status register of a busy unit (R433) -/

/-- Two flags as a number, one at bit 0 and one at bit `j`. -/
theorem testBit_two_flags (b r : Bool) {j : Nat} (hj : 0 < j) (k : Nat) :
    (b.toNat + 2 ^ j * r.toNat).testBit k = if k = 0 then b else decide (k = j) && r := by
  have hb : b.toNat < 2 ^ j := lt_of_lt_of_le b.toNat_lt (Nat.le_self_pow hj.ne' 2)
  rw [Nat.add_comm, Nat.testBit_two_pow_mul_add _ hb, Nat.testBit_bool_toNat, Nat.testBit_bool_toNat]
  by_cases hlt : k < j
  · by_cases hk : k = 0 <;> simp [hlt, hk, hlt.ne, hj.ne']
  · have hk : k ≠ 0 := by omega
    have hkj : k - j = 0 ↔ k = j := by omega
    simp [hlt, hk, hkj]

/-- Bit 0 and bit `j` of a free word given by two flags: every other bit is that of the free word. -/
theorem getLsbD_two_flags (any : Word) (b r : Bool) {j k : Nat} (hj : 0 < j) (hk : k < 32) :
    ((any &&& ~~~BitVec.ofNat 32 (true.toNat + 2 ^ j * true.toNat)) |||
        BitVec.ofNat 32 (b.toNat + 2 ^ j * r.toNat)).getLsbD k =
      if k = 0 then b else if k = j then r else any.getLsbD k := by
  simp only [BitVec.getLsbD_or, BitVec.getLsbD_and, BitVec.getLsbD_not, BitVec.getLsbD_ofNat, hk, decide_true,
    Bool.true_and, testBit_two_flags _ _ hj]
  by_cases h0 : k = 0
  · simp [h0]
  · by_cases hkj : k = j <;> simp [h0, hkj, hj.ne']

theorem VStatus.getLsbD_busyWord (t : VStatus) (any : Word) {k : Nat} (hk : k < 32) :
    (t.busyWord any).getLsbD k = if k = 0 then t.busy else if k = 4 then t.rejected else any.getLsbD k :=
  getLsbD_two_flags any t.busy t.rejected (j := 4) (by decide) hk

theorem NStatus.getLsbD_busyWord (t : NStatus) (any : Word) {k : Nat} (hk : k < 32) :
    (t.busyWord any).getLsbD k = if k = 0 then t.busy else if k = 7 then t.rejected else any.getLsbD k :=
  getLsbD_two_flags any t.busy t.rejected (j := 7) (by decide) hk

theorem hostRead_vStatus_busy {s : State} (hb : s.v.status.busy = true) (width : Nat) (any : Word) :
    s.hostRead .reg 0x104 width any = s.v.status.busyWord any := if_pos hb

theorem hostRead_nStatus_busy {s : State} (hb : s.n.status.busy = true) (width : Nat) (any : Word) :
    s.hostRead .reg 0x204 width any = s.n.status.busyWord any := if_pos hb

/-- Settles O26: a register is exact or free by the unit that may write it; a busy unit's status register bit by bit. -/
theorem busyReads : Obligations.BusyReads := by
  intro s any rd
  refine ⟨fun off r hr he => hostRead_reg_exact 4 any hr he,
    fun off r hr he hv hn => hostRead_reg_free 4 any hr he hv hn, fun hb => ?_, fun hb => ?_,
    fun hidle p w hw => hostRead_pix_idle hidle hw 4 any⟩
  · have bit {k : Nat} (hk : k < 32) :
        (rd 0x104).getLsbD k = if k = 0 then s.v.status.busy else if k = 4 then s.v.status.rejected else any.getLsbD k :=
      (congrArg (BitVec.getLsbD · k) (hostRead_vStatus_busy hb 4 any)).trans (s.v.status.getLsbD_busyWord any hk)
    refine ⟨(bit (by decide)).trans hb, bit (by decide), fun k hk h0 h4 => ?_, fun p => hostRead_pix_busy hb _ 4 any⟩
    rw [bit hk, if_neg h0, if_neg h4]
  · have bit {k : Nat} (hk : k < 32) :
        (rd 0x204).getLsbD k = if k = 0 then s.n.status.busy else if k = 7 then s.n.status.rejected else any.getLsbD k :=
      (congrArg (BitVec.getLsbD · k) (hostRead_nStatus_busy hb 4 any)).trans (s.n.status.getLsbD_busyWord any hk)
    refine ⟨(bit (by decide)).trans hb, bit (by decide), fun k hk h0 h7 => ?_⟩
    rw [bit hk, if_neg h0, if_neg h7]

end Sys2Proof.Machine
end
